-- ==== Sys2Proof/Word.lean ====
section
/-!
DEFINITION. Sys2Proof/Word.lean: the word types of the VN24 and the byte order of its memory (R2, R29, R34).
-/
namespace Sys2Proof

/-- A scalar register, an address, a dword (R59). -/
abbrev Word := BitVec 64
/-- A byte of memory. -/
abbrev Byte := BitVec 8
/-- The number of a scalar register s0 to s63 (R30). -/
abbrev SReg := BitVec 6
/-- The number of a vector register v0 to v63 (R35). -/
abbrev VReg := BitVec 6
/-- The number of a wick w0 to w15 (R30). -/
abbrev Wick := BitVec 4

/-- The number that bytes stand for, the first the least significant (R2). -/
def leNat : List Byte → Nat
  | [] => 0
  | b :: bs => b.toNat + 256 * leNat bs

/-- The `n` low bytes of a number, the least significant first (R2). -/
def leBytes : Nat → Nat → List Byte
  | 0, _ => []
  | n + 1, x => BitVec.ofNat 8 x :: leBytes n (x / 256)

end Sys2Proof
end

