-- ==== Sys2Proof/Syntax.lean ====
section
/-!
DEFINITION. Sys2Proof/Syntax.lean: the instructions of Zynvos 1.0, one constructor per row of the opcode table: scalar words
(R46), lane words (R48), Lx words (R354) and the events the rules name. The argument `sw` is the switch marker S (R41).
-/
namespace Sys2Proof

/-- Condition codes of R58; codes 0xA to 0xF are not listed. -/
inductive Cond where
  | eq
  | ne
  | lt
  | ge
  | ltu
  | geu
  | le
  | gt
  | leu
  | gtu
  deriving DecidableEq, Repr

/-- The code of a value in its field. -/
def Cond.code : Cond → Nat
  | .eq => 0
  | .ne => 1
  | .lt => 2
  | .ge => 3
  | .ltu => 4
  | .geu => 5
  | .le => 6
  | .gt => 7
  | .leu => 8
  | .gtu => 9

/-- The value a field code names, where it names one. -/
def Cond.ofCode : Nat → Option Cond
  | 0 => some .eq
  | 1 => some .ne
  | 2 => some .lt
  | 3 => some .ge
  | 4 => some .ltu
  | 5 => some .geu
  | 6 => some .le
  | 7 => some .gt
  | 8 => some .leu
  | 9 => some .gtu
  | _ => none

/-- Rounding modes of R97. -/
inductive Rm where
  | rn
  | rz
  | ru
  | rd
  deriving DecidableEq, Repr

/-- The code of a value in its field. -/
def Rm.code : Rm → Nat
  | .rn => 0
  | .rz => 1
  | .ru => 2
  | .rd => 3

/-- The value a field code names, where it names one. -/
def Rm.ofCode : Nat → Option Rm
  | 0 => some .rn
  | 1 => some .rz
  | 2 => some .ru
  | 3 => some .rd
  | _ => none

/-- Float format codes of R74, R104. -/
inductive FFmt where
  | s
  | d
  | h
  | bf
  deriving DecidableEq, Repr

/-- The code of a value in its field. -/
def FFmt.code : FFmt → Nat
  | .s => 0
  | .d => 1
  | .h => 2
  | .bf => 3

/-- The value a field code names, where it names one. -/
def FFmt.ofCode : Nat → Option FFmt
  | 0 => some .s
  | 1 => some .d
  | 2 => some .h
  | 3 => some .bf
  | _ => none

/-- Float conditions of R75; codes 8 to 15 are not listed. -/
inductive FCond where
  | eq
  | ne
  | lt
  | le
  | gt
  | ge
  | un
  | ord
  deriving DecidableEq, Repr

/-- The code of a value in its field. -/
def FCond.code : FCond → Nat
  | .eq => 0
  | .ne => 1
  | .lt => 2
  | .le => 3
  | .gt => 4
  | .ge => 5
  | .un => 6
  | .ord => 7

/-- The value a field code names, where it names one. -/
def FCond.ofCode : Nat → Option FCond
  | 0 => some .eq
  | 1 => some .ne
  | 2 => some .lt
  | 3 => some .le
  | 4 => some .gt
  | 5 => some .ge
  | 6 => some .un
  | 7 => some .ord
  | _ => none

/-- Access sizes of R30. -/
inductive MemSize where
  | b
  | h
  | w
  | d
  deriving DecidableEq, Repr

/-- The code of a value in its field. -/
def MemSize.code : MemSize → Nat
  | .b => 0
  | .h => 1
  | .w => 2
  | .d => 3

/-- The value a field code names, where it names one. -/
def MemSize.ofCode : Nat → Option MemSize
  | 0 => some .b
  | 1 => some .h
  | 2 => some .w
  | 3 => some .d
  | _ => none

/-- Orders of R30. -/
inductive Order where
  | rlx
  | acq
  | rel
  | ar
  deriving DecidableEq, Repr

/-- The code of a value in its field. -/
def Order.code : Order → Nat
  | .rlx => 0
  | .acq => 1
  | .rel => 2
  | .ar => 3

/-- The value a field code names, where it names one. -/
def Order.ofCode : Nat → Option Order
  | 0 => some .rlx
  | 1 => some .acq
  | 2 => some .rel
  | 3 => some .ar
  | _ => none

/-- Scopes of R30, R175; 6 and 7 are reserved. -/
inductive Scope where
  | weak
  | g
  | t
  | k
  | d
  | s
  deriving DecidableEq, Repr

/-- The code of a value in its field. -/
def Scope.code : Scope → Nat
  | .weak => 0
  | .g => 1
  | .t => 2
  | .k => 3
  | .d => 4
  | .s => 5

/-- The value a field code names, where it names one. -/
def Scope.ofCode : Nat → Option Scope
  | 0 => some .weak
  | 1 => some .g
  | 2 => some .t
  | 3 => some .k
  | 4 => some .d
  | 5 => some .s
  | _ => none

/-- Atomic operations of R186. -/
inductive AtomOp where
  | add
  | min
  | max
  | minu
  | maxu
  | and
  | or
  | xor
  | xchg
  | fadd
  | incw
  | decw
  deriving DecidableEq, Repr

/-- The code of a value in its field. -/
def AtomOp.code : AtomOp → Nat
  | .add => 0
  | .min => 1
  | .max => 2
  | .minu => 3
  | .maxu => 4
  | .and => 5
  | .or => 6
  | .xor => 7
  | .xchg => 8
  | .fadd => 9
  | .incw => 10
  | .decw => 11

/-- The value a field code names, where it names one. -/
def AtomOp.ofCode : Nat → Option AtomOp
  | 0 => some .add
  | 1 => some .min
  | 2 => some .max
  | 3 => some .minu
  | 4 => some .maxu
  | 5 => some .and
  | 6 => some .or
  | 7 => some .xor
  | 8 => some .xchg
  | 9 => some .fadd
  | 10 => some .incw
  | 11 => some .decw
  | _ => none

/-- Plane domains of R198; 7 is not listed. -/
inductive Dom where
  | grp
  | acc
  | pane
  | wbuf
  | col
  | core
  | clus
  deriving DecidableEq, Repr

/-- The code of a value in its field. -/
def Dom.code : Dom → Nat
  | .grp => 0
  | .acc => 1
  | .pane => 2
  | .wbuf => 3
  | .col => 4
  | .core => 5
  | .clus => 6

/-- The value a field code names, where it names one. -/
def Dom.ofCode : Nat → Option Dom
  | 0 => some .grp
  | 1 => some .acc
  | 2 => some .pane
  | 3 => some .wbuf
  | 4 => some .col
  | 5 => some .core
  | 6 => some .clus
  | _ => none

/-- Flip modes of R202. -/
inductive FlipMode where
  | wait
  | flow
  | cancel
  deriving DecidableEq, Repr

/-- The code of a value in its field. -/
def FlipMode.code : FlipMode → Nat
  | .wait => 0
  | .flow => 1
  | .cancel => 2

/-- The value a field code names, where it names one. -/
def FlipMode.ofCode : Nat → Option FlipMode
  | 0 => some .wait
  | 1 => some .flow
  | 2 => some .cancel
  | _ => none

/-- Pane ownership moves of R214. -/
inductive PaneMove where
  | none
  | give
  | take
  deriving DecidableEq, Repr

/-- The code of a value in its field. -/
def PaneMove.code : PaneMove → Nat
  | .none => 0
  | .give => 1
  | .take => 2

/-- The value a field code names, where it names one. -/
def PaneMove.ofCode : Nat → Option PaneMove
  | 0 => some .none
  | 1 => some .give
  | 2 => some .take
  | _ => none

/-- What pstat reports, R215. -/
inductive PWhat where
  | poi
  | poiw
  | held
  | sel
  deriving DecidableEq, Repr

/-- The code of a value in its field. -/
def PWhat.code : PWhat → Nat
  | .poi => 0
  | .poiw => 1
  | .held => 2
  | .sel => 3

/-- The value a field code names, where it names one. -/
def PWhat.ofCode : Nat → Option PWhat
  | 0 => some .poi
  | 1 => some .poiw
  | 2 => some .held
  | 3 => some .sel
  | _ => none

/-- Tlbi kinds of R334. -/
inductive TlbKind where
  | va
  | part
  | all
  deriving DecidableEq, Repr

/-- The code of a value in its field. -/
def TlbKind.code : TlbKind → Nat
  | .va => 0
  | .part => 1
  | .all => 2

/-- The value a field code names, where it names one. -/
def TlbKind.ofCode : Nat → Option TlbKind
  | 0 => some .va
  | 1 => some .part
  | 2 => some .all
  | _ => none

/-- Cctl operations of R335. -/
inductive CctlOp where
  | iinv
  | wb
  | wbinv
  deriving DecidableEq, Repr

/-- The code of a value in its field. -/
def CctlOp.code : CctlOp → Nat
  | .iinv => 0
  | .wb => 1
  | .wbinv => 2

/-- The value a field code names, where it names one. -/
def CctlOp.ofCode : Nat → Option CctlOp
  | 0 => some .iinv
  | 1 => some .wb
  | 2 => some .wbinv
  | _ => none

/-- Pick modes of R81. -/
inductive PickMode where
  | idx
  | xor
  | up
  | dn
  deriving DecidableEq, Repr

/-- The code of a value in its field. -/
def PickMode.code : PickMode → Nat
  | .idx => 0
  | .xor => 1
  | .up => 2
  | .dn => 3

/-- The value a field code names, where it names one. -/
def PickMode.ofCode : Nat → Option PickMode
  | 0 => some .idx
  | 1 => some .xor
  | 2 => some .up
  | 3 => some .dn
  | _ => none

/-- Vote modes of R81. -/
inductive VoteMode where
  | ballot
  | any
  | all
  | eq
  deriving DecidableEq, Repr

/-- The code of a value in its field. -/
def VoteMode.code : VoteMode → Nat
  | .ballot => 0
  | .any => 1
  | .all => 2
  | .eq => 3

/-- The value a field code names, where it names one. -/
def VoteMode.ofCode : Nat → Option VoteMode
  | 0 => some .ballot
  | 1 => some .any
  | 2 => some .all
  | 3 => some .eq
  | _ => none

/-- Reduction operations of R81. -/
inductive RedOp where
  | add
  | min
  | max
  | minu
  | maxu
  | and
  | or
  | xor
  deriving DecidableEq, Repr

/-- The code of a value in its field. -/
def RedOp.code : RedOp → Nat
  | .add => 0
  | .min => 1
  | .max => 2
  | .minu => 3
  | .maxu => 4
  | .and => 5
  | .or => 6
  | .xor => 7

/-- The value a field code names, where it names one. -/
def RedOp.ofCode : Nat → Option RedOp
  | 0 => some .add
  | 1 => some .min
  | 2 => some .max
  | 3 => some .minu
  | 4 => some .maxu
  | 5 => some .and
  | 6 => some .or
  | 7 => some .xor
  | _ => none

/-- Plut forms of R81, R85: .hi only with .b. -/
inductive PlutForm where
  | nib
  | b
  | bhi
  deriving DecidableEq, Repr

/-- The code of a value in its field. -/
def PlutForm.code : PlutForm → Nat
  | .nib => 0
  | .b => 1
  | .bhi => 3

/-- The value a field code names, where it names one. -/
def PlutForm.ofCode : Nat → Option PlutForm
  | 0 => some .nib
  | 1 => some .b
  | 3 => some .bhi
  | _ => none

/-- Lmask modes of R130. -/
inductive MaskMode where
  | set
  | and
  | or
  | andn
  deriving DecidableEq, Repr

/-- The code of a value in its field. -/
def MaskMode.code : MaskMode → Nat
  | .set => 0
  | .and => 1
  | .or => 2
  | .andn => 3

/-- The value a field code names, where it names one. -/
def MaskMode.ofCode : Nat → Option MaskMode
  | 0 => some .set
  | 1 => some .and
  | 2 => some .or
  | 3 => some .andn
  | _ => none

/-- Register counts of the vector and block forms, R142; 0 and 3 are not listed. -/
inductive VecN where
  | v2
  | v4
  deriving DecidableEq, Repr

/-- The code of a value in its field. -/
def VecN.code : VecN → Nat
  | .v2 => 1
  | .v4 => 2

/-- The value a field code names, where it names one. -/
def VecN.ofCode : Nat → Option VecN
  | 1 => some .v2
  | 2 => some .v4
  | _ => none

/-- The marker and guard of a lane word (R34, R38). -/
structure LHdr where
  /-- the switch marker S -/
  sw : Bool
  /-- guard negate N -/
  neg : Bool
  /-- guard predicate -/
  prd : BitVec 3
  deriving DecidableEq, Repr

/-- A source selector (R35). -/
inductive Sel where
  /-- vector register -/
  | v (n : VReg)
  /-- captured operand of the block -/
  | c (n : BitVec 3)
  /-- predicate as 0 or 1 -/
  | p (n : BitVec 3)
  /-- the imm32 field -/
  | imm
  /-- the integer n - 32 -/
  | const (n : BitVec 6)
  deriving DecidableEq, Repr

/-- The selector byte of a source (R35). -/
def Sel.code : Sel → Nat
  | .v n => n.toNat
  | .c n => 0x40 + n.toNat
  | .p n => 0x48 + n.toNat
  | .imm => 0x80
  | .const n => 0xC0 + n.toNat

/-- The source a selector byte names; 0x50 to 0x7F and 0x81 to 0xBF name none (R35). -/
def Sel.ofCode (k : Nat) : Option Sel :=
  if k < 0x40 then some (.v (BitVec.ofNat 6 k))
  else if k < 0x48 then some (.c (BitVec.ofNat 3 k))
  else if k < 0x50 then some (.p (BitVec.ofNat 3 k))
  else if k = 0x80 then some .imm
  else if 0xC0 ≤ k then (if k < 0x100 then some (.const (BitVec.ofNat 6 k)) else none)
  else none

/-- A destination that may be a vector register or a predicate p1 to p7 (R35). -/
inductive Dst where
  /-- vector register -/
  | v (n : VReg)
  /-- predicate -/
  | p (n : BitVec 3)
  deriving DecidableEq, Repr

/-- The selector byte of a destination (R35). -/
def Dst.code : Dst → Nat
  | .v n => n.toNat
  | .p n => 0x48 + n.toNat

/-- The destination a selector byte names (R35). -/
def Dst.ofCode (k : Nat) : Option Dst :=
  if k < 0x40 then some (.v (BitVec.ofNat 6 k))
  else if 0x48 ≤ k then (if k < 0x50 then some (.p (BitVec.ofNat 3 k)) else none)
  else none

/-- The address operand of a lane memory form: a vector register or pair, a captured operand, or the constant zero 0xE0 (R142). -/
inductive ASel where
  /-- vector register or pair -/
  | v (n : VReg)
  /-- captured operand -/
  | c (n : BitVec 3)
  /-- the inline constant 0 -/
  | zero
  deriving DecidableEq, Repr

/-- The selector byte of an address operand. -/
def ASel.code : ASel → Nat
  | .v n => n.toNat
  | .c n => 0x40 + n.toNat
  | .zero => 0xE0

/-- The address operand a selector byte names. -/
def ASel.ofCode (k : Nat) : Option ASel :=
  if k < 0x40 then some (.v (BitVec.ofNat 6 k))
  else if k < 0x48 then some (.c (BitVec.ofNat 3 k))
  else if k = 0xE0 then some .zero
  else none

/-- The index operand of a lane memory form: a vector register, or none written as the constant 0xE0 (R142). -/
inductive Idx where
  /-- index register -/
  | v (n : VReg)
  /-- no index -/
  | none
  deriving DecidableEq, Repr

/-- The selector byte of an index operand. -/
def Idx.code : Idx → Nat
  | .v n => n.toNat
  | .none => 0xE0

/-- The index operand a selector byte names. -/
def Idx.ofCode (k : Nat) : Option Idx :=
  if k < 0x40 then some (.v (BitVec.ofNat 6 k))
  else if k = 0xE0 then some .none
  else Option.none

/-- A RISC-V access of a Lamplighter core to the device outside its own SRAM, by its 64-bit address (R341, R342). -/
inductive DevAcc where
  /-- a load of `n` bytes into a register, sign-extended where `sx` -/
  | load (addr n : Nat) (sx : Bool) (rd : BitVec 5)
  /-- a store of bytes -/
  | store (addr : Nat) (bytes : List Byte)
  /-- `amoadd.d` of a value, the old dword going to a register -/
  | amoadd (addr : Nat) (x : Word) (rd : BitVec 5)
  /-- a `fence` -/
  | fence
  deriving DecidableEq, Repr

/-- The instructions and events of the opcode table. -/
inductive Instr where
  /-- R59: Scalar no-operation; the all-zero scalar word. -/
  | nop (sw : Bool)
  /-- R59: Scalar 64-bit add modulo 2^64. -/
  | add (sw : Bool) (rd : SReg) (ra : SReg) (rb : SReg)
  /-- R59: Scalar 64-bit subtract. -/
  | sub (sw : Bool) (rd : SReg) (ra : SReg) (rb : SReg)
  /-- R59: Scalar multiply, low 64 bits of the product. -/
  | mul (sw : Bool) (rd : SReg) (ra : SReg) (rb : SReg)
  /-- R59: Scalar unsigned multiply, high 64 bits. -/
  | mulhu (sw : Bool) (rd : SReg) (ra : SReg) (rb : SReg)
  /-- R59: Scalar signed multiply, high 64 bits. -/
  | mulhs (sw : Bool) (rd : SReg) (ra : SReg) (rb : SReg)
  /-- R59: Scalar unsigned divide; a zero divisor gives all ones. -/
  | divu (sw : Bool) (rd : SReg) (ra : SReg) (rb : SReg)
  /-- R59: Scalar signed divide truncated toward zero, with defined zero-divisor and overflow results. -/
  | divs (sw : Bool) (rd : SReg) (ra : SReg) (rb : SReg)
  /-- R59: Scalar unsigned remainder; a zero divisor gives the dividend. -/
  | remu (sw : Bool) (rd : SReg) (ra : SReg) (rb : SReg)
  /-- R59: Scalar signed remainder with the sign of the dividend. -/
  | rems (sw : Bool) (rd : SReg) (ra : SReg) (rb : SReg)
  /-- R59: Scalar bitwise AND. -/
  | and (sw : Bool) (rd : SReg) (ra : SReg) (rb : SReg)
  /-- R59: Scalar bitwise OR. -/
  | or (sw : Bool) (rd : SReg) (ra : SReg) (rb : SReg)
  /-- R59: Scalar bitwise XOR. -/
  | xor (sw : Bool) (rd : SReg) (ra : SReg) (rb : SReg)
  /-- R59: Scalar AND with the complement of the second source. -/
  | andn (sw : Bool) (rd : SReg) (ra : SReg) (rb : SReg)
  /-- R59: Scalar shift left by S[rb][5:0]. -/
  | shl (sw : Bool) (rd : SReg) (ra : SReg) (rb : SReg)
  /-- R59: Scalar logical shift right. -/
  | shr (sw : Bool) (rd : SReg) (ra : SReg) (rb : SReg)
  /-- R59: Scalar arithmetic shift right. -/
  | sar (sw : Bool) (rd : SReg) (ra : SReg) (rb : SReg)
  /-- R59: Scalar unsigned minimum. -/
  | minu (sw : Bool) (rd : SReg) (ra : SReg) (rb : SReg)
  /-- R59: Scalar signed minimum. -/
  | mins (sw : Bool) (rd : SReg) (ra : SReg) (rb : SReg)
  /-- R59: Scalar unsigned maximum. -/
  | maxu (sw : Bool) (rd : SReg) (ra : SReg) (rb : SReg)
  /-- R59: Scalar signed maximum. -/
  | maxs (sw : Bool) (rd : SReg) (ra : SReg) (rb : SReg)
  /-- R59: Scalar count of leading zeros; 64 for zero. -/
  | clz (sw : Bool) (rd : SReg) (ra : SReg)
  /-- R59: Scalar count of trailing zeros; 64 for zero. -/
  | ctz (sw : Bool) (rd : SReg) (ra : SReg)
  /-- R59: Scalar population count. -/
  | popc (sw : Bool) (rd : SReg) (ra : SReg)
  /-- R60: Scalar bit-field extract, zero- or sign-extended under .s. -/
  | bext (sw : Bool) (sx : Bool) (rd : SReg) (ra : SReg) (rb : SReg)
  /-- R60: Scalar bit-field insert into the destination register. -/
  | bins (sw : Bool) (rd : SReg) (ra : SReg) (rb : SReg)
  /-- R59: Scalar compare under a condition code, writing 1 or 0. -/
  | cmp (sw : Bool) (cc : Cond) (rd : SReg) (ra : SReg) (rb : SReg)
  /-- R59: Scalar select of one of two sources by a third register. -/
  | csel (sw : Bool) (rd : SReg) (ra : SReg) (rb : SReg) (sc : SReg)
  /-- R59: Scalar add of a sign-extended 12-bit immediate. -/
  | addi (sw : Bool) (rd : SReg) (ra : SReg) (imm : BitVec 12)
  /-- R59: Scalar AND with a sign-extended immediate. -/
  | andi (sw : Bool) (rd : SReg) (ra : SReg) (imm : BitVec 12)
  /-- R59: Scalar OR with a zero-extended immediate. -/
  | ori (sw : Bool) (rd : SReg) (ra : SReg) (imm : BitVec 12)
  /-- R59: Scalar XOR with a zero-extended immediate. -/
  | xori (sw : Bool) (rd : SReg) (ra : SReg) (imm : BitVec 12)
  /-- R59: Scalar shift left by an immediate amount. -/
  | shli (sw : Bool) (rd : SReg) (ra : SReg) (n : BitVec 6)
  /-- R59: Scalar logical shift right by an immediate amount. -/
  | shri (sw : Bool) (rd : SReg) (ra : SReg) (n : BitVec 6)
  /-- R59: Scalar arithmetic shift right by an immediate amount. -/
  | sari (sw : Bool) (rd : SReg) (ra : SReg) (n : BitVec 6)
  /-- R59: Scalar compare against a sign-extended 8-bit immediate. -/
  | cmpi (sw : Bool) (cc : Cond) (rd : SReg) (ra : SReg) (imm : BitVec 8)
  /-- R59: Load a sign-extended 18-bit immediate. -/
  | li (sw : Bool) (rd : SReg) (imm : BitVec 18)
  /-- R59: Shift the register up 18 bits and insert an immediate. -/
  | lih (sw : Bool) (rd : SReg) (imm : BitVec 18)
  /-- R59: Scalar add of a source scaled by 2^sh. -/
  | lea (sw : Bool) (rd : SReg) (ra : SReg) (rb : SReg) (sh : BitVec 3)
  /-- R59: Write the PC plus four times a signed immediate. -/
  | addpc (sw : Bool) (rd : SReg) (imm : BitVec 18)
  /-- R61: Unconditional scalar branch. -/
  | b (sw : Bool) (off : BitVec 24)
  /-- R61: Conditional scalar branch on a register compared with zero. -/
  | bc (sw : Bool) (cc : Cond) (ra : SReg) (off : BitVec 14)
  /-- R61: Decrement a register and branch while it is nonzero. -/
  | loop (sw : Bool) (ra : SReg) (off : BitVec 14)
  /-- R61: Branch and save the return address in s63. -/
  | call (sw : Bool) (off : BitVec 24)
  /-- R61: Return to the address in a register, hinting the predictor to pop. -/
  | ret (sw : Bool) (ra : SReg)
  /-- R61: Jump to the address in a register. -/
  | jr (sw : Bool) (ra : SReg)
  /-- R63: Capture scalar registers and enqueue a lane block at an entry offset. -/
  | lgo (sw : Bool) (entry : SReg) (cbase : SReg) (count : BitVec 4)
  /-- R64: Stall the scalar stream until the lane stream is idle. -/
  | ljoin (sw : Bool)
  /-- R65: Remove the oldest lane result queue entry, waiting or raising LQDEAD. -/
  | lpop (sw : Bool) (rd : SReg)
  /-- R68: Park the scalar stream until a wick is at most k. -/
  | wait (sw : Bool) (wick : Wick) (k : BitVec 14)
  /-- R69: Give up the group's scalar issue turn. -/
  | yield (sw : Bool)
  /-- R71: End the group after its lane stream idles and wicks reach zero. -/
  | exit (sw : Bool)
  /-- R72: Team or cohort barrier. -/
  | bar (sw : Bool) (cohort : Bool)
  /-- R73: Read a special register. -/
  | srd (sw : Bool) (rd : SReg) (num : BitVec 8) (elem : BitVec 4)
  /-- R73: Write a special register. -/
  | swr (sw : Bool) (ra : SReg) (num : BitVec 8) (elem : BitVec 4)
  /-- R70: Park the scalar stream for a number of cycles. -/
  | sleep (sw : Bool) (ra : SReg) (imm : BitVec 12)
  /-- R141: Scalar load from global memory, weak or strong. -/
  | sld (sw : Bool) (rd : SReg) (ra : SReg) (size : MemSize) (ord : Order) (scope : Scope) (imm : BitVec 5)
  /-- R141: Scalar store to global memory, weak or strong. -/
  | sst (sw : Bool) (rd : SReg) (ra : SReg) (size : MemSize) (ord : Order) (scope : Scope) (imm : BitVec 5)
  /-- R141: Scalar weak load of a pair into two registers. -/
  | sldp (sw : Bool) (rd : SReg) (ra : SReg) (size : MemSize) (imm : BitVec 5)
  /-- R141: Scalar weak store of a pair from two registers. -/
  | sstp (sw : Bool) (rd : SReg) (ra : SReg) (size : MemSize) (imm : BitVec 5)
  /-- R185: Scalar atomic read-modify-write at the home column. -/
  | satom (sw : Bool) (rd : SReg) (ra : SReg) (dw : Bool) (op : AtomOp) (ord : Order) (scope : Scope)
  /-- R185: Scalar compare-and-swap. -/
  | scas (sw : Bool) (rd : SReg) (ra : SReg) (dw : Bool) (ord : Order) (scope : Scope)
  /-- R190: Order the scalar stream's accesses and clean or invalidate by scope. -/
  | fence (sw : Bool) (ord : Order) (scope : Scope)
  /-- R191: Mark stale the unowned lines of one superblock. -/
  | cinv (sw : Bool) (ra : SReg) (size : MemSize) (scope : Scope) (imm : BitVec 5)
  /-- R191: Write home the dirty words of one superblock. -/
  | ccln (sw : Bool) (ra : SReg) (size : MemSize) (scope : Scope) (imm : BitVec 5)
  /-- R148: Scalar prefetch of a line or a translation. -/
  | pref (sw : Bool) (x : Bool) (ra : SReg) (size : MemSize) (imm : BitVec 5)
  /-- R202: Exchange the working and staging planes of domain instances. -/
  | flip (sw : Bool) (dom : Dom) (mode : FlipMode) (lazy : Bool) (ra : SReg)
  /-- R214: Release a staging plane hold and move pane ownership. -/
  | pfree (sw : Bool) (dom : Dom) (mode : FlipMode) (mv : PaneMove) (ra : SReg)
  /-- R215: Read poison, hold or select masks of a domain. -/
  | pstat (sw : Bool) (dom : Dom) (what : PWhat) (ra : SReg)
  /-- R226: Issue a 2-D copy item to the transfer engines. -/
  | xfer (sw : Bool) (ra : SReg) (wick : Wick)
  /-- R227: Issue a format-converting copy item. -/
  | xcvt (sw : Bool) (ra : SReg) (wick : Wick)
  /-- R226: Issue a pattern fill item. -/
  | xfill (sw : Bool) (ra : SReg) (wick : Wick)
  /-- R226: Issue a gather item through an index table. -/
  | xgath (sw : Bool) (ra : SReg) (wick : Wick)
  /-- R236: Issue a collective reduction item. -/
  | xred (sw : Bool) (ra : SReg) (wick : Wick)
  /-- R236: Issue a collective broadcast item. -/
  | xbcst (sw : Bool) (ra : SReg) (wick : Wick)
  /-- R236: Issue a collective scale-agreement item. -/
  | xagree (sw : Bool) (ra : SReg) (wick : Wick)
  /-- R233: Cancel the group's unfinished items on a wick. -/
  | xcanc (sw : Bool) (wick : Wick)
  /-- R234: Read, optionally clear or check, a wick's transfer status record. -/
  | xstat (sw : Bool) (clr : Bool) (chk : Bool) (ra : SReg) (wick : Wick)
  /-- R300: Submit a launch record to a device-written queue. -/
  | launch (sw : Bool) (done : Bool) (ra : SReg) (wick : Wick)
  /-- R303: Record an addition to perform at the launch's commit. -/
  | gsig (sw : Bool) (ra : SReg)
  /-- R302: Read a wick's launch outcome record or the launch's own state. -/
  | tstat (sw : Bool) (self : Bool) (clr : Bool) (ra : SReg) (wick : Wick)
  /-- R304: Abort the issuing launch with a code. -/
  | tabort (sw : Bool) (ra : SReg)
  /-- R192: Release-add to a semaphore at its home. -/
  | semsig (sw : Bool) (scope : Scope) (ra : SReg)
  /-- R193: Wait until a semaphore reaches a threshold, optionally taking it. -/
  | semwait (sw : Bool) (take : Bool) (scope : Scope) (ra : SReg)
  /-- R311: Raise USER with a code. -/
  | trap (sw : Bool) (code : BitVec 18)
  /-- R311: Stop the context with ASSERT when a register is zero. -/
  | assert (sw : Bool) (ra : SReg) (rm : SReg)
  /-- R321: Pre-emption point naming a liveness record. -/
  | phint (sw : Bool) (n : BitVec 6)
  /-- R317: Return from a trap handler, exchanging the register planes back. -/
  | tret (sw : Bool)
  /-- R311: Raise BRK with a code. -/
  | brk (sw : Bool) (code : BitVec 18)
  /-- R332: Read a system register in a supervisor context. -/
  | sysr (sw : Bool) (rd : SReg) (num : BitVec 12)
  /-- R332: Write a system register in a supervisor context. -/
  | sysw (sw : Bool) (ra : SReg) (num : BitVec 12)
  /-- R368: Zeroise and quarantine a key slot. -/
  | kzero (sw : Bool) (ra : SReg)
  /-- R369: Hand a quarantine-and-wipe job to the partition's snuffer. -/
  | scrub (sw : Bool) (ra : SReg) (wick : Wick)
  /-- R334: Invalidate TLB entries by address, partition or all. -/
  | tlbi (sw : Bool) (kind : TlbKind) (ra : SReg)
  /-- R335: Invalidate instruction caches or write back/invalidate column SRAM of clusters. -/
  | cctl (sw : Bool) (op : CctlOp) (ra : SReg)
  /-- R373: Switch a vertical-bus lane to a spare. -/
  | vbrep (sw : Bool) (ra : SReg)
  /-- R74: Scalar float add, FP32 or FP64. -/
  | sfadd (sw : Bool) (d : Bool) (rm : Rm) (rd : SReg) (ra : SReg) (rb : SReg)
  /-- R74: Scalar float subtract. -/
  | sfsub (sw : Bool) (d : Bool) (rm : Rm) (rd : SReg) (ra : SReg) (rb : SReg)
  /-- R74: Scalar float multiply. -/
  | sfmul (sw : Bool) (d : Bool) (rm : Rm) (rd : SReg) (ra : SReg) (rb : SReg)
  /-- R74: Scalar fused multiply-add into the destination. -/
  | sffma (sw : Bool) (d : Bool) (rm : Rm) (rd : SReg) (ra : SReg) (rb : SReg)
  /-- R74: Scalar float minimum. -/
  | sfmin (sw : Bool) (d : Bool) (rd : SReg) (ra : SReg) (rb : SReg)
  /-- R74: Scalar float maximum. -/
  | sfmax (sw : Bool) (d : Bool) (rd : SReg) (ra : SReg) (rb : SReg)
  /-- R75: Scalar float compare under a float condition. -/
  | sfcmp (sw : Bool) (fc : FCond) (d : Bool) (rd : SReg) (ra : SReg) (rb : SReg)
  /-- R74: Scalar float format conversion. -/
  | sfcvt (sw : Bool) (tgt : FFmt) (frm : FFmt) (rm : Rm) (rd : SReg) (ra : SReg)
  /-- R76: Scalar float to 64-bit integer. -/
  | sf2i (sw : Bool) (u : Bool) (d : Bool) (rm : Rm) (rd : SReg) (ra : SReg)
  /-- R76: Scalar 64-bit integer to float. -/
  | si2f (sw : Bool) (u : Bool) (d : Bool) (rm : Rm) (rd : SReg) (ra : SReg)
  /-- R74: Scalar float absolute value. -/
  | sfabs (sw : Bool) (d : Bool) (rd : SReg) (ra : SReg)
  /-- R74: Scalar float negate. -/
  | sfneg (sw : Bool) (d : Bool) (rd : SReg) (ra : SReg)
  /-- R74: Scalar correctly rounded reciprocal. -/
  | sfrcp (sw : Bool) (d : Bool) (rm : Rm) (rd : SReg) (ra : SReg)
  /-- R74: Scalar correctly rounded square root. -/
  | sfsqrt (sw : Bool) (d : Bool) (rm : Rm) (rd : SReg) (ra : SReg)
  /-- R74: Scalar correctly rounded divide. -/
  | sfdiv (sw : Bool) (d : Bool) (rm : Rm) (rd : SReg) (ra : SReg) (rb : SReg)
  /-- R74: Scalar round to an integral value. -/
  | sfround (sw : Bool) (d : Bool) (rm : Rm) (rd : SReg) (ra : SReg)
  /-- R82: Lane no-operation. -/
  | lnop (sw : Bool)
  /-- R82: Lane 32-bit add. -/
  | iadd (h : LHdr) (d : VReg) (a : Sel) (b : Sel) (imm : BitVec 32)
  /-- R82: Lane 32-bit subtract. -/
  | isub (h : LHdr) (d : VReg) (a : Sel) (b : Sel) (imm : BitVec 32)
  /-- R82: Lane multiply, low 32 bits. -/
  | imul (h : LHdr) (d : VReg) (a : Sel) (b : Sel) (imm : BitVec 32)
  /-- R82: Lane multiply-add, low 32 bits. -/
  | imad (h : LHdr) (d : VReg) (a : Sel) (b : Sel) (c : Sel) (imm : BitVec 32)
  /-- R82: Lane multiply, high 32 bits. -/
  | imulh (h : LHdr) (u : Bool) (d : VReg) (a : Sel) (b : Sel) (imm : BitVec 32)
  /-- R82: Lane absolute value. -/
  | iabs (h : LHdr) (d : VReg) (a : Sel) (imm : BitVec 32)
  /-- R82: Lane integer minimum. -/
  | imin (h : LHdr) (u : Bool) (d : VReg) (a : Sel) (b : Sel) (imm : BitVec 32)
  /-- R82: Lane integer maximum. -/
  | imax (h : LHdr) (u : Bool) (d : VReg) (a : Sel) (b : Sel) (imm : BitVec 32)
  /-- R82: Lane bitwise AND. -/
  | laneAnd (h : LHdr) (d : VReg) (a : Sel) (b : Sel) (imm : BitVec 32)
  /-- R82: Lane bitwise OR. -/
  | laneOr (h : LHdr) (d : VReg) (a : Sel) (b : Sel) (imm : BitVec 32)
  /-- R82: Lane bitwise XOR. -/
  | laneXor (h : LHdr) (d : VReg) (a : Sel) (b : Sel) (imm : BitVec 32)
  /-- R82: Lane bitwise NOT. -/
  | not (h : LHdr) (d : VReg) (a : Sel) (imm : BitVec 32)
  /-- R82: Lane shift left. -/
  | laneShl (h : LHdr) (d : VReg) (a : Sel) (b : Sel) (imm : BitVec 32)
  /-- R82: Lane logical shift right. -/
  | laneShr (h : LHdr) (d : VReg) (a : Sel) (b : Sel) (imm : BitVec 32)
  /-- R82: Lane arithmetic shift right. -/
  | laneSar (h : LHdr) (d : VReg) (a : Sel) (b : Sel) (imm : BitVec 32)
  /-- R82: Lane double-word shift. -/
  | dsh (h : LHdr) (l : Bool) (d : VReg) (a : Sel) (b : Sel) (c : Sel) (imm : BitVec 32)
  /-- R83: Lane bit-field extract. -/
  | bfe (h : LHdr) (sx : Bool) (d : VReg) (a : Sel) (b : Sel) (imm : BitVec 32)
  /-- R83: Lane bit-field insert. -/
  | bfi (h : LHdr) (d : VReg) (a : Sel) (b : Sel) (c : Sel) (imm : BitVec 32)
  /-- R82: Lane population count. -/
  | lanePopc (h : LHdr) (d : VReg) (a : Sel) (imm : BitVec 32)
  /-- R82: Lane count of leading zeros. -/
  | laneClz (h : LHdr) (d : VReg) (a : Sel) (imm : BitVec 32)
  /-- R82: Lane bit reverse. -/
  | brev (h : LHdr) (d : VReg) (a : Sel) (imm : BitVec 32)
  /-- R84: Lane byte permute. -/
  | perm (h : LHdr) (d : VReg) (a : Sel) (b : Sel) (c : Sel) (imm : BitVec 32)
  /-- R85: Lane 16-entry table lookup. -/
  | plut (h : LHdr) (form : PlutForm) (d : VReg) (a : Sel) (b : Sel) (c : Sel) (imm : BitVec 32)
  /-- R82: Lane integer compare into a register or predicate. -/
  | icmp (h : LHdr) (cc : Cond) (d : Dst) (a : Sel) (b : Sel) (imm : BitVec 32)
  /-- R82: Lane select. -/
  | sel (h : LHdr) (d : VReg) (a : Sel) (b : Sel) (c : Sel) (imm : BitVec 32)
  /-- R82: Lane move. -/
  | mov (h : LHdr) (d : VReg) (a : Sel) (imm : BitVec 32)
  /-- R82: Lane four-byte dot product with accumulate. -/
  | idot4 (h : LHdr) (u : Bool) (d : VReg) (a : Sel) (b : Sel) (c : Sel) (imm : BitVec 32)
  /-- R88: Take a value from the previous executing thread. -/
  | prev (h : LHdr) (d : VReg) (a : Sel) (b : Sel) (imm : BitVec 32)
  /-- R88: Take a value from the next executing thread. -/
  | next (h : LHdr) (d : VReg) (a : Sel) (b : Sel) (imm : BitVec 32)
  /-- R88: Take a value from a computed source thread. -/
  | pick (h : LHdr) (mode : PickMode) (d : VReg) (a : Sel) (b : Sel) (c : Sel) (imm : BitVec 32)
  /-- R88: Broadcast the first executing thread's value. -/
  | rdfl (h : LHdr) (d : VReg) (a : Sel) (imm : BitVec 32)
  /-- R88: Ballot or any/all/equal vote over executing threads. -/
  | vote (h : LHdr) (mode : VoteMode) (d : Dst) (a : Sel) (imm : BitVec 32)
  /-- R88: Reduction over the executing threads. -/
  | gred (h : LHdr) (op : RedOp) (d : VReg) (a : Sel) (imm : BitVec 32)
  /-- R88: Inclusive or exclusive scan over the executing threads. -/
  | gscan (h : LHdr) (op : RedOp) (excl : Bool) (d : VReg) (a : Sel) (imm : BitVec 32)
  /-- R87: Three-input truth-table predicate logic. -/
  | plog (h : LHdr) (tt : BitVec 8) (d : Dst) (a : Sel) (b : Sel) (c : Sel) (imm : BitVec 32)
  /-- R89: Lane read of a special register. -/
  | lsrd (h : LHdr) (hi : Bool) (num : BitVec 8) (elem : BitVec 4) (d : VReg)
  /-- R90: Append an entry to the lane result queue. -/
  | lpush (h : LHdr) (dw : Bool) (a : Sel) (imm : BitVec 32)
  /-- R86: Lane narrowing integer pack. -/
  | ipack (h : LHdr) (byt : Bool) (u : Bool) (sat : Bool) (d : VReg) (a : Sel) (b : Sel) (imm : BitVec 32)
  /-- R86: Lane integer element extract. -/
  | iext (h : LHdr) (byt : Bool) (u : Bool) (d : VReg) (a : Sel) (b : Sel) (imm : BitVec 32)
  /-- R106: Lane FP32 add. -/
  | fadd (h : LHdr) (ftz : Bool) (rm : Rm) (d : VReg) (a : Sel) (b : Sel) (imm : BitVec 32)
  /-- R106: Lane FP32 subtract. -/
  | fsub (h : LHdr) (ftz : Bool) (rm : Rm) (d : VReg) (a : Sel) (b : Sel) (imm : BitVec 32)
  /-- R106: Lane FP32 multiply. -/
  | fmul (h : LHdr) (ftz : Bool) (rm : Rm) (d : VReg) (a : Sel) (b : Sel) (imm : BitVec 32)
  /-- R106: Lane FP32 fused multiply-add. -/
  | ffma (h : LHdr) (ftz : Bool) (rm : Rm) (d : VReg) (a : Sel) (b : Sel) (c : Sel) (imm : BitVec 32)
  /-- R107: Lane FP32 minimum. -/
  | fmin (h : LHdr) (ftz : Bool) (d : VReg) (a : Sel) (b : Sel) (imm : BitVec 32)
  /-- R107: Lane FP32 maximum. -/
  | fmax (h : LHdr) (ftz : Bool) (d : VReg) (a : Sel) (b : Sel) (imm : BitVec 32)
  /-- R106: Lane FP32 absolute value. -/
  | fabs (h : LHdr) (d : VReg) (a : Sel) (imm : BitVec 32)
  /-- R106: Lane FP32 negate. -/
  | fneg (h : LHdr) (d : VReg) (a : Sel) (imm : BitVec 32)
  /-- R107: Lane FP32 compare. -/
  | fcmp (h : LHdr) (fc : FCond) (ftz : Bool) (d : Dst) (a : Sel) (b : Sel) (imm : BitVec 32)
  /-- R107: Lane float classification mask. -/
  | fclass (h : LHdr) (fmt : FFmt) (d : VReg) (a : Sel) (imm : BitVec 32)
  /-- R108: Lane correctly rounded reciprocal. -/
  | frcp (h : LHdr) (ftz : Bool) (rm : Rm) (d : VReg) (a : Sel) (imm : BitVec 32)
  /-- R108: Lane correctly rounded reciprocal square root. -/
  | frsq (h : LHdr) (ftz : Bool) (rm : Rm) (d : VReg) (a : Sel) (imm : BitVec 32)
  /-- R108: Lane correctly rounded square root. -/
  | fsqrt (h : LHdr) (ftz : Bool) (rm : Rm) (d : VReg) (a : Sel) (imm : BitVec 32)
  /-- R108: Lane correctly rounded divide. -/
  | fdiv (h : LHdr) (ftz : Bool) (rm : Rm) (d : VReg) (a : Sel) (b : Sel) (imm : BitVec 32)
  /-- R108: Lane correctly rounded 2^a. -/
  | fexp2 (h : LHdr) (ftz : Bool) (rm : Rm) (d : VReg) (a : Sel) (imm : BitVec 32)
  /-- R108: Lane correctly rounded log2. -/
  | flog2 (h : LHdr) (ftz : Bool) (rm : Rm) (d : VReg) (a : Sel) (imm : BitVec 32)
  /-- R109: Lane round to an integral FP32 value. -/
  | fround (h : LHdr) (ftz : Bool) (rm : Rm) (d : VReg) (a : Sel) (imm : BitVec 32)
  /-- R109: Lane scale by a power of two. -/
  | fscale (h : LHdr) (ftz : Bool) (rm : Rm) (d : VReg) (a : Sel) (b : Sel) (imm : BitVec 32)
  /-- R109: Lane exponent extraction. -/
  | fgetexp (h : LHdr) (ftz : Bool) (d : VReg) (a : Sel) (imm : BitVec 32)
  /-- R110: Lane FP32 to 32-bit integer. -/
  | f2i (h : LHdr) (u : Bool) (rm : Rm) (d : VReg) (a : Sel) (imm : BitVec 32)
  /-- R110: Lane 32-bit integer to FP32. -/
  | i2f (h : LHdr) (u : Bool) (rm : Rm) (d : VReg) (a : Sel) (imm : BitVec 32)
  /-- R111: Lane float format conversion. -/
  | fcvt (h : LHdr) (tgt : FFmt) (frm : FFmt) (rm : Rm) (d : VReg) (a : Sel) (imm : BitVec 32)
  /-- R112: Pack two FP32 values into FP16 or BF16 halves. -/
  | fpack2 (h : LHdr) (bf : Bool) (rm : Rm) (d : VReg) (a : Sel) (b : Sel) (imm : BitVec 32)
  /-- R112: Packed half add. -/
  | hadd2 (h : LHdr) (bf : Bool) (rm : Rm) (d : VReg) (a : Sel) (b : Sel) (imm : BitVec 32)
  /-- R112: Packed half multiply. -/
  | hmul2 (h : LHdr) (bf : Bool) (rm : Rm) (d : VReg) (a : Sel) (b : Sel) (imm : BitVec 32)
  /-- R112: Packed half fused multiply-add. -/
  | hfma2 (h : LHdr) (bf : Bool) (rm : Rm) (d : VReg) (a : Sel) (b : Sel) (c : Sel) (imm : BitVec 32)
  /-- R114: Quantise a 32-element block to QX4 or INT8 with a scale. -/
  | qpack (h : LHdr) (i8 : Bool) (fix : Bool) (d : VReg) (a : Sel) (b : Sel) (imm : BitVec 32)
  /-- R115: Decode one block-scaled element to FP32. -/
  | qunpack (h : LHdr) (i8 : Bool) (d : VReg) (a : Sel) (b : Sel) (c : Sel) (imm : BitVec 32)
  /-- R113: Convert two FP32 values to eight-bit floats and insert them. -/
  | f8pack (h : LHdr) (e5 : Bool) (sat : Bool) (hi : Bool) (rm : Rm) (d : VReg) (a : Sel) (b : Sel) (c : Sel) (imm : BitVec 32)
  /-- R113: Convert an eight-bit float byte to FP32. -/
  | f8unpack (h : LHdr) (e5 : Bool) (d : VReg) (a : Sel) (b : Sel) (imm : BitVec 32)
  /-- R116: Lane FP64 add. -/
  | dadd (h : LHdr) (rm : Rm) (d : VReg) (a : Sel) (b : Sel) (imm : BitVec 32)
  /-- R116: Lane FP64 fused multiply-add. -/
  | dfma (h : LHdr) (rm : Rm) (d : VReg) (a : Sel) (b : Sel) (c : Sel) (imm : BitVec 32)
  /-- R126: Lane relative branch. -/
  | lbr (h : LHdr) (off : BitVec 32)
  /-- R126: Lane jump to a uniform offset from the lane code base. -/
  | ljmp (h : LHdr) (a : Sel) (imm : BitVec 32)
  /-- R126: Lane call pushing per-thread return addresses. -/
  | lcall (h : LHdr) (off : BitVec 32)
  /-- R126: Lane return to each thread's stacked address. -/
  | lret (h : LHdr)
  /-- R128: Finish the executing threads for the block. -/
  | lend (h : LHdr)
  /-- R128: Kill the executing threads for this and later blocks. -/
  | lkill (h : LHdr)
  /-- R130: Write a predicate of every active thread from a thread mask. -/
  | lmask (h : LHdr) (mode : MaskMode) (d : BitVec 3) (a : Sel) (imm : BitVec 32)
  /-- R129: Stop the context with ASSERT when some thread's condition is zero. -/
  | lassert (h : LHdr) (a : Sel) (b : Sel) (imm : BitVec 32)
  /-- R144: Lane indexed global load. -/
  | ldg (h : LHdr) (size : MemSize) (sx : Bool) (ord : Order) (scope : Scope) (d : VReg) (ca : BitVec 3) (x : Idx) (off : BitVec 32)
  /-- R144: Lane indexed global store. -/
  | stg (h : LHdr) (size : MemSize) (ord : Order) (scope : Scope) (ca : BitVec 3) (x : Idx) (c : Sel) (off : BitVec 32)
  /-- R144: Lane direct-address global load. -/
  | ldgx (h : LHdr) (size : MemSize) (sx : Bool) (ord : Order) (scope : Scope) (d : VReg) (a : ASel) (off : BitVec 32)
  /-- R144: Lane direct-address global store. -/
  | stgx (h : LHdr) (size : MemSize) (ord : Order) (scope : Scope) (a : ASel) (c : Sel) (off : BitVec 32)
  /-- R144: Lane vector global load. -/
  | ldgv (h : LHdr) (cnt : VecN) (d : VReg) (ca : BitVec 3) (x : Idx) (off : BitVec 32)
  /-- R144: Lane vector global store. -/
  | stgv (h : LHdr) (cnt : VecN) (ca : BitVec 3) (x : Idx) (c : VReg) (off : BitVec 32)
  /-- R144: Lane scratchpad load. -/
  | lds (h : LHdr) (size : MemSize) (sx : Bool) (ord : Order) (scope : Scope) (d : VReg) (a : ASel) (off : BitVec 32)
  /-- R144: Lane scratchpad store. -/
  | sts (h : LHdr) (size : MemSize) (ord : Order) (scope : Scope) (a : ASel) (c : Sel) (off : BitVec 32)
  /-- R144: Lane scratchpad block load. -/
  | ldsb (h : LHdr) (cnt : VecN) (d : VReg) (a : ASel) (off : BitVec 32)
  /-- R144: Lane scratchpad block store. -/
  | stsb (h : LHdr) (cnt : VecN) (a : ASel) (c : VReg) (off : BitVec 32)
  /-- R188: Lane indexed global atomic returning the old value. -/
  | atomg (h : LHdr) (dw : Bool) (op : AtomOp) (ord : Order) (scope : Scope) (d : VReg) (ca : BitVec 3) (x : Idx) (c : Sel) (off : BitVec 32)
  /-- R188: Lane indexed global compare-and-swap. -/
  | casg (h : LHdr) (dw : Bool) (ord : Order) (scope : Scope) (d : VReg) (ca : BitVec 3) (x : Idx) (c : VReg) (off : BitVec 32)
  /-- R188: Lane direct-address global atomic. -/
  | atomgx (h : LHdr) (dw : Bool) (op : AtomOp) (ord : Order) (scope : Scope) (d : VReg) (a : ASel) (c : Sel) (off : BitVec 32)
  /-- R188: Lane global atomic reduction without result. -/
  | redg (h : LHdr) (dw : Bool) (op : AtomOp) (ord : Order) (scope : Scope) (ca : BitVec 3) (x : Idx) (c : Sel) (off : BitVec 32)
  /-- R188: Lane scratchpad atomic. -/
  | atoms (h : LHdr) (dw : Bool) (op : AtomOp) (ord : Order) (scope : Scope) (d : VReg) (a : ASel) (c : Sel) (off : BitVec 32)
  /-- R188: Lane scratchpad compare-and-swap. -/
  | cass (h : LHdr) (dw : Bool) (ord : Order) (scope : Scope) (d : VReg) (a : ASel) (c : VReg) (off : BitVec 32)
  /-- R148: Lane global prefetch of lines or translations. -/
  | prefg (h : LHdr) (size : MemSize) (tlb : Bool) (ca : BitVec 3) (x : Idx) (off : BitVec 32)
  /-- R145: One global load broadcast to every executing thread. -/
  | ldbc (h : LHdr) (size : MemSize) (sx : Bool) (ord : Order) (scope : Scope) (d : VReg) (ca : BitVec 3) (off : BitVec 32)
  /-- R146: Lane byte-masked global store. -/
  | stgm (h : LHdr) (dw : Bool) (a : ASel) (b : Sel) (c : Sel) (off : BitVec 32)
  /-- R147: Probe an address for access into a predicate. -/
  | pchk (h : LHdr) (wr : Bool) (d : BitVec 3) (a : ASel) (off : BitVec 32)
  /-- R264: Issue a ladder matrix multiply-accumulate into a tile. -/
  | mma (h : LHdr) (tile : BitVec 6) (wick : Wick) (ca : BitVec 3) (cb : BitVec 3) (desc : BitVec 8) (steps : BitVec 12)
  /-- R269: Zero a tile and record its mode and exponent. -/
  | mzero (h : LHdr) (flt : Bool) (tile : BitVec 6) (e : BitVec 16)
  /-- R270: Load tile rows from memory or scratchpad. -/
  | mld (h : LHdr) (sp : Bool) (tile : BitVec 6) (wick : Wick) (ca : BitVec 3) (stride : BitVec 32)
  /-- R270: Store tile rows to memory or scratchpad. -/
  | mst (h : LHdr) (sp : Bool) (tile : BitVec 6) (wick : Wick) (ca : BitVec 3) (stride : BitVec 32)
  /-- R271: Add two tiles. -/
  | madd (h : LHdr) (td : BitVec 6) (tx : BitVec 6) (ty : BitVec 6)
  /-- R271: Convert a tile between FIX and FLT modes. -/
  | mcvt (h : LHdr) (flt : Bool) (tile : BitVec 6) (e : BitVec 16)
  /-- R271: Scale tile rows by powers of two. -/
  | mscl (h : LHdr) (tile : BitVec 6) (a : Sel) (imm : BitVec 32)
  /-- R272: Validate a format descriptor against a tile. -/
  | mfmt (h : LHdr) (d : VReg) (tile : BitVec 6) (desc : BitVec 8)
  /-- R273: Read a ladder or dimmer counter, or a tile's flags. -/
  | mstat (h : LHdr) (flg : Bool) (d : VReg) (n : BitVec 6)
  /-- R273: Set the group's weight base. -/
  | wsel (h : LHdr) (a : Sel) (imm : BitVec 32)
  /-- R271: Transpose a tile. -/
  | mtrans (h : LHdr) (td : BitVec 6) (tx : BitVec 6)
  /-- R279: Arm a dimmer level hold of n cycles. -/
  | mglow (h : LHdr) (n : BitVec 20)
  /-- R355: Lamplighter fetch of one packet from a queue into private_ SRAM. -/
  | lxRfetch (rd : BitVec 5) (rs1 : BitVec 5) (rs2 : BitVec 5)
  /-- R355: Lamplighter bit-field extract. -/
  | lxBfx (sx : Bool) (rd : BitVec 5) (rs1 : BitVec 5) (rs2 : BitVec 5)
  /-- R355: Lamplighter wait on the signal register. -/
  | lxSwait (rd : BitVec 5) (rs1 : BitVec 5) (rs2 : BitVec 5)
  /-- R355: Start a taken launch, graph or resume packet and assign a LID. -/
  | lxDisp (rd : BitVec 5) (rs1 : BitVec 5) (rs2 : BitVec 5)
  /-- R355: Write a bind record into a core's slot table. -/
  | lxBind (rd : BitVec 5) (rs1 : BitVec 5) (rs2 : BitVec 5)
  /-- R355: An lx.swait's cycle limit expires with no signal. -/
  | lxSwaitTimeout (hart : Nat)
  /-- R345: A LAUNCH packet runs one launch. -/
  | launchPacket (q : Nat)
  /-- R350: A GRAPH packet reads a graph table and runs the graph. -/
  | graphPacket (q : Nat)
  /-- R345: A SIGNAL packet adds ARG at ADDR with a release at system scope. -/
  | signalPacket (q : Nat)
  /-- R345: A NOP packet completes with no effect. -/
  | nopPacket (q : Nat)
  /-- R349: A LINK packet switches the fetcher to a new segment. -/
  | linkPacket (q : Nat)
  /-- R359: A RESUME packet reports a faulting page resident or invalid. -/
  | resumePacket (q : Nat)
  /-- R346: The 1 µs retry of a not-yet-valid or torn slot expires. -/
  | packetFetchRetry (q : Nat)
  /-- R344: A host write to a queue doorbell sets WR and raises DOORBELL, or faults the queue. `page` is 1,024 times the function plus the queue. -/
  | doorbellWrite (page : Nat) (wr : Nat)
  /-- R359: The consumer of an event queue advances its RD. -/
  | eventQueueRdWrite (q : Nat) (rd : Nat)
  /-- R343: Firmware writes N of a queue context, resetting its indices and state. -/
  | queueEnable (q : Nat) (dword0 : Nat) (dword1 : Nat)
  /-- R349: Firmware writes NEXT or clears L to resolve a segment-linking request. -/
  | queueNextWrite (q : Nat) (next : Nat) (clearL : Bool)
  /-- R290: Once the bound semaphore holds its threshold, bound fields are read into the argument block. -/
  | boundFieldResolve (lid : Nat)
  /-- R357: A launch unit is released once its records are written and walltime reaches NBF. -/
  | launchUnitRelease (lid : Nat) (unit : Nat)
  /-- R63: The next queued lane block starts when the previous one has ended. -/
  | laneBlockStart (c : Nat) (g : Nat)
  /-- R41: A variable-latency result is written and releases any S park awaiting it. -/
  | variableResultReturn (c : Nat) (g : Nat) (k : Nat)
  /-- R70: A sleep's cycle count expires. -/
  | sleepExpiry (c : Nat) (g : Nat)
  /-- R193: A semwait without a watch entry tests again after 1,024 cycles. -/
  | semwaitRecheck (c : Nat) (g : Nat)
  /-- R180: A home revokes a line's owner, which writes its dirty words home. -/
  | homeRevoke (c : Nat) (line : Nat)
  /-- R158: A write of %wpr begins a change of the way partition. -/
  | wprWrite (c : Nat) (g : Nat) (v : Nat)
  /-- R159: A way-partition change ends, zeroing or discarding the ways and updating %wpr. -/
  | wprChangeComplete (c : Nat)
  /-- R73: A write of %trapvec, raising ALIGN for a misaligned value. -/
  | trapvecWrite (c : Nat) (g : Nat) (v : Nat)
  /-- R167: A stream parked past the threshold on a missing load starts a lantern checkpoint. -/
  | lanternEntry (c : Nat) (g : Nat)
  /-- R168: The 16-cycle checkpoint ends and parked streams run ahead. -/
  | lanternCheckpointDone (c : Nat) (g : Nat)
  /-- R171: The 2,048th lantern instruction ends lantern mode. -/
  | lanternInstrLimit (c : Nat) (g : Nat)
  /-- R171: The 16-cycle restore ends, dark marks clear and the staging plane frees. -/
  | lanternRestoreDone (c : Nat) (g : Nat)
  /-- R218: A queued transfer item is taken by a free engine. -/
  | itemDispatch (c : Nat)
  /-- R219: A transfer item retires, updating its status record then its wick. -/
  | itemRetire (c : Nat) (k : Nat)
  /-- R232: An item's TMO expires and it fails with TIMEOUT. -/
  | itemTimeout (c : Nat) (k : Nat) (done : Nat)
  /-- R207: Cancelled items retire failed exactly 6 cycles after the cancel. -/
  | cancelRetire (c : Nat) (k : Nat) (done : Nat)
  /-- R235: A rank's failure reaches its partners, which fail with PEER. -/
  | collectivePeerFail (c : Nat) (k : Nat) (done : Nat)
  /-- R210: Once a flip's waits are met the select bits exchange. -/
  | flipExchange (c : Nat) (g : Nat)
  /-- R212: A core acknowledges a flip.clus request. -/
  | clusterFlipAck (cl : Nat) (c : Nat)
  /-- R212: At the cluster cycle boundary after the last acknowledgement all six cores exchange. -/
  | clusterFlipExchange (cl : Nat)
  /-- R262: A queued matrix tile instruction takes effect on the engine. -/
  | matrixQueueExecute (c : Nat)
  /-- R266: An mma reaches the matrix engine and requests a grant if idle. -/
  | mmaReachEngine (c : Nat)
  /-- R266: The operand fetch of one mma step completes. -/
  | mmaStepFetchDone (c : Nat)
  /-- R250: A step attempt ends and is judged against its budgets. -/
  | mmaAttemptEnd (c : Nat)
  /-- R266: An mma retires 8 cycles after its last commit. -/
  | mmaRetire (c : Nat) (k : Nat)
  /-- R270: An mld or mst completes or fails. -/
  | tileMoveDone (c : Nat) (k : Nat)
  /-- R276: The die dimmer ticks, granting one request and stepping ramps. -/
  | dimmerTick (die : Nat)
  /-- R279: An mglow hold's cycles run out and ramp-down proceeds. -/
  | glowHoldExpiry (c : Nat)
  /-- R277: A write of DIM_RAMP, ignored unless its levels are valid. -/
  | dimRampWrite (die : Nat) (v : Nat)
  /-- R314: A group drains results, exchanges register planes and enters its handler. -/
  | trapEntry (c : Nat) (g : Nat)
  /-- R328: A group performs trap entry and freezes for a debugger. -/
  | debugHalt (c : Nat) (g : Nat)
  /-- R327: Writing 1 to DBG_CTL.HLT continues every halted group. -/
  | dbgContinue (p : Nat)
  /-- R319: A supervisor kill ends a context at once. -/
  | supervisorKill (lid : Nat)
  /-- R319: A partition reset ends its contexts. -/
  | partitionReset (p : Nat)
  /-- R320: A launch outlives WDOG_CTL.LIMIT and is killed. -/
  | watchdogExpiry (lid : Nat)
  /-- R321: The scheduler requests pre-emption of a team. -/
  | preemptionRequest (c : Nat) (g : Nat)
  /-- R323: A group reaches no phint within 65,536 cycles and is saved whole. -/
  | preemptDeadline (c : Nat) (g : Nat)
  /-- R324: Once every group is ready the save engine saves the team. -/
  | teamSave (c : Nat) (g : Nat)
  /-- R324: A saved team is restored to its core, slots, panes and banks. -/
  | teamRestore (c : Nat) (g : Nat)
  /-- R216: A core's contexts are swapped through its staging planes. -/
  | contextSwap (c : Nat) (image : Nat)
  /-- R326: An access to a non-resident page swaps the team out and reports the fault. -/
  | pageFaultSwap (c : Nat) (g : Nat)
  /-- R294: A complete launch whose predecessors resolved turns COMMITTED. -/
  | launchCommit (lid : Nat)
  /-- R294: The merge engine writes a committed shadow line home. -/
  | shadowMerge (ver : Nat) (line : Nat)
  /-- R295: The merge engine lazily frees an aborted version's shadow line. -/
  | shadowFree (ver : Nat) (line : Nat)
  /-- R298: The scheduler grants quota units from the shadow pool, or the launch aborts with TXOVF. -/
  | quotaGrant (lid : Nat)
  /-- R362: A write of PART_MAP or PART_MAP_HI checks and moves clusters between partitions. -/
  | partMapWrite (hi : Bool) (v : Nat)
  /-- R362: A departing cluster's wipe completes. -/
  | clusterWipeDone (cl : Nat)
  /-- R362: A joining cluster finishes power-up and bus training. -/
  | clusterPowerUpDone (cl : Nat)
  /-- R365: KEY_SLOT_CTL OP 0 selects a slot. -/
  | keySlotSelect (n : Nat) (blob : Nat)
  /-- R365: KEY_SLOT_CTL OP 1 unwraps a key blob into a slot or sets ERR. -/
  | keySlotLoad (p : Nat) (n : Nat) (blob : Nat)
  /-- R365: KEY_SLOT_CTL OP 2 zeroises a slot as kzero. -/
  | keySlotZero (n : Nat)
  /-- R369: The snuffer finishes wiping one named core. -/
  | snufferCoreWipeDone (p : Nat)
  /-- R369: The snuffer finishes zeroing one frame. -/
  | snufferFrameDone (p : Nat)
  /-- R372: A write of VBUS_STAT changes CORE and may clear WOKE. -/
  | vbusStatWrite (c : Nat) (g : Nat) (v : Nat)
  /-- R379: A write of BRUS_NODE, ignored for 0xFFFF. -/
  | brusNodeWrite (v : Nat)
  /-- R332: A write of a system register with no behaviour of its own. -/
  | sysregWrite (c : Nat) (g : Nat) (num : Nat) (v : Nat)
  /-- R373: A bus lane fails with no spare free and the layer fails. -/
  | vbusLaneFailure (c : Nat) (bus : Nat) (lane : Nat)
  /-- R371: A vertical bus is retrained for temperature drift. -/
  | driftRetrain (c : Nat) (bus : Nat)
  /-- R376: Patrol reads and corrects column DRAM lines. -/
  | dramPatrol (line : Nat) (corr : Nat) (bad : Nat)
  /-- R376: Patrol reads and corrects plane granules each second. -/
  | sramPatrol (c : Nat) (store : Nat) (planeB : Bool) (granule : Nat) (corr : Nat) (bad : Bool)
  /-- R376: PWR_STAT and link counters refresh every 1 ms. -/
  | telemetryRefresh (vin : Nat) (pin : Nat) (tmax : Nat)
  /-- R374: Firmware gates the layers of a core idle for 1 ms. -/
  | layerGate (c : Nat)
  /-- R375: A gated layer finishes waking and stalled accesses proceed. -/
  | layerWakeDone (c : Nat)
  /-- R381: Each millisecond a partition's matrix level ceiling steps against CAP. -/
  | powerCapStep (p : Nat) (high : Bool)
  /-- R381: Input falls below 40 V, setting UV and lowering ceilings. -/
  | inputUndervoltage (vin : Nat)
  /-- R381: Input below 36 V for 10 ms powers the module down. -/
  | undervoltagePowerDown
  /-- R381: Input above 63 V disconnects the module. -/
  | overvoltageDisconnect
  /-- R379: A Bruslink or Igold link goes down or retrains narrower. -/
  | linkDown (port : Nat) (lanes : Nat)
  /-- R229: A link CRC failure is retried, poisoning after the third. -/
  | linkCrcRetry (port : Nat) (c : Nat) (k : Nat)
  /-- R26: A 1PPS edge or time-of-day message disciplines %walltime. -/
  | walltime1pps (t : Nat)
  /-- R377: A management message, such as an attestation request, arrives. -/
  | mctpMessage (nonce : Nat)
  /-- R377: A new firmware image is verified and roles move one core at a time. -/
  | firmwareLiveUpdate (version : Nat) (ok : Bool)
  /-- R18: Cold reset returns all state to reset values. -/
  | coldReset
  /-- R370: Warm reset re-runs boot, keeping column DRAM and quarantine. -/
  | warmReset
  /-- R342: A Lamplighter RISC-V load, store, amoadd or fence reaches device memory as a strong access at system scope at the line's home. -/
  | lamplighterDeviceAccess (hart : Nat) (acc : DevAcc)
  /-- R209: A write by the host or a Bruslink peer arrives at device memory and is merged into, or clears the poison of, its granule. -/
  | inboundPeerOrHostWrite (pa : Nat) (bytes : List (BitVec 8))
  /-- R181: A home column acknowledges a written-home dirty word or a strong store, completing a waiting release, ccln or strong store sequence. -/
  | homeAcknowledgement (c : Nat) (g : Nat) (lane : Bool)
  /-- R355: The TIMER bit of a Lamplighter core's signal register is raised. -/
  | lxTimerSignal (hart : Nat)
  /-- R379: A Bruslink port or Igold bridge finishes training and carries traffic again, setting UP and LANES. -/
  | linkTrained (port : Nat) (lanes : Nat) (peer : Nat)
  /-- R380: Input voltage rises back above 40 V, so UV clears and the partition ceilings are lifted. -/
  | inputVoltageRestored (vin : Nat)
  deriving DecidableEq, Repr

/-- The class of an instruction word: which stream or processor fetches it. -/
inductive Cls where
  /-- 32-bit scalar word -/
  | scalar
  /-- 96-bit lane word -/
  | lane
  /-- 32-bit Lx word of a Lamplighter core -/
  | lx
  /-- an event, which no word encodes -/
  | event
  deriving DecidableEq, Repr

/-- The class of an instruction. -/
def Instr.cls : Instr → Cls
  | .nop _ => .scalar
  | .add _ _ _ _ => .scalar
  | .sub _ _ _ _ => .scalar
  | .mul _ _ _ _ => .scalar
  | .mulhu _ _ _ _ => .scalar
  | .mulhs _ _ _ _ => .scalar
  | .divu _ _ _ _ => .scalar
  | .divs _ _ _ _ => .scalar
  | .remu _ _ _ _ => .scalar
  | .rems _ _ _ _ => .scalar
  | .and _ _ _ _ => .scalar
  | .or _ _ _ _ => .scalar
  | .xor _ _ _ _ => .scalar
  | .andn _ _ _ _ => .scalar
  | .shl _ _ _ _ => .scalar
  | .shr _ _ _ _ => .scalar
  | .sar _ _ _ _ => .scalar
  | .minu _ _ _ _ => .scalar
  | .mins _ _ _ _ => .scalar
  | .maxu _ _ _ _ => .scalar
  | .maxs _ _ _ _ => .scalar
  | .clz _ _ _ => .scalar
  | .ctz _ _ _ => .scalar
  | .popc _ _ _ => .scalar
  | .bext _ _ _ _ _ => .scalar
  | .bins _ _ _ _ => .scalar
  | .cmp _ _ _ _ _ => .scalar
  | .csel _ _ _ _ _ => .scalar
  | .addi _ _ _ _ => .scalar
  | .andi _ _ _ _ => .scalar
  | .ori _ _ _ _ => .scalar
  | .xori _ _ _ _ => .scalar
  | .shli _ _ _ _ => .scalar
  | .shri _ _ _ _ => .scalar
  | .sari _ _ _ _ => .scalar
  | .cmpi _ _ _ _ _ => .scalar
  | .li _ _ _ => .scalar
  | .lih _ _ _ => .scalar
  | .lea _ _ _ _ _ => .scalar
  | .addpc _ _ _ => .scalar
  | .b _ _ => .scalar
  | .bc _ _ _ _ => .scalar
  | .loop _ _ _ => .scalar
  | .call _ _ => .scalar
  | .ret _ _ => .scalar
  | .jr _ _ => .scalar
  | .lgo _ _ _ _ => .scalar
  | .ljoin _ => .scalar
  | .lpop _ _ => .scalar
  | .wait _ _ _ => .scalar
  | .yield _ => .scalar
  | .exit _ => .scalar
  | .bar _ _ => .scalar
  | .srd _ _ _ _ => .scalar
  | .swr _ _ _ _ => .scalar
  | .sleep _ _ _ => .scalar
  | .sld _ _ _ _ _ _ _ => .scalar
  | .sst _ _ _ _ _ _ _ => .scalar
  | .sldp _ _ _ _ _ => .scalar
  | .sstp _ _ _ _ _ => .scalar
  | .satom _ _ _ _ _ _ _ => .scalar
  | .scas _ _ _ _ _ _ => .scalar
  | .fence _ _ _ => .scalar
  | .cinv _ _ _ _ _ => .scalar
  | .ccln _ _ _ _ _ => .scalar
  | .pref _ _ _ _ _ => .scalar
  | .flip _ _ _ _ _ => .scalar
  | .pfree _ _ _ _ _ => .scalar
  | .pstat _ _ _ _ => .scalar
  | .xfer _ _ _ => .scalar
  | .xcvt _ _ _ => .scalar
  | .xfill _ _ _ => .scalar
  | .xgath _ _ _ => .scalar
  | .xred _ _ _ => .scalar
  | .xbcst _ _ _ => .scalar
  | .xagree _ _ _ => .scalar
  | .xcanc _ _ => .scalar
  | .xstat _ _ _ _ _ => .scalar
  | .launch _ _ _ _ => .scalar
  | .gsig _ _ => .scalar
  | .tstat _ _ _ _ _ => .scalar
  | .tabort _ _ => .scalar
  | .semsig _ _ _ => .scalar
  | .semwait _ _ _ _ => .scalar
  | .trap _ _ => .scalar
  | .assert _ _ _ => .scalar
  | .phint _ _ => .scalar
  | .tret _ => .scalar
  | .brk _ _ => .scalar
  | .sysr _ _ _ => .scalar
  | .sysw _ _ _ => .scalar
  | .kzero _ _ => .scalar
  | .scrub _ _ _ => .scalar
  | .tlbi _ _ _ => .scalar
  | .cctl _ _ _ => .scalar
  | .vbrep _ _ => .scalar
  | .sfadd _ _ _ _ _ _ => .scalar
  | .sfsub _ _ _ _ _ _ => .scalar
  | .sfmul _ _ _ _ _ _ => .scalar
  | .sffma _ _ _ _ _ _ => .scalar
  | .sfmin _ _ _ _ _ => .scalar
  | .sfmax _ _ _ _ _ => .scalar
  | .sfcmp _ _ _ _ _ _ => .scalar
  | .sfcvt _ _ _ _ _ _ => .scalar
  | .sf2i _ _ _ _ _ _ => .scalar
  | .si2f _ _ _ _ _ _ => .scalar
  | .sfabs _ _ _ _ => .scalar
  | .sfneg _ _ _ _ => .scalar
  | .sfrcp _ _ _ _ _ => .scalar
  | .sfsqrt _ _ _ _ _ => .scalar
  | .sfdiv _ _ _ _ _ _ => .scalar
  | .sfround _ _ _ _ _ => .scalar
  | .lnop _ => .lane
  | .iadd _ _ _ _ _ => .lane
  | .isub _ _ _ _ _ => .lane
  | .imul _ _ _ _ _ => .lane
  | .imad _ _ _ _ _ _ => .lane
  | .imulh _ _ _ _ _ _ => .lane
  | .iabs _ _ _ _ => .lane
  | .imin _ _ _ _ _ _ => .lane
  | .imax _ _ _ _ _ _ => .lane
  | .laneAnd _ _ _ _ _ => .lane
  | .laneOr _ _ _ _ _ => .lane
  | .laneXor _ _ _ _ _ => .lane
  | .not _ _ _ _ => .lane
  | .laneShl _ _ _ _ _ => .lane
  | .laneShr _ _ _ _ _ => .lane
  | .laneSar _ _ _ _ _ => .lane
  | .dsh _ _ _ _ _ _ _ => .lane
  | .bfe _ _ _ _ _ _ => .lane
  | .bfi _ _ _ _ _ _ => .lane
  | .lanePopc _ _ _ _ => .lane
  | .laneClz _ _ _ _ => .lane
  | .brev _ _ _ _ => .lane
  | .perm _ _ _ _ _ _ => .lane
  | .plut _ _ _ _ _ _ _ => .lane
  | .icmp _ _ _ _ _ _ => .lane
  | .sel _ _ _ _ _ _ => .lane
  | .mov _ _ _ _ => .lane
  | .idot4 _ _ _ _ _ _ _ => .lane
  | .prev _ _ _ _ _ => .lane
  | .next _ _ _ _ _ => .lane
  | .pick _ _ _ _ _ _ _ => .lane
  | .rdfl _ _ _ _ => .lane
  | .vote _ _ _ _ _ => .lane
  | .gred _ _ _ _ _ => .lane
  | .gscan _ _ _ _ _ _ => .lane
  | .plog _ _ _ _ _ _ _ => .lane
  | .lsrd _ _ _ _ _ => .lane
  | .lpush _ _ _ _ => .lane
  | .ipack _ _ _ _ _ _ _ _ => .lane
  | .iext _ _ _ _ _ _ _ => .lane
  | .fadd _ _ _ _ _ _ _ => .lane
  | .fsub _ _ _ _ _ _ _ => .lane
  | .fmul _ _ _ _ _ _ _ => .lane
  | .ffma _ _ _ _ _ _ _ _ => .lane
  | .fmin _ _ _ _ _ _ => .lane
  | .fmax _ _ _ _ _ _ => .lane
  | .fabs _ _ _ _ => .lane
  | .fneg _ _ _ _ => .lane
  | .fcmp _ _ _ _ _ _ _ => .lane
  | .fclass _ _ _ _ _ => .lane
  | .frcp _ _ _ _ _ _ => .lane
  | .frsq _ _ _ _ _ _ => .lane
  | .fsqrt _ _ _ _ _ _ => .lane
  | .fdiv _ _ _ _ _ _ _ => .lane
  | .fexp2 _ _ _ _ _ _ => .lane
  | .flog2 _ _ _ _ _ _ => .lane
  | .fround _ _ _ _ _ _ => .lane
  | .fscale _ _ _ _ _ _ _ => .lane
  | .fgetexp _ _ _ _ _ => .lane
  | .f2i _ _ _ _ _ _ => .lane
  | .i2f _ _ _ _ _ _ => .lane
  | .fcvt _ _ _ _ _ _ _ => .lane
  | .fpack2 _ _ _ _ _ _ _ => .lane
  | .hadd2 _ _ _ _ _ _ _ => .lane
  | .hmul2 _ _ _ _ _ _ _ => .lane
  | .hfma2 _ _ _ _ _ _ _ _ => .lane
  | .qpack _ _ _ _ _ _ _ => .lane
  | .qunpack _ _ _ _ _ _ _ => .lane
  | .f8pack _ _ _ _ _ _ _ _ _ _ => .lane
  | .f8unpack _ _ _ _ _ _ => .lane
  | .dadd _ _ _ _ _ _ => .lane
  | .dfma _ _ _ _ _ _ _ => .lane
  | .lbr _ _ => .lane
  | .ljmp _ _ _ => .lane
  | .lcall _ _ => .lane
  | .lret _ => .lane
  | .lend _ => .lane
  | .lkill _ => .lane
  | .lmask _ _ _ _ _ => .lane
  | .lassert _ _ _ _ => .lane
  | .ldg _ _ _ _ _ _ _ _ _ => .lane
  | .stg _ _ _ _ _ _ _ _ => .lane
  | .ldgx _ _ _ _ _ _ _ _ => .lane
  | .stgx _ _ _ _ _ _ _ => .lane
  | .ldgv _ _ _ _ _ _ => .lane
  | .stgv _ _ _ _ _ _ => .lane
  | .lds _ _ _ _ _ _ _ _ => .lane
  | .sts _ _ _ _ _ _ _ => .lane
  | .ldsb _ _ _ _ _ => .lane
  | .stsb _ _ _ _ _ => .lane
  | .atomg _ _ _ _ _ _ _ _ _ _ => .lane
  | .casg _ _ _ _ _ _ _ _ _ => .lane
  | .atomgx _ _ _ _ _ _ _ _ _ => .lane
  | .redg _ _ _ _ _ _ _ _ _ => .lane
  | .atoms _ _ _ _ _ _ _ _ _ => .lane
  | .cass _ _ _ _ _ _ _ _ => .lane
  | .prefg _ _ _ _ _ _ => .lane
  | .ldbc _ _ _ _ _ _ _ _ => .lane
  | .stgm _ _ _ _ _ _ => .lane
  | .pchk _ _ _ _ _ => .lane
  | .mma _ _ _ _ _ _ _ => .lane
  | .mzero _ _ _ _ => .lane
  | .mld _ _ _ _ _ _ => .lane
  | .mst _ _ _ _ _ _ => .lane
  | .madd _ _ _ _ => .lane
  | .mcvt _ _ _ _ => .lane
  | .mscl _ _ _ _ => .lane
  | .mfmt _ _ _ _ => .lane
  | .mstat _ _ _ _ => .lane
  | .wsel _ _ _ => .lane
  | .mtrans _ _ _ => .lane
  | .mglow _ _ => .lane
  | .lxRfetch _ _ _ => .lx
  | .lxBfx _ _ _ _ => .lx
  | .lxSwait _ _ _ => .lx
  | .lxDisp _ _ _ => .lx
  | .lxBind _ _ _ => .lx
  | .lxSwaitTimeout _ => .event
  | .launchPacket _ => .event
  | .graphPacket _ => .event
  | .signalPacket _ => .event
  | .nopPacket _ => .event
  | .linkPacket _ => .event
  | .resumePacket _ => .event
  | .packetFetchRetry _ => .event
  | .doorbellWrite _ _ => .event
  | .eventQueueRdWrite _ _ => .event
  | .queueEnable _ _ _ => .event
  | .queueNextWrite _ _ _ => .event
  | .boundFieldResolve _ => .event
  | .launchUnitRelease _ _ => .event
  | .laneBlockStart _ _ => .event
  | .variableResultReturn _ _ _ => .event
  | .sleepExpiry _ _ => .event
  | .semwaitRecheck _ _ => .event
  | .homeRevoke _ _ => .event
  | .wprWrite _ _ _ => .event
  | .wprChangeComplete _ => .event
  | .trapvecWrite _ _ _ => .event
  | .lanternEntry _ _ => .event
  | .lanternCheckpointDone _ _ => .event
  | .lanternInstrLimit _ _ => .event
  | .lanternRestoreDone _ _ => .event
  | .itemDispatch _ => .event
  | .itemRetire _ _ => .event
  | .itemTimeout _ _ _ => .event
  | .cancelRetire _ _ _ => .event
  | .collectivePeerFail _ _ _ => .event
  | .flipExchange _ _ => .event
  | .clusterFlipAck _ _ => .event
  | .clusterFlipExchange _ => .event
  | .matrixQueueExecute _ => .event
  | .mmaReachEngine _ => .event
  | .mmaStepFetchDone _ => .event
  | .mmaAttemptEnd _ => .event
  | .mmaRetire _ _ => .event
  | .tileMoveDone _ _ => .event
  | .dimmerTick _ => .event
  | .glowHoldExpiry _ => .event
  | .dimRampWrite _ _ => .event
  | .trapEntry _ _ => .event
  | .debugHalt _ _ => .event
  | .dbgContinue _ => .event
  | .supervisorKill _ => .event
  | .partitionReset _ => .event
  | .watchdogExpiry _ => .event
  | .preemptionRequest _ _ => .event
  | .preemptDeadline _ _ => .event
  | .teamSave _ _ => .event
  | .teamRestore _ _ => .event
  | .contextSwap _ _ => .event
  | .pageFaultSwap _ _ => .event
  | .launchCommit _ => .event
  | .shadowMerge _ _ => .event
  | .shadowFree _ _ => .event
  | .quotaGrant _ => .event
  | .partMapWrite _ _ => .event
  | .clusterWipeDone _ => .event
  | .clusterPowerUpDone _ => .event
  | .keySlotSelect _ _ => .event
  | .keySlotLoad _ _ _ => .event
  | .keySlotZero _ => .event
  | .snufferCoreWipeDone _ => .event
  | .snufferFrameDone _ => .event
  | .vbusStatWrite _ _ _ => .event
  | .brusNodeWrite _ => .event
  | .sysregWrite _ _ _ _ => .event
  | .vbusLaneFailure _ _ _ => .event
  | .driftRetrain _ _ => .event
  | .dramPatrol _ _ _ => .event
  | .sramPatrol _ _ _ _ _ _ => .event
  | .telemetryRefresh _ _ _ => .event
  | .layerGate _ => .event
  | .layerWakeDone _ => .event
  | .powerCapStep _ _ => .event
  | .inputUndervoltage _ => .event
  | .undervoltagePowerDown => .event
  | .overvoltageDisconnect => .event
  | .linkDown _ _ => .event
  | .linkCrcRetry _ _ _ => .event
  | .walltime1pps _ => .event
  | .mctpMessage _ => .event
  | .firmwareLiveUpdate _ _ => .event
  | .coldReset => .event
  | .warmReset => .event
  | .lamplighterDeviceAccess _ _ => .event
  | .inboundPeerOrHostWrite _ _ => .event
  | .homeAcknowledgement _ _ _ => .event
  | .lxTimerSignal _ => .event
  | .linkTrained _ _ _ => .event
  | .inputVoltageRestored _ => .event

end Sys2Proof
end

