-- ==== Sys2Proof/Config.lean ====
section
/-!
DEFINITION. Sys2Proof/Config.lean: what the spec leaves open, as constants without a value: the schedule of the agents, the time steps
take, values the spec calls unspecified, the layout of page table entries, and the key-encryption keys. No proof can see what they are.
-/
namespace Sys2Proof

/-- Who takes the next step: a stream of a group, a Lamplighter core, or an event (R14, R17, R25). -/
inductive Turn where
  /-- the scalar stream of the group at `core`, `slot` -/
  | scalar
  /-- the lane stream of the group at `core`, `slot` -/
  | lane
  /-- Lamplighter core `hart` -/
  | lx
  /-- an event that no instruction word encodes -/
  | event (i : Instr)
  deriving DecidableEq, Repr, Inhabited

/-- The sizes of a page (R27). -/
inductive PageSize where
  /-- 64 KiB -/
  | k64
  /-- 2 MiB -/
  | m2
  /-- 1 GiB -/
  | g1
  deriving DecidableEq, Repr, Inhabited
/-- log2 of a page's bytes (R27). -/
def PageSize.bits : PageSize → Nat
  | .k64 => 16
  | .m2 => 21
  | .g1 => 30

/-- A leaf of a page table: the frame, its size and rights, residency, and the key slot of a protected page (R155, R364). -/
structure Leaf where
  /-- physical address of the frame -/
  pa : Nat
  size : PageSize
  /-- read permission -/
  r : Bool
  /-- write permission -/
  w : Bool
  /-- the page is resident -/
  res : Bool
  /-- ENC: the page belongs to a protected context -/
  enc : Bool
  /-- KSLOT, the key slot of an ENC page -/
  kslot : Nat
  deriving DecidableEq, Repr, Inhabited
/-- log2 of the bytes of a leaf's page. -/
def Leaf.bits (l : Leaf) : Nat := l.size.bits

/-- Which turn comes next, by the count of steps taken: nothing in the spec orders the agents. -/
opaque Config.turn : Nat → Turn
/-- The flat core of the next turn. -/
opaque Config.core : Nat → Nat
/-- The slot of the next turn. -/
opaque Config.slot : Nat → Nat
/-- The Lamplighter core of the next turn. -/
opaque Config.hart : Nat → Nat
/-- How many core cycles a step takes: latencies are not architectural (R157). -/
opaque Config.cycles : Nat → Nat
/-- How many nanoseconds of walltime a step takes. -/
opaque Config.nanos : Nat → Nat
/-- An unspecified 64-bit value, by the count of steps and an index within the step (R42, R324). -/
opaque Config.freeWord : Nat → Nat → Word
/-- An unspecified byte, by the count of steps and an index within the step (R364, R386). -/
opaque Config.freeByte : Nat → Nat → Byte
/-- An open yes-or-no choice, by the count of steps and an index within the step. -/
opaque Config.freeBool : Nat → Nat → Bool
/-- The pages that the page tables in memory map for a partition, each by a virtual address in it: the spec gives neither the layout of an
entry beyond ENC and KSLOT nor the root. -/
opaque Config.pages : Nat → List Host.Cell → List (Nat × Leaf)
/-- The storage lines that a walk of a partition's page tables for a virtual address reads. -/
opaque Config.walkLines : Nat → List Host.Cell → Nat → List Nat
/-- The count of corrected errors of a lane of a vertical bus past which background calibration spares it (R371). -/
opaque Config.laneThreshold : Nat
/-- A firmware image that claims a version: the genuine one, or another (R377). -/
opaque Config.image : Nat → Bool → List Byte
/-- The ML-DSA-44 signature that comes with an image (R377). -/
opaque Config.imageSig : Nat → Bool → List Byte
/-- An ML-DSA-44 signature over a digest verifies against the key whose hash is fused at manufacture (R377). -/
opaque Config.mldsaOk : List Byte → List Byte → Bool
/-- The signature of a report under the device identity key, ML-DSA-44: of the measurement log, DEV_ID and the nonce (R377). -/
opaque Config.attestSig : List (List Byte) → Word → Nat → List Byte
/-- A partition's key-encryption key of 32 bytes, which firmware and the owner establish (R365). -/
opaque Config.kek : Nat → List Byte

end Sys2Proof
end

