-- ==== Sys2Proof/Machine/State.lean ====
section
/-!
DEFINITION. Sys2Proof/Machine/State.lean: the state of the device as plain data, and the state after reset. Every field is a piece of state
the spec names, or one of the model's own listed in INVENTORY.md.
-/
namespace Sys2Proof.Machine

/-- The machine stops with no fault: every condition the spec calls an error is a trap, a status or a completion, after which it goes on. -/
inductive Fault : Type
  deriving DecidableEq, Repr

/-- Why a step has no meaning in this model. -/
inductive Refusal where
  /-- An instruction that has no meaning yet, by its mnemonic; raised by an arm of exec. Safe: no statement holds through it. -/
  | notModelled (mnemonic : String)
  deriving DecidableEq, Repr

/-- Values by a Nat key, the keys rising; what a key not listed reads as is said where the table is used. -/
abbrev Tab (α : Type) := List (Nat × α)

/-- Trap causes (R9). -/
inductive Cause where
  | ill | priv | align | xlate | prot | spad | poison | staged | plane | xfer | matfmt | undecl | txovf | assert | user | brk
  | step | watch | lqdead | vbus | eccu
  deriving DecidableEq, Repr

/-- Who holds a staging plane (R201). -/
inductive Holder where
  | items | lantern | save | swap | trap
  deriving DecidableEq, Repr

/-- One plane of a group's registers (R18). A register not listed holds 0; a poison bit not listed is clear. -/
structure RegPlane where
  /-- scalar register n -/
  s : Tab Word
  /-- vector register n of thread t at 64 t + n -/
  v : Tab (BitVec 32)
  /-- predicates of thread t; bit 0 is not stored (R35) -/
  p : Tab (BitVec 8)
  /-- poisoned scalar registers -/
  sPoi : Tab Bool
  /-- poisoned vector registers -/
  vPoi : Tab Bool
  /-- threads whose predicates are poisoned -/
  pPoi : Tab Bool
  /-- registers that fail their ECC beyond correction, by the offset of R199 -/
  ecc : Tab Bool
  deriving DecidableEq, Repr

/-- Running, finished or killed (R119). -/
inductive TStatus where
  | running | finished | killed
  deriving DecidableEq, Repr

/-- Frontier state of one thread (R119). -/
structure Thread where
  pc : Word
  /-- the return stack, the top first; its length is the call depth -/
  rs : List Word
  st : TStatus
  deriving DecidableEq, Repr

/-- A lane block: its entry and its captured operands c0 to c7 (R63). -/
structure Block where
  entry : Word
  caps : List Word
  deriving DecidableEq, Repr

/-- Transfer status record of a wick (R231). -/
structure XStat where
  issued : BitVec 16
  failed : BitVec 16
  cause : BitVec 8
  detail : BitVec 8
  seq : BitVec 16
  faddr : Word
  deriving DecidableEq, Repr

/-- Launch outcome record of a wick (R301). -/
structure LStat where
  issued : BitVec 16
  failed : BitVec 16
  cause : BitVec 8
  detail : BitVec 8
  ver : BitVec 8
  code : BitVec 16
  committed : BitVec 16
  deriving DecidableEq, Repr

/-- A register that a variable-latency result will write (R41). -/
inductive RDest where
  | s (n : Nat) (x : Word)
  | v (t n : Nat) (x : BitVec 32)
  | p (t n : Nat) (x : Bool)
  deriving DecidableEq, Repr

/-- A trap as it will stand in the frame or the stop record (R315, R318). -/
structure TrapRec where
  cause : Cause
  lane : Bool
  code : BitVec 32
  late : Bool
  reex : Bool
  /-- scalar PC to resume at -/
  resume : Word
  lpc : Word
  faddr : Word
  exec : BitVec 32
  fmask : BitVec 32
  /-- thread for the stop record -/
  thread : BitVec 8
  msg : Word
  /-- scalar PC of the trap for the stop record -/
  spc : Word
  /-- the fault of a valid page that is not resident (R312, R326) -/
  swap : Bool
  /-- the group itself raised nothing: another of its launch stopped the context, and the frame's CAUSE is 0 (R318) -/
  silent : Bool
  deriving DecidableEq, Repr

/-- A variable-latency result not yet returned (R41). -/
structure OutRes where
  /-- of the lane stream -/
  lane : Bool
  ds : List RDest
  /-- a global load that missed the column SRAM (R167) -/
  missed : Bool
  /-- issued in lantern mode: discarded when it ends (R171) -/
  dark : Bool
  /-- outstanding when lantern mode was entered (R171) -/
  entry : Bool
  /-- its data has come, to be written at the end of the restore (R171) -/
  come : Bool
  /-- a load that ends in POISON or ECCU after its stream went on: the trap to raise when it returns (R315 LATE) -/
  pend : Option TrapRec
  /-- an `mstat` that has not taken effect: the core's matrix instructions with lower numbers were issued before it; whether it reads a tile's flags,
  which tile or counter, and the cycle of its issue or, later, of the latest of them to complete so far (R273) -/
  op : Option (Nat × Bool × Nat × Nat)
  /-- a flip that its group issued after it waits for it (R204) -/
  flip : Bool
  deriving DecidableEq, Repr

/-- A strong store not yet performed at its home (R184). -/
structure PStore where
  pa : Nat
  key : List Byte
  bytes : List Byte
  deriving DecidableEq, Repr

/-- What a stream that does not issue waits in (R167, R314, R323). -/
inductive Wait where
  | none | lpop | ljoin | wait | sleep | bar (cohort sw : Bool) | wpr | semwait | flip | launch | lgo | lpush | other
  deriving DecidableEq, Repr

/-- How far a group in lantern mode is (R168, R171). -/
inductive LanPhase where
  | enter | run | leave
  deriving DecidableEq, Repr

/-- Lantern mode of a group (R167 to R171). -/
structure Lantern where
  phase : LanPhase
  /-- cycle at which the copy or restore is complete -/
  until_ : Nat
  /-- instructions issued -/
  count : Nat
  sDark : Tab Bool
  vDark : Tab Bool
  pDark : Tab Bool
  /-- the frontier shadow (R133) -/
  thr : Tab Thread
  pc : Word
  lq : List Block
  lrun : Bool
  sPark : Option Nat
  lPark : Option Nat
  sWait : Wait
  lWait : Wait
  deriving DecidableEq, Repr

/-- The item that a plane instruction names (R202, R214). -/
structure PFlip where
  dom : Dom
  mode : FlipMode
  lazy : Bool
  /-- bank mask, or team-relative panes by number -/
  sel : List Nat
  /-- cycle of issue -/
  since : Nat
  /-- the number its core would give the next item or matrix instruction at issue: those below it were issued before (R204) -/
  op : Nat
  /-- cancels were signalled -/
  cancelled : Bool
  /-- it is a `pfree` -/
  free : Bool
  /-- its switch marker -/
  sw : Bool
  deriving DecidableEq, Repr

/-- Pre-emption request at a group (R321, R323). -/
structure Preempt where
  since : Nat
  /-- ready for a save; `record` is the liveness record, none for a whole save -/
  ready : Bool
  record : Option Nat
  deriving DecidableEq, Repr

/-- One group slot (R15, R17). -/
structure Group where
  /-- the slot holds a bound group -/
  bound : Bool
  /-- its unit has been released (R357) -/
  released : Bool
  lid : Nat
  /-- first slot of its team, which names the team on its core -/
  slot0 : Nat
  /-- groups of its team -/
  ngrp : Nat
  gid : Nat
  team : Nat
  cohort : Nat
  stage : Nat
  pc : Word
  /-- select bit: plane B is working (R198) -/
  selB : Bool
  a : RegPlane
  b : RegPlane
  held : Option Holder
  wicks : Tab (BitVec 16)
  xstat : Tab XStat
  lstat : Tab LStat
  /-- lane queue, the running block first when `lrun` (R63) -/
  lq : List Block
  lrun : Bool
  /-- lane result queue, oldest first (R65) -/
  resq : List Word
  thr : Tab Thread
  trapvec : Word
  /-- element 0 of %lantern (R73) -/
  lanT : BitVec 16
  /-- elements 1 to 4 of %lantern (R172) -/
  lan1 : Word
  lan2 : Word
  lan3 : Word
  lan4 : Word
  /-- weight base WB (R273) -/
  wb : BitVec 20
  outs : List OutRes
  /-- parked at an S point since this cycle (R41) -/
  sPark : Option Nat
  lPark : Option Nat
  sWait : Wait
  lWait : Wait
  /-- cycle at which a `sleep` ends (R70) -/
  sleepTo : Nat
  sbuf : List PStore
  lsbuf : List PStore
  /-- in its trap handler (R312) -/
  handler : Bool
  pend : Option TrapRec
  /-- lane PC and threads to issue again first after `tret`, and whether they had gone on from there, after a LATE trap (R315, R317) -/
  redo : Option (Word × BitVec 32 × Bool)
  lantern : Option Lantern
  /-- frozen by a debug halt (R328), or by a context stop under HOLD (R318) -/
  halted : Bool
  stopped : Bool
  /-- its trap entry was made for a debugger alone: a continue returns from it (R328) -/
  dbgIn : Bool
  preempt : Option Preempt
  pflip : Option PFlip
  /-- group has yielded its issue turn: groups of its pipe still to issue once (R69) -/
  yielded : List Nat
  /-- CORE field of VBUS_STAT as the group reads it (R372) -/
  vbusSel : Nat
  /-- the change of %wpr that its stalled `swr` began has completed (R158) -/
  wprGo : Bool
  /-- wicks that have counted a `scrub` since they were last waited to zero (R384) -/
  scrubs : List Wick
  deriving DecidableEq, Repr

/-- A line of the column SRAM (R156, R180, R182). -/
structure Line where
  valid : Bool
  stale : Bool
  dirty : BitVec 32
  data : BitVec 1024
  /-- filled at a lantern request and not touched since (R172) -/
  lan : Bool
  /-- keys of the page it was filled from (R364) -/
  key : List Byte
  /-- poison of its four granules in the column SRAM (R376) -/
  poi : BitVec 4
  deriving DecidableEq, Repr

/-- A superblock slot: its way, tag and four lines (R156). -/
structure Super where
  way : Nat
  tag : Nat
  lines : List Line
  deriving DecidableEq, Repr

/-- One plane of a core's stores other than registers (R18). A cell not listed holds 0; a poison bit not listed is clear. -/
structure CorePlane where
  /-- scratchpad by absolute offset -/
  pad : Tab Byte
  padPoi : Tab Bool
  /-- accumulator element (n, row, col) at 1024 n + 32 row + col -/
  acc : Tab Word
  accPoi : Tab Bool
  wbuf : Tab Byte
  wbufPoi : Tab Bool
  /-- column scratchpad by offset from 0x80_0000 -/
  col : Tab Byte
  colPoi : Tab Bool
  /-- cache ways by set: the superblocks of a set, the most recently used first -/
  cache : Tab (List Super)
  /-- granules whose stored bits fail their ECC beyond correction: granule n of scratchpad at 4 n, of column scratchpad at 4 n + 1, of the weight
  buffer at 4 n + 2, of accumulator memory at 4 n + 3 (R151, R229, R268) -/
  ecc : Tab Bool
  deriving DecidableEq, Repr

/-- Mode, exponent and flags of an accumulator tile (R257, R269). -/
structure Tile where
  flt : Bool
  e : BitVec 16
  exh : Bool
  ovf : Bool
  nan : Bool
  deriving DecidableEq, Repr

/-- Pane table entry: the team by its first slot, and its owner: one group, or the team (R200). -/
structure Pane where
  slot0 : Nat
  owner : Option Nat
  deriving DecidableEq, Repr

/-- A translation held by a TLB (R155). -/
structure TlbEnt where
  part : Nat
  /-- virtual address ÷ 2^bits of the leaf -/
  vpn : Nat
  leaf : Leaf
  deriving DecidableEq, Repr

/-- The space of a scoreboard range (R163). -/
inductive Space where
  /-- virtual memory of a partition -/
  | global (part : Nat)
  /-- scratchpad of this core: absolute offsets, column scratchpad from 0x80_0000 -/
  | spad
  /-- staging plane of this core, by staging address -/
  | staging
  /-- working plane of the weight buffer -/
  | wbuf
  deriving DecidableEq, Repr

/-- A range scoreboard entry (R163). -/
structure Score where
  space : Space
  lo : Nat
  hi : Nat
  /-- number of the operation on its core -/
  op : Nat
  /-- core that issued the operation -/
  core : Nat
  /-- a transfer destination; otherwise an mma operand (R164) -/
  dst : Bool
  deriving DecidableEq, Repr

/-- Transfer commands (R225). -/
inductive XCmd where
  | xfer | xcvt | xfill | xgath | xred | xbcst | xagree
  deriving DecidableEq, Repr

/-- Why an item or mma fails: cause, detail, fault address (R232, R268). -/
structure Fail where
  cause : Cause
  detail : Nat
  faddr : Word
  deriving DecidableEq, Repr

/-- A transfer item (R218 to R222). -/
structure Item where
  id : Nat
  cmd : XCmd
  slot : Nat
  lid : Nat
  /-- cohort of the issuing group: with the launch it names the team on its core -/
  cohort : Nat
  part : Nat
  wick : Wick
  seq : BitVec 16
  d0 : Word
  d1 : Word
  d2 : Word
  d3 : Word
  /-- an engine carries it -/
  run : Bool
  /-- walltime of issue -/
  since : Nat
  /-- cycle at which a signalled cancel retires it, with the detail -/
  cancel : Option (Nat × Nat)
  /-- virtual address of the page it waits for (R232) -/
  page : Option Nat
  fail : Option Fail
  /-- collective record: own rank and endpoints as device and core (R235) -/
  own : Nat
  ends : List (Nat × Nat)
  kseq : Nat
  /-- the result of the collective has been delivered to this rank -/
  got : Bool
  /-- its walk is done and every granule it wrote carries poison until the digest is compared: how it will end, and the granules whose poison stays
  (R230) -/
  walked : Option (Option Fail × List Nat)
  /-- pane select bits by core at issue: which physical plane was staging (R206) -/
  sels : Tab (BitVec 64)
  /-- the step of issue: the order in which items are granted their destination lines (R228); at most one item is issued in a step -/
  grant : Nat
  /-- CRC failures in a row of what it sends over links, each retried (R229) -/
  tries : Nat
  deriving DecidableEq, Repr

/-- Queued matrix operations (R262). -/
inductive MOp where
  | mma | mzero | mld | mst | madd | mcvt | mscl | mtrans | mglow
  deriving DecidableEq, Repr

/-- An instruction of the matrix queue (R262). -/
structure MItem where
  id : Nat
  op : MOp
  slot : Nat
  lid : Nat
  cohort : Nat
  wick : Wick
  /-- sequence number on the wick -/
  seq : BitVec 16
  /-- execute mask at issue -/
  mask : BitVec 32
  tile : Nat
  x : Nat
  y : Nat
  /-- mode and exponent recorded at issue (R261, R271), and those of the tile before -/
  flt : Bool
  e : BitVec 16
  flt0 : Bool
  e0 : BitVec 16
  /-- exponents of mscl by row -/
  ks : List (BitVec 32)
  /-- address and stride of mld and mst, of A for mma -/
  addr : Nat
  stride : Nat
  spad : Bool
  /-- descriptor dwords, B offset and steps of mma; n of mglow in `steps` -/
  desc : List Word
  boff : Nat
  steps : Nat
  /-- cycle of issue -/
  since : Nat
  /-- cycle of issue or, later, the time at which the latest so far of the instructions that it waits for took effect (R262) -/
  free : Nat
  /-- on the tile port (mld, mst) -/
  run : Bool
  /-- step an interrupted mma resumes at (R274) -/
  resume : Nat
  fail : Option Fail
  /-- every step has committed: the time (R266) -/
  doneAt : Option Nat
  /-- a store touched its operands: its products are unspecified (R164) -/
  taint : Bool
  page : Option Nat
  deriving DecidableEq, Repr

/-- The operands of one fetched step: 32 rows of A and 32 columns of B, 64 element codes each, and their block scales (R255). -/
structure StepOps where
  a : List (List Nat)
  b : List (List Nat)
  sa : List (List Nat)
  sb : List (List Nat)
  /-- weight-buffer offset of its first chunk -/
  boff : Nat
  deriving DecidableEq, Repr

/-- The mma in the engine (R266). Times are cycles: an event at time x comes before cycle x. -/
structure Run where
  id : Nat
  /-- step computing or next to compute -/
  step : Nat
  /-- steps fetched, and the time at which the fetch under way ends -/
  fetched : Nat
  fetchEnd : Option Nat
  /-- weight-buffer offset of the next chunk to fetch -/
  boff : Nat
  /-- operands of the steps fetched and not committed -/
  ops : List StepOps
  started : Bool
  rung : Nat
  /-- work units still needed by the attempt, the squash before it included (R250) -/
  left : Nat
  deriving DecidableEq, Repr

/-- Matrix engine and its place in the dimmer (R266, R276 to R279). -/
structure Engine where
  /-- time up to which work and counters are settled -/
  t : Nat
  /-- the dimmer's next tick for it -/
  tick : Nat
  run : Option Run
  /-- time from which the next mma may reach the engine -/
  lastEnd : Nat
  /-- ramp position; none while idle -/
  pos : Option Nat
  /-- level since the last tick -/
  lv : Nat
  /-- it has begun to ramp down -/
  down : Bool
  /-- time of the grant request -/
  req : Option Nat
  /-- DIM_RAMP as of the grant (R277) -/
  ramp : Word
  /-- armed hold, in cycles -/
  armed : Option Nat
  /-- a hold runs up to this time -/
  holdTo : Option Nat
  /-- teams, by first slot, whose `mma` in the engine ends with the step under way: they are being saved (R274) -/
  stop : List Nat
  deriving DecidableEq, Repr

/-- A bind record in a core's slot table (R353). -/
structure Bind where
  lid : Nat
  slot0 : Nat
  ngrp : Nat
  stage : Nat
  team : Nat
  cohort : Nat
  last : Bool
  pane0 : Nat
  banks : BitVec 8
  wbuf : Bool
  /-- walltime of the write -/
  since : Nat
  /-- the team has been started -/
  started : Bool
  deriving DecidableEq, Repr

/-- A change of %wpr in progress (R159, R160). -/
structure WprChg where
  goal : Nat
  /-- the cycle the change cannot end before -/
  until_ : Nat
  /-- slot of the writing group -/
  slot : Nat
  deriving DecidableEq, Repr

/-- Fields of VBUS_STAT and lane repair state of a core (R371, R372). -/
structure Vbus where
  ssp : Nat
  dsp : Nat
  fail : Bool
  /-- which bus failed beyond repair: column SRAM, column DRAM -/
  failS : Bool
  failD : Bool
  /-- cycle up to which a bus of the core is being retrained (R371) -/
  trainTo : Nat
  woke : Bool
  /-- the layers of the column SRAM, those of the column DRAM are gated (R374) -/
  gateS : Bool
  gateD : Bool
  /-- gated layers that wake: an access has reached them (R375) -/
  wakeS : Bool
  wakeD : Bool
  retrain : Nat
  corr : Nat
  /-- accesses since CORR was last settled, in each of which an error may have been corrected (R372) -/
  due : Nat
  /-- corrected errors by lane: lane n of the column SRAM bus at n, of the column DRAM channel at 4096 + n (R371) -/
  lanes : Tab Nat
  /-- spared lanes: bus and lane -/
  spared : List (Nat × Nat)
  deriving DecidableEq, Repr

/-- One core (R14). -/
structure Core where
  a : CorePlane
  b : CorePlane
  accSel : BitVec 8
  paneSel : BitVec 64
  wbufSel : Bool
  colSel : Bool
  accHold : Tab (Option Holder)
  paneHold : Tab (Option Holder)
  wbufHold : Option Holder
  colHold : Option Holder
  tiles : Tab Tile
  panes : Tab (Option Pane)
  /-- team a bank is allocated to, by its first slot (R198) -/
  accOwn : Tab (Option Nat)
  wbufOwn : Option Nat
  wpr : Nat
  wprChg : Option WprChg
  tlb : List TlbEnt
  /-- instruction cache: lines by physical line number (R45) -/
  icache : Tab (BitVec 1024)
  score : List Score
  /-- number of the next item or queued matrix instruction -/
  nextOp : Nat
  items : List Item
  mq : List MItem
  /-- numbers of interrupted `mma` of saved teams, which are still to complete (R273, R274) -/
  away : List Nat
  /-- scratchpad of saved teams, which their items still reach, and its poison: each team's at the offset `Saved.at_` (R237, R324) -/
  keptPad : Tab Byte
  keptPoi : Tab Bool
  eng : Engine
  counters : Tab Word
  binds : List Bind
  vbus : Vbus
  collSeq : Tab Nat
  /-- collective items of the core that failed: partition, endpoints, record and number among that record's items (R235); one whose record breaks the table
  stands a second time, with no endpoints -/
  collFail : List (Nat × List (Nat × Nat) × Nat × Nat)
  /-- the slot whose scalar stream each scalar pipe took last, and each lane pipe its lane stream (R14) -/
  sLast : Tab Nat
  lLast : Tab Nat
  /-- slots whose writes of %wpr wait, in issue order (R158) -/
  wprQ : List Nat
  /-- cycle at which a team last left the core (R374) -/
  idleSince : Nat
  groups : Tab Group
  deriving DecidableEq, Repr

/-- One cluster (R155, R212, R362). -/
structure Cluster where
  tlb : List TlbEnt
  powered : Bool
  /-- being wiped: the cycle of the change -/
  wiping : Bool
  training : Bool
  /-- flip.clus in progress: issuing core, slot, and the ranks that acknowledged -/
  flipBy : Option (Nat × Nat)
  acks : List Nat
  deriving DecidableEq, Repr

/-- Snuffer job in progress (R369). -/
structure Snuf where
  slot : Option Nat
  cores : List Nat
  frames : List Nat
  /-- cores and frames still to do -/
  coresLeft : List Nat
  framesLeft : List Nat
  /-- the issuing group, and the number of the job on its wick -/
  core : Nat
  gslot : Nat
  lid : Nat
  cohort : Nat
  wick : Wick
  seq : BitVec 16
  deriving DecidableEq, Repr

/-- Registers of one partition (R320, R327, R330, R363, R370, R380). -/
structure Part where
  wdog : BitVec 32
  dbgHold : Bool
  dbgStep : Bool
  dbgLstp : Bool
  dbgBrkh : Bool
  dbgSlot : BitVec 7
  dbgCore : BitVec 8
  dbgHlt : Bool
  wp : List Word
  collBase : Word
  poolUnits : Nat
  poolUsed : Nat
  defq : Nat
  pwrCap : BitVec 16
  /-- level its engines may reach under CAP, in sixteenths (R381) -/
  ceiling : Nat
  /-- cycle before which the level takes no further step (R381) -/
  capAt : Nat
  snufState : Nat
  snufCores : Nat
  snufFrames : Nat
  snuf : Option Snuf
  /-- events waiting for room in the event queue (R359): KIND, dword 2, LID -/
  events : List (Nat × Word × Nat)
  /-- the scheduler exchanges its role (R377) -/
  held : Bool
  deriving DecidableEq, Repr

/-- A packet taken from a queue (R346, R347). -/
structure Pkt where
  dw : List Word
  /-- order number in its queue -/
  n : Nat
  started : Bool
  done : Bool
  deriving DecidableEq, Repr

/-- Who issued a `launch`, and on which wick (R300). -/
structure Issuer where
  /-- dequeue order number of the issuing launch -/
  ord : Nat
  core : Nat
  slot : Nat
  cohort : Nat
  wick : Wick
  done : Bool
  /-- the issuing `launch` was stepped over: its child is kept queued until the debugger continues (R329) -/
  hold : Bool
  deriving DecidableEq, Repr

/-- A queue context (R343) and the packets taken from it and not completed. -/
structure Queue where
  base : BitVec 52
  log2n : Nat
  part : Nat
  en : Bool
  priv : Bool
  wgt : Nat
  state : Nat
  link : Bool
  dev : Bool
  evq : Bool
  vec : Nat
  pass : Nat
  torn : Nat
  /-- cycle before which the front end does not look again at a packet it found not valid (R346) -/
  retry : Option Nat
  rd : BitVec 32
  wr : BitVec 32
  next : BitVec 52
  nlog2n : Nat
  cdone : Word
  pkts : List Pkt
  /-- packets taken so far -/
  taken : Nat
  /-- `launch` waits for room under R349 step 3 -/
  linkWait : Bool
  /-- a LINK was written and not yet fetched: writer's segment base, size and index (R349) -/
  wseg : Option (BitVec 52 × Nat × BitVec 32)
  /-- packets written by the device so far, and who issued those not yet taken, by order number (R300) -/
  pushed : Nat
  issuers : Tab Issuer
  deriving DecidableEq, Repr

/-- A declared region as resolved: class, first and last byte (R287, R289). An empty region is not listed. -/
structure Region where
  idx : Nat
  cls : Nat
  lo : Nat
  hi : Nat
  deriving DecidableEq, Repr

/-- States of a launch-table entry (R352). -/
inductive LState where
  | free | resolving | ready | bound | running | ended
  deriving DecidableEq, Repr

/-- States of a version (R292). -/
inductive VState where
  | free | running | complete | committed | aborted
  deriving DecidableEq, Repr

/-- A shadow line: dirty words and data (R293). -/
structure Shadow where
  mask : BitVec 32
  data : BitVec 1024
  /-- poison of its four granules as the launch sees them (R209) -/
  poi : BitVec 4
  /-- keys of the page it was written through, and its physical line number (R364) -/
  key : List Byte
  pline : Nat
  deriving DecidableEq, Repr

/-- A version tag of a partition (R292, R293). -/
structure Version where
  st : VState
  lines : Tab Shadow
  units : Nat
  deriving DecidableEq, Repr

/-- A gsig entry: physical address and amount (R303). -/
structure GSig where
  core : Nat
  slot : Nat
  pa : Nat
  amount : Word
  /-- the keys of its page, none where the page is not encrypted (R364) -/
  key : List Byte
  deriving DecidableEq, Repr

/-- A deferred child (R300). -/
structure Deferred where
  by_ : Issuer
  lrec : Word
  queue : Nat
  deriving DecidableEq, Repr

/-- How a launch ended: the fields of its completion record (R348). -/
structure Ending where
  status : Nat
  cause : Nat
  detail : Nat
  thread : BitVec 8
  strm : Bool
  hnd : Bool
  spc : Word
  lpc : Word
  msg : Word
  faddr : Word
  code : BitVec 16
  /-- walltime of the end: the commit of a launch that commits (R348) -/
  at_ : Option Nat
  deriving DecidableEq, Repr

/-- A launch (R284 to R300, R352). -/
structure Launch where
  st : LState
  queue : Nat
  pkt : Nat
  /-- graph and node it belongs to -/
  node : Option (Nat × Nat)
  issuer : Option Issuer
  lrec : Nat
  part : Nat
  priv : Bool
  direct : Bool
  cores : Bool
  /-- groups per team, teams per cohort, cohorts -/
  ngrp : Nat
  nteam : Nat
  ncoh : Nat
  nv : Nat
  ns : Nat
  stagemap : Nat
  entry : Word
  lcb : Word
  fmt : Word
  live : Word
  livecnt : Nat
  args : Word
  panes : Nat
  pfix : Nat
  pgrp : Nat
  accb : Nat
  wbuf : Bool
  rightT : Bool
  rightC : Bool
  rightK : Bool
  rightW : Bool
  prio : Nat
  quota : Nat
  regw : List (BitVec 32)
  bsem : Word
  bthr : Word
  bmap : Word
  bsrc0 : Word
  bsrc1 : Word
  /-- step of R289 it has reached, 2 to 6 -/
  step : Nat
  regions : List Region
  ver : Nat
  /-- dequeue order -/
  order : Nat
  nbf : Nat
  timed : Bool
  late : Bool
  refs : List Word
  gsigs : List GSig
  deferred : List Deferred
  /-- a write waits for more quota (R298) -/
  quotaWait : Bool
  /-- stopped and halted for a debugger: it goes on when it is continued, or ends when it is killed (R318) -/
  frozen : Bool
  /-- cohorts released, and the LS record written -/
  released : List Nat
  lastRec : Bool
  /-- groups exited -/
  exited : Nat
  /-- the version is COMPLETE (R292) -/
  complete : Bool
  /-- walltime of its first issue (R320) -/
  first : Option Nat
  ending : Option Ending
  deriving DecidableEq, Repr

/-- State of a graph node (R351). -/
inductive NState where
  | waiting | running | done | failed
  deriving DecidableEq, Repr

/-- A graph node (R350). -/
structure GNode where
  lrec : Nat
  count : Nat
  first : Nat
  nout : Nat
  st : NState
  /-- its regions as resolved at dequeue, for its edges (R297) -/
  regions : List Region
  deriving DecidableEq, Repr

/-- A graph in flight (R350, R351). -/
structure Graph where
  queue : Nat
  pkt : Nat
  part : Nat
  issuer : Option Issuer
  nodes : List GNode
  edges : List (Nat × Nat)
  gsem : Word
  gthr : Word
  src0 : Word
  src1 : Word
  s0 : Bool
  s1 : Bool
  f0 : Bool
  f1 : Bool
  /-- snapshot slots, once resolved -/
  snap : Option (Word × Word)
  refs : List Word
  order : Nat
  cause : Nat
  detail : Nat
  failed : Bool
  deriving DecidableEq, Repr

/-- A key slot (R365). -/
structure KeySlot where
  valid : Bool
  quar : Bool
  err : Bool
  key : List Byte
  deriving DecidableEq, Repr

/-- A Bruslink or Igold status record (R379). -/
structure Link where
  up : Bool
  lanes : Nat
  downs : Nat
  retry : Nat
  peer : BitVec 16
  deriving DecidableEq, Repr

/-- An `lx.swait` in progress (R355). -/
structure SWait where
  /-- cycle at which its limit passes; none without limit -/
  until_ : Option Nat
  rd : BitVec 5
  mask : BitVec 7
  deriving DecidableEq, Repr

/-- A Lamplighter core, named by its role: 0 the supervisor, p + 1 the scheduler of partition p, 9 the spare (R25, R341, R355). -/
structure Hart where
  x : Tab Word
  pc : Word
  mepc : Word
  mcause : Word
  mtval : Word
  mtvec : Word
  /-- machine-mode registers of RISC-V that the spec does not name, log entry 53: MIE and MPIE of mstatus, mie, mscratch -/
  mie : Bool
  mpie : Bool
  ie : Word
  mscratch : Word
  /-- address of a load-reserved and the bytes it read (RISC-V A) -/
  resv : Option (Nat × List Byte)
  sram : Tab Byte
  sig : BitVec 7
  swait : Option SWait
  /-- segment-linking interrupt pending (R349) -/
  irq : Bool
  deriving DecidableEq, Repr

/-- The registers of a group that a save keeps: bit k of each mask for register k (R322, R323). -/
structure Keep where
  v : Word
  s : Word
  p : BitVec 8
  deriving DecidableEq, Repr

/-- A saved team (R216, R324, R326). -/
structure Saved where
  core : Nat
  slot0 : Nat
  /-- its groups by slot, and the registers kept of each -/
  groups : List (Nat × Group)
  keeps : Tab Keep
  /-- the ranges of its scratchpad that are saved, by absolute offset; the bytes stand with its core, at `Saved.at_` -/
  ranges : List (Nat × Nat)
  /-- its banks' accumulator elements, their poison, the tiles saved, and their records -/
  acc : Tab Word
  accPoi : Tab Bool
  live : List Nat
  tiles : Tab Tile
  /-- working plane of the weight buffer -/
  wbuf : Tab Byte
  wbufPoi : Tab Bool
  /-- its record in the slot table, its entries of the pane table, its banks, and whether it holds the weight buffer -/
  bind : Bind
  paneTab : List (Nat × Pane)
  banks : List Nat
  hasWbuf : Bool
  /-- its matrix instructions, and the scoreboard entries of those to be issued again, by core -/
  mqs : List MItem
  scores : List (Nat × Score)
  /-- page it waits for, and whether the driver has answered: some true resident, some false invalid -/
  page : Option Nat
  answer : Option Bool
  /-- image of a context swap it belongs to, with the column scratchpad of its core and its poison -/
  ctx : Option Nat
  col : Tab Byte
  colPoi : Tab Bool
  deriving DecidableEq, Repr

/-- Where a core keeps the scratchpad of a saved team: a team is the only one of its launch and cohort on a core (R139, R353). -/
def Saved.at_ (v : Saved) : Nat := 2 ^ 20 * (512 * v.bind.cohort + v.bind.lid)
/-- A frontier block the device has written to a frame: its 32 dwords and the frontier they stand for (R316). -/
structure Front where
  words : List Word
  thr : Tab Thread
  lq : List Block
  lrun : Bool
  /-- what was still to issue again after a LATE trap (R315, R317) -/
  redo : Option (Word × BitVec 32 × Bool)
  deriving DecidableEq, Repr

/-- The device. -/
structure State where
  /-- who moves next -/
  turn : Turn
  core : Nat
  slot : Nat
  hart : Nat
  /-- core cycles since cold reset (R73) -/
  now : Nat
  /-- nanoseconds of %walltime (R73) -/
  wall : Nat
  /-- steps taken: numbers the free values -/
  fresh : Nat
  /-- column DRAM, host and peer memory by storage address (R21, R386) -/
  mem : List Host.Cell
  poison : Tab Bool
  eccu : Tab Bool
  /-- keys under which a line of column DRAM was last written, and the physical line number that was its tweak; `mem` holds what it was written
  with (R364) -/
  encTags : Tab (List Byte × Nat)
  /-- owner of a line registered at its home (R180), plus one -/
  owners : Tab Nat
  /-- by superblock of column DRAM: the bytes accessed through its column's window and through its die's, bit i for byte i, and the clusters that
  have completed `cctl.wbinv` since (R386) -/
  wins : Tab (BitVec 512 × BitVec 512 × List Nat)
  partMap : BitVec 96
  /-- clusters that left a partition, with that partition (R362) -/
  left : List (Nat × Nat)
  keys : Tab KeySlot
  keySel : Nat
  keyBlob : Nat
  quarBase : Word
  quarCores : BitVec 144
  vin : BitVec 16
  pin : BitVec 16
  tmax : BitVec 8
  thr : Bool
  uv : Bool
  fwRun : BitVec 16
  fwStaged : BitVec 16
  /-- the Lamplighter core that holds a role, that of the same number where not listed (R25, R378) -/
  roleCore : Tab Nat
  /-- roles exchanged so far by the update in progress (R377) -/
  fwDone : List Nat
  fwUpd : Bool
  fwErr : Bool
  brusNode : BitVec 16
  brus : Tab Link
  igold : Tab Link
  versions : Tab Version
  powered : Bool
  connected : Bool
  /-- measurement log: the SHA3-256 digests of firmware images, oldest first (R377) -/
  measLog : List (List Byte)
  /-- attestation reports: the measurement log, `DEV_ID`, the nonce and the signature of each (R377) -/
  attest : List (List (List Byte) × Word × Nat × List Byte)
  msix : List (Nat × Nat)
  /-- copy of PART_MAP that boot firmware keeps in column DRAM (R385) -/
  mapCopy : BitVec 96
  /-- bytes sent to the host or peers are in `mem`; the undervoltage since this cycle (R381) -/
  lowSince : Option Nat
  dimRamp : Tab Word
  parts : Tab Part
  clusters : Tab Cluster
  cores : Tab Core
  queues : Tab Queue
  launches : Tab Launch
  graphs : Tab Graph
  /-- number of the next launch in dequeue order -/
  order : Nat
  /-- translations of the front end -/
  feTlb : List TlbEnt
  harts : Tab Hart
  saved : List Saved
  /-- nodes that graph counter memory holds (R350) -/
  nodesUsed : Nat
  /-- frontier blocks the device has written, the latest first (R316) -/
  fronts : List Front
  /-- this step is not performed, and its agent tries again: an access of it met a line that a transfer engine owns (R228), or it ends matrix work on a core
  where something of the engine that falls before it is still to happen (R266) -/
  waits : Bool
  deriving DecidableEq, Repr

/-- A register plane after reset or bind: zero, no poison (R18, R353). -/
def RegPlane.reset : RegPlane := ⟨[], [], [], [], [], [], []⟩

/-- An unbound slot (R18, R73). The scalar PC has no reset value in the spec: 0, log entry 5. -/
def Group.reset : Group where
  bound := false
  released := false
  lid := 0
  slot0 := 0
  ngrp := 0
  gid := 0
  team := 0
  cohort := 0
  stage := 0
  pc := 0
  selB := false
  a := RegPlane.reset
  b := RegPlane.reset
  held := none
  wicks := []
  xstat := []
  lstat := []
  lq := []
  lrun := false
  resq := []
  thr := []
  trapvec := 0
  lanT := 400
  lan1 := 0
  lan2 := 0
  lan3 := 0
  lan4 := 0
  wb := 0
  outs := []
  sPark := none
  lPark := none
  sWait := .none
  lWait := .none
  sleepTo := 0
  sbuf := []
  lsbuf := []
  handler := false
  pend := none
  redo := none
  lantern := none
  halted := false
  stopped := false
  dbgIn := false
  preempt := none
  pflip := none
  yielded := []
  vbusSel := 0
  wprGo := false
  scrubs := []

/-- A core plane after reset (R18). -/
def CorePlane.reset : CorePlane := ⟨[], [], [], [], [], [], [], [], [], []⟩

/-- An idle engine (R276). -/
def Engine.reset : Engine := ⟨0, 0, none, 0, none, 0, false, none, 0, none, none, []⟩

/-- VBUS_STAT after reset (R372). -/
def Vbus.reset : Vbus := ⟨0, 0, false, false, false, 0, false, false, false, false, false, 0, 0, 0, [], []⟩

/-- A core after cold reset: plane A working, both planes zero (R18). -/
def Core.reset : Core where
  a := CorePlane.reset
  b := CorePlane.reset
  accSel := 0
  paneSel := 0
  wbufSel := false
  colSel := false
  accHold := []
  paneHold := []
  wbufHold := none
  colHold := none
  tiles := []
  panes := []
  accOwn := []
  wbufOwn := none
  wpr := 0
  wprChg := none
  tlb := []
  icache := []
  score := []
  nextOp := 0
  items := []
  mq := []
  away := []
  keptPad := []
  keptPoi := []
  eng := Engine.reset
  counters := []
  binds := []
  vbus := Vbus.reset
  collSeq := []
  collFail := []
  sLast := []
  lLast := []
  wprQ := []
  idleSince := 0
  groups := []

/-- A cluster after reset: assigned to no partition, it is powered down (R23). -/
def Cluster.reset : Cluster := ⟨[], false, false, false, none, []⟩

/-- The registers of a partition after reset (R320, R327, R330, R363, R370, R380). -/
def Part.reset : Part where
  wdog := 0
  dbgHold := false
  dbgStep := false
  dbgLstp := false
  dbgBrkh := false
  dbgSlot := 0
  dbgCore := 0
  dbgHlt := false
  wp := [0, 0, 0, 0]
  collBase := 0
  poolUnits := 0
  poolUsed := 0
  defq := 1
  pwrCap := 0
  ceiling := 16
  capAt := 0
  snufState := 0
  snufCores := 0
  snufFrames := 0
  snuf := none
  events := []
  held := false

/-- A queue context after reset: disabled, PASS 1 (R343). -/
def Queue.reset : Queue where
  base := 0
  log2n := 0
  part := 0
  en := false
  priv := false
  wgt := 0
  state := 0
  link := false
  dev := false
  evq := false
  vec := 0
  pass := 1
  torn := 0
  retry := none
  rd := 0
  wr := 0
  next := 0
  nlog2n := 0
  cdone := 0
  pkts := []
  taken := 0
  linkWait := false
  wseg := none
  pushed := 0
  issuers := []

/-- A free launch-table entry (R352). -/
def Launch.reset : Launch where
  st := .free
  queue := 0
  pkt := 0
  node := none
  issuer := none
  lrec := 0
  part := 0
  priv := false
  direct := false
  cores := false
  ngrp := 0
  nteam := 0
  ncoh := 0
  nv := 0
  ns := 0
  stagemap := 0
  entry := 0
  lcb := 0
  fmt := 0
  live := 0
  livecnt := 0
  args := 0
  panes := 0
  pfix := 0
  pgrp := 0
  accb := 0
  wbuf := false
  rightT := false
  rightC := false
  rightK := false
  rightW := false
  prio := 0
  quota := 0
  regw := []
  bsem := 0
  bthr := 0
  bmap := 0
  bsrc0 := 0
  bsrc1 := 0
  step := 0
  regions := []
  ver := 0
  order := 0
  nbf := 0
  timed := false
  late := false
  refs := []
  gsigs := []
  deferred := []
  quotaWait := false
  frozen := false
  released := []
  lastRec := false
  exited := 0
  complete := false
  first := none
  ending := none

/-- A FREE version tag (R292). -/
def Version.reset : Version := ⟨.free, [], 0⟩

/-- An empty key slot (R365). -/
def KeySlot.reset : KeySlot := ⟨false, false, false, []⟩

/-- A link that is down (R379). -/
def Link.reset : Link := ⟨false, 0, 0, 0, 0⟩

/-- A Lamplighter core after reset: registers 0, log entry 5. -/
def Hart.reset : Hart := ⟨[], 0, 0, 0, 0, 0, false, false, 0, 0, none, [], 0, none, false⟩

/-- The device right after cold reset. Values the spec does not give are named in log entries 1 to 6. -/
def State.reset : State where
  turn := .scalar
  core := 0
  slot := 0
  hart := 0
  now := 0
  wall := 0
  fresh := 0
  mem := []
  poison := []
  eccu := []
  encTags := []
  owners := []
  wins := []
  partMap := 0
  left := []
  keys := []
  keySel := 0
  keyBlob := 0
  quarBase := 0x8F0060000000
  quarCores := 0
  vin := 0
  pin := 0
  tmax := 0
  thr := false
  uv := false
  fwRun := 0
  fwStaged := 0
  roleCore := []
  fwDone := []
  fwUpd := false
  fwErr := false
  brusNode := 0
  brus := []
  igold := []
  versions := []
  powered := true
  connected := true
  measLog := []
  attest := []
  msix := []
  mapCopy := 0
  lowSince := none
  dimRamp := []
  parts := []
  clusters := []
  cores := []
  queues := []
  launches := []
  graphs := []
  order := 0
  feTlb := []
  harts := []
  saved := []
  nodesUsed := 0
  fronts := []
  waits := false

end Sys2Proof.Machine
end

