-- ==== Sys2Proof/Machine/Tab.lean ====
section
/-!
DEFINITION. Sys2Proof/Machine/Tab.lean: reading and writing the tables and byte lists of the state.
-/
namespace Sys2Proof.Machine

/-- The keys of a table rise. -/
def rising {α : Type} : Tab α → Prop
  | [] => True
  | [_] => True
  | e :: f :: r => e.1 < f.1 ∧ rising (f :: r)

/-- The value at a key; `d` where it is not listed. -/
def tget {α : Type} (d : α) : Tab α → Nat → α
  | [], _ => d
  | (k, v) :: r, n => if n = k then v else if n < k then d else tget d r n

/-- The table with a value at a key. -/
def tput {α : Type} : Tab α → Nat → α → Tab α
  | [], n, v => [(n, v)]
  | (k, w) :: r, n, v =>
    if n = k then (n, v) :: r else if n < k then (n, v) :: (k, w) :: r else (k, w) :: tput r n v

/-- The table without a key. -/
def tdel {α : Type} (t : Tab α) (n : Nat) : Tab α := t.filter fun e => e.1 != n

/-- The table with a value at a key, the default value not listed. -/
def tset {α : Type} [DecidableEq α] (d : α) (t : Tab α) (n : Nat) (v : α) : Tab α :=
  if v = d then tdel t n else tput t n v

/-- The numbers from `lo` to `lo + n - 1`. -/
def span (lo n : Nat) : List Nat := (List.range n).map (lo + ·)

/-- The bytes of a table from a key on. -/
def tbytes (t : Tab Byte) (lo n : Nat) : List Byte := (span lo n).map (tget 0 t)

/-- A byte table with bytes written from a key on. -/
def twrite (t : Tab Byte) (lo : Nat) : List Byte → Tab Byte
  | [] => t
  | b :: bs => twrite (tset 0 t lo b) (lo + 1) bs

/-- The keys from a key on set to one value. -/
def tfill {α : Type} [DecidableEq α] (d : α) (t : Tab α) (lo : Nat) (v : α) : Nat → Tab α
  | 0 => t
  | n + 1 => tfill d (tset d t lo v) (lo + 1) v n

/-- The entries outside a range of keys. -/
def tcut {α : Type} (t : Tab α) (lo n : Nat) : Tab α := t.filter fun e => !(lo ≤ e.1 && e.1 < lo + n)

/-- Some key of a range is listed as true. -/
def tany (t : Tab Bool) (lo n : Nat) : Bool := t.any fun e => e.2 && lo ≤ e.1 && e.1 < lo + n

/-- An element of a list, or a default. -/
def lget {α : Type} (d : α) (l : List α) (n : Nat) : α := (l[n]?).getD d

/-- The bits of a mask that are set, rising. -/
def bitsOf (n : Nat) (w : Nat) : List Nat := (List.range n).filter fun i => w.testBit i

/-- The mask with the listed bits set. -/
def maskOf : List Nat → Nat
  | [] => 0
  | n :: ns => (1 <<< n) ||| maskOf ns

/-- The first number below a bound that a test accepts. -/
def findBelow (p : Nat → Bool) (n : Nat) : Option Nat := (List.range n).find? p

/-- The memory's canonical form: addresses strictly rising, no byte equal to what an unlisted address reads as. -/
def memWf : List Host.Cell → Bool
  | [] => true
  | [e] => e.2 != 0
  | e :: f :: r => e.2 != 0 && (e.1 < f.1) && memWf (f :: r)

/-- A byte of memory. What an unlisted address reads as: 0, log entry 3. -/
def memByte (m : List Host.Cell) (a : Nat) : Byte := tget 0 m a

/-- Memory with a byte written; the byte 0 is not listed. -/
def memSet (m : List Host.Cell) (a : Nat) (b : Byte) : List Host.Cell := tset 0 m a b

/-- Memory with bytes written from an address on. -/
def memWrite (m : List Host.Cell) (a : Nat) : List Byte → List Host.Cell
  | [] => m
  | b :: bs => memWrite (memSet m a b) (a + 1) bs

end Sys2Proof.Machine
end

