-- ==== Sys2Proof/Machine/Flags.lean ====
section
/-!
DEFINITION. Sys2Proof/Machine/Flags.lean: conditions (R58) and the integer computations that scalar, lane and atomic instructions share
(R59, R60, R82 to R86, R186).
-/
namespace Sys2Proof.Machine

/-- A condition on two values (R58). -/
def Cond.holds {n : Nat} (cc : Cond) (a b : BitVec n) : Bool :=
  match cc with
  | .eq => a == b
  | .ne => a != b
  | .lt => a.slt b
  | .ge => !a.slt b
  | .ltu => a.ult b
  | .geu => !a.ult b
  | .le => !b.slt a
  | .gt => b.slt a
  | .leu => !b.ult a
  | .gtu => b.ult a

/-- A truth value as a register value. -/
def b2w (n : Nat) (x : Bool) : BitVec n := if x then 1 else 0

/-- Unsigned quotient; divisor 0 gives all ones (R59). -/
def divu (a b : Word) : Word := if b = 0 then BitVec.allOnes 64 else a / b

/-- Signed quotient truncated toward zero; divisor 0 gives all ones; the most negative value by -1 gives itself (R59). -/
def divs (a b : Word) : Word := if b = 0 then BitVec.allOnes 64 else BitVec.ofInt 64 (Int.tdiv a.toInt b.toInt)

/-- Unsigned remainder; divisor 0 gives the dividend (R59). -/
def remu (a b : Word) : Word := if b = 0 then a else a % b

/-- Signed remainder with the sign of the dividend; divisor 0 gives the dividend (R59). -/
def rems (a b : Word) : Word := if b = 0 then a else BitVec.ofInt 64 (Int.tmod a.toInt b.toInt)

/-- High half of the unsigned product. -/
def mulhu {n : Nat} (a b : BitVec n) : BitVec n := BitVec.ofNat n (a.toNat * b.toNat / 2 ^ n)

/-- High half of the signed product. -/
def mulhs {n : Nat} (a b : BitVec n) : BitVec n := BitVec.ofInt n (a.toInt * b.toInt / 2 ^ n)

/-- Smaller, unsigned. -/
def minu {n : Nat} (a b : BitVec n) : BitVec n := if a.ult b then a else b
/-- Smaller, signed. -/
def mins {n : Nat} (a b : BitVec n) : BitVec n := if a.slt b then a else b
/-- Larger, unsigned. -/
def maxu {n : Nat} (a b : BitVec n) : BitVec n := if a.ult b then b else a
/-- Larger, signed. -/
def maxs {n : Nat} (a b : BitVec n) : BitVec n := if a.slt b then b else a

/-- Number of zero bits above the highest set bit, of the `k` lowest bits. -/
def clzN {n : Nat} (a : BitVec n) : Nat → Nat
  | 0 => 0
  | k + 1 => if a.getLsbD k then 0 else 1 + clzN a k

/-- Leading zeros (R59, R82). -/
def clz {n : Nat} (a : BitVec n) : BitVec n := BitVec.ofNat n (clzN a n)

/-- Trailing zeros from bit `i` on, looking at `k` bits. -/
def ctzN {n : Nat} (a : BitVec n) (i : Nat) : Nat → Nat
  | 0 => 0
  | k + 1 => if a.getLsbD i then 0 else 1 + ctzN a (i + 1) k

/-- Trailing zeros (R59). -/
def ctz {n : Nat} (a : BitVec n) : BitVec n := BitVec.ofNat n (ctzN a 0 n)

/-- Number of set bits (R59, R82). -/
def popc {n : Nat} (a : BitVec n) : BitVec n := BitVec.ofNat n ((List.range n).countP fun i => a.getLsbD i)

/-- Bits in reverse order (R82). -/
def brev (a : BitVec 32) : BitVec 32 := BitVec.ofNat 32 (maskOf ((List.range 32).filter fun i => a.getLsbD (31 - i)))

/-- Bits pos + len - 1 down to pos of a value; bits above its top read 0, or its sign under `sx`, and so does the result above len (R60, R83). -/
def fieldGet {n : Nat} (sx : Bool) (a : BitVec n) (pos len : Nat) : BitVec n :=
  if len = 0 then 0
  else
    let v : Int := (if sx then a.toInt else a.toNat) / 2 ^ pos % 2 ^ len
    if sx && v ≥ 2 ^ (len - 1) then BitVec.ofInt n (v - 2 ^ len) else BitVec.ofInt n v

/-- A value with positions pos + len - 1 down to pos replaced by the low bits of another; positions above the top are dropped (R60, R83). -/
def fieldPut {n : Nat} (old a : BitVec n) (pos len : Nat) : BitVec n :=
  let m : BitVec n := BitVec.ofNat n ((2 ^ len - 1) * 2 ^ pos)
  (old &&& ~~~m) ||| (BitVec.ofNat n (a.toNat % 2 ^ len * 2 ^ pos))

/-- `bext` (R60). -/
def bextOf (sx : Bool) (a d : Word) : Word := fieldGet sx a (d.toNat % 64) (min (d.toNat / 256 % 128) 64)

/-- `bins` (R60). -/
def binsOf (old a d : Word) : Word := fieldPut old a (d.toNat % 64) (min (d.toNat / 256 % 128) 64)

/-- `bfe` (R83). -/
def bfeOf (sx : Bool) (a b : BitVec 32) : BitVec 32 := fieldGet sx a (b.toNat % 32) (min (b.toNat / 256 % 64) 32)

/-- `bfi` (R83). -/
def bfiOf (a b c : BitVec 32) : BitVec 32 := fieldPut c a (b.toNat % 32) (min (b.toNat / 256 % 64) 32)

/-- Byte i of a value. -/
def byteOf {n : Nat} (a : BitVec n) (i : Nat) : BitVec 8 := BitVec.ofNat 8 (a.toNat / 2 ^ (8 * i))

/-- A 32-bit value from its bytes, the lowest first. -/
def ofBytes32 (bs : List Byte) : BitVec 32 := BitVec.ofNat 32 (leNat bs)

/-- A 64-bit value from its bytes, the lowest first. -/
def ofBytes64 (bs : List Byte) : Word := BitVec.ofNat 64 (leNat bs)

/-- `perm` (R84). -/
def permOf (a b c : BitVec 32) : BitVec 32 :=
  ofBytes32 ((List.range 4).map fun i =>
    let sel := c.toNat / 2 ^ (4 * i) % 16
    let byte := byteOf (b ++ a) (sel % 8)
    if 8 ≤ sel then (if byte.getLsbD 7 then 0xFF else 0) else byte)

/-- `plut`, nibble form (R85). -/
def plutNib (a : BitVec 32) (b : Word) : BitVec 32 :=
  BitVec.ofNat 32 (pack ((List.range 8).map fun i => (4 * i, b.toNat / 2 ^ (4 * (a.toNat / 2 ^ (4 * i) % 16)) % 16)))
where
  /-- A number from fields: lowest bit and value. -/
  pack : List (Nat × Nat) → Nat
    | [] => 0
    | f :: fs => f.2 * 2 ^ f.1 + pack fs

/-- `plut`, byte forms (R85). -/
def plutByte (hi : Bool) (a : BitVec 32) (b c : Word) : BitVec 32 :=
  ofBytes32 ((List.range 4).map fun i => byteOf (c ++ b) ((byteOf a i).toNat / (if hi then 16 else 1) % 16))

/-- `dsh` (R82): with n up to 63. -/
def dshOf (left : Bool) (a b c : BitVec 32) : BitVec 32 :=
  let x := b.toNat * 2 ^ 32 + a.toNat
  let n := c.toNat % 64
  if left then BitVec.ofNat 32 (x * 2 ^ n % 2 ^ 64 / 2 ^ 32) else BitVec.ofNat 32 (x / 2 ^ n)

/-- `idot4` (R82). -/
def idot4Of (u : Bool) (a b c : BitVec 32) : BitVec 32 :=
  let val := fun (x : BitVec 32) (i : Nat) => if u then ((byteOf x i).toNat : Int) else (byteOf x i).toInt
  BitVec.ofInt 32 ((if u then (c.toNat : Int) else c.toInt) + ((List.range 4).map fun i => val a i * val b i).foldl (· + ·) 0)

/-- One element narrowed to `w` bits by `ipack` (R86). -/
def narrow (w : Nat) (u sat : Bool) (e : Int) : Nat :=
  let lo : Int := if u then 0 else -(2 ^ (w - 1))
  let hi : Int := if u then 2 ^ w - 1 else 2 ^ (w - 1) - 1
  ((if sat then max lo (min hi e) else e) % 2 ^ w).toNat

/-- `ipack` (R86). -/
def ipackOf (byt u sat : Bool) (a b : BitVec 32) : BitVec 32 :=
  if byt then
    let h := fun (x : BitVec 32) (i : Nat) => (BitVec.ofNat 16 (x.toNat / 2 ^ (16 * i))).toInt
    BitVec.ofNat 32 (narrow 8 u sat (h a 0) + 2 ^ 8 * narrow 8 u sat (h a 1)
      + 2 ^ 16 * narrow 8 u sat (h b 0) + 2 ^ 24 * narrow 8 u sat (h b 1))
  else BitVec.ofNat 32 (narrow 16 u sat a.toInt + 2 ^ 16 * narrow 16 u sat b.toInt)

/-- `iext` (R86). -/
def iextOf (byt u : Bool) (a b : BitVec 32) : BitVec 32 :=
  if byt then
    let x := byteOf a (b.toNat % 4)
    if u then x.zeroExtend 32 else x.signExtend 32
  else
    let x : BitVec 16 := BitVec.ofNat 16 (a.toNat / 2 ^ (16 * (b.toNat % 2)))
    if u then x.zeroExtend 32 else x.signExtend 32

/-- A reduction operation (R88). -/
def redOf (op : RedOp) (a b : BitVec 32) : BitVec 32 :=
  match op with
  | .add => a + b
  | .min => mins a b
  | .max => maxs a b
  | .minu => minu a b
  | .maxu => maxu a b
  | .and => a &&& b
  | .or => a ||| b
  | .xor => a ^^^ b

/-- The identity of a reduction (R88). -/
def redId (op : RedOp) : BitVec 32 :=
  match op with
  | .add => 0
  | .or => 0
  | .xor => 0
  | .maxu => 0
  | .and => 0xFFFFFFFF
  | .minu => 0xFFFFFFFF
  | .min => 0x7FFFFFFF
  | .max => 0x80000000

/-- The operations of the atomics except `.fadd` (R186). -/
def atomInt {n : Nat} (op : AtomOp) (old v : BitVec n) : BitVec n :=
  match op with
  | .add => old + v
  | .min => mins old v
  | .max => maxs old v
  | .minu => minu old v
  | .maxu => maxu old v
  | .and => old &&& v
  | .or => old ||| v
  | .xor => old ^^^ v
  | .xchg => v
  | .fadd => old
  | .incw => if !old.ult v then 0 else old + 1
  | .decw => if old == 0 || v.ult old then v else old - 1

end Sys2Proof.Machine
end

