-- ==== Sys2Proof/Machine/Access.lean ====
section
/-!
DEFINITION. Sys2Proof/Machine/Access.lean: reading and replacing the parts of the state: cores, groups, launches, registers and poison.
-/
namespace Sys2Proof.Machine

/-- Core `c`. -/
def State.coreAt (s : State) (c : Nat) : Core := tget Core.reset s.cores c
/-- The state with core `c` replaced. -/
def State.setCore (s : State) (c : Nat) (x : Core) : State := { s with cores := tput s.cores c x }
/-- The state with core `c` changed. -/
def State.modCore (s : State) (c : Nat) (f : Core → Core) : State := s.setCore c (f (s.coreAt c))
/-- The group in slot `g` of core `c`. -/
def State.grpAt (s : State) (c g : Nat) : Group := tget Group.reset (s.coreAt c).groups g
/-- The state with a group replaced. -/
def State.setGrp (s : State) (c g : Nat) (x : Group) : State :=
  s.setCore c { s.coreAt c with groups := tput (s.coreAt c).groups g x }
/-- The state with a group changed. -/
def State.modGrp (s : State) (c g : Nat) (f : Group → Group) : State := s.setGrp c g (f (s.grpAt c g))
/-- The acting group. -/
def State.grp (s : State) : Group := s.grpAt s.core s.slot
/-- The state with the acting group changed. -/
def State.modG (s : State) (f : Group → Group) : State := s.modGrp s.core s.slot f
/-- The acting core. -/
def State.me (s : State) : Core := s.coreAt s.core

/-- Launch entry `l`. -/
def State.lchAt (s : State) (l : Nat) : Launch := tget Launch.reset s.launches l
/-- The state with a launch entry changed. -/
def State.modLch (s : State) (l : Nat) (f : Launch → Launch) : State := { s with launches := tput s.launches l (f (s.lchAt l)) }
/-- The launch of the acting group. -/
def State.lch (s : State) : Launch := s.lchAt s.grp.lid
/-- The partition of the acting group. -/
def State.prt (s : State) : Nat := s.lch.part
/-- Registers of partition `p`. -/
def State.partAt (s : State) (p : Nat) : Part := tget Part.reset s.parts p
/-- The state with a partition's registers changed. -/
def State.modPart (s : State) (p : Nat) (f : Part → Part) : State := { s with parts := tput s.parts p (f (s.partAt p)) }
/-- Cluster `k`. -/
def State.clAt (s : State) (k : Nat) : Cluster := tget Cluster.reset s.clusters k
/-- The state with a cluster changed. -/
def State.modCl (s : State) (k : Nat) (f : Cluster → Cluster) : State := { s with clusters := tput s.clusters k (f (s.clAt k)) }
/-- Queue context `q`. -/
def State.qAt (s : State) (q : Nat) : Queue := tget Queue.reset s.queues q
/-- The state with a queue context changed. -/
def State.modQ (s : State) (q : Nat) (f : Queue → Queue) : State := { s with queues := tput s.queues q (f (s.qAt q)) }
/-- Lamplighter core `h`. -/
def State.hartAt (s : State) (h : Nat) : Hart := tget Hart.reset s.harts h
/-- The state with a Lamplighter core changed. -/
def State.modHart (s : State) (h : Nat) (f : Hart → Hart) : State := { s with harts := tput s.harts h (f (s.hartAt h)) }
/-- The Lamplighter core that holds a role (R25, R378). -/
def State.roleAt (s : State) (r : Nat) : Nat := tget r s.roleCore r
/-- Key slot `k`. -/
def State.keyAt (s : State) (k : Nat) : KeySlot := tget KeySlot.reset s.keys k
/-- Version tag `t` of partition `p` (R292). -/
def State.verAt (s : State) (p t : Nat) : Version := tget Version.reset s.versions (256 * p + t)
/-- The state with a version changed. -/
def State.modVer (s : State) (p t : Nat) (f : Version → Version) : State :=
  { s with versions := tput s.versions (256 * p + t) (f (s.verAt p t)) }
/-- The graph with a number. -/
def State.graphAt (s : State) (n : Nat) : Option Graph := tget none (s.graphs.map fun e => (e.1, some e.2)) n

/-- DIM_RAMP of a die; its reset value gives levels 1 to 16 (R277). -/
def State.rampOf (s : State) (die : Nat) : Word := tget 0xFEDCBA9876543210 s.dimRamp die

/-- The partition that reaches a flat cluster: the one it is assigned to (R361), none while it is unassigned or being wiped (R23, R362). -/
def State.partOfCl (s : State) (k : Nat) : Option Nat :=
  let e := s.partMap.toNat / 2 ^ (4 * k) % 16
  if 8 ≤ e && !(s.clAt k).wiping then some (e % 8) else none
/-- The partition that owns a core (R23). -/
def State.partOfCore (s : State) (c : Nat) : Option Nat := s.partOfCl (c / 6)
/-- The flat cores of a partition. -/
def State.coresOf (s : State) (p : Nat) : List Nat := (List.range 144).filter fun c => s.partOfCore c == some p

/-- Wick `n` (R67). -/
def Group.wick (g : Group) (n : Wick) : BitVec 16 := tget 0 g.wicks n.toNat
/-- The group with a wick set. -/
def Group.setWick (g : Group) (n : Wick) (x : BitVec 16) : Group := { g with wicks := tput g.wicks n.toNat x }
/-- Transfer status record of a wick (R231). -/
def Group.xs (g : Group) (n : Wick) : XStat := tget ⟨0, 0, 0, 0, 0, 0⟩ g.xstat n.toNat
/-- The group with a transfer status record replaced. -/
def Group.setXs (g : Group) (n : Wick) (x : XStat) : Group := { g with xstat := tput g.xstat n.toNat x }
/-- Launch outcome record of a wick (R301). -/
def Group.ls (g : Group) (n : Wick) : LStat := tget ⟨0, 0, 0, 0, 0, 0, 0⟩ g.lstat n.toNat
/-- The group with a launch outcome record replaced. -/
def Group.setLs (g : Group) (n : Wick) (x : LStat) : Group := { g with lstat := tput g.lstat n.toNat x }

/-- A thread's frontier state. What it is after reset, before any block has started, R119 does not give: finished at lane PC 0, the model's choice, log
entry 5. -/
def Group.thrAt (g : Group) (t : Nat) : Thread := tget ⟨0, [], .finished⟩ g.thr t
/-- The group with a thread changed. -/
def Group.modThr (g : Group) (t : Nat) (f : Thread → Thread) : Group := { g with thr := tput g.thr t (f (g.thrAt t)) }
/-- The running threads, rising (R119). -/
def Group.running (g : Group) : List Nat := (List.range 32).filter fun t => (g.thrAt t).st == .running
/-- The lane stream is idle: no block running and none queued (R64). -/
def Group.idle (g : Group) : Bool := g.lq.isEmpty

/-- The working register plane (R198). -/
def Group.work (g : Group) : RegPlane := if g.selB then g.b else g.a
/-- The staging register plane (R198). -/
def Group.stage_ (g : Group) : RegPlane := if g.selB then g.a else g.b
/-- The group with its working register plane changed. -/
def Group.modWork (g : Group) (f : RegPlane → RegPlane) : Group := if g.selB then { g with b := f g.b } else { g with a := f g.a }
/-- The group with its staging register plane changed. -/
def Group.modStage (g : Group) (f : RegPlane → RegPlane) : Group := if g.selB then { g with a := f g.a } else { g with b := f g.b }

/-- A scalar register of a plane; s0 reads zero (R57). -/
def RegPlane.rs (p : RegPlane) (n : Nat) : Word := if n = 0 then 0 else tget 0 p.s n
/-- A plane with a scalar register written: s0 discards it (R57); the register's poison clears, and its check is new (R208, R209). -/
def RegPlane.ws (p : RegPlane) (n : Nat) (x : Word) : RegPlane :=
  if n = 0 then p else { p with s := tput p.s n x, sPoi := tput p.sPoi n false, ecc := tset false p.ecc (0x2000 + 8 * n) false }
/-- A vector register of a thread. -/
def RegPlane.rv (p : RegPlane) (t n : Nat) : BitVec 32 := tget 0 p.v (64 * t + n)
/-- A plane with a vector register of a thread written; its poison clears, and its check is new (R208, R209). -/
def RegPlane.wv (p : RegPlane) (t n : Nat) (x : BitVec 32) : RegPlane :=
  { p with v := tput p.v (64 * t + n) x, vPoi := tput p.vPoi (64 * t + n) false, ecc := tset false p.ecc (256 * t + 4 * n) false }
/-- A predicate of a thread; p0 reads 1 (R35). -/
def RegPlane.rp (p : RegPlane) (t n : Nat) : Bool := n == 0 || (tget 0 p.p t).getLsbD n
/-- A plane with one predicate of a thread written. -/
def RegPlane.wp (p : RegPlane) (t n : Nat) (x : Bool) : RegPlane :=
  if n = 0 then p
  else
    let old := tget 0 p.p t
    { p with p := tput p.p t (if x then old ||| BitVec.ofNat 8 (2 ^ n) else old &&& ~~~BitVec.ofNat 8 (2 ^ n)) }
/-- A scalar register is poisoned; s0 never is (R57). -/
def RegPlane.sBad (p : RegPlane) (n : Nat) : Bool := n != 0 && tget false p.sPoi n
/-- A vector register of a thread is poisoned. -/
def RegPlane.vBad (p : RegPlane) (t n : Nat) : Bool := tget false p.vPoi (64 * t + n)
/-- The predicates of a thread are poisoned. -/
def RegPlane.pBad (p : RegPlane) (t : Nat) : Bool := tget false p.pPoi t
/-- The plane holds some poisoned granule. -/
def RegPlane.anyBad (p : RegPlane) : Bool := (p.sPoi ++ p.vPoi ++ p.pPoi).any (·.2)

/-- Lantern mode is running: instructions issue in it (R168). -/
def Group.inLan (g : Group) : Bool := match g.lantern with
  | some l => l.phase == .run
  | none => false
/-- A scalar register is dark (R168). -/
def Group.sDark (g : Group) (n : Nat) : Bool := match g.lantern with
  | some l => l.phase == .run && n != 0 && tget false l.sDark n
  | none => false
/-- A vector register of a thread is dark. -/
def Group.vDark (g : Group) (t n : Nat) : Bool := match g.lantern with
  | some l => l.phase == .run && tget false l.vDark (64 * t + n)
  | none => false
/-- A predicate of a thread is dark. -/
def Group.pDark (g : Group) (t n : Nat) : Bool := match g.lantern with
  | some l => l.phase == .run && n != 0 && tget false l.pDark (8 * t + n)
  | none => false
/-- A result bears on a register of the group: it is outstanding, but for one outstanding since lantern mode was entered whose register an instruction has
written since, so that it is no longer dark (R42, R92, R168). -/
def Group.bears (g : Group) (o : OutRes) (dark : Bool) : Bool := !(o.entry && g.inLan && !dark)
/-- A result outstanding for scalar register `n`. -/
def Group.outS (g : Group) (n : Nat) : Bool := g.outs.any fun o => g.bears o (g.sDark n) && o.ds.any fun d => match d with
  | .s k _ => k == n
  | _ => false
/-- A result outstanding for vector register `n` of thread `t`. -/
def Group.outV (g : Group) (t n : Nat) : Bool := g.outs.any fun o => g.bears o (g.vDark t n) && o.ds.any fun d => match d with
  | .v t' k _ => t' == t && k == n
  | _ => false
/-- A result outstanding for predicate `n` of thread `t`. -/
def Group.outP (g : Group) (t n : Nat) : Bool := g.outs.any fun o => g.bears o (g.pDark t n) && o.ds.any fun d => match d with
  | .p t' k _ => t' == t && k == n
  | _ => false

/-- A scalar register as the acting group's instruction reads it: an unspecified value while a result is outstanding for it (R42). -/
def State.rS (s : State) (n : SReg) : Word :=
  if n != 0 && s.grp.outS n.toNat then Config.freeWord s.fresh n.toNat else s.grp.work.rs n.toNat
/-- Register `n + i` of a run (R33). -/
def State.rRun (s : State) (n : SReg) (i : Nat) : Word := s.rS (n + BitVec.ofNat 6 i)
/-- A vector register of a thread as an instruction reads it (R42). -/
def State.rV (s : State) (t : Nat) (n : VReg) : BitVec 32 :=
  if s.grp.outV t n.toNat then (Config.freeWord s.fresh (64 + 64 * t + n.toNat)).truncate 32 else s.grp.work.rv t n.toNat
/-- A predicate of a thread as an instruction reads it (R42). -/
def State.rP (s : State) (t : Nat) (n : Nat) : Bool :=
  if n != 0 && s.grp.outP t n then Config.freeBool s.fresh (8 * t + n) else s.grp.work.rp t n

/-- A scalar register holds poison as an instruction reads it: a read before an outstanding result has returned raises no trap (R42, R208). -/
def State.sBadR (s : State) (n : Nat) : Bool := s.grp.work.sBad n && !s.grp.outS n
/-- The same of a vector register of a thread. -/
def State.vBadR (s : State) (t n : Nat) : Bool := s.grp.work.vBad t n && !s.grp.outV t n
/-- The same of a predicate of a thread. -/
def State.pBadR (s : State) (t n : Nat) : Bool := n != 0 && s.grp.work.pBad t && !s.grp.outP t n

/-- Threads whose PC is the lowest among the running ones: the frontier PC (R120). -/
def Group.frontier (g : Group) : Option Word :=
  g.running.foldl (fun m t => match m with
    | none => some (g.thrAt t).pc
    | some p => some (if (g.thrAt t).pc.ult p then (g.thrAt t).pc else p)) none

/-- The lane PC and active mask of the next lane instruction: after `tret` the threads to do again, otherwise the frontier (R120, R317). -/
def Group.active (g : Group) : Option (Word × List Nat) :=
  match g.redo with
  | some (l, m, _) =>
    let ts := g.running.filter fun t => m.getLsbD t
    if ts.isEmpty then g.frontier.map fun p => (p, g.running.filter fun t => (g.thrAt t).pc == p) else some (l, ts)
  | none => g.frontier.map fun p => (p, g.running.filter fun t => (g.thrAt t).pc == p)

/-- The next lane instruction is a load done again after a LATE trap: its threads have gone on already (R315, R317). -/
def Group.stays (g : Group) : Bool := match g.redo with
  | some (_, m, late) => late && g.running.any fun t => m.getLsbD t
  | none => false

/-- The next lane PC in sequence (R39, R120). -/
def lnext (p : Word) : Word := if p.toNat % 4096 == 4080 then p + 16 else p + 12
/-- A lane address is valid (R39). -/
def lvalid (p : Word) : Bool := p.toNat % 4096 % 12 == 0 && p.toNat % 4096 ≤ 4080

/-- A 32-bit mask of threads. -/
def tmask (ts : List Nat) : BitVec 32 := BitVec.ofNat 32 (maskOf ts)

/-- The group with its lantern record changed. -/
def Group.modLan (g : Group) (f : Lantern → Lantern) : Group := { g with lantern := g.lantern.map f }
/-- The group with a scalar register marked dark or not. -/
def Group.setSDark (g : Group) (n : Nat) (x : Bool) : Group := g.modLan fun l => { l with sDark := tput l.sDark n x }
/-- The group with a vector register of a thread marked dark or not. -/
def Group.setVDark (g : Group) (t n : Nat) (x : Bool) : Group := g.modLan fun l => { l with vDark := tput l.vDark (64 * t + n) x }
/-- The group with a predicate of a thread marked dark or not. -/
def Group.setPDark (g : Group) (t n : Nat) (x : Bool) : Group := g.modLan fun l => { l with pDark := tput l.pDark (8 * t + n) x }
/-- A suppression counted (R172). -/
def Group.suppress (g : Group) : Group := { g with lan4 := g.lan4 + 1 }

/-- The working plane of the core's cache ways and column scratchpad (R198). -/
def Core.colWork (k : Core) : CorePlane := if k.colSel then k.b else k.a
/-- The core with a plane changed: `b` for plane B. -/
def Core.modPlane (k : Core) (b : Bool) (f : CorePlane → CorePlane) : Core := if b then { k with b := f k.b } else { k with a := f k.a }
/-- A plane of the core. -/
def Core.plane (k : Core) (b : Bool) : CorePlane := if b then k.b else k.a
/-- The select bit of a pane (R198). -/
def Core.paneB (k : Core) (p : Nat) : Bool := k.paneSel.getLsbD p
/-- The select bit of the bank of a tile (R198). -/
def Core.accB (k : Core) (tile : Nat) : Bool := k.accSel.getLsbD (tile / 8)
/-- A tile's record; FIX with exponent 0 where none was written, log entry 5. -/
def Core.tile (k : Core) (n : Nat) : Tile := tget ⟨false, 0, false, false, false⟩ k.tiles n
/-- The core with a tile's record changed. -/
def Core.modTile (k : Core) (n : Nat) (f : Tile → Tile) : Core := { k with tiles := tput k.tiles n (f (k.tile n)) }
/-- A counter of the core (R256, R273). -/
def Core.ctr (k : Core) (n : Nat) : Word := tget 0 k.counters n
/-- The core with a number added to a counter, modulo 2^64 (R256). -/
def Core.count (k : Core) (n : Nat) (x : Nat) : Core := { k with counters := tput k.counters n (k.ctr n + BitVec.ofNat 64 x) }
/-- The holder of a pane's staging plane. -/
def Core.paneHolder (k : Core) (p : Nat) : Option Holder := tget none k.paneHold p
/-- The holder of a bank's staging plane. -/
def Core.accHolder (k : Core) (b : Nat) : Option Holder := tget none k.accHold b
/-- A pane table entry (R200). -/
def Core.pane (k : Core) (p : Nat) : Option Pane := tget none k.panes p
/-- The absolute panes allocated to a team, rising (R200). -/
def Core.teamPanes (k : Core) (slot0 : Nat) : List Nat := (List.range 64).filter fun p => match k.pane p with
  | some e => e.slot0 == slot0
  | none => false
/-- The banks allocated to a team. -/
def Core.teamBanks (k : Core) (slot0 : Nat) : List Nat := (List.range 8).filter fun b => tget none k.accOwn b == some slot0

/-- The bound groups of a core by slot. -/
def Core.bound (k : Core) : List (Nat × Group) := k.groups.filter fun e => e.2.bound
/-- Every bound group of a launch, as core and slot. -/
def State.grpsOf (s : State) (l : Nat) : List (Nat × Nat) :=
  s.cores.flatMap fun e => (e.2.bound.filter fun g => g.2.lid == l).map fun g => (e.1, g.1)

/-- The width field of a descriptor (R221). -/
def Item.w (i : Item) : Nat := i.d2.toNat % 65536
/-- Rows of a descriptor (R221). -/
def Item.h (i : Item) : Nat := i.d2.toNat / 2 ^ 16 % 65536 + 1
/-- Source stride in bytes (R221). -/
def Item.ss (i : Item) : Nat := i.d2.toNat / 2 ^ 32 % 65536 * 32
/-- Destination stride in bytes (R221). -/
def Item.ds (i : Item) : Nat := i.d2.toNat / 2 ^ 48 * 32
/-- A field of D3 (R222). -/
def Item.f (i : Item) (lo n : Nat) : Nat := i.d3.toNat / 2 ^ lo % 2 ^ n
/-- Source space. -/
def Item.ssp (i : Item) : Nat := i.f 0 2
/-- Destination space. -/
def Item.dsp (i : Item) : Nat := i.f 2 2
/-- Source format. -/
def Item.sfmt (i : Item) : Nat := i.f 4 4
/-- Destination format. -/
def Item.dfmt (i : Item) : Nat := i.f 8 4
/-- Rounding mode. -/
def Item.rm (i : Item) : Rm := (Rm.ofCode (i.f 12 2)).getD .rn
/-- `.sat`. -/
def Item.sat (i : Item) : Bool := i.f 14 1 == 1
/-- A digest is verified. -/
def Item.dig (i : Item) : Bool := i.f 15 1 == 1
/-- Time limit code. -/
def Item.tmo (i : Item) : Nat := i.f 16 4
/-- Reduction. -/
def Item.op (i : Item) : Nat := i.f 20 4
/-- Collective record number. -/
def Item.coll (i : Item) : Nat := i.f 24 6
/-- Root rank. -/
def Item.root (i : Item) : Nat := i.f 30 6

/-- Bytes per row of w elements of a format (R223). -/
def fmtBytes (f w : Nat) : Nat :=
  match f with
  | 1 => 4 * w
  | 2 => 2 * w
  | 3 => 2 * w
  | 6 => w + w / 32
  | 7 => w / 2 + w / 32
  | 8 => 4 * w
  | _ => w
/-- Bytes of one element of a format that is naturally aligned (R224). -/
def fmtAlign (f : Nat) : Nat :=
  match f with
  | 1 => 4
  | 2 => 2
  | 3 => 2
  | 8 => 4
  | _ => 1
/-- A collective command (R235). -/
def Item.isColl (i : Item) : Bool :=
  match i.cmd with
  | .xred => true
  | .xbcst => true
  | .xagree => true
  | _ => false
/-- Source bytes per row. -/
def Item.srow (i : Item) : Nat :=
  match i.cmd with
  | .xfill => 0
  | _ => fmtBytes i.sfmt i.w
/-- Destination bytes per row. -/
def Item.drow (i : Item) : Nat :=
  match i.cmd with
  | .xagree => i.w / 32
  | _ => fmtBytes i.dfmt i.w

/-- The fields a command's row leaves zero are zero, and the others hold a value the row allows (R221 to R224). -/
def Item.badDesc (i : Item) : Bool :=
  let z := fun (l : List Nat) => l.any (· != 0)
  let blk := fun (f : Nat) => f == 6 || f == 7
  let inW := fun (f : Nat) => f == 1 || f == 2 || f == 3 || f == 8
  let sp := fun (a : Nat) => 1 < a
  i.w == 0 || (1 < i.h && i.ds < i.drow) || i.f 36 28 != 0
  || (i.ssp == 1 && i.d0.toNat / 2 ^ 32 != 0) || (i.dsp == 1 && i.d1.toNat / 2 ^ 32 != 0) || sp i.dsp
  || (i.cmd != .xfill && i.d0.toNat % fmtAlign i.sfmt != 0) || i.d1.toNat % fmtAlign i.dfmt != 0
  || (match i.cmd with
    | .xfer => sp i.ssp || z [i.sfmt, i.dfmt, i.f 12 2, i.f 14 1, i.op, i.coll, i.root]
    | .xcvt => sp i.ssp || i.sfmt == 0 || 7 < i.sfmt || i.dfmt == 0 || 7 < i.dfmt || i.sfmt == i.dfmt
        || z [i.f 15 1, i.op, i.coll, i.root] || ((blk i.sfmt || blk i.dfmt) && i.w % 32 != 0)
    | .xfill => i.ssp != 2 || z [i.sfmt, i.dfmt, i.f 12 2, i.f 14 1, i.f 15 1, i.op, i.coll, i.root, i.ss]
    | .xgath => i.ssp != 0 || i.d0.toNat % 8 != 0 || z [i.sfmt, i.dfmt, i.f 12 2, i.f 14 1, i.f 15 1, i.op, i.coll, i.root, i.ss]
    | .xred => sp i.ssp || !(inW i.sfmt || blk i.sfmt) || (inW i.sfmt && i.dfmt != i.sfmt)
        || (blk i.sfmt && !(i.dfmt == 1 || i.dfmt == 3 || blk i.dfmt)) || 2 < i.op || (blk i.sfmt && i.op != 0)
        || z [i.f 14 1, i.f 15 1, i.root] || (blk i.sfmt && i.w % 32 != 0)
    | .xbcst => sp i.ssp || z [i.sfmt, i.dfmt, i.f 12 2, i.f 14 1, i.f 15 1, i.op]
    | .xagree => sp i.ssp || !blk i.sfmt || z [i.dfmt, i.f 12 2, i.f 14 1, i.f 15 1, i.op, i.root] || i.w % 32 != 0)

/-- Kind, core, slot and offset of a staging address (R199). -/
def stgKind (a : Nat) : Nat := a / 2 ^ 52 % 8
def stgCore (a : Nat) : Nat := a / 2 ^ 44 % 256
def stgSlot (a : Nat) : Nat := a / 2 ^ 37 % 128
def stgOff (a : Nat) : Nat := a % 2 ^ 24
/-- A staging address (R27, R199). -/
def isStaging (va : Nat) : Bool := 0xFF80000000000000 ≤ va
/-- The destination ranges of an item. -/
def Item.dsts (i : Item) : List (Nat × Nat) := if i.dsp = 1 then [] else (List.range i.h).map fun r => (i.d1.toNat + i.ds * r, i.drow)
/-- Every unfinished item of the device with its core. -/
def State.allItems (s : State) : List (Nat × Item) := s.cores.flatMap fun e => e.2.items.map fun i => (e.1, i)

/-- A range of bytes cut where 512-byte superblocks end, so that each piece has one translation, one home and one plane. -/
def pieces (a n : Nat) : Nat → List (Nat × Nat)
  | 0 => []
  | k + 1 => if n = 0 then [] else
    let m := min n (512 - a % 512)
    (a, m) :: pieces (a + m) (n - m) k
/-- All pieces of a range. -/
def cut (a n : Nat) : List (Nat × Nat) := pieces a n (n / 512 + 2)

end Sys2Proof.Machine
end

