-- ==== Sys2Proof/Machine/Aes.lean ====
section
/-!
DEFINITION. Sys2Proof/Machine/Aes.lean: the encryption of the vertical DRAM channel (R27, R364) and the unwrapping of key blobs (R365). The spec names
AES-256-XTS and AES Key Wrap and does not define them: FIPS 197, IEEE 1619 and NIST SP 800-38F, log entry 8.
-/
namespace Sys2Proof.Machine

/-- The product by x in GF(2^8). -/
def xtime (b : Byte) : Byte := (b <<< 1) ^^^ (if b.getLsbD 7 then 0x1B else 0)
/-- The product of two bytes in GF(2^8), the bits of the second taken from the highest. -/
def gmul (a b : Byte) : Byte := (List.range 8).foldl (fun r i => xtime r ^^^ (if b.getLsbD (7 - i) then a else 0)) 0
/-- The inverse in GF(2^8), 0 for 0: the 254th power. -/
def ginv (b : Byte) : Byte :=
  let b2 := gmul b b
  let b4 := gmul b2 b2
  let b8 := gmul b4 b4
  let b16 := gmul b8 b8
  let b32 := gmul b16 b16
  let b64 := gmul b32 b32
  gmul (gmul b64 b64) (gmul b64 (gmul b32 (gmul b16 (gmul b8 (gmul b4 b2)))))
/-- The S-box of AES. -/
def sbox (b : Byte) : Byte :=
  let x := ginv b
  x ^^^ x.rotateLeft 1 ^^^ x.rotateLeft 2 ^^^ x.rotateLeft 3 ^^^ x.rotateLeft 4 ^^^ 0x63
/-- The inverse S-box of AES. -/
def sboxInv (b : Byte) : Byte := ginv (b.rotateLeft 1 ^^^ b.rotateLeft 3 ^^^ b.rotateLeft 6 ^^^ 0x05)

/-- Two byte lists combined by exclusive or. -/
def xorBytes (a b : List Byte) : List Byte := (a.zip b).map fun p => p.1 ^^^ p.2
/-- A list cut into lists of four. -/
def quads : List Byte → List (List Byte)
  | a :: b :: c :: d :: r => [a, b, c, d] :: quads r
  | _ => []
/-- The next word of the AES-256 key schedule from the words so far, the latest first: `i` its number. -/
def nextKeyWord (ws : List (List Byte)) (i : Nat) (rc : Byte) : List Byte :=
  let t := lget [] ws 0
  let u := if i % 8 = 0 then xorBytes ((t.drop 1 ++ t.take 1).map sbox) [rc, 0, 0, 0] else if i % 8 = 4 then t.map sbox else t
  xorBytes (lget [] ws 7) u
/-- The round keys of AES-256 from 32 key bytes, each of 16 bytes. -/
def aesKeys (key : List Byte) : List (List Byte) :=
  let r := (span 8 52).foldl (fun (p : List (List Byte) × Byte) i =>
    (nextKeyWord p.1 i p.2 :: p.1, if i % 8 = 0 then xtime p.2 else p.2)) ((quads key).reverse, 1)
  let ws := r.1.reverse
  (List.range 15).map fun k => (span (4 * k) 4).flatMap fun i => lget [] ws i
/-- Rows of the state moved by `d` columns for each row number. -/
def aesShift (d : Nat) (s : List Byte) : List Byte := (List.range 16).map fun i => lget 0 s ((i + 4 * d * (i % 4)) % 16)
/-- Columns of the state multiplied by a circulant matrix given by its first row. -/
def aesMix (m : List Byte) (s : List Byte) : List Byte :=
  (List.range 16).map fun i => (List.range 4).foldl (fun x j => x ^^^ gmul (lget 0 s (i / 4 * 4 + j)) (lget 0 m ((j + 4 - i % 4) % 4))) 0
/-- A block enciphered under round keys. -/
def aesEnc (ks : List (List Byte)) (b : List Byte) : List Byte :=
  (span 1 14).foldl (fun s r =>
    let t := aesShift 1 (s.map sbox)
    xorBytes (if r = 14 then t else aesMix [2, 3, 1, 1] t) (lget [] ks r)) (xorBytes b (lget [] ks 0))
/-- A block deciphered under round keys. -/
def aesDec (ks : List (List Byte)) (b : List Byte) : List Byte :=
  (span 0 14).foldl (fun s i =>
    let r := 13 - i
    let t := xorBytes ((aesShift 3 s).map sboxInv) (lget [] ks r)
    if r = 0 then t else aesMix [14, 11, 13, 9] t) (xorBytes b (lget [] ks 14))

/-- The tweak of the next block: the product by x in GF(2^128). -/
def xtsNext (t : List Byte) : List Byte :=
  let n := leNat t * 2
  let m := leBytes 16 (n % 2 ^ 128)
  if n < 2 ^ 128 then m else xorBytes m (0x87 :: List.replicate 15 0)
/-- `n` blocks through XTS with a block function and a first tweak. -/
def xtsBlocks (f : List Byte → List Byte) : Nat → List Byte → List Byte → List Byte
  | 0, _, _ => []
  | n + 1, t, bs => xorBytes (f (xorBytes (bs.take 16) t)) t ++ xtsBlocks f n (xtsNext t) (bs.drop 16)
/-- A 128-byte line through AES-256-XTS under the two keys of a slot, its tweak a physical line number (R364). -/
def xtsLine (enc : Bool) (key : List Byte) (pline : Nat) (bs : List Byte) : List Byte :=
  let k1 := aesKeys (key.take 32)
  xtsBlocks (if enc then aesEnc k1 else aesDec k1) 8 (aesEnc (aesKeys (key.drop 32)) (leBytes 16 pline)) bs
/-- What a line written in one way holds read in another: each way the keys, none for plain, and the tweak (R364). -/
def recrypt (old new : List Byte × Nat) (bs : List Byte) : List Byte :=
  if old = new then bs
  else
    let raw := if old.1.isEmpty then bs else xtsLine true old.1 old.2 bs
    if new.1.isEmpty then raw else xtsLine false new.1 new.2 raw

/-- One step of the unwrapping of eight 8-byte blocks: the integrity register and the blocks, and the step number from 48 down to 1. -/
def unwrapStep (ks : List (List Byte)) (p : List Byte × List (List Byte)) (t : Nat) : List Byte × List (List Byte) :=
  let i := (t - 1) % 8
  let b := aesDec ks (xorBytes p.1 (leBytes 8 t).reverse ++ lget [] p.2 i)
  (b.take 8, p.2.set i (b.drop 8))
/-- The 64 bytes wrapped in a 72-byte blob under a key-encryption key; none where the integrity check fails (R365). -/
def keyUnwrap (kek blob : List Byte) : Option (List Byte) :=
  let r := (span 0 48).foldl (fun p i => unwrapStep (aesKeys kek) p (48 - i)) (blob.take 8, (span 1 8).map fun i => (blob.drop (8 * i)).take 8)
  if r.1 = List.replicate 8 0xA6 then some (r.2.flatMap id) else none

end Sys2Proof.Machine
end

