-- ==== Sys2Proof/Machine/Mem.lean ====
section
/-!
DEFINITION. Sys2Proof/Machine/Mem.lean: the physical address map (R386), translation (R155), homes and column SRAM (R156, R180 to R184),
shadows (R293), scratchpad (R138, R139), and one load, store or atomic access of one thread.
-/
namespace Sys2Proof.Machine

/-- What a physical address names (R386). -/
inductive Loc where
  /-- byte of a core's column DRAM -/
  | col (core off : Nat)
  /-- host memory -/
  | host (a : Nat)
  /-- memory of a Bruslink peer -/
  | peer (a : Nat)
  deriving DecidableEq, Repr

/-- The storage a physical address names; none where it names nothing (R386). -/
def locOf (pa : Nat) : Option Loc :=
  let w := pa / 2 ^ 40
  let o := pa % 2 ^ 40
  if w < 144 then (if o < 2 ^ 39 then some (.col w (o % 2 ^ 31)) else none)
  else if 0xC0 ≤ w && w < 0xC4 then
    (if o < 72 * 2 ^ 30 then some (.col (36 * (w - 0xC0) + o / 512 % 36) (o / 512 / 36 * 512 + o % 512)) else none)
  else if 0xE0 ≤ w && w < 0xE8 then some (.host pa)
  else if 0xE8 ≤ w && w < 0xF0 then some (.peer pa)
  else none

/-- The storage address: one number for each byte, whichever window named it. -/
def Loc.stor : Loc → Nat
  | .col c o => c * 2 ^ 40 + o
  | .host a => a
  | .peer a => a

/-- The home column of a byte; host and peer memory are homed at their link (R157, R386). -/
def Loc.home : Loc → Option Nat
  | .col c _ => some c
  | _ => none

/-- The storage address of a physical address that names something. -/
def storOf (pa : Nat) : Nat := match locOf pa with
  | some l => l.stor
  | none => pa

/-- The flat core whose column is the home of a storage line; none for memory beyond the device (R157). -/
def homeOf (line : Nat) : Option Nat := if line / 2 ^ 33 < 144 then some (line / 2 ^ 33) else none

/-- Set, tag and line of a physical address in the column SRAM (R156). -/
def setOf (pa : Nat) : Nat := pa / 512 % 2048
/-- The tag of a physical address (R156). -/
def tagOf (pa : Nat) : Nat := pa / 2 ^ 20
/-- An absent line. -/
def Line.none_ : Line := ⟨false, false, 0, 0, false, [], 0⟩
/-- Line `i` of a superblock. -/
def Super.line (x : Super) (i : Nat) : Line := lget Line.none_ x.lines i
/-- The superblock with line `i` replaced. -/
def Super.put (x : Super) (i : Nat) (l : Line) : Super := { x with lines := x.lines.set i l }
/-- The superblock slot that matches a physical address. -/
def CorePlane.super (p : CorePlane) (pa : Nat) : Option Super :=
  (tget [] p.cache (setOf pa)).find? fun x => x.tag == tagOf pa
/-- The line a plane holds for a physical address; absent where none matches. -/
def CorePlane.line (p : CorePlane) (pa : Nat) : Line := match p.super pa with
  | some x => x.line (pa / 128 % 4)
  | none => Line.none_
/-- Physical address of line `i` of a superblock of a set. -/
def Super.pa (x : Super) (set i : Nat) : Nat := x.tag * 2 ^ 20 + set * 512 + i * 128

/-- Bytes of a line. -/
def Line.bytes (l : Line) (off n : Nat) : List Byte := (span off n).map (byteOf l.data)
/-- 128 bytes as a line's data. -/
def lineData (bs : List Byte) : BitVec 1024 := BitVec.ofNat 1024 (leNat bs)
/-- A line's data with bytes replaced. -/
def dataPut (d : BitVec 1024) (off : Nat) (bs : List Byte) : BitVec 1024 :=
  let m : BitVec 1024 := BitVec.ofNat 1024 ((2 ^ (8 * bs.length) - 1) * 2 ^ (8 * off))
  (d &&& ~~~m) ||| BitVec.ofNat 1024 (leNat bs * 2 ^ (8 * off))
/-- The words that bytes touch. -/
def wordMask (off n : Nat) : BitVec 32 := if n = 0 then 0 else BitVec.ofNat 32 (maskOf (span (off / 4) ((off + n - 1) / 4 + 1 - off / 4)))
/-- A granule of a line has dirty words. -/
def Line.gDirty (l : Line) (i : Nat) : Bool := (l.dirty >>> (8 * i)).truncate 8 != (0 : BitVec 8)

/-- The lines of one plane of a core's cache changed. -/
def CorePlane.mapLines (p : CorePlane) (f : Nat → Line → Line) : CorePlane :=
  { p with cache := p.cache.map fun e => (e.1, e.2.map fun x =>
      { x with lines := (List.range 4).map fun i => f (x.pa e.1 i) (x.line i) }) }
/-- Every line of a plane with its physical address. -/
def CorePlane.lines (p : CorePlane) : List (Nat × Line) :=
  p.cache.flatMap fun e => e.2.flatMap fun x => (List.range 4).map fun i => (x.pa e.1 i, x.line i)
/-- The lines of both planes of a core's cache changed. -/
def State.mapCache (s : State) (c : Nat) (f : Nat → Line → Line) : State :=
  s.modCore c fun k => { k with a := k.a.mapLines f, b := k.b.mapLines f }
/-- The home copies of a storage line that the home core's column SRAM holds, in its working plane first (R180). -/
def State.homeCopies (s : State) (line : Nat) : List Line :=
  match homeOf line with
  | none => []
  | some h =>
    let k := s.coreAt h
    ((k.plane k.colSel).lines ++ (k.plane !k.colSel).lines).filterMap fun e => if e.2.valid && storOf e.1 / 128 == line then some e.2 else none

/-- Byte `i` of a shadow line where its word is dirty (R293). -/
def Shadow.byte (x : Shadow) (i : Nat) : Option Byte := if x.mask.getLsbD (i / 4) then some (byteOf x.data i) else none

/-- A granule of a shadow line has dirty words. -/
def Shadow.gAny (x : Shadow) (i : Nat) : Bool := (x.mask >>> (8 * i)).truncate 8 != (0 : BitVec 8)
/-- Every word of a granule of a shadow line is dirty. -/
def Shadow.gAll (x : Shadow) (i : Nat) : Bool := (x.mask >>> (8 * i)).truncate 8 == BitVec.allOnes 8
/-- Poison of a granule seen through a shadow line: that of its dirty words, and what stands at home unless they cover the granule whole (R209, R293). -/
def Shadow.poiOver (x : Shadow) (i : Nat) (home : Bool) : Bool := x.gAny i && x.poi.getLsbD i || !x.gAll i && home

/-- The lines that COMMITTED versions still shadow, redirected at the home (R293). -/
def State.redirect (s : State) (line : Nat) : Option Shadow :=
  s.versions.findSome? fun v => if v.2.st == .committed then (v.2.lines.find? fun e => e.1 == line).map (·.2) else none

/-- A byte at its home, by its storage address: of a committed shadow (R293), else of the home copy in the home's column SRAM (R180), else of memory as
it was written. -/
def State.homeByte (s : State) (a : Nat) : Byte :=
  match (s.redirect (a / 128)).bind fun x => x.byte (a % 128) with
  | some b => b
  | none => match s.homeCopies (a / 128) with
    | l :: _ => byteOf l.data (a % 128)
    | [] => memByte s.mem a

/-- Poison of a granule at its home, as the redirect of a COMMITTED version shows it (R209, R293, R376). -/
def State.homePoi (s : State) (g : Nat) : Bool :=
  let here := tget false s.poison g || (s.homeCopies (g / 4)).any fun l => l.poi.getLsbD (g % 4)
  match s.redirect (g / 4) with
  | some x => x.poiOver (g % 4) here
  | none => here
/-- A granule at its home fails its ECC beyond correction; dirty words of a COMMITTED shadow that cover it whole stand in its place (R229, R293). -/
def State.homeEcc (s : State) (g : Nat) : Bool := tget false s.eccu g && !(s.redirect (g / 4)).any (·.gAll (g % 4))

/-- The keys and tweak a line was last written under (R364). -/
def State.keyTag (s : State) (line : Nat) : List Byte × Nat := tget ([], 0) s.encTags line
/-- The keys and tweak of an access to a physical address through a page's keys; a page with no keys is not encrypted (R364). -/
def tagFor (key : List Byte) (pa : Nat) : List Byte × Nat := if key.isEmpty then ([], 0) else (key, pa / 128)

/-- A byte read at its home through a page's keys: what the home's column SRAM and shadows hold is plain, and a line of memory written under other keys
decrypts to what AES-256-XTS gives (R364). -/
def State.homeRead (s : State) (key : List Byte) (pa : Nat) : Byte :=
  let a := storOf pa
  let tag := tagFor key pa
  if s.keyTag (a / 128) = tag || ((s.redirect (a / 128)).bind fun x => x.byte (a % 128)).isSome || !(s.homeCopies (a / 128)).isEmpty then s.homeByte a
  else lget 0 (recrypt (s.keyTag (a / 128)) tag ((span (a / 128 * 128) 128).map (memByte s.mem))) (a % 128)
/-- Bytes at physical addresses from one on, read at their homes through a page's keys (R183, R364). -/
def State.rdHome (s : State) (key : List Byte) (pa n : Nat) : List Byte := (span pa n).map (s.homeRead key)

/-- An access reaches the layers of a core's column SRAM: gated ones begin to wake, and WOKE is set (R375); it is one in which an error may have been corrected
(R372). -/
def State.touchS (s : State) (c : Nat) : State :=
  s.modCore c fun k => { k with vbus := { k.vbus with
    due := k.vbus.due + 1, woke := k.vbus.woke || (k.vbus.gateS && !k.vbus.wakeS), wakeS := k.vbus.wakeS || k.vbus.gateS } }
/-- The same of the layers of its column DRAM. -/
def State.touchD (s : State) (c : Nat) : State :=
  s.modCore c fun k => { k with vbus := { k.vbus with
    due := k.vbus.due + 1, woke := k.vbus.woke || (k.vbus.gateD && !k.vbus.wakeD), wakeD := k.vbus.wakeD || k.vbus.gateD } }
/-- An access reaches a storage line at its home: the column SRAM where that holds the home copy, else the column DRAM (R180, R375). -/
def State.touchLine (s : State) (line : Nat) : State :=
  match homeOf line with
  | some h => if (s.homeCopies line).isEmpty then s.touchD h else s.touchS h
  | none => s
/-- An access reaches the home of an address (R375, R386). -/
def State.touchHome (s : State) (pa : Nat) : State :=
  match locOf pa with
  | some (.col _ _) => s.touchLine (storOf pa / 128)
  | _ => s
/-- An access to a storage line at its home needs a vertical bus of the home that failed beyond repair: the column SRAM's where that holds the home copy, else
the column DRAM's (R373). -/
def State.lineBus (s : State) (line : Nat) : Bool :=
  match homeOf line with
  | some h => if (s.homeCopies line).isEmpty then (s.coreAt h).vbus.failD else (s.coreAt h).vbus.failS
  | none => false

/-- Dirty words of a line written into memory, the words of a mask from 128 bytes of data. -/
def wrWords (m : List Host.Cell) (line : Nat) (mask : BitVec 32) (data : BitVec 1024) : List Host.Cell :=
  (bitsOf 32 mask.toNat).foldl (fun m w => memWrite m (128 * line + 4 * w) ((span (4 * w) 4).map (byteOf data))) m

/-- The state with a line of memory decrypted and encrypted again, where it is written under other keys (R364). -/
def State.rekey (s : State) (tag : List Byte × Nat) (line : Nat) : State :=
  if s.keyTag line = tag then s
  else { s with
    mem := memWrite s.mem (128 * line) (recrypt (s.keyTag line) tag ((span (128 * line) 128).map (memByte s.mem)))
    encTags := tset ([], 0) s.encTags line tag }
/-- Bytes of one line written to the memory itself, over the vertical bus (R364). -/
def State.wrDram (s : State) (tag : List Byte × Nat) (a : Nat) (bs : List Byte) : State :=
  let s := s.rekey tag (a / 128)
  { s with mem := memWrite s.mem a bs }
/-- Bytes of one line written at its home: into every home copy that the home's column SRAM holds, else to memory (R180). Whether such a write takes a slot
where the home's column SRAM does not hold the line R156 leaves open: it takes none and writes column DRAM, the model's choice, log entry 72. -/
def State.putHome (s : State) (tag : List Byte × Nat) (a : Nat) (bs : List Byte) : State :=
  match homeOf (a / 128), s.homeCopies (a / 128) with
  | some h, _ :: _ => s.mapCache h fun pa l =>
      if l.valid && storOf pa / 128 == a / 128 then
        { l with data := dataPut l.data (a % 128) bs, dirty := l.dirty ||| wordMask (a % 128) bs.length, key := tag.1 }
      else l
  | _, _ => s.wrDram tag a bs

/-- The poison of granules cleared in memory and in the home copies of their lines (R209). -/
def State.dropPoi (s : State) (gs : List Nat) : State :=
  gs.foldl (fun s g => match homeOf (g / 4) with
    | some h => s.mapCache h fun pa l => if storOf pa / 128 == g / 4 then { l with poi := l.poi &&& ~~~(BitVec.ofNat 4 (2 ^ (g % 4))) } else l
    | none => s) { s with poison := s.poison.filter fun e => !gs.contains e.1 }

/-- The state with a committed shadow line merged into its home line (R293, R294): its granules are poisoned at home, in memory and in the home copies, as they
are seen through the shadow, and those that its dirty words cover whole have a new check (R209, R229). -/
def State.mergeLine (s : State) (line : Nat) : State :=
  match s.redirect line with
  | none => s
  | some x =>
    let bad := (span (4 * line) 4).filter s.homePoi
    let s := s.dropPoi ((span (4 * line) 4).filter fun g => !bad.contains g)
    let s := { s with
      poison := bad.foldl (fun p g => tset false p g true) s.poison
      eccu := s.eccu.filter fun e => !(e.1 / 4 == line && x.gAll (e.1 % 4))
      versions := s.versions.map fun v => if v.2.st == .committed then (v.1, { v.2 with lines := tdel v.2.lines line }) else v }
    (bitsOf 32 x.mask.toNat).foldl (fun s w =>
      s.putHome (if x.key.isEmpty then ([], 0) else (x.key, x.pline)) (128 * line + 4 * w) ((span (4 * w) 4).map (byteOf x.data))) s

/-- The line numbers that `n` bytes at `a` touch. -/
def linesOf (a n : Nat) : List Nat := if n = 0 then [] else span (a / 128) ((a + n - 1) / 128 + 1 - a / 128)
/-- The 32-byte granules that `n` bytes at `a` touch. -/
def granules (a n : Nat) : List Nat := if n = 0 then [] else span (a / 32) ((a + n - 1) / 32 + 1 - a / 32)
/-- The storage lines that `n` bytes from a physical address on touch. -/
def storLines (pa n : Nat) : List Nat := (linesOf pa n).map fun l => storOf (128 * l) / 128
/-- Bytes from an address on cut where lines end: each part's address and bytes. -/
def lineParts (a : Nat) (bs : List Byte) : List (Nat × List Byte) := (linesOf a bs.length).map fun l =>
  (max a (128 * l), (bs.drop (128 * l - a)).take (128 * l + 128 - max a (128 * l)))

/-- A storage address lies in the bitmap of quarantined frames, which boot firmware reserves for the device (R366). -/
def State.inQuarMap (s : State) (a : Nat) : Bool := storOf s.quarBase.toNat ≤ a && a < storOf s.quarBase.toNat + 2 ^ 29
/-- A frame is quarantined: bit f of the bitmap at QUAR_BASE for the frame at f × 64 KiB (R366). -/
def State.frameQuar (s : State) (f : Nat) : Bool := f < 2 ^ 32 && (s.homeByte (storOf s.quarBase.toNat + f / 8)).getLsbD (f % 8)
/-- A frame quarantined by the device, or released: in the home copies, and in column DRAM itself, where it survives a warm reset (R370). -/
def State.setFrameQuar (s : State) (f : Nat) (x : Bool) : State :=
  let a := storOf s.quarBase.toNat + f / 8
  let b := if x then s.homeByte a ||| BitVec.ofNat 8 (2 ^ (f % 8)) else s.homeByte a &&& ~~~BitVec.ofNat 8 (2 ^ (f % 8))
  (s.putHome (s.keyTag (a / 128)) a [b]).wrDram (s.keyTag (a / 128)) a [b]

/-- Bytes from a physical address on written at their homes through a page's keys (R183, R293); the bitmap of quarantined frames is read only to
programs (R366). -/
def State.wrHome (s : State) (key : List Byte) (pa : Nat) (bs : List Byte) : State :=
  (lineParts pa bs).foldl (fun s p =>
    if s.inQuarMap (storOf p.1) then s
    else (s.mergeLine (storOf p.1 / 128)).putHome (tagFor key p.1) (storOf p.1) p.2) s

/-- The window that holds a physical address, by the PA[47:40] at which it begins; none where nothing is named (R386). -/
def windowOf (pa : Nat) : Option Nat := match locOf pa with
  | some (.col _ _) => some (pa / 2 ^ 40)
  | some (.host _) => some 0xE0
  | some (.peer _) => some 0xE8
  | none => none
/-- The frame of a leaf lies wholly in one window, where something is named (R386). -/
def leafNamed (l : Leaf) : Bool := (windowOf l.pa).isSome && windowOf l.pa == windowOf (l.pa + 2 ^ l.bits - 1)

/-- A partition owns all six clusters of a die (R21). -/
def State.ownsDie (s : State) (part d : Nat) : Bool := (List.range 6).all fun k => s.partOfCl (6 * d + k) == some part
/-- The window of column DRAM in which a physical address lies: 1 its column's, 2 its die's, 0 neither (R386). -/
def winOf (pa : Nat) : Nat := if pa / 2 ^ 40 < 144 then 1 else if 0xC0 ≤ pa / 2 ^ 40 && pa / 2 ^ 40 < 0xC4 then 2 else 0
/-- A physical address is refused to a partition: its frame is quarantined (R366), its cluster has left the partition (R362), or its cluster is being wiped
and no partition reaches it yet (R23). -/
def State.frameBad (s : State) (part pa : Nat) : Bool :=
  s.frameQuar (pa / 65536) || (match locOf pa with
    | some (.col c _) => s.left.contains (c / 6, part) || (s.clAt (c / 6)).wiping
    | _ => false)

/-- Why a walk that finds a leaf raises a fault: its cause, and whether the page is valid but not resident (R312, R362, R364, R366, R386). An interleaved
page on a die that the partition does not own entirely, which R21 forbids, raises XLATE: log entry 10. -/
def State.walkBad (s : State) (part : Nat) (l : Leaf) (pa : Nat) : Option (Cause × Bool) :=
  if !l.res then some (.xlate, true)
  else if !leafNamed l then some (.xlate, false)
  else if s.frameBad part pa then some (.xlate, false)
  else match locOf pa with
    | some (.col c _) =>
      if winOf pa == 2 && !s.ownsDie part (c / 36) then some (.xlate, false)
      else if l.enc && !(s.keyAt l.kslot).valid then some (.xlate, false) else none
    | some _ => if l.enc then some (.xlate, false) else none
    | none => some (.xlate, false)

/-- A translation: a physical address and the page's keys, or a fault. -/
inductive XRes where
  | ok (pa : Nat) (key : List Byte)
  | bad (c : Cause) (swap : Bool)
  deriving DecidableEq, Repr

/-- A virtual address keeps to R27: bits 63 to 57 equal bit 56. -/
def vaOk (va : Nat) : Bool := va / 2 ^ 56 % 256 == 0 || va / 2 ^ 56 % 256 == 255

/-- The entry of a TLB that translates an address (R155). -/
def tlbFind (es : List TlbEnt) (part va : Nat) : Option Leaf :=
  (es.find? fun e => e.part == part && e.vpn == va / 2 ^ e.leaf.bits).map (·.leaf)

/-- A TLB with an entry added. Which entry leaves a full TLB R155 leaves open: the one filled longest ago, the model's choice, log entry 11. -/
def tlbAdd (es : List TlbEnt) (cap part va : Nat) (l : Leaf) : List TlbEnt := (⟨part, va / 2 ^ l.bits, l⟩ :: es).take cap

/-- The translation by the TLBs of a core and its cluster, or of the front end where no core is named (R155). Whether a hit in the cluster TLB fills the
core TLB too R155 leaves open: it does not, the model's choice, log entry 11. -/
def State.tlbHit (s : State) (core : Option Nat) (part va : Nat) : Option Leaf :=
  match core with
  | some c => match tlbFind (s.coreAt c).tlb part va with
    | some l => some l
    | none => tlbFind (s.clAt (c / 6)).tlb part va
  | none => tlbFind s.feTlb part va

/-- Both TLBs filled by a walk (R155). -/
def State.tlbFill (s : State) (core : Option Nat) (part va : Nat) (l : Leaf) : State :=
  match core with
  | some c => (s.modCore c fun k => { k with tlb := tlbAdd k.tlb 1024 part va l }).modCl (c / 6)
      fun k => { k with tlb := tlbAdd k.tlb 8192 part va l }
  | none => { s with feTlb := tlbAdd s.feTlb 1024 part va l }

/-- A leaf applied to an address and a right: `w` for writing (R155, R364); a quarantined frame (R366) and a cluster that has left
or is being wiped (R23, R362) are refused. -/
def State.useLeaf (s : State) (part : Nat) (l : Leaf) (va : Nat) (w : Bool) : XRes :=
  if s.frameBad part (l.pa + va % 2 ^ l.bits) then .bad .xlate false
  else if (if w then l.w else l.r) then .ok (l.pa + va % 2 ^ l.bits) (if l.enc then (s.keyAt l.kslot).key else []) else .bad .prot false

/-- The state with a line's dirty words written home by core `c`, poisoned granules with their poison: to memory itself where the home is the core's own
column (R180, R181, R376). -/
def State.cleanHome (s : State) (c pa : Nat) (l : Line) : State :=
  if l.dirty = 0 then s
  else
    let ln := storOf pa / 128
    -- the write-back reaches both layers (R375)
    let s := (s.touchS c).touchHome pa
    let s := (bitsOf 32 l.dirty.toNat).foldl (fun s w =>
      if homeOf ln == some c then s.wrDram (tagFor l.key pa) (128 * ln + 4 * w) (l.bytes (4 * w) 4)
      else s.wrHome l.key (pa / 128 * 128 + 4 * w) (l.bytes (4 * w) 4)) s
    (bitsOf 4 l.poi.toNat).foldl (fun s i => if l.gDirty i then { s with poison := tset false s.poison (ln * 4 + i) true } else s) s

/-- A superblock's dirty lines written home by core `c`, as before its slot is used again (R156). -/
def State.evict (s : State) (c set : Nat) (x : Super) : State :=
  (List.range 4).foldl (fun s i => s.cleanHome c (x.pa set i) (x.line i)) s

/-- Bytes of a superblock, bit i for byte i. -/
def spanMask (off n : Nat) : BitVec 512 := BitVec.ofNat 512 ((2 ^ n - 1) * 2 ^ off)
/-- Bytes of a superblock accessed through both of its windows: unspecified values stand in memory and in every copy in a column SRAM (R386). -/
def State.scramble (s : State) (b : Nat) (m : BitVec 512) : State :=
  if m = 0 then s
  else
    let is := bitsOf 512 m.toNat
    let x := fun i => Config.freeByte s.fresh (2 ^ 64 + 512 * b + i)
    let s := (List.range 4).foldl (fun s i => s.mergeLine (4 * b + i)) s
    let s := { s with mem := is.foldl (fun m i => memWrite m (512 * b + i) [x i]) s.mem }
    s.cores.foldl (fun s e => s.mapCache e.1 fun pa l =>
      if storOf pa / 512 == b then
        { l with data := is.foldl (fun d i => if i / 128 = storOf pa / 128 % 4 then dataPut d (i % 128) [x i] else d) l.data }
      else l) s
/-- `n` bytes of one superblock are accessed through a window (R386). -/
def State.useWin (s : State) (pa n : Nat) : State :=
  let w := winOf pa
  if w = 0 then s
  else
    let b := storOf pa / 512
    let o := tget (0, 0, []) s.wins b
    let m := spanMask (pa % 512) n
    let s := s.scramble b (m &&& (if w = 1 then o.2.1 else o.1))
    { s with wins := tput s.wins b (if w = 1 then (o.1 ||| m, o.2.1, []) else (o.1, o.2.1 ||| m, [])) }
/-- `cctl.wbinv` has completed on a cluster: noted for every superblock of its die (R386). -/
def State.winPut (s : State) (cl : Nat) : State :=
  { s with wins := s.wins.map fun e =>
      if e.1 * 512 / 2 ^ 40 / 36 == cl / 6 && !e.2.2.2.contains cl then (e.1, e.2.1, e.2.2.1, cl :: e.2.2.2) else e }

/-- A set with a superblock made the most recently used. -/
def touchSet (xs : List Super) (x : Super) : List Super := x :: xs.filter fun y => y.tag != x.tag

/-- The working plane of core `c` with a line put at a physical address, in the least recently used slot of its set where no slot matches (R156). -/
def State.putLine (s : State) (c pa : Nat) (l : Line) : State :=
  let k := s.coreAt c
  let xs := tget [] k.colWork.cache (setOf pa)
  let store := fun (s : State) (ys : List Super) =>
    s.modCore c fun k => k.modPlane k.colSel fun p => { p with cache := tput p.cache (setOf pa) ys }
  match k.colWork.super pa with
  | some x => store s (touchSet xs (x.put (pa / 128 % 4) l))
  | none =>
    let fresh := fun way => (Super.mk way (tagOf pa) [Line.none_, Line.none_, Line.none_, Line.none_]).put (pa / 128 % 4) l
  -- ways being surrendered take no new slot (R159)
  let ways := 16 - (match k.wprChg with
    | some w => max k.wpr w.goal
    | none => k.wpr)
  match findBelow (fun w => !xs.any fun x => x.way == w) ways with
  | some w => store s (fresh w :: xs)
  | none => match xs.reverse.find? fun x => x.way < ways with
    | some x => store (s.evict c (setOf pa) x) (fresh x.way :: xs.filter fun y => y.way != x.way)
    | none => s

/-- The owner registered at the home of a line, if any (R180). -/
def State.owner (s : State) (line : Nat) : Option Nat :=
  match tget 0 s.owners line with
  | 0 => none
  | n + 1 => some n

/-- The dirty words that a core holds of a storage line, in either plane, written home; it keeps a clean copy (R180, R213). -/
def State.cleanOf (s : State) (c line : Nat) : State :=
  let hit := fun (pa : Nat) => storOf pa / 128 == line
  let k := s.coreAt c
  let s := (k.a.lines ++ k.b.lines).foldl (fun s e => if hit e.1 then s.cleanHome c e.1 e.2 else s) s
  s.mapCache c fun pa l => if hit pa then { l with dirty := 0 } else l

/-- The home of a line revokes an owner other than core `c` (R180, R183). -/
def State.revoke (s : State) (c : Option Nat) (line : Nat) : State :=
  match s.owner line with
  | none => s
  | some o => if c == some o then s else { s.cleanOf o line with owners := tdel s.owners line }
/-- The home revokes any owner of some lines. -/
def State.revokeAll (s : State) (lines : List Nat) : State := lines.foldl (fun s l => s.revoke none l) s

/-- The dirty words that a core holds, in both planes, written home: those of lines homed in its own column, which are the home copy, only where `own` asks
for them (R181, R213, R335). -/
def State.cleanAll (s : State) (c : Nat) (own : Bool) : State :=
  let hit := fun (pa : Nat) => own || homeOf (storOf pa / 128) != some c
  let k := s.coreAt c
  let s := (k.a.lines ++ k.b.lines).foldl (fun s e => if hit e.1 then s.cleanHome c e.1 e.2 else s) s
  s.mapCache c fun pa l => if hit pa then { l with dirty := 0 } else l

/-- The lines of a core's working plane that it does not own and that are not homed in its own column, those a test names, marked stale (R182). -/
def State.markStale (s : State) (c : Nat) (p : Nat → Bool) : State :=
  s.modCore c fun k => k.modPlane k.colSel fun q => q.mapLines fun pa l =>
    if l.valid && p pa && s.owner (storOf pa / 128) != some c && homeOf (storOf pa / 128) != some c then { l with stale := true } else l

/-- Memory as the homes show it: home copies and committed shadows over what is written there (R180, R293). -/
def State.homeMem (s : State) : List Host.Cell :=
  let m := s.cores.foldl (fun m e => (e.2.a.lines ++ e.2.b.lines).foldl (fun m x =>
    if x.2.valid && homeOf (storOf x.1 / 128) == some e.1 then wrWords m (storOf x.1 / 128) x.2.dirty x.2.data else m) m) s.mem
  s.versions.foldl (fun m v => if v.2.st == .committed then v.2.lines.foldl (fun m x => wrWords m x.1 x.2.mask x.2.data) m else m) m
/-- A leaf maps some byte of a superblock of column DRAM, through either of its windows (R386). -/
def leafCovers (l : Leaf) (b : Nat) : Bool :=
  let c := 512 * b / 2 ^ 40
  let o := 512 * b % 2 ^ 40
  let a := (0xC0 + c / 36) * 2 ^ 40 + (o / 512 * 36 + c % 36) * 512
  (winOf l.pa == 1 && l.pa / 2 ^ 40 == c && (o + 511 + 2 ^ 31 - l.pa % 2 ^ 31) % 2 ^ 31 < 2 ^ l.bits + 511)
  || (winOf l.pa == 2 && l.pa < a + 512 && a < l.pa + 2 ^ l.bits)
/-- A mapping of a superblock stands, in the page tables or in a TLB (R155, R386). -/
def State.mapped (s : State) (b : Nat) : Bool :=
  ((List.range 8).any fun p => (Config.pages p s.homeMem).any fun e => leafCovers e.2 b)
  || (s.cores.any fun e => e.2.tlb.any fun t => leafCovers t.leaf b) || (s.clusters.any fun e => e.2.tlb.any fun t => leafCovers t.leaf b)
  || s.feTlb.any fun t => leafCovers t.leaf b
/-- A frame may move to its other window: no mapping of it stands, and `cctl.wbinv` has completed on every cluster of its die since it was accessed
last (R386). -/
def State.winSettle (s : State) : State :=
  { s with wins := s.wins.filter fun e => !((List.range 6).all fun k => e.2.2.2.contains (e.1 * 512 / 2 ^ 40 / 36 * 6 + k)) || s.mapped e.1 }

/-- A walk reads page table entries with strong loads at their homes (R333): the leaf it finds, and the state with their owners revoked and the layers of their homes reached (R375). -/
def State.walk (s : State) (part va : Nat) : Option Leaf × State :=
  let lns := Config.walkLines part s.homeMem va
  let s := lns.foldl State.touchLine (s.revokeAll lns)
  (((Config.pages part s.homeMem).find? fun e => e.1 / 2 ^ e.2.bits == va / 2 ^ e.2.bits).map (·.2), s)
/-- The page tables of a partition map an interleaved page on a die (R23, R362). -/
def State.mapsDie (s : State) (part d : Nat) : Bool := (Config.pages part s.homeMem).any fun e => e.2.pa / 2 ^ 40 == 0xC0 + d

/-- The translation of a global address (R27, R135, R155), and the state with the TLBs filled; a walk that needs a vertical bus which failed beyond repair
raises VBUS (R373). -/
def State.xlate (s : State) (core : Option Nat) (part va : Nat) (w : Bool) : XRes × State :=
  if isStaging va then (.bad .prot false, s)
  else if !vaOk va then (.bad .xlate false, s)
  else match s.tlbHit core part va with
    | some l => (s.useLeaf part l va w, s)
    | none => if (Config.walkLines part s.homeMem va).any s.lineBus then (.bad .vbus false, s) else match s.walk part va with
      | (none, s1) => (.bad .xlate false, s1)
      | (some l, s1) => match s1.walkBad part l (l.pa + va % 2 ^ l.bits) with
        | some (c, sw) => (.bad c sw, s1)
        | none => (s1.useLeaf part l va w, s1.tlbFill core part va l)
/-- The physical address of a virtual one, where it translates for a right: `w` for writing. -/
def State.physFor (s : State) (core : Option Nat) (part va : Nat) (w : Bool) : Option Nat :=
  match (s.xlate core part va w).1 with
  | .ok pa _ => some pa
  | .bad _ _ => none
/-- The physical address of a virtual one, where it translates for writing. -/
def State.physOf (s : State) (core : Option Nat) (part va : Nat) : Option Nat := s.physFor core part va true

/-- A scope that reaches beyond the core: .k, .d or .s (R181, R182). -/
def Scope.wide : Scope → Bool
  | .k => true
  | .d => true
  | .s => true
  | _ => false

/-- A release by core `c` at a scope (R181). -/
def State.release (s : State) (c : Nat) (x : Scope) : State := if Scope.wide x then s.cleanAll c false else s
/-- An acquire by core `c` at a scope (R182). -/
def State.acquire (s : State) (c : Nat) (x : Scope) : State := if Scope.wide x then s.markStale c fun _ => true else s

/-- A line as core `c` would fill it from its home, its own dirty words kept (R156, R180). -/
def State.fillLine (s : State) (pa : Nat) (key : List Byte) (old : Line) (lan : Bool) : Line :=
  let home := lineData (s.rdHome key (pa / 128 * 128) 128)
  let data := (bitsOf 32 old.dirty.toNat).foldl (fun d w => dataPut d (4 * w) (old.bytes (4 * w) 4)) home
  ⟨true, false, old.dirty, data, lan, key, BitVec.ofNat 4 (maskOf ((bitsOf 4 old.poi.toNat).filter old.gDirty))⟩
/-- An address is homed in the column of core `c`. -/
def homedAt (c pa : Nat) : Bool := homeOf (storOf pa / 128) == some c
/-- Some copy in a plane holds dirty words of a storage line. -/
def CorePlane.dirtyAt (p : CorePlane) (line : Nat) : Bool := p.lines.any fun e => e.2.dirty != 0 && storOf e.1 / 128 == line
/-- What the staging plane of a core's column SRAM holds of a line that the core fetches or writes is put by: its dirty words go home, so that the core's own
stores are seen whichever plane took them (R184, R213), and its copy is stale, so that at most one plane holds a current copy. A home copy stays. -/
def State.oneCopy (s : State) (c pa : Nat) : State :=
  if homedAt c pa then s
  else
    let ln := storOf pa / 128
    let s := if ((s.coreAt c).plane !(s.coreAt c).colSel).dirtyAt ln then s.cleanOf c ln else s
    s.modCore c fun k => k.modPlane (!k.colSel) fun p => p.mapLines fun q l => if storOf q / 128 == ln then { l with stale := true } else l
/-- A line fetched into the column SRAM of core `c` (R156). -/
def State.fetchLine (s : State) (c pa : Nat) (key : List Byte) (lan : Bool) : Line × Bool × State :=
  let s := s.oneCopy c pa
  let n := s.fillLine pa key ((s.coreAt c).colWork.line pa) lan
  (n, true, s.putLine c pa n)

/-- A line read through the column SRAM of core `c`: the line, whether it missed, and the state with it filled (R156, R182). Column SRAM holds plain text,
so a hit serves whatever the page's keys (R364). A committed shadow is merged first where the line is the home copy (R293). A load in lantern mode that hits a line filled
at a lantern request touches it, uncounted, which R172 leaves open: the model's choice, log entry 20. -/
def State.cached (s : State) (c pa : Nat) (key : List Byte) (lan : Bool) : Line × Bool × State :=
  let s := if homedAt c pa then s.mergeLine (storOf pa / 128) else s
  let l := (s.coreAt c).colWork.line pa
  if l.valid && !l.stale then (l, false, s.putLine c pa { l with lan := l.lan && lan }) else s.fetchLine c pa key lan

/-- A load of core `c` misses its column SRAM (R156, R167). Whether one over a link port counts as a miss is free, log entry 19. -/
def State.misses (s : State) (c pa : Nat) : Bool := match locOf pa with
  | some (.col _ _) => !((s.coreAt c).colWork.line pa).valid || ((s.coreAt c).colWork.line pa).stale
  | _ => Config.freeBool s.fresh (storOf pa / 128)

/-- Bytes of memory as a weak access of core `c` reads them: through its column SRAM, or at a link port (R156, R180, R386). Also whether it missed, and
the state after. -/
def State.rdWeak (s : State) (c pa : Nat) (key : List Byte) (n : Nat) : List Byte × Bool × State :=
  match locOf pa with
  | some (.col _ _) =>
    let r := s.cached c pa key false
    (r.1.bytes (pa % 128) n, r.2.1, r.2.2)
  | _ => (s.rdHome key pa n, Config.freeBool s.fresh (storOf pa / 128), s)

/-- Bytes as a strong access at .k or wider reads them at their home; the core keeps a clean copy (R183). -/
def State.rdStrong (s : State) (c pa : Nat) (key : List Byte) (n : Nat) : List Byte × State :=
  let s := s.revoke (some c) (storOf pa / 128)
  match locOf pa with
  | some (.col _ _) =>
    let r := if homedAt c pa then s.cached c pa key false else s.fetchLine c pa key false
    (r.1.bytes (pa % 128) n, r.2.2)
  | _ => (s.rdHome key pa n, s)

/-- Bytes written by a weak store of core `c` (R156, R180, R386). A line homed in the core's own column is the home copy; any other is fetched where the
core did not own it, and its ownership registered, an earlier owner revoked. The bitmap of quarantined frames is read only (R366). -/
def State.wrWeak (s : State) (c pa : Nat) (key : List Byte) (bs : List Byte) : State :=
  match locOf pa with
  | some (.col _ _) =>
    let ln := storOf pa / 128
    let had := s.owner ln == some c
    let s := s.revoke (some c) ln
    if s.inQuarMap (storOf pa) then s
    else if homedAt c pa then
      let r := s.cached c pa key false
      (r.2.2.putLine c pa { r.1 with lan := false }).wrHome key pa bs
    else
      let s := { s with owners := tput s.owners ln (c + 1) }
      let r := if had then s.cached c pa key false else s.fetchLine c pa key false
      r.2.2.putLine c pa { r.1 with
        data := dataPut r.1.data (pa % 128) bs, dirty := r.1.dirty ||| wordMask (pa % 128) bs.length, lan := false, key := key }
  | _ => s.wrHome key pa bs

/-- The copy that core `c` keeps of a line written at its home by a strong store of its own (R183); the home copy itself is written already. -/
def State.freshen (s : State) (c pa : Nat) (bs : List Byte) : State :=
  let l := (s.coreAt c).colWork.line pa
  if !l.valid then s
  else if homedAt c pa then s.putLine c pa { l with lan := false }
  else s.putLine c pa { l with data := dataPut l.data (pa % 128) bs, dirty := l.dirty &&& ~~~(wordMask (pa % 128) bs.length), lan := false }

/-- Bytes written at their home by a strong store of core `c` (R183). -/
def State.wrStrong (s : State) (c pa : Nat) (key : List Byte) (bs : List Byte) : State :=
  let s := (s.revoke (some c) (storOf pa / 128)).oneCopy c pa
  let own := (s.coreAt c).colWork.line pa
  -- words of the line that this core wrote weakly and that the store covers only in part go home first
  let s := if homedAt c pa || own.dirty &&& wordMask (pa % 128) bs.length = 0 then s else s.cleanOf c (storOf pa / 128)
  (s.wrHome key pa bs).freshen c pa bs

/-- Some granule of a storage range is poisoned. -/
def State.memPoi (s : State) (a n : Nat) : Bool := (granules a n).any s.homePoi
/-- Some granule of an address range is poisoned in the copy that core `c` would read, which is no home copy, or among the dirty words of its staging plane
(R376). -/
def State.linePoi (s : State) (c pa n : Nat) : Bool :=
  let k := s.coreAt c
  let l := k.colWork.line pa
  let m := (k.plane !k.colSel).line pa
  !homedAt c pa && (granules (pa % 128) n).any fun g => l.valid && l.poi.getLsbD g && (!l.stale || l.gDirty g) || m.valid && m.poi.getLsbD g && m.gDirty g

/-- A current line of core `c` serves an access: no request for it leaves the core (R156, R182). -/
def State.hits (s : State) (c pa : Nat) : Bool := ((s.coreAt c).colWork.line pa).valid && !((s.coreAt c).colWork.line pa).stale
/-- An access at the home of a byte needs a vertical bus of the home that failed beyond repair (R373, R386). -/
def State.homeBus (s : State) (pa : Nat) : Bool := match locOf pa with
  | some (.col _ _) => s.lineBus (storOf pa / 128)
  | _ => false
/-- An access of core `c` needs a vertical bus that failed beyond repair (R373): its own column SRAM's, and where no current line of it serves, or the access is
performed at the home all the same, `far`, one of the home's. Host and peer memory are reached over none (R386). -/
def State.busBad (s : State) (c pa : Nat) (far : Bool) : Bool := match locOf pa with
  | some (.col _ _) => (s.coreAt c).vbus.failS || ((far || !s.hits c pa) && s.homeBus pa)
  | _ => false

/-- An access of core `c` to `n` bytes at a physical address: the layers that it reaches wake, those of its own column SRAM, and those of the home where no
current line serves it or it is performed there, `far`; its window is noted (R375, R386). -/
def State.arrive (s : State) (c pa n : Nat) (far : Bool) : State :=
  match locOf pa with
  | some (.col _ _) => ((if far || !s.hits c pa then s.touchHome pa else s).touchS c).useWin pa n
  | _ => s.useWin pa n
/-- An access of another agent, or one past the column SRAM. -/
def State.arriveAt (s : State) (pa n : Nat) : State := (s.touchHome pa).useWin pa n

/-- Granules written whole: their poison is cleared, at their homes and in home copies, and their check is new (R209, R229). -/
def State.clearPoi (s : State) (gs : List Nat) : State :=
  let s := { s with eccu := s.eccu.filter fun e => !gs.contains e.1 }
  if gs.all fun g => !s.homePoi g then s else s.dropPoi gs

/-- A declared region holds an address. -/
def Region.has (r : Region) (a : Nat) : Bool := r.lo ≤ a && a ≤ r.hi
/-- The first address from one on that no region of a list holds, going from region to region at most `n` times. -/
def reachFrom (rs : List Region) : Nat → Nat → Nat
  | 0, a => a
  | n + 1, a => match rs.find? (Region.has · a) with
    | some r => reachFrom rs n (r.hi + 1)
    | none => a
/-- A transactional launch may not store there: some of `n` bytes lie in no declared write or open region (R166). -/
def Launch.undeclared (l : Launch) (va n : Nat) : Bool :=
  let rs := l.regions.filter fun r => r.cls == 2 || r.cls == 3
  !l.direct && n != 0 && reachFrom rs rs.length va < va + n
/-- A store of the launch there goes to its shadow: the first byte lies in a declared write region (R166, R293). -/
def Launch.shadowed (l : Launch) (va n : Nat) : Bool := !l.direct && n != 0 && l.regions.any fun r => r.cls == 2 && r.has va
/-- A range cut at some addresses, at most `k` times. -/
def cutsAt (bs : List Nat) (a n : Nat) : Nat → List (Nat × Nat)
  | 0 => [(a, n)]
  | k + 1 => match (bs.filter fun b => a < b && b < a + n).foldl (fun m b => min m b) (a + n) with
    | b => if b = a + n then [(a, n)] else (a, b - a) :: cutsAt bs b (a + n - b) k
/-- A range of bytes cut where declared write regions begin or end, so that each piece goes to the shadow or home as a whole (R166). -/
def Launch.runs (l : Launch) (va n : Nat) : List (Nat × Nat) :=
  let bs := if l.direct then [] else (l.regions.filter fun r => r.cls == 2).flatMap fun r => [r.lo, r.hi + 1]
  cutsAt bs va n bs.length

/-- Lines of quota a launch uses: shadow lines, gsig entries, deferred children (R293). -/
def State.quotaUsed (s : State) (lid : Nat) : Nat :=
  let l := s.lchAt lid
  (s.verAt l.part l.ver).lines.length + l.gsigs.length + l.deferred.length
/-- Lines of quota a launch may use (R293). -/
def State.quotaMax (s : State) (lid : Nat) : Nat := 512 * (s.verAt (s.lchAt lid).part (s.lchAt lid).ver).units

/-- Bytes with the launch's own shadowed words over them (R293). -/
def State.overShadow (s : State) (l : Launch) (stor : Nat) (bs : List Byte) : List Byte :=
  if l.direct then bs
  else
    let ls := (s.verAt l.part l.ver).lines
    (List.range bs.length).map fun i =>
      match (ls.find? fun e => e.1 == (stor + i) / 128).bind fun e => e.2.byte ((stor + i) % 128) with
      | some b => b
      | none => lget 0 bs i

/-- A launch's own shadow of a line (R293). -/
def State.ownShadow (s : State) (l : Launch) (line : Nat) : Option Shadow :=
  if l.direct then none else ((s.verAt l.part l.ver).lines.find? fun e => e.1 == line).map (·.2)
/-- Poison of a granule as a launch sees it: through its own shadow of the line, at the home (R209, R293). -/
def State.ownPoi (s : State) (l : Launch) (g : Nat) : Bool :=
  match s.ownShadow l (g / 4) with
  | some x => x.poiOver (g % 4) (s.homePoi g)
  | none => s.homePoi g
/-- Some granule of a storage range is poisoned as a launch sees it. -/
def State.poiFor (s : State) (l : Launch) (a n : Nat) : Bool := (granules a n).any (s.ownPoi l)
/-- A granule fails its ECC beyond correction as a launch reads it: its own dirty words that cover it whole stand in its place (R229, R293). -/
def State.ownEcc (s : State) (l : Launch) (g : Nat) : Bool := s.homeEcc g && !(s.ownShadow l (g / 4)).any (·.gAll (g % 4))
/-- Some granule of a storage range fails its ECC as a launch reads it. -/
def State.eccFor (s : State) (l : Launch) (a n : Nat) : Bool := (granules a n).any (s.ownEcc l)

/-- Bytes with a stream's own stores not yet performed over them, the latest last (R184). -/
def overBuf (sb : List PStore) (stor : Nat) (bs : List Byte) : List Byte :=
  sb.foldl (fun bs e => (List.range bs.length).map fun i =>
    if storOf e.pa ≤ stor + i && stor + i < storOf e.pa + e.bytes.length then lget 0 e.bytes (stor + i - storOf e.pa) else lget 0 bs i) bs
/-- A store not yet performed touches the bytes. -/
def bufHits (sb : List PStore) (stor n : Nat) : Bool := sb.any fun e => storOf e.pa < stor + n && stor < storOf e.pa + e.bytes.length

/-- The copies that core `c` holds of a line, in both planes, marked stale, but for a home copy (R182). -/
def State.staleOf (s : State) (c line : Nat) : State :=
  if homeOf line == some c then s else s.mapCache c fun pa l => if storOf pa / 128 == line then { l with stale := true } else l
/-- Bytes at a physical address written into the launch's shadow by core `c`, which takes ownership of a line it shadows newly, an earlier owner writing
its dirty words home, and an older copy of its own being fetched anew when it is read next, since no acquire will mark it stale (R182); none while the launch's quota has no line for them (R293, R298). A store to the bitmap of quarantined frames is ignored (R366). -/
def State.wrShadow (s : State) (c lid : Nat) (key : List Byte) (pa : Nat) (bs : List Byte) : Option State :=
  let l := s.lchAt lid
  let v := s.verAt l.part l.ver
  let stor := storOf pa
  let ln := stor / 128
  if s.inQuarMap stor then some s
  else
  let put := fun (s : State) (x : Shadow) =>
    let y := { x with mask := x.mask ||| wordMask (stor % 128) bs.length, data := dataPut x.data (stor % 128) bs }
    s.modVer l.part l.ver fun v => { v with lines := tput v.lines ln y }
  match v.lines.find? fun e => e.1 == ln with
  | some e => some (put s e.2)
  | none =>
    if s.quotaUsed lid < s.quotaMax lid then
      -- a COMMITTED version's line is merged first
      let s := (s.revoke none ln).mergeLine ln
      let s := { s.staleOf c ln with owners := tput s.owners ln (c + 1) }
      some (put s ⟨0, lineData (s.rdHome key (pa / 128 * 128) 128), 0, key, pa / 128⟩)
    else none

/-- Two byte ranges share a 32-byte granule (R163). -/
def grainHit (lo hi a n : Nat) : Bool := n != 0 && lo / 32 ≤ (a + n - 1) / 32 && a / 32 ≤ hi / 32
/-- A transfer destination of the core's scoreboard overlaps an access (R164). -/
def Core.scoreHit (k : Core) (sp : Space) (a n : Nat) : Bool := k.score.any fun e => e.dst && e.space == sp && grainHit e.lo e.hi a n

/-- The bounding byte range of a two-dimensional shape: first and last byte (R163, R221). -/
def shapeRange (base rows rowBytes stride : Nat) : Nat × Nat := (base, base + (rows - 1) * stride + rowBytes - 1)

/-- Item `i` of core `c` has yet to deliver to a storage line at its home (R228): its rows, cut where superblocks and write regions end. -/
def State.itemTakes (s : State) (c : Nat) (i : Item) (line : Nat) : Bool :=
  let l := s.lchAt i.lid
  !i.badDesc && !i.got && i.walked.isNone && i.dsts.any fun r => !isStaging r.1 &&
    ((cut r.1 r.2).flatMap fun p => l.runs p.1 p.2).any fun p => !l.shadowed p.1 p.2 && match s.physOf (some c) i.part p.1 with
      | some pa => (storLines pa p.2).contains line
      | none => false
/-- Any item. -/
def anyItem (_ : Item) : Bool := true
/-- An item that was granted its lines before the one with a number (R228). -/
def Item.earlier (g : Nat) (j : Item) : Bool := j.grant < g
/-- An item other than the one with a number. -/
def Item.other (g : Nat) (j : Item) : Bool := j.grant != g
/-- A transfer engine owns some of the lines for an item that a test names, until it has written them or the item retires (R228). -/
def State.engineOwns (s : State) (p : Item → Bool) (lines : List Nat) : Bool :=
  s.allItems.any fun e => p e.2 && lines.any (s.itemTakes e.1 e.2)
/-- A step whose access meets a line that a transfer engine owns is not performed (R228). -/
def State.awaitEngine (s : State) (p : Item → Bool) (pa n : Nat) : State :=
  if s.engineOwns p (storLines pa n) then { s with waits := true } else s
/-- A translation needs a walk that reads a page table line which a transfer engine owns (R228, R333). -/
def State.walkWaits (s : State) (core : Option Nat) (part va : Nat) : Bool :=
  !isStaging va && vaOk va && (s.tlbHit core part va).isNone && s.engineOwns anyItem (Config.walkLines part s.homeMem va)
/-- The translation of a global address for an agent whose walk waits for a transfer engine: the step is then not performed (R155, R228). -/
def State.reach (s : State) (core : Option Nat) (part va : Nat) (w : Bool) : XRes × State :=
  let r := s.xlate core part va w
  if s.walkWaits core part va then (match r.1 with
    | .ok _ _ => r.1
    | .bad _ _ => .ok 0 [], { r.2 with waits := true }) else r
/-- A weak access of core `c` reaches the home: it misses, or the line is its own home copy (R228). -/
def State.reachesHome (s : State) (c pa : Nat) : Bool :=
  let l := (s.coreAt c).colWork.line pa
  !l.valid || l.stale || homedAt c pa

/-- A watch register of the partition covers an access: `w` for a write (R330). -/
def State.watched (s : State) (part va n : Nat) (w : Bool) : Bool :=
  (s.partAt part).wp.any fun r => (if w then r.getLsbD 1 else r.getLsbD 0) && n != 0 &&
    va % 2 ^ 57 / 8 ≤ r.toNat / 8 && r.toNat / 8 ≤ (va % 2 ^ 57 + n - 1) / 8

/-- Strong stores still queued by a group performed at their homes (R184, R296). -/
def State.drainBuf (s : State) (c g : Nat) : State :=
  let q := s.grpAt c g
  let s := (q.sbuf ++ q.lsbuf).foldl (fun s e => ((s.awaitEngine anyItem e.pa e.bytes.length).touchHome e.pa).wrStrong c e.pa e.key e.bytes) s
  s.modGrp c g fun q => { q with sbuf := [], lsbuf := [] }

/-- How one thread's load ended. -/
inductive LoadRes where
  | ok (bs : List Byte) (missed : Bool) (s : State)
  /-- a fault, in the state that the access leaves: its walk has filled the TLBs (R155) -/
  | bad (c : Cause) (swap : Bool) (s : State)
  | stall
  /-- an atomic waits for shadow quota (R298) -/
  | quota
  deriving DecidableEq, Repr

/-- How one thread's store ended. -/
inductive StoreRes where
  | ok (s : State)
  /-- a fault, in the state that the access leaves: its walk has filled the TLBs (R155) -/
  | bad (c : Cause) (swap : Bool) (s : State)
  | stall
  /-- waits for shadow quota (R298) -/
  | quota
  deriving DecidableEq, Repr

/-- A store that goes on where the part before it was made. -/
def StoreRes.andThen (r : StoreRes) (f : State → StoreRes) : StoreRes := match r with
  | .ok s => f s
  | .bad c w s => .bad c w s
  | .stall => .stall
  | .quota => .quota

/-- The part `p` of a store by the group at `c`, `g`, of the launch `l`, of bytes at virtual address `va` and physical address `pa`: into the shadow, into the stream's queue of
strong stores, or into the column SRAM (R166, R180, R184, R293). -/
def State.storeRun (s : State) (l : Launch) (c g : Nat) (lane : Bool) (x : Scope) (key : List Byte) (pa va : Nat) (bs : List Byte) (p : Nat × Nat) : StoreRes :=
  let lid := (s.grpAt c g).lid
  let mine := (bs.drop (p.1 - va)).take p.2
  let at_ := pa + (p.1 - va)
  if l.shadowed p.1 p.2 then
    match s.wrShadow c lid key at_ mine with
    | some s2 => .ok s2
    | none => .quota
  else if Scope.wide x then
    .ok (s.modGrp c g fun q => if lane then { q with lsbuf := q.lsbuf ++ [⟨at_, key, mine⟩] } else { q with sbuf := q.sbuf ++ [⟨at_, key, mine⟩] })
  else .ok (s.wrWeak c at_ key mine)

/-- One aligned load of `n` bytes of global memory by a thread of core `c`, launch `lid`, with its stream's unperformed stores `sb`. A walk that succeeds fills
the TLBs whatever the access then meets (R135, R141, R144, R164, R183, R184, R208, R293). -/
def State.load (s : State) (c lid : Nat) (sb : List PStore) (va n : Nat) (o : Order) (x : Scope) : LoadRes :=
  let l := s.lchAt lid
  let far := Scope.wide x
  if s.walkWaits (some c) l.part va then .stall
  else match s.xlate (some c) l.part va false with
  | (.bad e sw, s0) => .bad e sw s0
  | (.ok pa key, s0) =>
    let s1 := s0.arrive c pa n far
    -- an access that waits is judged by what it finds once it is performed (R164, R228)
    if (s.coreAt c).scoreHit (.global l.part) va n || ((Scope.wide x || s.reachesHome c pa) && s.engineOwns anyItem (storLines pa n)) then .stall
    else if s.poiFor l (storOf pa) n || s.linePoi c pa n then .bad .poison false s1
    else if s.watched l.part va n false then .bad .watch false s0
    else if s.busBad c pa far then .bad .vbus false s0
    else if s.eccFor l (storOf pa) n then .bad .eccu false s1
    else
      let r := if Scope.wide x then
          let q := s1.rdStrong c pa key n
          (q.1, s1.misses c pa, q.2)
        else s1.rdWeak c pa key n
      let bs := overBuf sb (storOf pa) (s.overShadow l (storOf pa) r.1)
      .ok bs r.2.1 (if o == .acq then r.2.2.acquire c x else r.2.2)

/-- One aligned store by a thread of the group at `c`, `g`; `lane` for its lane stream. The region check of R166 comes before
(R135, R141, R144, R164, R183, R184, R209, R293). -/
def State.store (s : State) (c g : Nat) (lane : Bool) (va : Nat) (bs : List Byte) (o : Order) (x : Scope) : StoreRes :=
  let lid := (s.grpAt c g).lid
  let l := s.lchAt lid
  let n := bs.length
  if s.walkWaits (some c) l.part va then .stall
  else match s.xlate (some c) l.part va true with
  | (.bad e sw, s0) => .bad e sw s0
  | (.ok pa key, s0) =>
    -- a weak store to a line that the core neither owns nor homes fetches it first (R180)
    let far := Scope.wide x || !(homedAt c pa || s.owner (storOf pa / 128) == some c)
    let s1 := s0.arrive c pa n far
    if (s.coreAt c).scoreHit (.global l.part) va n || s.engineOwns anyItem (storLines pa n) then .stall
    else if s.poiFor l (storOf pa) n || s.linePoi c pa n then .bad .poison false s1
    else if s.watched l.part va n true then .bad .watch false s0
    else if s.busBad c pa far then .bad .vbus false s0
    else if s.eccFor l (storOf pa) n then .bad .eccu false s1
    else
      let s1 := if o == .rel then s1.release c x else s1
      let sb := if lane then (s.grpAt c g).lsbuf else (s.grpAt c g).sbuf
      let runs := l.runs va n
      -- a release at a narrow scope, a store over one not yet performed, and a strong one that the shadow takes come after the queued ones (R177, R184)
      let drains := if Scope.wide x then runs.any fun p => l.shadowed p.1 p.2 else o == .rel || bufHits sb (storOf pa) n
      let s1 := if drains then s1.drainBuf c g else s1
      runs.foldl (fun r p => r.andThen fun s => s.storeRun l c g lane x key pa va bs p) (.ok s1)

/-- One indivisible read and write of `n` bytes by a thread of the group at `c`, `g`: the old bytes, and the new ones from a function
(R186, R188, R189). Whether an atomic of a write region that leaves its word as it was, a compare-and-swap that fails, makes a shadow line R189 leaves open:
it does, the word dirty with its old value, the model's choice, log entry 17. Which page right an atomic needs R185 leaves open: the right to write alone, the
model's choice, log entry 17. -/
def State.atomic (s : State) (c g : Nat) (va n : Nat) (o : Order) (x : Scope) (f : List Byte → List Byte) : LoadRes :=
  let lid := (s.grpAt c g).lid
  let l := s.lchAt lid
  let far := true
  if s.walkWaits (some c) l.part va then .stall
  else match s.xlate (some c) l.part va true with
  | (.bad e sw, s0) => .bad e sw s0
  | (.ok pa key, s0) =>
    let s1 := s0.arrive c pa n far
    if (s.coreAt c).scoreHit (.global l.part) va n || s.engineOwns anyItem (storLines pa n) then .stall
    else if s.poiFor l (storOf pa) n || s.linePoi c pa n then .bad .poison false s1
    else if s.watched l.part va n true || s.watched l.part va n false then .bad .watch false s0
    else if s.busBad c pa far then .bad .vbus false s0
    else if s.eccFor l (storOf pa) n then .bad .eccu false s1
    else
      -- the stores queued before it are performed first (R184)
      let s1 := s1.drainBuf c g
      let s1 := if o == .rel || o == .ar then s1.release c x else s1
      let acq := fun (s : State) => if o == .acq || o == .ar then s.acquire c x else s
      if l.shadowed va n then
        let old := s1.overShadow l (storOf pa) ((s1.revoke (some c) (storOf pa / 128)).rdHome key pa n)
        match s1.wrShadow c lid key pa (f old) with
        | some s2 => .ok old false (acq s2)
        | none => .quota
      else
        let r := s1.rdStrong c pa key n
        .ok r.1 false (acq (r.2.wrStrong c pa key (f r.1)))

/-- Where a scratchpad address leads: an absolute offset of a core's panes, or an offset of its column scratchpad. -/
inductive SLoc where
  | pad (core off : Nat)
  | col (core off : Nat)
  deriving DecidableEq, Repr

/-- The team of a cohort on a core, by its first slot (R139). -/
def State.cohortTeam (s : State) (c lid cohort : Nat) : Option Nat :=
  ((s.coreAt c).bound.find? fun e => e.2.lid == lid && e.2.cohort == cohort).map fun e => e.2.slot0

/-- What a scratchpad address of a group of core `c` names; none raises SPAD (R138, R139). The bytes of an access lie in one pane or way. -/
def State.spadLoc (s : State) (c : Nat) (q : Group) (sa : Nat) : Option SLoc :=
  let rank := sa / 2 ^ 24 % 8
  let off := sa % 2 ^ 24
  if sa / 2 ^ 27 != 0 || rank == 6 then none
  else
    let own := rank == 7 || rank == c % 6
    let t := if own then c else c / 6 * 6 + rank
    match (if own then some q.slot0 else s.cohortTeam t q.lid q.cohort) with
    | none => none
    | some team =>
      if off < 0x80000 then
        let ps := (s.coreAt t).teamPanes team
        match ps.head? with
        | some p => if off < 8192 * ps.length then some (.pad t (8192 * p + off)) else none
        | none => none
      else if off < 0x800000 then none
      else if (off - 0x800000) / 2 ^ 20 < (s.coreAt t).wpr || (match (s.coreAt t).wprChg with
          | some w => (off - 0x800000) / 2 ^ 20 < w.goal
          | none => false) then some (.col t (off - 0x800000))
      else none

/-- The access must wait: it lies in ways that a change of %wpr covers (R161). -/
def State.spadMoves (s : State) (l : SLoc) : Bool :=
  match l with
  | .pad _ _ => false
  | .col t a => match (s.coreAt t).wprChg with
    | some w => min w.goal (s.coreAt t).wpr ≤ a / 2 ^ 20 && a / 2 ^ 20 < max w.goal (s.coreAt t).wpr
    | none => false
/-- The access must wait: a change of %wpr covers it, or a transfer writes there (R161, R164). -/
def State.spadStall (s : State) (l : SLoc) (n : Nat) : Bool :=
  s.spadMoves l || (match l with
    | .pad t a => (s.coreAt t).scoreHit .spad a n
    | .col t a => (s.coreAt t).scoreHit .spad (0x800000 + a) n)

/-- Some granule of the working plane there is poisoned. -/
def State.spadPoi (s : State) (l : SLoc) (n : Nat) : Bool :=
  match l with
  | .pad t a => (granules a n).any fun g => tget false ((s.coreAt t).plane ((s.coreAt t).paneB (g / 256))).padPoi g
  | .col t a => (granules a n).any fun g => tget false (s.coreAt t).colWork.colPoi g

/-- Some granule of the working plane there fails its ECC beyond correction (R151). -/
def State.spadEcc (s : State) (l : SLoc) (n : Nat) : Bool :=
  match l with
  | .pad t a => (granules a n).any fun g => tget false ((s.coreAt t).plane ((s.coreAt t).paneB (g / 256))).ecc (4 * g)
  | .col t a => (granules a n).any fun g => tget false (s.coreAt t).colWork.ecc (4 * g + 1)

/-- Address `k` bytes into a place of scratchpad. -/
def SLoc.plus (l : SLoc) (k : Nat) : SLoc := match l with
  | .pad c o => .pad c (o + k)
  | .col c o => .col c (o + k)
/-- The first of `n` bytes of scratchpad that is poisoned, or fails its ECC beyond correction, with the cause (R268, R270). -/
def State.spadWrong (s : State) (l : SLoc) (n : Nat) : Option (Cause × Nat) :=
  (findBelow (fun k => s.spadPoi (l.plus k) 1 || s.spadEcc (l.plus k) 1) n).map fun k => (if s.spadPoi (l.plus k) 1 then .poison else .eccu, k)

/-- Bytes of the working plane of scratchpad (R165). -/
def State.rdSpad (s : State) (l : SLoc) (n : Nat) : List Byte :=
  match l with
  | .pad t a => (span a n).map fun o => tget 0 ((s.coreAt t).plane ((s.coreAt t).paneB (o / 8192))).pad o
  | .col t a => tbytes (s.coreAt t).colWork.col a n

/-- Bytes written to the working plane of scratchpad (R165). -/
def State.wrSpad (s : State) (l : SLoc) (bs : List Byte) : State :=
  match l with
  | .pad t a => s.modCore t fun k => (List.range bs.length).foldl (fun k i =>
      k.modPlane (k.paneB ((a + i) / 8192)) fun p => { p with pad := tset 0 p.pad (a + i) (lget 0 bs i) }) k
  | .col t a => s.modCore t fun k => k.modPlane k.colSel fun p => { p with col := twrite p.col a bs }

/-- An access reaches the layers that hold a scratchpad location: those of column scratchpad may be gated (R375). -/
def State.touchSpad (s : State) (l : SLoc) : State :=
  match l with
  | .pad _ _ => s
  | .col t _ => s.touchS t
/-- The vertical bus of column scratchpad failed (R373). -/
def State.spadBus (s : State) (l : SLoc) : Bool :=
  match l with
  | .pad _ _ => false
  | .col t _ => (s.coreAt t).vbus.failS

/-- Every byte of a physical range is named, and no frame of it is quarantined (R366, R386). -/
def State.physOk (s : State) (pa n : Nat) : Bool :=
  (cut pa n).all fun p => (locOf p.1).isSome && !s.frameQuar (p.1 / 65536)
/-- Physical bytes read by an agent outside the partitions' streams, at their homes at .s (R342); `none` where nothing is named or a frame is quarantined
(R366). -/
def State.physRead (s : State) (pa n : Nat) : Option (List Byte × State) :=
  if s.physOk pa n then
    some ((cut pa n).foldl (fun (r : List Byte × State) p =>
      let s := ((r.2.awaitEngine anyItem p.1 p.2).arriveAt p.1 p.2).revokeAll (storLines p.1 p.2)
      (r.1 ++ s.rdHome [] p.1 p.2, s)) ([], s))
  else none

/-- Physical bytes written by such an agent (R342, R209): whole granules written by the host or a peer lose their poison. -/
def State.physWrite (s : State) (pa : Nat) (bs : List Byte) (clear : Bool) : Option State :=
  if s.physOk pa bs.length then
    some ((cut pa bs.length).foldl (fun s p =>
      let s := ((s.awaitEngine anyItem p.1 p.2).arriveAt p.1 p.2).revokeAll (storLines p.1 p.2)
      let s := s.wrHome [] p.1 ((bs.drop (p.1 - pa)).take p.2)
      if clear then s.clearPoi ((granules (storOf p.1) p.2).filter fun g => storOf p.1 ≤ 32 * g && 32 * g + 32 ≤ storOf p.1 + p.2) else s) s)
  else none

/-- Bytes of a partition's virtual memory read by the front end as strong loads at .s (R289, R346): an error where they do not translate. -/
def State.feRead (s : State) (part va n : Nat) : Except Cause (List Byte × State) :=
  (cut va n).foldl (fun r p => match r with
    | .error c => .error c
    | .ok (bs, s) => if s.waits then .ok (bs ++ List.replicate p.2 0, s) else match s.reach none part p.1 false with
      | (.bad c _, _) => .error c
      | (.ok pa key, s) =>
        let s := ((s.awaitEngine anyItem pa p.2).arriveAt pa p.2).revokeAll (storLines pa p.2)
        .ok (bs ++ s.rdHome key pa p.2, s)) (.ok ([], s))

/-- Such a read meets a line that a transfer engine owns (R228). -/
def State.feBusy (s : State) (part va n : Nat) : Bool := match s.feRead part va n with
  | .ok r => r.2.waits
  | .error _ => false

/-- Bytes written by the front end at their home. -/
def State.feWrite (s : State) (part va : Nat) (bs : List Byte) : Except Cause State :=
  (cut va bs.length).foldl (fun r p => match r with
    | .error c => .error c
    | .ok s => if s.waits then .ok s else match s.reach none part p.1 true with
      | (.bad c _, _) => .error c
      | (.ok pa key, s) =>
        let s := ((s.awaitEngine anyItem pa p.2).arriveAt pa p.2).revokeAll (storLines pa p.2)
        .ok (s.wrHome key pa ((bs.drop (p.1 - va)).take p.2))) (.ok s)

/-- An atomic add of the front end to an aligned dword at its home, which needs the right to write alone (R290, R298, R345). -/
def State.feAdd (s : State) (part va : Nat) (x : Word) : Except Cause State :=
  match s.reach none part va true with
  | (.bad c _, _) => .error c
  | (.ok pa key, s) =>
    let s := ((s.awaitEngine anyItem pa 8).arriveAt pa 8).revokeAll (storLines pa 8)
    .ok (s.wrHome key pa (leBytes 8 ((ofBytes64 (s.rdHome key pa 8) + x).toNat)))

end Sys2Proof.Machine
end

