-- ==== Sys2Proof/Machine/Queue.lean ====
section
/-!
DEFINITION. Sys2Proof/Machine/Queue.lean: rings of packets: their check code (R345), fetching and judging (R346), completion records (R348),
segment linking (R349), event packets (R359) and the signals of the Lamplighter cores (R355).
-/
namespace Sys2Proof.Machine

/-- One bit step of CRC-32, reflected. CRC-32 of IEEE 802.3 is named and not defined by the spec, log entry 8. -/
def crcBit (c : BitVec 32) : BitVec 32 := if c.getLsbD 0 then (c >>> 1) ^^^ 0xEDB88320 else c >>> 1
/-- One byte step of CRC-32. -/
def crcByte (c : BitVec 32) (b : Byte) : BitVec 32 := (List.range 8).foldl (fun c _ => crcBit c) (c ^^^ b.zeroExtend 32)
/-- CRC-32 with initial value and final XOR 0xFFFF_FFFF (R345). -/
def crc32 (bs : List Byte) : BitVec 32 := bs.foldl crcByte 0xFFFFFFFF ^^^ 0xFFFFFFFF
/-- The check code of a packet over its bytes 0 to 55 and its SEQ byte (R345). -/
def pktCrc (bs : List Byte) (seq : Nat) : BitVec 32 := crc32 (bs.take 56 ++ [BitVec.ofNat 8 seq])

/-- Dwords of bytes. -/
def toDws (n : Nat) (bs : List Byte) : List Word := (List.range n).map fun i => ofBytes64 ((bs.drop (8 * i)).take 8)
/-- Bytes of dwords. -/
def ofDws (ws : List Word) : List Byte := ws.flatMap fun w => leBytes 8 w.toNat
/-- Dword `i` of a list. -/
def dw (ws : List Word) (i : Nat) : Word := lget 0 ws i
/-- Bits lo to lo + n - 1 of a dword. -/
def bits (w : Word) (lo n : Nat) : Nat := w.toNat / 2 ^ lo % 2 ^ n

/-- The 64 bytes of a packet from its first seven dwords and its SEQ (R345). -/
def mkPacket (ws : List Word) (seq : Nat) : List Byte :=
  let body := ofDws (ws.take 7)
  body ++ leBytes 4 (pktCrc body seq).toNat ++ [BitVec.ofNat 8 seq, 0, 0, 0]

/-- The role that schedules a partition (R25). -/
def schedOf (p : Nat) : Nat := p + 1
/-- A bit of a core's signal register raised (R355). -/
def State.signal (s : State) (h bit : Nat) : State := s.modHart h fun x => { x with sig := x.sig ||| BitVec.ofNat 7 (2 ^ bit) }

/-- Slots of a queue's segment. -/
def Queue.n (q : Queue) : Nat := 2 ^ q.log2n
/-- The virtual address of slot `i mod N`. -/
def Queue.slotAt (q : Queue) (i : Nat) : Nat := 4096 * q.base.toNat + 64 * (i % q.n)
/-- The pass after `k` steps: 255 steps to 1 (R343). -/
def passStep (p k : Nat) : Nat := (p + 254 + k) % 255 + 1
/-- The SEQ of the packet at an index from RD on: PASS stepped at each multiple of N between (R343). -/
def Queue.seqAt (q : Queue) (i : BitVec 32) : Nat := passStep q.pass ((q.rd.toNat % q.n + (i - q.rd).toNat) / q.n)
/-- The queue with RD moved forward to an index. -/
def Queue.advance (q : Queue) (i : BitVec 32) : Queue := { q with pass := q.seqAt i, rd := i }
/-- The queue with RD written by its owner: forward as it advances, or back, where PASS steps back (R343). -/
def Queue.setRd (q : Queue) (i : BitVec 32) : Queue :=
  let back := (q.rd - i).toNat
  if (i - q.rd).toNat < 2 ^ 31 then q.advance i else { q with rd := i, pass := passStep q.pass (254 * ((back + (q.n - 1 - q.rd.toNat % q.n)) / q.n)) }
/-- Packets in a ring. -/
def Queue.fill (q : Queue) : Nat := (q.wr - q.rd).toNat

/-- The event queue of a partition (R343). -/
def State.evQueue (s : State) (p : Nat) : Option Nat := (s.queues.find? fun e => e.2.evq && e.2.part == p && e.2.state == 1).map (·.1)

/-- One held event written into the partition's E queue, if there is room (R359). -/
def State.flush1 (s : State) (p : Nat) : State :=
  match s.evQueue p, (s.partAt p).events with
  | some n, (kind, fa, lid) :: rest =>
    let q := s.qAt n
    if q.fill < q.n then
      let ws : List Word := [BitVec.ofNat 64 (7 + 256 * kind), 0, fa, BitVec.ofNat 64 (lid % 512), 0, 0, 0]
      match s.feWrite q.part (q.slotAt q.wr.toNat) (mkPacket ws (q.seqAt q.wr)) with
      | .ok s1 => ((s1.modQ n fun q => { q with wr := q.wr + 1 }).modPart p fun x => { x with events := rest }).signal (schedOf p) 4
      | .error _ => s
    else s
  | _, _ => s
/-- The held events of a partition written while there is room, in order (R359). -/
def State.flush (s : State) (p : Nat) : State := (List.range (s.partAt p).events.length).foldl (fun s _ => s.flush1 p) s
/-- An event reported to the driver of a partition (R359). -/
def State.event (s : State) (p kind : Nat) (fa : Word) (lid : Nat) : State :=
  (s.modPart p fun x => { x with events := x.events ++ [(kind, fa, lid)] }).flush p

/-- A queue turns faulted (R346, R359). -/
def State.queueFault (s : State) (q : Nat) : State :=
  (s.modQ q fun x => { x with state := 2 }).event (s.qAt q).part 3 (BitVec.ofNat 64 q) 0

/-- A completion record (R348): dwords 0 to 6 with the status fields, then dword 7; CDONE counts and the vector is raised. -/
def State.complete (s : State) (q : Nat) (pkt : List Word) (ver : Nat) (late : Bool) (e : Ending) : State :=
  let x := s.qAt q
  let cdone := x.cdone + 1
  let ws : List Word :=
    [BitVec.ofNat 64 (e.status + 2 ^ 8 * e.cause + 2 ^ 16 * e.detail + 2 ^ 24 * ver + 2 ^ 32 * bits (dw pkt 0) 16 16
        + 2 ^ 48 * e.thread.toNat + 2 ^ 56 * e.strm.toNat + 2 ^ 57 * e.hnd.toNat + 2 ^ 58 * late.toNat),
     e.spc, e.lpc, e.msg, e.faddr, BitVec.ofNat 64 (e.at_.getD s.wall), e.code.zeroExtend 64, cdone]
  let cpl := dw pkt 4
  let s := if cpl = 0 then s else (match s.feWrite x.part cpl.toNat (ofDws ws) with
    | .ok s1 => s1
    | .error _ => s)
  let s := s.modQ q fun x => { x with cdone := cdone }
  if (dw pkt 0).getLsbD 10 then { s with msix := s.msix ++ [(x.part + 1, x.vec)] } else s

/-- An ending with a status and nothing else. -/
def Ending.plain (status cause detail : Nat) : Ending := ⟨status, cause, detail, 0, false, false, 0, 0, 0, 0, 0, none⟩

/-- A packet of a queue marked done, and its completion posted. -/
def State.pktDone (s : State) (q n ver : Nat) (late : Bool) (e : Ending) : State :=
  match (s.qAt q).pkts.find? fun p => p.n == n with
  | none => s
  | some p => (s.modQ q fun x => { x with pkts := (x.pkts.map fun y => if y.n == n then { y with done := true } else y) }).complete q p.dw ver late e
/-- Packets done with nothing undone before them leave the list. -/
def Queue.prune (q : Queue) : Queue := { q with pkts := q.pkts.dropWhile fun p => p.done }

/-- The type of a packet. -/
def ptype (ws : List Word) : Nat := bits (dw ws 0) 0 8
/-- A packet keeps to R345: type and reserved fields; `priv` for a privileged queue. -/
def pktOk (ws : List Word) (priv : Bool) : Bool :=
  let t := ptype ws
  1 ≤ t && t ≤ 6 && bits (dw ws 0) 11 5 == 0 && bits (dw ws 0) 32 32 == 0 && dw ws 5 == 0 && dw ws 6 == 0 && bits (dw ws 7) 40 24 == 0
  && (dw ws 4).toNat % 64 == 0
  && (match t with
    | 1 => dw ws 3 == 0
    | 2 => dw ws 3 == 0
    | 3 => (dw ws 2).toNat % 8 == 0
    | 4 => dw ws 2 == 0 && dw ws 3 == 0
    | 5 => (dw ws 2).toNat % 4096 == 0 && 6 ≤ (dw ws 3).toNat && (dw ws 3).toNat ≤ 16
    | _ => priv && bits (dw ws 3) 1 31 == 0 && bits (dw ws 3) 41 23 == 0)

/-- The front end completes a NOP, LINK, SIGNAL or invalid packet once every earlier packet of its queue has started (R345, R347). -/
def State.finishPkt (s : State) (q : Nat) (p : Pkt) : State :=
  let s := s.modQ q fun x => { x with pkts := x.pkts.map fun y => if y.n == p.n then { y with started := true } else y }
  let done := fun (s : State) (e : Ending) => s.pktDone q p.n 0 false e
  if !pktOk p.dw (s.qAt q).priv then done s (.plain 2 0 0x20)
  else if ptype p.dw = 3 then
    match s.feAdd (s.qAt q).part (dw p.dw 2).toNat (dw p.dw 3) with
    | .ok s1 => done s1 (.plain 0 0 0)
    | .error c => done s (.plain 2 (if c == .prot then 5 else 4) 0x21)
  else done s (.plain 0 0 0)

/-- A packet that the front end completes by itself. -/
def frontPkt (ws : List Word) (priv : Bool) : Bool := !pktOk ws priv || ptype ws == 3 || ptype ws == 4 || ptype ws == 5

/-- The packets at the head of a queue that the front end completes by itself, started in ring order (R347). -/
def State.runQueue (s : State) (q : Nat) : Nat → State
  | 0 => s
  | k + 1 =>
    match (s.qAt q).pkts.find? fun p => !p.started with
    | some p => if frontPkt p.dw (s.qAt q).priv then (s.finishPkt q p).runQueue q k else s
    | none => s

/-- Every such packet started. -/
def State.runAll (s : State) (q : Nat) : State := s.runQueue q (s.qAt q).pkts.length

/-- How a fetch of slot RD was judged (R346, R355): the result code of `lx.rfetch`, and the packet where one was taken. -/
structure Fetched where
  code : Nat
  pkt : List Byte
  s : State
  deriving DecidableEq, Repr

/-- The dwords of the packet in slot RD, where its SEQ and CRC are right (R346). -/
def State.peek (s : State) (q : Nat) : Option (List Word) :=
  let x := s.qAt q
  if x.state != 1 || x.wr == x.rd then none
  else match s.feRead x.part (x.slotAt x.rd.toNat) 64 with
    | .error _ => none
    | .ok (bs, _) => if (lget 0 bs 60).toNat == x.pass && BitVec.ofNat 32 (leNat ((bs.drop 56).take 4)) == pktCrc bs x.pass then some (toDws 8 bs) else none

/-- A packet with B may start: every earlier packet of its queue has completed (R347). -/
def Queue.startable (x : Queue) (ws : List Word) : Bool := !(dw ws 0).getLsbD 8 || x.pkts.all fun p => p.done

/-- A fetched LINK switches the segment at once (R349). -/
def Queue.link_ (x : Queue) (ws : List Word) : Queue :=
  let w : BitVec 32 := match x.wseg with
    | some (_, _, w) => w
    | none => 0
  { x with base := BitVec.ofNat 52 ((dw ws 2).toNat / 4096), log2n := (dw ws 3).toNat % 32, rd := 0, pass := 1, wr := w, wseg := none }

/-- An untaken issuer of a device-written packet, by its order number (R300). -/
def Queue.issuer (x : Queue) (n : Nat) : Option Issuer := (x.issuers.find? fun e => e.1 == n).map (·.2)
/-- The next packet is the child of a `launch` that a debugger stepped over and has not continued (R329). -/
def Queue.holds (x : Queue) : Bool := match x.issuer x.taken with
  | some i => i.hold
  | none => false

/-- One fetch of slot RD, taking the packet when `take` holds of it (R346, R347). A torn slot is fetched again after 1 µs, which is 2,250 cycles (R4); nothing is fetched from an event
queue, whose RD its consumer advances (R359). -/
def State.fetch (s : State) (q : Nat) (take : List Word → Bool) : Fetched :=
  let x := s.qAt q
  if x.state != 1 || !x.en then ⟨4, [], s⟩
  else if x.wr == x.rd || x.evq then ⟨0, [], s⟩
  else if x.torn != 0 && (match x.retry with
    | some t => s.now < t
    | none => false) then ⟨2, [], s⟩
  else match s.feRead x.part (x.slotAt x.rd.toNat) 64 with
    | .error _ => ⟨4, [], s.queueFault q⟩
    | .ok (bs, s) =>
      let ws := toDws 8 bs
      let again := some (s.now + 2250)
      if (lget 0 bs 60).toNat != x.pass then ⟨0, [], s.modQ q fun x => { x with retry := again }⟩
      else if BitVec.ofNat 32 (leNat ((bs.drop 56).take 4)) != pktCrc bs x.pass then
        if x.torn + 1 = 3 then ⟨4, [], (s.modQ q fun x => { x with torn := 3, retry := none }).queueFault q⟩
        else ⟨2, [], s.modQ q fun x => { x with torn := x.torn + 1, retry := again }⟩
      else if !x.startable ws || x.holds then ⟨3, [], s⟩
      else if !take ws then ⟨1, bs, s⟩
      else
        let s := s.modQ q fun x =>
          let y := (x.advance (x.rd + 1)).prune
          let y := { y with torn := 0, retry := none, taken := y.taken + 1, pkts := y.pkts ++ [⟨ws, y.taken, false, false⟩] }
          if ptype ws == 5 && pktOk ws x.priv then y.link_ ws else y
        let s := if ptype ws == 5 && pktOk ws x.priv then s.signal (schedOf x.part) 3 else s
        ⟨1, bs, s.runAll q⟩

/-- How the writing of a launch packet into a D queue went (R300, R349, R388). -/
inductive Push where
  | ok (s : State)
  /-- no room: the state after any link request -/
  | wait (s : State)
  | badq (s : State)
  deriving DecidableEq, Repr

/-- A launch packet for a record written into the ring of a D queue (R300, R349, R388). -/
def State.push (s : State) (part q : Nat) (lrec : Word) (by_ : Issuer) : Push :=
  let x := s.qAt q
  if 1024 ≤ q || x.part != part || !x.en || x.state != 1 || !x.dev then .badq s
  else
    let ws : List Word := [1, 0, lrec, 0, 0, 0, 0]
    match x.wseg with
    | some (b, l, w) =>
      -- writing goes on in the segment that the kept LINK names; it is not linked again until the fetcher reaches it
      if w.toNat + 1 < 2 ^ l then
        match s.feWrite part (4096 * b.toNat + 64 * w.toNat) (mkPacket ws 1) with
        | .ok s1 => .ok (s1.modQ q fun x => { x with wseg := some (b, l, w + 1), pushed := x.pushed + 1, issuers := tput x.issuers x.pushed by_ })
        | .error _ => .badq (s.queueFault q)
      else if x.link || x.linkWait then .wait s
      else .wait ({ (s.modQ q fun x => { x with link := true }) with harts := (s.modHart (schedOf part) fun h => { h with irq := true }).harts })
    | none =>
      if x.fill + 1 < x.n then
        match s.feWrite part (x.slotAt x.wr.toNat) (mkPacket ws (x.seqAt x.wr)) with
        | .ok s1 => .ok (s1.modQ q fun x => { x with wr := x.wr + 1, linkWait := false, pushed := x.pushed + 1, issuers := tput x.issuers x.pushed by_ })
        | .error _ => .badq (s.queueFault q)
      else if x.link || x.linkWait then .wait s
      else .wait ({ (s.modQ q fun x => { x with link := true }) with harts := (s.modHart (schedOf part) fun h => { h with irq := true }).harts })

/-- A LINK to NEXT written into the kept slot of a D queue (R349 step 2). -/
def State.linkIn (s : State) (q : Nat) (next : BitVec 52) (l : Nat) : State :=
  let x := s.qAt q
  let ws : List Word := [5, 0, BitVec.ofNat 64 (4096 * next.toNat), BitVec.ofNat 64 l, 0, 0, 0]
  match s.feWrite x.part (x.slotAt x.wr.toNat) (mkPacket ws (x.seqAt x.wr)) with
  | .ok s1 => s1.modQ q fun x => { x with wr := x.wr + 1, link := false, next := 0, nlog2n := l, wseg := some (next, l, 0), pushed := x.pushed + 1 }
  | .error _ => s.queueFault q

end Sys2Proof.Machine
end

