-- ==== Sys2Proof/Machine/Float.lean ====
section
/-!
DEFINITION. Sys2Proof/Machine/Float.lean: floating-point values and the arithmetic on them: exact, then rounded once (R94 to R99, R106 to R113).
-/
namespace Sys2Proof.Machine

/-- A format: fraction bits and exponent bits (R94). -/
structure Fp where
  f : Nat
  eb : Nat
  deriving DecidableEq, Repr

/-- FP64 (R94). -/
def fp64 : Fp := ⟨52, 11⟩
/-- FP32 (R94). -/
def fp32 : Fp := ⟨23, 8⟩
/-- FP16 (R94). -/
def fp16 : Fp := ⟨10, 5⟩
/-- BF16 (R94). -/
def bf16 : Fp := ⟨7, 8⟩
/-- The format of a code (R74, R104). -/
def fpOf : FFmt → Fp
  | .s => fp32
  | .d => fp64
  | .h => fp16
  | .bf => bf16

/-- The exponent bias (R94). -/
def Fp.bias (p : Fp) : Nat := 2 ^ (p.eb - 1) - 1
/-- The exponent of the quantum of subnormals. -/
def Fp.qmin (p : Fp) : Int := 1 - (p.bias : Int) - p.f
/-- The code of +∞ (R95). -/
def Fp.inf (p : Fp) : Nat := (2 ^ p.eb - 1) * 2 ^ p.f
/-- The canonical NaN (R95). -/
def Fp.nan (p : Fp) : Nat := p.inf + 2 ^ (p.f - 1)
/-- The sign bit. -/
def Fp.sgn (p : Fp) : Nat := 2 ^ (p.f + p.eb)

/-- A value: NaN, an infinity, or (-1)^neg × m × 2^e (R94). -/
inductive FV where
  | nan
  | inf (neg : Bool)
  | fin (neg : Bool) (m : Nat) (e : Int)
  deriving DecidableEq, Repr

/-- The value a code stands for (R94). -/
def Fp.dec (p : Fp) (x : Nat) : FV :=
  let neg := x / p.sgn % 2 == 1
  let ex := x / 2 ^ p.f % 2 ^ p.eb
  let fr := x % 2 ^ p.f
  if ex = 2 ^ p.eb - 1 then (if fr = 0 then .inf neg else .nan)
  else if ex = 0 then .fin neg fr p.qmin
  else .fin neg (2 ^ p.f + fr) (p.qmin + (ex - 1 : Nat))

/-- Rounding away from zero, by the mode, the sign, the parity of the truncated value, and how the rest compares with half a unit:
0 exact, 1 below half, 2 half, 3 above half (R97). -/
def roundUp (rm : Rm) (neg odd : Bool) (rest : Nat) : Bool :=
  match rm with
  | .rn => rest == 3 || (rest == 2 && odd)
  | .rz => false
  | .ru => !neg && rest != 0
  | .rd => neg && rest != 0

/-- (m plus less than one, where `more`) × 2^e as an integer multiple of 2^q, rounded once. -/
def roundQ (rm : Rm) (neg : Bool) (m : Nat) (more : Bool) (e q : Int) : Nat :=
  if q ≤ e then m * 2 ^ (e - q).toNat
  else
    let sh := (q - e).toNat
    if m.log2 + 2 < sh then
      (if roundUp rm neg false (if m = 0 && !more then 0 else 1) then 1 else 0)
    else
      let n := m / 2 ^ sh
      let r := m % 2 ^ sh
      let h := 2 ^ (sh - 1)
      let rest := if r = 0 then (if more then 1 else 0) else if r < h then 1 else if r = h then (if more then 3 else 2) else 3
      if roundUp rm neg (n % 2 == 1) rest then n + 1 else n

/-- The code of a rounded magnitude without its sign; overflow gives infinity or the largest finite value (R97). -/
def Fp.mag (p : Fp) (rm : Rm) (neg : Bool) (m : Nat) (more : Bool) (e : Int) : Nat :=
  let q := max (e + m.log2 - p.f) p.qmin
  if (p.bias : Int) + 2 < e + m.log2 then (if roundUp rm neg true 3 then p.inf else p.inf - 1)
  else
    let c := (q - p.qmin).toNat * 2 ^ p.f + roundQ rm neg m more e q
    if p.inf ≤ c then (if roundUp rm neg true 3 then p.inf else p.inf - 1) else c

/-- A magnitude with a sign as a code. -/
def Fp.signed (p : Fp) (neg : Bool) (c : Nat) : Nat := if neg then p.sgn + c else c

/-- The code of a value plus less than one unit of 2^e where `more`, rounded once (R96, R97). -/
def Fp.encX (p : Fp) (rm : Rm) (more : Bool) : FV → Nat
  | .nan => p.nan
  | .inf neg => p.signed neg p.inf
  | .fin neg m e => if m = 0 && !more then p.signed neg 0 else p.signed neg (p.mag rm neg m more e)

/-- The code of a value, rounded once (R97). -/
def Fp.enc (p : Fp) (rm : Rm) (x : FV) : Nat := p.encX rm false x

/-- The sign of a value. -/
def FV.neg : FV → Bool
  | .nan => false
  | .inf n => n
  | .fin n _ _ => n
/-- The value with its sign changed. -/
def FV.negate : FV → FV
  | .nan => .nan
  | .inf n => .inf !n
  | .fin n m e => .fin (!n) m e
/-- The value is a zero. -/
def FV.isZero : FV → Bool
  | .fin _ 0 _ => true
  | _ => false
/-- The value is a NaN. -/
def FV.isNan : FV → Bool
  | .nan => true
  | _ => false
/-- The value is finite. -/
def FV.isFin : FV → Bool
  | .fin _ _ _ => true
  | _ => false

/-- A signed mantissa. -/
def sgnInt (neg : Bool) (m : Nat) : Int := if neg then -(m : Int) else m

/-- The exact sum (R96): an exact zero sum of operands of opposite sign is +0, or -0 under .rd. A `dfma.rd` with a zero product of positive sign and
c = -0 is such a sum, where R116 says the product's sign stays correct: R96 is followed, the model's choice, log entry 69. -/
def FV.add (rm : Rm) (x y : FV) : FV :=
  match x, y with
  | .nan, _ => .nan
  | _, .nan => .nan
  | .inf a, .inf b => if a == b then .inf a else .nan
  | .inf a, _ => .inf a
  | _, .inf b => .inf b
  | .fin a m e, .fin b k f =>
    if m = 0 && k = 0 then .fin (if a == b then a else rm == .rd) 0 0
    else
      let g := min e f
      let v := sgnInt a m * 2 ^ (e - g).toNat + sgnInt b k * 2 ^ (f - g).toNat
      if v = 0 then .fin (rm == .rd) 0 0 else .fin (v < 0) v.natAbs g

/-- The exact product. -/
def FV.mul (x y : FV) : FV :=
  match x, y with
  | .nan, _ => .nan
  | _, .nan => .nan
  | .inf a, .inf b => .inf (a != b)
  | .inf a, .fin b k _ => if k = 0 then .nan else .inf (a != b)
  | .fin a m _, .inf b => if m = 0 then .nan else .inf (a != b)
  | .fin a m e, .fin b k f => .fin (a != b) (m * k) (e + f)

/-- Floor of the square root, by bits from 2^k down. -/
def isqrtGo (n : Nat) : Nat → Nat → Nat
  | 0, r => if (r + 1) * (r + 1) ≤ n then r + 1 else r
  | k + 1, r => isqrtGo n k (if (r + 2 ^ (k + 1)) * (r + 2 ^ (k + 1)) ≤ n then r + 2 ^ (k + 1) else r)
/-- Floor of the square root. -/
def isqrt (n : Nat) : Nat := isqrtGo n (n.log2 / 2 + 1) 0

/-- A quotient of values as a code, rounded once (R74, R108). -/
def Fp.div (p : Fp) (rm : Rm) (x y : FV) : Nat :=
  match x, y with
  | .nan, _ => p.nan
  | _, .nan => p.nan
  | .inf _, .inf _ => p.nan
  | .inf a, .fin b _ _ => p.signed (a != b) p.inf
  | .fin a _ _, .inf b => p.signed (a != b) 0
  | .fin a m e, .fin b k f =>
    if k = 0 then (if m = 0 then p.nan else p.signed (a != b) p.inf)
    else if m = 0 then p.signed (a != b) 0
    else
      let sh := k.log2 + p.f + 8
      let n := m * 2 ^ sh
      p.encX rm (n % k != 0) (.fin (a != b) (n / k) (e - f - sh))

/-- A square root as a code, rounded once (R74, R108). -/
def Fp.sqrt (p : Fp) (rm : Rm) (x : FV) : Nat :=
  match x with
  | .nan => p.nan
  | .inf neg => if neg then p.nan else p.inf
  | .fin neg m e =>
    if m = 0 then p.signed neg 0
    else if neg then p.nan
    else
      let m := if e % 2 = 0 then m else 2 * m
      let e := if e % 2 = 0 then e else e - 1
      let n := m * 2 ^ (2 * (p.f + 8))
      let r := isqrt n
      p.encX rm (r * r != n) (.fin false r (e / 2 - (p.f + 8 : Nat)))

/-- 1 ÷ √a as a code, rounded once (R108). -/
def Fp.rsqrt (p : Fp) (rm : Rm) (x : FV) : Nat :=
  match x with
  | .nan => p.nan
  | .inf neg => if neg then p.nan else 0
  | .fin neg m e =>
    if m = 0 then p.signed neg p.inf
    else if neg then p.nan
    else
      let m := if e % 2 = 0 then m else 2 * m
      let e := if e % 2 = 0 then e else e - 1
      let k := p.f + 8 + m.log2
      let r := isqrt (2 ^ (2 * k) / m)
      p.encX rm (r * r * m != 2 ^ (2 * k)) (.fin false r (-(e / 2) - (k : Nat)))

/-- Working precision of fexp2 and flog2 in bits: log entry 7. -/
def workBits : Nat := 256

/-- The product of 2^(2^-j) over the fraction bits set, the root of the last factor taken for each further bit. -/
def exp2Go (fr : Nat) : Nat → Nat → Nat → Nat
  | 0, _, acc => acc
  | k + 1, root, acc =>
    let r := isqrt (root * 2 ^ workBits)
    exp2Go fr k r (if fr.testBit k then acc * r / 2 ^ workBits else acc)

/-- 2^a as a code of FP32, rounded once (R108). -/
def Fp.exp2 (p : Fp) (rm : Rm) (x : FV) : Nat :=
  match x with
  | .nan => p.nan
  | .inf neg => if neg then 0 else p.inf
  | .fin neg m e =>
    if m = 0 then p.enc rm (.fin false 1 0)
    else if 12 < e + m.log2 then (if neg then p.encX rm true (.fin false 1 (-5000)) else p.encX rm true (.fin false 1 5000))
    else if e + m.log2 < -60 then
      (if neg then p.encX rm true (.fin false (2 ^ 100 - 1) (-100)) else p.encX rm true (.fin false (2 ^ 100) (-100)))
    else
      let fb := (-e).toNat
      let v : Int := sgnInt neg m * 2 ^ e.toNat
      let i := v / 2 ^ fb
      let fr := (v % 2 ^ fb).toNat
      if fr = 0 then p.enc rm (.fin false 1 i)
      else p.encX rm true (.fin false (exp2Go fr fb (2 * 2 ^ workBits) (2 ^ workBits)) (i - (workBits : Nat)))

/-- Bits of the binary logarithm of a number from 1 to 2 in fixed point, by repeated squaring. -/
def log2Go : Nat → Nat → Nat → Nat
  | 0, _, acc => acc
  | k + 1, x, acc =>
    let y := x * x / 2 ^ workBits
    if 2 * 2 ^ workBits ≤ y then log2Go k (y / 2) (2 * acc + 1) else log2Go k y (2 * acc)

/-- The binary logarithm as a code of FP32, rounded once (R108). -/
def Fp.log2 (p : Fp) (rm : Rm) (x : FV) : Nat :=
  match x with
  | .nan => p.nan
  | .inf neg => if neg then p.nan else p.inf
  | .fin neg m e =>
    if m = 0 then p.signed true p.inf
    else if neg then p.nan
    else
      let k := m.log2
      let i : Int := e + k
      if m = 2 ^ k then p.enc rm (.fin (i < 0) i.natAbs 0)
      else
        let t : Int := i * 2 ^ 120 + (log2Go 120 (m * 2 ^ workBits / 2 ^ k) 0 : Nat)
        if t < 0 then p.encX rm true (.fin true (t.natAbs - 1) (-120)) else p.encX rm true (.fin false t.natAbs (-120))

/-- Two values compared: less, equal, greater; none where one is NaN (R75). -/
def FV.cmp (x y : FV) : Option Ordering :=
  match x, y with
  | .nan, _ => none
  | _, .nan => none
  | .inf a, .inf b => some (if a == b then .eq else if a then .lt else .gt)
  | .inf a, _ => some (if a then .lt else .gt)
  | _, .inf b => some (if b then .gt else .lt)
  | .fin a m e, .fin b k f =>
    let g := min e f
    some (compare (sgnInt a m * 2 ^ (e - g).toNat) (sgnInt b k * 2 ^ (f - g).toNat))

/-- A float condition (R75). -/
def FCond.holds (fc : FCond) (o : Option Ordering) : Bool :=
  match fc, o with
  | .ne, none => true
  | .un, none => true
  | _, none => false
  | .eq, some x => x == .eq
  | .ne, some x => x != .eq
  | .lt, some x => x == .lt
  | .le, some x => x != .gt
  | .gt, some x => x == .gt
  | .ge, some x => x != .lt
  | .un, some _ => false
  | .ord, some _ => true

/-- The smaller, or larger under `mx`; -0 is below +0; one NaN gives the other operand (R74, R107). -/
def FV.minmax (mx : Bool) (x y : FV) : FV :=
  if x.isNan then y
  else if y.isNan then x
  else
    let less := match FV.cmp x y with
      | some .lt => true
      | some .eq => x.neg && !y.neg
      | _ => false
    if less != mx then x else y

/-- A value rounded to an integral value of the same sign (R74, R109). -/
def FV.round (rm : Rm) : FV → FV
  | .nan => .nan
  | .inf n => .inf n
  | .fin n m e => .fin n (roundQ rm n m false e 0) 0

/-- A value rounded to an integer; NaN gives 0, infinities lie beyond every bound (R76, R110). -/
def FV.toInt (rm : Rm) (lo hi : Int) : FV → Int
  | .nan => 0
  | .inf n => if n then lo else hi
  | .fin n m e =>
    if m != 0 && 200 < e + m.log2 then (if n then lo else hi) else max lo (min hi (sgnInt n (roundQ rm n m false e 0)))

/-- An integer as a value. -/
def FV.ofInt (x : Int) : FV := .fin (x < 0) x.natAbs 0

/-- A value times 2^k; the exponent is held where every format already overflows or underflows. -/
def FV.scale (k : Int) : FV → FV
  | .fin n m e => .fin n m (e + max (-20000) (min 20000 k))
  | x => x

/-- A subnormal code read as zero of its sign (R98). -/
def ftzIn (on : Bool) (x : Nat) : Nat := if on && x / 2 ^ 23 % 2 ^ 8 == 0 then x / 2 ^ 31 * 2 ^ 31 else x
/-- A subnormal result written as zero of its sign (R98). -/
def ftzOut (on : Bool) (x : Nat) : Nat := if on && x / 2 ^ 23 % 2 ^ 8 == 0 then x / 2 ^ 31 * 2 ^ 31 else x

/-- The class mask of a code (R107). -/
def Fp.cls (p : Fp) (x : Nat) : Nat :=
  let neg := x / p.sgn % 2 == 1
  let ex := x / 2 ^ p.f % 2 ^ p.eb
  let fr := x % 2 ^ p.f
  if ex = 2 ^ p.eb - 1 then
    (if fr = 0 then (if neg then 1 else 128) else if fr / 2 ^ (p.f - 1) = 0 then 256 else 512)
  else if ex = 0 then (if fr = 0 then (if neg then 8 else 16) else if neg then 4 else 32)
  else if neg then 2 else 64

/-- floor(log2 |a|) of an FP32 code as an integer (R109). -/
def getexp (x : Nat) : Int :=
  match fp32.dec x with
  | .nan => -0x7FFFFFFF
  | .inf _ => 0x7FFFFFFF
  | .fin _ m e => if m = 0 then -0x80000000 else e + m.log2

/-- A code of one format converted to another, rounded once (R74, R111). -/
def cvtCode (tgt frm : Fp) (rm : Rm) (x : Nat) : Nat := tgt.enc rm (frm.dec x)

/-- The value of an E4M3 or E5M2 byte (R99). -/
def f8dec (e5 : Bool) (x : Nat) : FV :=
  if e5 then (Fp.mk 2 5).dec x
  else if x % 128 = 127 then .nan
  else
    let ex := x / 8 % 16
    let m := if ex = 0 then x % 8 else 8 + x % 8
    .fin (x / 128 % 2 == 1) m (if ex = 0 then -9 else (ex : Int) - 10)

/-- A value converted to an E4M3 or E5M2 byte (R113). What an infinite input becomes in E5M2 under a directed mode without `.sat` can be read two ways:
the infinity is kept in every mode, the model's choice, log entry 70. -/
def f8enc (e5 sat : Bool) (rm : Rm) (x : FV) : Nat :=
  if e5 then
    let p := Fp.mk 2 5
    match x with
    | .nan => 0x7E
    | .inf n => if sat then p.signed n 0x7B else p.signed n 0x7C
    | .fin n m e =>
      -- under .sat every overflow is held at the largest finite value; without it R97 applies
      let c := p.enc rm (.fin n m e)
      if sat && c % 128 = 0x7C then p.signed n 0x7B else c
  else
    match x with
    | .nan => 0x7F
    | .inf n => if sat then (if n then 0xFE else 0x7E) else 0x7F
    | .fin n m e =>
      if m = 0 then (if n then 0x80 else 0)
      else if 20 < e + m.log2 then (if sat then (if n then 0xFE else 0x7E) else 0x7F)
      else
        let q := max (e + m.log2 - 3) (-9)
        let c := (q + 9).toNat * 8 + roundQ rm n m false e q
        if 0x7F ≤ c then (if sat then (if n then 0xFE else 0x7E) else 0x7F) else (if n then 0x80 + c else c)

/-- The sum of two codes, rounded once. -/
def Fp.addC (p : Fp) (rm : Rm) (a b : Nat) : Nat := p.enc rm ((p.dec a).add rm (p.dec b))
/-- The difference of two codes, rounded once. -/
def Fp.subC (p : Fp) (rm : Rm) (a b : Nat) : Nat := p.enc rm ((p.dec a).add rm (p.dec b).negate)
/-- The product of two codes, rounded once. -/
def Fp.mulC (p : Fp) (rm : Rm) (a b : Nat) : Nat := p.enc rm ((p.dec a).mul (p.dec b))
/-- a × b + c on codes, rounded once. -/
def Fp.fmaC (p : Fp) (rm : Rm) (a b c : Nat) : Nat := p.enc rm (((p.dec a).mul (p.dec b)).add rm (p.dec c))
/-- Minimum or maximum of two codes. -/
def Fp.minmaxC (p : Fp) (mx : Bool) (a b : Nat) : Nat := p.enc .rn ((p.dec a).minmax mx (p.dec b))
/-- A comparison of two codes (R75). -/
def Fp.cmpC (p : Fp) (fc : FCond) (a b : Nat) : Bool := FCond.holds fc ((p.dec a).cmp (p.dec b))
/-- A code with its sign bit clear; NaN gives the canonical NaN (R76, R106). -/
def Fp.absC (p : Fp) (a : Nat) : Nat := if (p.dec a).isNan then p.nan else a % p.sgn
/-- A code with its sign bit inverted; NaN gives the canonical NaN (R76, R106). -/
def Fp.negC (p : Fp) (a : Nat) : Nat := if (p.dec a).isNan then p.nan else if a / p.sgn % 2 = 1 then a % p.sgn else a % p.sgn + p.sgn
/-- 1 ÷ a, rounded once. -/
def Fp.rcpC (p : Fp) (rm : Rm) (a : Nat) : Nat := p.div rm (.fin false 1 0) (p.dec a)

end Sys2Proof.Machine
end

