-- ==== Sys2Proof/Machine/Quant.lean ====
section
/-!
DEFINITION. Sys2Proof/Machine/Quant.lean: block-scaled integers: QX4, INT8 and SC8 (R100 to R103).
-/
namespace Sys2Proof.Machine

/-- The magnitudes M(0) to M(7) (R101). -/
def qxMag : List Nat := [8, 12, 16, 24, 32, 48, 64, 96]

/-- The signed value of a nibble that is not the escape (R100). -/
def nibInt (n : Nat) : Int := if n < 8 then n else (n : Int) - 16

/-- The two elements of a QX4 pair of nibbles (R101). -/
def qxPair (lo hi : Nat) : Int × Int :=
  if lo = 8 then (if hi = 8 then -8 else if hi / 8 = 1 then -((lget 0 qxMag (hi % 8) : Nat) : Int) else ((lget 0 qxMag (hi % 8) : Nat) : Int), 0)
  else (nibInt lo, if hi = 8 then 0 else nibInt hi)
/-- A pair that counts a saturation event where it is decoded from a narrow source (R101, R248). -/
def qxEvent (lo hi : Nat) : Bool := lo != 8 && hi == 8

/-- The integer elements of a list of QX4 nibbles, by pairs. -/
def qxInts : List Nat → List Int
  | a :: b :: r => (qxPair a b).1 :: (qxPair a b).2 :: qxInts r
  | _ => []
/-- The signed value of an INT8 code (R100). -/
def i8Int (n : Nat) : Int := if n % 256 < 128 then n % 256 else (n % 256 : Nat) - 256

/-- An element under its scale: a NaN scale gives NaN (R102). -/
def scaled (g : Nat) (x : Int) : FV := if g = 255 then .nan else .fin (x < 0) x.natAbs ((g : Int) - 127)

/-- rne(x ÷ 2^e) as an integer (R103). -/
def qAt (e : Int) : FV → Int
  | .fin n m f => sgnInt n (roundQ .rn n m false f e)
  | _ => 0
/-- |x| ÷ 2^e is at most a number. -/
def atMost (e : Int) (k : Nat) : FV → Bool
  | .fin _ m f => let g := min e f; m * 2 ^ (f - g).toNat ≤ k * 2 ^ (e - g).toNat
  | _ => false

/-- The elements two by two. -/
def pairs {α : Type} : List α → List (α × α)
  | a :: b :: r => (a, b) :: pairs r
  | _ => []

/-- A QX4 pair takes plain codes at an exponent (R103 (a)). -/
def qxPlain (e : Int) (p : FV × FV) : Bool := (qAt e p.1).natAbs ≤ 7 && (qAt e p.2).natAbs ≤ 7
/-- A QX4 pair may be an outlier pair at an exponent (R103 (b)). -/
def qxOut (e : Int) (p : FV × FV) : Bool := atMost e 96 p.1 && qAt e p.2 == 0

/-- A block is representable at an exponent (R103). -/
def reprAt (i8 : Bool) (e : Int) (xs : List FV) : Bool :=
  if i8 then xs.all fun x => (qAt e x).natAbs ≤ 127 else (pairs xs).all fun p => qxPlain e p || qxOut e p

/-- The lowest exponent worth trying: one less than the largest magnitude needs. -/
def expFloor (xs : List FV) : Int :=
  xs.foldl (fun m x => match x with
    | .fin _ k f => if k = 0 then m else max m (f + k.log2 - 7)
    | _ => m) (-127)

/-- The smallest exponent from one on, up to 127, at which the block is representable (R103). -/
def expFrom (i8 : Bool) (xs : List FV) : Nat → Int → Option Int
  | 0, _ => none
  | k + 1, e => if 127 < e then none else if reprAt i8 e xs then some e else expFrom i8 xs k (e + 1)

/-- The index of the magnitude nearest to |x| ÷ 2^e, ties to the smaller (R103). -/
def qxIndex (e : Int) (x : FV) : Nat := ([10, 14, 20, 28, 40, 56, 80].filter fun m => !atMost e m x).length

/-- A nibble for an integer from -7 to 7. -/
def nibOf (x : Int) : Nat := (x % 16).toNat
/-- An integer held within ±k. -/
def clampTo (k : Int) (x : Int) : Int := max (-k) (min k x)

/-- The two nibbles of a pair at an exponent, and whether it is an outlier pair (R103 steps 5 and 6). -/
def qxCode (e : Int) (p : FV × FV) : List Nat × Bool :=
  if qxPlain e p then ([nibOf (qAt e p.1), nibOf (qAt e p.2)], false)
  else if qAt e p.2 == 0 then ([8, (if p.1.neg then 8 else 0) + qxIndex e p.1], true)
  else ([nibOf (clampTo 7 (qAt e p.1)), nibOf (clampTo 7 (qAt e p.2))], false)

/-- The codes of a block at an exponent (R103 steps 4 to 6). -/
def codesAt (i8 : Bool) (e : Int) (xs : List FV) : List Nat :=
  if i8 then xs.map fun x => (clampTo 127 (qAt e x) % 256).toNat else (pairs xs).flatMap fun p => (qxCode e p).1

/-- A block quantised: scale code and element codes (R103). -/
def quantise (i8 : Bool) (xs : List FV) : Nat × List Nat :=
  if xs.any fun x => !x.isFin then (255, xs.map fun _ => 0)
  else
    let e := (expFrom i8 xs 300 (expFloor xs)).getD 127
    ((e + 127).toNat, codesAt i8 e xs)

/-- A block coded at a given scale code (R114). -/
def quantFix (i8 : Bool) (g : Nat) (xs : List FV) : Nat × List Nat :=
  if g = 255 || xs.any fun x => !x.isFin then (255, xs.map fun _ => 0) else (g, codesAt i8 ((g : Int) - 127) xs)

/-- The integer elements of a block's codes. -/
def codeInts (i8 : Bool) (cs : List Nat) : List Int := if i8 then cs.map i8Int else qxInts cs

/-- The values of a block (R102). -/
def blockVals (i8 : Bool) (g : Nat) (cs : List Nat) : List FV := (codeInts i8 cs).map (scaled g)

/-- Nibbles packed two to a byte, the lower first (R100). -/
def packNibs : List Nat → List Byte
  | a :: b :: r => BitVec.ofNat 8 (a % 16 + 16 * b) :: packNibs r
  | [a] => [BitVec.ofNat 8 (a % 16)]
  | [] => []
/-- The nibbles of bytes, the lower first. -/
def nibsOf (bs : List Byte) : List Nat := bs.flatMap fun b => [b.toNat % 16, b.toNat / 16]
/-- Codes packed into bytes (R100). -/
def packCodes (i8 : Bool) (cs : List Nat) : List Byte := if i8 then cs.map (BitVec.ofNat 8) else packNibs cs

/-- A list cut into pieces of `n`. -/
def chunks {α : Type} (n : Nat) : Nat → List α → List (List α)
  | 0, _ => []
  | k + 1, l => if l.isEmpty then [] else l.take n :: chunks n k (l.drop n)

end Sys2Proof.Machine
end

