-- ==== Sys2Proof/Machine/Items.lean ====
section
/-!
DEFINITION. Sys2Proof/Machine/Items.lean: what a transfer item reads and writes (R199, R218 to R232, R236): descriptors, staging storage, format
conversion, digests and collective arithmetic.
-/
namespace Sys2Proof.Machine

/-- Rotation of a dword to the left. -/
def rol (x : Word) (n : Nat) : Word := x.rotateLeft n

/-- The round constants of Keccak-f[1600]. SHA3-256 is named and not defined by the spec: FIPS 202, log entry 8. -/
def keccakRc : List Word :=
  [0x0000000000000001, 0x0000000000008082, 0x800000000000808A, 0x8000000080008000, 0x000000000000808B, 0x0000000080000001,
   0x8000000080008081, 0x8000000000008009, 0x000000000000008A, 0x0000000000000088, 0x0000000080008009, 0x000000008000000A]
  ++ [0x000000008000808B, 0x800000000000008B, 0x8000000000008089, 0x8000000000008003, 0x8000000000008002, 0x8000000000000080,
   0x000000000000800A, 0x800000008000000A, 0x8000000080008081, 0x8000000000008080, 0x0000000080000001, 0x8000000080008008]
/-- The rotation of lane x + 5 y. -/
def keccakRot : List Nat := [0, 1, 62, 28, 27, 36, 44, 6, 55, 20, 3, 10, 43, 25, 39, 41, 45, 15, 21, 8, 18, 2, 61, 56, 14]
/-- One round of Keccak-f[1600] on 25 lanes. -/
def keccakRound (a : List Word) (rc : Word) : List Word :=
  let at_ := fun (l : List Word) (x y : Nat) => lget 0 l (x % 5 + 5 * (y % 5))
  let c := (List.range 5).map fun x => at_ a x 0 ^^^ at_ a x 1 ^^^ at_ a x 2 ^^^ at_ a x 3 ^^^ at_ a x 4
  let d := (List.range 5).map fun x => lget 0 c ((x + 4) % 5) ^^^ rol (lget 0 c ((x + 1) % 5)) 1
  let t := (List.range 25).map fun i => lget 0 a i ^^^ lget 0 d (i % 5)
  -- lane (x, y) of the permuted state comes from lane (x + 3 y, x)
  let b := (List.range 25).map fun i => let j := (i % 5 + 3 * (i / 5)) % 5 + 5 * (i % 5); rol (lget 0 t j) (lget 0 keccakRot j)
  let e := (List.range 25).map fun i => lget 0 b i ^^^ (~~~ at_ b (i % 5 + 1) (i / 5) &&& at_ b (i % 5 + 2) (i / 5))
  e.set 0 (lget 0 e 0 ^^^ rc)
/-- Keccak-f[1600]. -/
def keccak (a : List Word) : List Word := keccakRc.foldl keccakRound a
/-- Bytes as little-endian dwords. -/
def dwords : Nat → List Byte → List Word
  | 0, _ => []
  | n + 1, bs => ofBytes64 (bs.take 8) :: dwords n (bs.drop 8)
/-- The SHA3-256 digest of bytes. -/
def sha3 (bs : List Byte) : List Byte :=
  let n := bs.length / 136 + 1
  let pad := (bs ++ [0x06] ++ List.replicate (136 * n - bs.length - 1) 0)
  let pad := pad.set (136 * n - 1) (lget 0 pad (136 * n - 1) ||| 0x80)
  let st := (chunks 136 n pad).foldl (fun st blk => keccak ((List.range 25).map fun i =>
    lget 0 st i ^^^ (if i < 17 then lget 0 (dwords 17 blk) i else 0))) (List.replicate 25 0)
  ((List.range 4).flatMap fun i => leBytes 8 (lget 0 st i).toNat)

/-- `n` bytes at a staging address are named by R199, or by R328 in a halted slot, inside a partition. -/
def State.stgOk (s : State) (part a n : Nat) : Bool :=
  let k := stgKind a
  let o := stgOff a
  let e := o + n
  a / 2 ^ 24 % 2 ^ 13 == 0 && stgCore a < 144 && s.partOfCore (stgCore a) == some part && (k == 0 || stgSlot a == 0)
  && (match k with
    | 0 =>
      let g := s.grpAt (stgCore a) (stgSlot a)
      g.bound && (e ≤ 0x2220 || (g.halted && 0x4000 ≤ o && e ≤ 0x6220))
    | 1 => e ≤ 0x80000
    | 2 => e ≤ 0x80000
    | 3 => e ≤ 0x100000
    | 4 => 0x800000 ≤ o && e ≤ 0x800000 + 2 ^ 20 * (s.coreAt (stgCore a)).wpr
    | _ => false)

/-- A byte of a register plane by its staging offset (R199). -/
def RegPlane.byte (p : RegPlane) (o : Nat) : Byte :=
  if o < 0x2000 then byteOf (p.rv (o / 256) (o % 256 / 4)) (o % 4)
  else if o < 0x2200 then byteOf (tget 0 p.s ((o - 0x2000) / 8)) (o % 8)
  else tget 0 p.p (o - 0x2200) ||| 1
/-- A value with one byte replaced. -/
def putByte {n : Nat} (x : BitVec n) (i : Nat) (b : Byte) : BitVec n := fieldPut x (BitVec.ofNat n b.toNat) (8 * i) 8
/-- A register plane with a byte written by its staging offset; predicate 0 ignores it (R199). -/
def RegPlane.setByte (p : RegPlane) (o : Nat) (b : Byte) : RegPlane :=
  if o < 0x2000 then { p with v := tput p.v (64 * (o / 256) + o % 256 / 4) (putByte (p.rv (o / 256) (o % 256 / 4)) (o % 4) b) }
  else if o < 0x2200 then { p with s := tput p.s ((o - 0x2000) / 8) (putByte (tget 0 p.s ((o - 0x2000) / 8)) (o % 8) b) }
  else { p with p := tput p.p (o - 0x2200) (b &&& 0xFE) }
/-- First offset and length of the granule of a register plane that holds an offset: one register (R208). -/
def regGran (o : Nat) : Nat × Nat := if o < 0x2000 then (o / 4 * 4, 4) else if o < 0x2200 then (o / 8 * 8, 8) else (o, 1)
/-- The poison bit of the granule at an offset. -/
def RegPlane.offBad (p : RegPlane) (o : Nat) : Bool :=
  if o < 0x2000 then p.vBad (o / 256) (o % 256 / 4) else if o < 0x2200 then tget false p.sPoi ((o - 0x2000) / 8) else p.pBad (o - 0x2200)
/-- The plane with the poison bit of the granule at an offset set or cleared. -/
def RegPlane.setBad (p : RegPlane) (o : Nat) (x : Bool) : RegPlane :=
  if o < 0x2000 then { p with vPoi := tput p.vPoi (64 * (o / 256) + o % 256 / 4) x }
  else if o < 0x2200 then { p with sPoi := tput p.sPoi ((o - 0x2000) / 8) x }
  else { p with pPoi := tput p.pPoi (o - 0x2200) x }

/-- A store of a core that transfers reach, and a physical plane of it: `b` for plane B. -/
inductive Store where
  | grp (slot : Nat) (b : Bool)
  | acc (b : Bool)
  | pad (b : Bool)
  | wbuf (b : Bool)
  | col (b : Bool)
  /-- scratchpad of the core's saved teams -/
  | kept
  deriving DecidableEq, Repr

/-- A register plane of a group. -/
def Group.pl (g : Group) (b : Bool) : RegPlane := if b then g.b else g.a
/-- The group with a register plane changed. -/
def Group.modPl (g : Group) (b : Bool) (f : RegPlane → RegPlane) : Group := if b then { g with b := f g.b } else { g with a := f g.a }
/-- The core with a group changed. -/
def Core.modG (k : Core) (g : Nat) (f : Group → Group) : Core := { k with groups := tput k.groups g (f (tget Group.reset k.groups g)) }

/-- A byte of a store at an offset. -/
def Core.byte (k : Core) (t : Store) (o : Nat) : Byte :=
  match t with
  | .grp g b => ((tget Group.reset k.groups g).pl b).byte o
  | .acc b => byteOf (tget 0 (k.plane b).acc (o / 8)) (o % 8)
  | .pad b => tget 0 (k.plane b).pad o
  | .wbuf b => tget 0 (k.plane b).wbuf o
  | .col b => tget 0 (k.plane b).col o
  | .kept => tget 0 k.keptPad o
/-- A store with a byte written. -/
def Core.setByte (k : Core) (t : Store) (o : Nat) (x : Byte) : Core :=
  match t with
  | .grp g b => k.modG g fun q => q.modPl b fun p => p.setByte o x
  | .acc b => k.modPlane b fun p => { p with acc := tset 0 p.acc (o / 8) (putByte (tget 0 p.acc (o / 8)) (o % 8) x) }
  | .pad b => k.modPlane b fun p => { p with pad := tset 0 p.pad o x }
  | .wbuf b => k.modPlane b fun p => { p with wbuf := tset 0 p.wbuf o x }
  | .col b => k.modPlane b fun p => { p with col := tset 0 p.col o x }
  | .kept => { k with keptPad := tset 0 k.keptPad o x }
/-- The granule of a store that holds an offset: its first byte and its length (R208). -/
def Store.gran (t : Store) (o : Nat) : Nat × Nat :=
  match t with
  | .grp _ _ => regGran o
  | _ => (o / 32 * 32, 32)
/-- The granule that holds an offset is poisoned. -/
def Core.bad (k : Core) (t : Store) (o : Nat) : Bool :=
  match t with
  | .grp g b => ((tget Group.reset k.groups g).pl b).offBad o
  | .acc b => tget false (k.plane b).accPoi (o / 32)
  | .pad b => tget false (k.plane b).padPoi (o / 32)
  | .wbuf b => tget false (k.plane b).wbufPoi (o / 32)
  | .col b => tget false (k.plane b).colPoi (o / 32)
  | .kept => tget false k.keptPoi (o / 32)
/-- A store with the poison bit of a granule set or cleared. -/
def Core.setBad (k : Core) (t : Store) (o : Nat) (x : Bool) : Core :=
  match t with
  | .grp g b => k.modG g fun q => q.modPl b fun p => p.setBad o x
  | .acc b => k.modPlane b fun p => { p with accPoi := tset false p.accPoi (o / 32) x }
  | .pad b => k.modPlane b fun p => { p with padPoi := tset false p.padPoi (o / 32) x }
  | .wbuf b => k.modPlane b fun p => { p with wbufPoi := tset false p.wbufPoi (o / 32) x }
  | .col b => k.modPlane b fun p => { p with colPoi := tset false p.colPoi (o / 32) x }
  | .kept => { k with keptPoi := tset false k.keptPoi (o / 32) x }

/-- The granule that holds an offset fails its ECC beyond correction (R208, R229). -/
def Core.eccBad (k : Core) (t : Store) (o : Nat) : Bool :=
  match t with
  | .grp g b => tget false ((tget Group.reset k.groups g).pl b).ecc (regGran o).1
  | .acc b => tget false (k.plane b).ecc (4 * (o / 32) + 3)
  | .pad b => tget false (k.plane b).ecc (4 * (o / 32))
  | .wbuf b => tget false (k.plane b).ecc (4 * (o / 32) + 2)
  | .col b => tget false (k.plane b).ecc (4 * (o / 32) + 1)
  | .kept => false
/-- A granule written whole has a new check (R229). -/
def Core.eccClear (k : Core) (t : Store) (o : Nat) : Core :=
  let off := fun (b : Bool) (n : Nat) => k.modPlane b fun p => { p with ecc := tset false p.ecc n false }
  match t with
  | .grp g b => k.modG g fun q => q.modPl b fun p => { p with ecc := tset false p.ecc (regGran o).1 false }
  | .acc b => off b (4 * (o / 32) + 3)
  | .pad b => off b (4 * (o / 32))
  | .wbuf b => off b (4 * (o / 32) + 2)
  | .col b => off b (4 * (o / 32) + 1)
  | .kept => k
/-- A store lies in the stacked layers, which a vertical bus reaches: the column SRAM (R373, R375). -/
def Store.stacked : Store → Bool
  | .col _ => true
  | _ => false
/-- An engine's access to a store of a core needs a vertical bus that failed beyond repair (R373). -/
def State.cellBus (s : State) (c : Nat) (t : Store) : Bool := t.stacked && (s.coreAt c).vbus.failS
/-- An engine's access reaches the layers that hold a store (R375). -/
def State.touchCell (s : State) (c : Nat) (t : Store) : State := if t.stacked then s.touchS c else s
/-- What fails an engine's read of the byte at an offset (R229). -/
def Core.failAt (k : Core) (t : Store) (o : Nat) : Option Cause := if k.bad t o then some .poison else if k.eccBad t o then some .eccu else none

/-- Where bytes of an item's side lie. -/
inductive Place where
  /-- global virtual memory -/
  | glob (va : Nat)
  /-- a store of a core at an offset -/
  | cell (core : Nat) (t : Store) (off : Nat)
  | bad (f : Fail)
  deriving DecidableEq, Repr

/-- The store and offset that a staging address names, given the pane select bits of its core at an item's issue (R199, R206, R328). -/
def State.stgPlace (s : State) (a : Nat) (sel : BitVec 64) : Place :=
  let c := stgCore a
  let o := stgOff a
  match stgKind a with
  | 0 =>
    let g := s.grpAt c (stgSlot a)
    if 0x4000 ≤ o then .cell c (.grp (stgSlot a) g.selB) (o - 0x4000) else .cell c (.grp (stgSlot a) (!g.selB)) o
  | 1 => .cell c (.acc (!(s.coreAt c).accSel.getLsbD (o / 65536))) o
  | 2 => .cell c (.pad (!sel.getLsbD (o / 8192))) o
  | 3 => .cell c (.wbuf (!(s.coreAt c).wbufSel)) o
  | _ => .cell c (.col (!(s.coreAt c).colSel)) (o - 0x800000)

/-- The core and the saved team in whose panes a scratchpad address of an item of core `c` leads: the team of its launch and cohort there (R138, R139, R237). -/
def State.keptTeam (s : State) (c : Nat) (i : Item) (sa : Nat) : Option (Nat × Saved) :=
  let rank := sa / 2 ^ 24 % 8
  if sa / 2 ^ 27 != 0 || rank == 6 || 0x80000 ≤ sa % 2 ^ 24 then none
  else
    let t := if rank == 7 then c else c / 6 * 6 + rank
    (s.saved.find? fun v => v.core == t && v.bind.lid == i.lid && v.bind.cohort == i.cohort).map fun v => (t, v)
/-- A group of an item's cohort on core `c`, as scratchpad addresses are judged for it (R139). -/
def State.itemGrp (s : State) (c : Nat) (i : Item) : Group :=
  { Group.reset with lid := i.lid, cohort := i.cohort, slot0 := (s.cohortTeam c i.lid i.cohort).getD 128 }
/-- The place of `n` bytes of scratchpad named by an item of core `c`, a saved team's included (R138, R139, R237). -/
def State.padPlace (s : State) (c : Nat) (i : Item) (a n : Nat) : Option (Nat × Store × Nat) :=
  match s.keptTeam c i a with
  | some (t, v) => match v.paneTab.head? with
    | some p => if a % 2 ^ 24 + n ≤ 8192 * v.paneTab.length then some (t, .kept, v.at_ + 8192 * p.1 + a % 2 ^ 24) else none
    | none => none
  | none => match s.spadLoc c (s.itemGrp c i) a, s.spadLoc c (s.itemGrp c i) ((a + n - 1) % 2 ^ 32) with
    | some (.pad t o), some (.pad _ _) => some (t, .pad ((s.coreAt t).paneB (o / 8192)), o)
    | some (.col t o), some (.col _ _) => some (t, .col (s.coreAt t).colSel, o)
    | _, _ => none
/-- The place of `n` bytes of one side of an item of core `c`: `det` is the detail code of that side (R222, R232). -/
def State.place (s : State) (c : Nat) (i : Item) (sp a n det : Nat) : Place :=
  if sp = 1 then
    match s.padPlace c i (a % 2 ^ 32) n with
    | some (t, st, o) => .cell t st o
    | none => .bad ⟨.spad, det, BitVec.ofNat 64 a⟩
  else if isStaging a then (if s.stgOk i.part a n then s.stgPlace a (tget 0 i.sels (stgCore a)) else .bad ⟨.xfer, 1, 0⟩)
  else .glob a

/-- A byte as an engine reads it: with the failure of its granule, if any (R229). -/
abbrev RB := Byte × Option Cause

/-- The storage lines of a range that core `c` does not hold: an engine reads those at their homes (R228). -/
def State.homeLines (s : State) (c pa n : Nat) : List Nat :=
  ((linesOf pa n).filter fun l => !s.hits c (128 * l)).map fun l => storOf (128 * l) / 128
/-- Bytes of one superblock of global memory as an engine of core `c` reads them for a launch: from the core's valid lines that are no home copy,
or at their home, as COMMITTED versions left it (R228, R229, R232, R293). A line that an engine owns for an item of those that `p` names is waited for. A vertical bus that failed beyond repair raises VBUS (R373). -/
def State.rdGlob (s : State) (p : Item → Bool) (c lid va n : Nat) : XRes × List RB × State :=
  let l := s.lchAt lid
  match s.reach (some c) l.part va false with
  | (.bad e sw, _) => (.bad e sw, [], s)
  | (.ok pa key, s) =>
    let s := if s.engineOwns p (s.homeLines c pa n) then { s with waits := true } else s
    -- each line is served by the core's column SRAM, or read at its home
    if !s.waits && (linesOf pa n).any fun x => if s.hits c (128 * x) then (s.coreAt c).vbus.failS && (locOf pa).any fun y => y.home.isSome
      else s.homeBus (128 * x) then (.bad .vbus false, [], s)
    else
    let s := (linesOf pa n).foldl (fun s x => if s.hits c (128 * x) then s.touchS c else s.touchHome (128 * x)) (s.useWin pa n)
    let r := (span pa n).foldl (fun (r : List RB × State) a =>
      let ln := (r.2.coreAt c).colWork.line a
      let st := storOf a
      let bad := if s.ownPoi l (st / 32) || s.linePoi c a 1 then some Cause.poison else if s.ownEcc l (st / 32) then some Cause.eccu else none
      if ln.valid && !ln.stale && !homedAt c a then (r.1 ++ [(lget 0 (ln.bytes (a % 128) 1) 0, bad)], r.2)
      else
        let s2 := r.2.revoke none (st / 128)
        (r.1 ++ [(s2.homeRead key a, bad)], s2)) ([], s)
    (.ok pa key, (s.overShadow l (storOf pa) (r.1.map (·.1))).zip (r.1.map (·.2)), r.2)

/-- Bytes of one side of an item: a failure, a page it waits for, or the bytes. -/
inductive Src where
  | ok (bs : List RB) (s : State)
  | bad (f : Fail)
  | page (va : Nat)
  deriving DecidableEq, Repr

/-- `n` source bytes at an address of an item (R226, R229). What an item records whose access needs a vertical bus that failed beyond repair R373 leaves
open but for VBUS: the detail of its side and the address, the model's choice, log entry 73. -/
def State.rdSide (s : State) (c : Nat) (i : Item) (sp a n det : Nat) : Src :=
  (cut a n).foldl (fun acc p => match acc with
    | .ok bs s => match s.place c i sp p.1 p.2 det with
      | .bad f => .bad f
      | .cell k t o =>
        if s.cellBus k t then .bad ⟨.vbus, det, BitVec.ofNat 64 p.1⟩
        else .ok (bs ++ (span o p.2).map fun x => ((s.coreAt k).byte t x, (s.coreAt k).failAt t x)) (s.touchCell k t)
      | .glob va => match s.rdGlob (Item.other i.grant) c i.lid va p.2 with
        | (.bad e true, _, _) => if e == .xlate then .page va else .bad ⟨e, det, BitVec.ofNat 64 va⟩
        | (.bad e false, _, _) => .bad ⟨e, det, BitVec.ofNat 64 va⟩
        | (.ok _ _, r, s) => .ok (bs ++ r) s
    | r => r) (.ok [] s)

/-- `n` bytes that a gather reads: of its index table, detail 2, or of a row. -/
def State.rdGath (s : State) (c : Nat) (i : Item) (a n det : Nat) : Src := s.rdSide c i 0 a n det

/-- The addresses of a destination row checked: no failure, or why not (R232). Which address of a row that is declared in part only is the fault address of
UNDECL R232 leaves open: the row's first, the model's choice, log entry 73. -/
def State.chkDst (s : State) (c : Nat) (i : Item) (a n : Nat) : Src :=
  (cut a n).foldl (fun acc p => match acc with
    | .ok bs s => match s.place c i i.dsp p.1 p.2 1 with
      | .bad f => .bad f
      | .cell k t _ => if s.cellBus k t then .bad ⟨.vbus, 1, BitVec.ofNat 64 p.1⟩ else .ok bs s
      | .glob va =>
        let l := s.lchAt i.lid
        if l.undeclared a n then .bad ⟨.undecl, 1, BitVec.ofNat 64 a⟩
        else match s.reach (some c) l.part va true with
        | (.bad e true, _) => if e == .xlate then .page va else .bad ⟨e, 1, BitVec.ofNat 64 va⟩
        | (.bad e false, _) => .bad ⟨e, 1, BitVec.ofNat 64 va⟩
        | (.ok pa _, s) => if !s.waits && s.homeBus pa then .bad ⟨.vbus, 1, BitVec.ofNat 64 va⟩ else .ok bs s
    | r => r) (.ok [] s)

/-- Bytes of a granule written with good data clear its poison where they cover it whole, and a failed byte poisons it; one written whole has a new check
(R209, R229). -/
def Core.deliver (k : Core) (t : Store) (o : Nat) (bs : List RB) : Core :=
  let k := (List.range bs.length).foldl (fun k j => k.setByte t (o + j) (lget (0, none) bs j).1) k
  (List.range bs.length).foldl (fun k j =>
    let g := t.gran (o + j)
    if o + j != g.1 && j != 0 then k
    else
      let mine := (bs.drop (max g.1 o - o)).take (g.1 + g.2 - max g.1 o)
      let whole := o ≤ g.1 && g.1 + g.2 ≤ o + bs.length
      let k := if whole then k.eccClear t (o + j) else k
      if mine.any fun b => b.2.isSome then k.setBad t (o + j) true else if whole then k.setBad t (o + j) false else k) k

/-- Global poison after the same delivery. -/
def poisonAfter (p : Tab Bool) (a : Nat) (bs : List RB) : Tab Bool :=
  (granules a bs.length).foldl (fun p g =>
    let lo := max (32 * g) a
    let mine := (bs.drop (lo - a)).take (32 * g + 32 - lo)
    if mine.any fun b => b.2.isSome then tset false p g true
    else if a ≤ 32 * g && 32 * g + 32 ≤ a + bs.length then tset false p g false else p) p

/-- The poison of a shadow line after the same delivery (R209, R293). -/
def Shadow.poisoned (x : Shadow) (ln a : Nat) (bs : List RB) : Shadow :=
  let p := poisonAfter ((bitsOf 4 x.poi.toNat).map fun i => (4 * ln + i, true)) a bs
  { x with poi := BitVec.ofNat 4 (maskOf ((List.range 4).filter fun i => tget false p (4 * ln + i))) }

/-- Poison at home after bytes were delivered at a storage address (R209, R229). -/
def State.poisonHome (s : State) (st : Nat) (bs : List RB) : State :=
  { s.clearPoi ((granules st bs.length).filter fun g => st ≤ 32 * g && 32 * g + 32 ≤ st + bs.length) with poison := poisonAfter s.poison st bs }

/-- Bytes delivered to one superblock of global memory by an engine of core `c`, in one write region or outside all of them: to the shadow or home, copies in
the core's column SRAM marked stale (R209, R228, R232); none while quota is short. -/
def State.wrRun (s : State) (t : Item → Bool) (c lid va : Nat) (bs : List RB) : Option State :=
  let l := s.lchAt lid
  match s.reach (some c) l.part va true with
  | (.bad _ _, _) => some s
  | (.ok pa key, s) =>
    if l.shadowed va bs.length then
      (linesOf pa bs.length).foldl (fun (o : Option State) pl => o.bind fun s =>
        let lo := max (128 * pl) pa
        let ln := storOf lo / 128
        let mine := (bs.drop (lo - pa)).take (128 * pl + 128 - lo)
        (s.wrShadow c lid key lo (mine.map (·.1))).map fun s => s.modVer l.part l.ver fun v => { v with
          lines := v.lines.map fun e => if e.1 == ln then (e.1, e.2.poisoned ln (storOf lo) mine) else e }) (some (s.arriveAt pa bs.length))
    else
      let s := ((s.awaitEngine t pa bs.length).arriveAt pa bs.length).revokeAll (storLines pa bs.length)
      some (((s.wrHome key pa (bs.map (·.1))).markStale c fun q => (storLines pa bs.length).contains (storOf q / 128)).poisonHome (storOf pa) bs)

/-- The same of bytes that a write region may begin or end among (R166, R232). -/
def State.wrGlob (s : State) (t : Item → Bool) (c lid va : Nat) (bs : List RB) : Option State :=
  ((s.lchAt lid).runs va bs.length).foldl (fun (o : Option State) p => o.bind fun s => s.wrRun t c lid p.1 ((bs.drop (p.1 - va)).take p.2)) (some s)

/-- Bytes delivered at an address of an item's destination. -/
def State.wrSide (s : State) (c : Nat) (i : Item) (a : Nat) (bs : List RB) : Option State :=
  (cut a bs.length).foldl (fun (o : Option State) p => o.bind fun s =>
    let mine := (bs.drop (p.1 - a)).take p.2
    match s.place c i i.dsp p.1 p.2 1 with
    | .cell k t off => some ((s.touchCell k t).modCore k fun q => q.deliver t off mine)
    | .glob va => s.wrGlob (Item.earlier i.grant) c i.lid va mine
    | .bad _ => some s) (some s)

/-- Elements of a format decoded from a row (R223, R227). -/
def decodeRow (f w : Nat) (bs : List Byte) : List FV :=
  let el := fun (p : Fp) (n : Nat) => (chunks n w bs).map fun b => p.dec (leNat b)
  match f with
  | 1 => el fp32 4
  | 2 => el fp16 2
  | 3 => el bf16 2
  | 4 => (bs.take w).map fun b => f8dec false b.toNat
  | 5 => (bs.take w).map fun b => f8dec true b.toNat
  | 6 => (List.range (w / 32)).flatMap fun j =>
    blockVals true (lget 0 bs (w + j)).toNat (((bs.drop (32 * j)).take 32).map (·.toNat))
  | 7 => (List.range (w / 32)).flatMap fun j =>
    blockVals false (lget 0 bs (w / 2 + j)).toNat (nibsOf ((bs.drop (16 * j)).take 16))
  | _ => []
/-- A row of elements encoded in a format (R223, R227). -/
def encodeRow (f : Nat) (rm : Rm) (sat : Bool) (xs : List FV) : List Byte :=
  match f with
  | 1 => xs.flatMap fun x => leBytes 4 (fp32.enc rm x)
  | 2 => xs.flatMap fun x => leBytes 2 (fp16.enc rm x)
  | 3 => xs.flatMap fun x => leBytes 2 (bf16.enc rm x)
  | 4 => xs.map fun x => BitVec.ofNat 8 (f8enc false sat rm x)
  | 5 => xs.map fun x => BitVec.ofNat 8 (f8enc true sat rm x)
  | _ =>
    let qs := (chunks 32 (xs.length / 32) xs).map (quantise (f == 6))
    (qs.flatMap fun q => packCodes (f == 6) q.2) ++ qs.map fun q => BitVec.ofNat 8 q.1

/-- The failure of a converted row carried to every byte it draws on: each destination byte of an element takes the failures of that element's
source bytes and of its block's (R229). -/
def rowBad (sf df w : Nat) (bs : List RB) : List (Option Cause) :=
  let first := fun (l : List RB) => l.findSome? fun b => b.2
  let blkOf := fun (j : Nat) =>
    if sf == 6 then first ((bs.drop (32 * j)).take 32) |>.or ((lget (0, none) bs (w + j)).2)
    else if sf == 7 then first ((bs.drop (16 * j)).take 16) |>.or ((lget (0, none) bs (w / 2 + j)).2)
    else first ((bs.drop (32 * j * fmtAlign sf)).take (32 * fmtAlign sf))
  let elOf := fun (j : Nat) =>
    if sf == 6 then (lget (0, none) bs j).2.or (lget (0, none) bs (w + j / 32)).2
    else if sf == 7 then first ((bs.drop (j / 2 / 1)).take 1) |>.or (lget (0, none) bs (w / 2 + j / 32)).2
    else first ((bs.drop (j * fmtAlign sf)).take (fmtAlign sf))
  if df == 6 then (List.range w).map (fun j => blkOf (j / 32)) ++ (List.range (w / 32)).map blkOf
  else if df == 7 then (List.range (w / 2)).map (fun j => blkOf (j / 16)) ++ (List.range (w / 32)).map blkOf
  else (List.range w).flatMap fun j => List.replicate (fmtAlign df) (elOf j)

/-- Row `r` of a local command: the bytes it delivers (R226). A poisoned index entry of a gather R226 and R229 leave open: its bytes stand for the row's address
all the same, which may fail, and the row is delivered poisoned, the model's choice, log entry 73. -/
def State.itemRow (s : State) (c : Nat) (i : Item) (r : Nat) : Src :=
  match i.cmd with
  | .xfill =>
    let y := i.d1.toNat + i.ds * r
    .ok ((List.range i.w).map fun j => (byteOf i.d0 ((y + j) % 8), none)) s
  | .xgath =>
    match s.rdGath c i (i.d0.toNat + 8 * r) 8 2 with
    | .ok a s => match s.rdGath c i (leNat (a.map (·.1))) i.w 0 with
      | .ok bs s => .ok (bs.map fun b => (b.1, b.2.or (a.findSome? (·.2)))) s
      | x => x
    | x => x
  | .xcvt =>
    match s.rdSide c i i.ssp (i.d0.toNat + i.ss * r) i.srow 0 with
    | .ok bs s => .ok ((encodeRow i.dfmt i.rm i.sat (decodeRow i.sfmt i.w (bs.map (·.1)))).zip (rowBad i.sfmt i.dfmt i.w bs)) s
    | x => x
  | _ => s.rdSide c i i.ssp (i.d0.toNat + i.ss * r) i.srow 0

/-- All rows of an item as they stand, or its first failure (R226, R232). -/
def State.itemRows (s : State) (c : Nat) (i : Item) : Except Src (List (List RB) × State) :=
  (List.range i.h).foldl (fun acc r => match acc with
    | .error e => .error e
    | .ok (ls, s) => match s.itemRow c i r with
      | .ok bs s => .ok (ls ++ [bs], s)
      | e => .error e) (.ok ([], s))

/-- How a walk over the rows of an item went: the rows read, and the state with them written; the row whose source failed; or no quota. -/
inductive Walk where
  | ok (rows : List (List RB)) (s : State)
  | stop (r : Nat) (e : Src) (s : State)
  | quota
  deriving DecidableEq, Repr
/-- The rows of an item in order, each read and then written, so that a row sees what the rows before it wrote; `veil` has every byte delivered with
poison (R226, R230). -/
def State.itemWalk (s : State) (c : Nat) (i : Item) (veil : Bool) : Walk :=
  (List.range i.h).foldl (fun acc r => match acc with
    | .ok ls s => match s.itemRow c i r with
      | .ok bs s1 => match s1.wrSide c i (i.d1.toNat + i.ds * r) (if veil then bs.map fun b => (b.1, some .poison) else bs) with
        | some s2 => .ok (ls ++ [bs]) s2
        | none => .quota
      | e => .stop r e s
    | x => x) (.ok [] s)

/-- Every destination row's addresses checked before the first write (R232). -/
def State.itemChk (s : State) (c : Nat) (i : Item) : Src :=
  (List.range i.h).foldl (fun acc r => match acc with
    | .ok _ s => s.chkDst c i (i.d1.toNat + i.ds * r) i.drow
    | e => e) (.ok [] s)

/-- The granules that `n` bytes from an address on lie in, as address and length: each register of a staging register plane is one (R163, R208). -/
def rowGrans (y n : Nat) : List (Nat × Nat) :=
  if isStaging y && stgKind y == 0 then (span y n).filterMap fun a =>
    let o := stgOff a % 0x4000
    let g := regGran o
    if a == y || g.1 == o then some (a, min (g.1 + g.2 - o) (y + n - a)) else none
  else (granules y n).map fun g => (max (32 * g) y, min (32 * g + 32) (y + n) - max (32 * g) y)
/-- The granules of an item's destination in row order: row, address and length within the row. -/
def Item.grans (i : Item) : List (Nat × Nat × Nat) :=
  (List.range i.h).flatMap fun r => (rowGrans (i.d1.toNat + i.ds * r) i.drow).map fun g => (r, g.1, g.2)

/-- The granules that a failed item had written whole: those of a mask, in the rows before the first row the mask leaves incomplete, and in that row (R207, R226). -/
def Item.written (i : Item) (done : Nat → Bool) : List Nat :=
  let gs := i.grans
  let firstGap := ((List.range gs.length).find? fun k => !done k).bind fun k => gs[k]?.map (·.1)
  (List.range gs.length).filter fun k => done k && (match firstGap, gs[k]? with
    | some r, some g => decide (g.1 ≤ r)
    | _, _ => true)

/-- Poison of the granule at a destination address of an item set or cleared (R207, R230): nothing where the address reaches nothing. -/
def State.markGran (s : State) (c : Nat) (i : Item) (a : Nat) (x : Bool) : State :=
  match s.place c i i.dsp a 1 1 with
  | .cell q t o => s.modCore q fun k => k.setBad t o x
  | .glob va =>
    if (s.lchAt i.lid).undeclared va 1 then s
    else match s.xlate (some c) i.part va true with
    | (.ok pa _, s) =>
      let g := storOf pa / 32
      if (s.lchAt i.lid).shadowed va 1 then
        -- in the shadow of a write region: a line not shadowed yet is shadowed as it stands
        let r := if x then (let b := s.rdGlob (fun _ => false) c i.lid va 1; (b.2.2.wrGlob (fun _ => false) c i.lid va b.2.1).getD s) else s
        r.modVer (s.lchAt i.lid).part (s.lchAt i.lid).ver fun v => { v with lines := v.lines.map fun e =>
          if e.1 == g / 4 then (e.1, { e.2 with poi := if x then e.2.poi ||| BitVec.ofNat 4 (2 ^ (g % 4)) else e.2.poi &&& ~~~(BitVec.ofNat 4 (2 ^ (g % 4))) }) else e }
      else if x then { s with poison := tset false s.poison g true } else s.clearPoi [g]
    | _ => s
  | .bad _ => s
/-- What is wrong with the granule at a destination address of an item: poisoned, or uncorrectable. -/
def State.granFail (s : State) (c : Nat) (i : Item) (a : Nat) : Option Cause :=
  match s.place c i i.dsp a 1 1 with
  | .cell q t o => (s.coreAt q).failAt t o
  | .glob va => match s.physOf (some c) i.part va with
    | some pa => if s.ownPoi (s.lchAt i.lid) (storOf pa / 32) then some .poison else if s.ownEcc (s.lchAt i.lid) (storOf pa / 32) then some .eccu else none
    | none => none
  | .bad _ => none
/-- Poison set or cleared over the destination of an item except in the granules of a list, by number (R207, R230, R232). -/
def State.markDst (s : State) (c : Nat) (i : Item) (keep : List Nat) (x : Bool) : State :=
  (List.range i.grans.length).foldl (fun s k =>
    if keep.contains k then s else match i.grans[k]? with
      | none => s
      | some (_, a, _) => s.markGran c i a x) s
/-- The destination of an item poisoned except where it had written whole granules (R207, R232). -/
def State.poisonDst (s : State) (c : Nat) (i : Item) (keep : List Nat) : State := s.markDst c i keep true

/-- The rows of an item in scratchpad, source and destination. -/
def Item.padRows (i : Item) : List (Nat × Nat) :=
  (if i.cmd != .xfill && i.ssp == 1 then (List.range i.h).map fun r => (i.d0.toNat + i.ss * r, i.srow) else [])
  ++ (if i.dsp == 1 then (List.range i.h).map fun r => (i.d1.toNat + i.ds * r, i.drow) else [])
/-- An item accesses column scratchpad that a raise of %wpr is making: it waits until the change is complete (R161). A change that returns ways waits for the
item (R160). -/
def State.wprUp (s : State) (c : Nat) (i : Item) : Bool :=
  i.padRows.any fun r => (cut r.1 r.2).any fun p => match s.spadLoc c (s.itemGrp c i) (p.1 % 2 ^ 32) with
    | some (.col t o) => s.spadMoves (.col t o) && (match (s.coreAt t).wprChg with
      | some w => (s.coreAt t).wpr < w.goal
      | none => false)
    | _ => false
/-- An item waits: an operation earlier on a scoreboard touches its destination (R164, R218), or a change of %wpr covers what it accesses (R161). -/
def State.blocked (s : State) (c : Nat) (i : Item) : Bool :=
  s.wprUp c i || s.cores.any fun e =>
    let before := e.2.score.takeWhile fun x => !(x.core == c && x.op == i.id)
    before.length != e.2.score.length && (e.2.score.any fun y => y.core == c && y.op == i.id && before.any fun x =>
      x.space == y.space && x.lo / 32 ≤ y.hi / 32 && y.lo / 32 ≤ x.hi / 32)

/-- The rows of an item, from the first, whose sources it has been able to read: none of them waits for a line that another item owns (R228). None at all where
a source cannot be reached, since every address is checked before the first write (R232). -/
def State.rowsReady (s : State) (c : Nat) (i : Item) : List (List RB) :=
  ((List.range i.h).foldl (fun (acc : List (List RB) × Bool) r =>
    if acc.2 then acc else match s.itemRow c i r with
      | .ok bs s1 => if s1.waits && !s.waits then (acc.1, true) else (acc.1 ++ [bs], false)
      | _ => ([], true)) ([], false)).1
/-- Granules of an item written, by number, as far as none must wait and quota lasts: those written, and the state. -/
def State.putGrans (s : State) (c : Nat) (i : Item) (rows : List (List RB)) : List Nat → List Nat × State
  | [] => ([], s)
  | k :: ks => match i.grans[k]? with
    | none => s.putGrans c i rows ks
    | some (r, a, n) => match s.wrSide c i a (((lget [] rows r).drop (a - (i.d1.toNat + i.ds * r))).take n) with
      | none => ([], s)
      | some s1 => if s1.waits && !s.waits then ([], s) else ((k :: (s1.putGrans c i rows ks).1), (s1.putGrans c i rows ks).2)
/-- The walk of an item stopped by a cancel, a time limit or an abort: the chosen granules written, the others poisoned. It waits for nothing: an item that no
engine carries, or that waits behind another, had written none, and one that waits for a line of another item none from there on (R207, R218, R228). -/
def State.partWrite (s : State) (c : Nat) (i : Item) (done : Nat → Bool) : State :=
  if i.badDesc then s
  else match s.itemChk c i with
    | .ok _ s1 =>
      let idle := i.dig || i.isColl || i.walked.isSome || !i.run || s.blocked c i || (s1.waits && !s.waits)
      let rows := if idle then [] else s.rowsReady c i
      let keep := if idle then [] else (i.written done).filter fun k => (i.grans[k]?.map (·.1)).any fun r => r < rows.length
      let x := s.putGrans c i rows keep
      x.2.poisonDst c i x.1
    -- a destination page is not there yet, or an address of a row reaches nothing: the other granules are poisoned
    | .page _ => s.poisonDst c i []
    | .bad _ => s.poisonDst c i []

/-- Two FP32 values combined by a reduction, rounded to FP32 (R236). -/
def redF (op : Nat) (rm : Rm) (x y : FV) : FV :=
  if op = 0 then fp32.dec (fp32.enc rm (x.add rm y)) else x.minmax (op == 1) y
/-- Two INT32 values combined by a reduction (R236). -/
def redI (op : Nat) (x y : BitVec 32) : BitVec 32 := if op = 0 then x + y else if op = 1 then maxs x y else mins x y
/-- A list combined from the left. -/
def foldl1 {α : Type} (d : α) (f : α → α → α) : List α → α
  | [] => d
  | a :: r => r.foldl f a
/-- The largest scale code of a block, NaN where any rank holds it (R236). -/
def agree (gs : List Nat) : Nat := gs.foldl max 0
/-- One contribution to a block reduction: m × 2^(16 − gap), rounded to nearest even (R236). -/
def contrib (m : Int) (gap : Nat) : Int :=
  if gap ≤ 16 then m * 2 ^ (16 - gap) else sgnInt (m < 0) (roundQ .rn (m < 0) m.natAbs false 0 ((gap : Int) - 16))

/-- Row bytes of a reduction over the ranks' source rows, in rank order (R236). -/
def redRow (i : Item) (rows : List (List Byte)) : List Byte :=
  if i.sfmt = 8 then
    (List.range i.w).flatMap fun j => leBytes 4 (foldl1 0 (redI i.op) (rows.map fun r => ofBytes32 ((r.drop (4 * j)).take 4))).toNat
  else if i.sfmt = 6 || i.sfmt = 7 then
    let i8 := i.sfmt == 6
    let cb := if i8 then 32 else 16
    let body := if i8 then i.w else i.w / 2
    let vals := (List.range (i.w / 32)).flatMap fun b =>
      let gs := rows.map fun r => (lget 0 r (body + b)).toNat
      let e := agree gs
      let ms := rows.map fun r =>
        let cs := (r.drop (cb * b)).take cb
        codeInts i8 (if i8 then cs.map (·.toNat) else nibsOf cs)
      (List.range 32).map fun j =>
        if e = 255 then FV.nan
        else
          let q := ((ms.zip gs).map fun x => contrib (lget 0 x.1 j) (e - x.2)).foldl (· + ·) 0
          .fin (q < 0) q.natAbs ((e : Int) - 127 - 16)
    encodeRow i.dfmt i.rm false vals
  else
    let xs := rows.map (decodeRow i.sfmt i.w)
    encodeRow i.dfmt i.rm false ((List.range i.w).map fun j => foldl1 .nan (redF i.op i.rm) (xs.map fun x => lget .nan x j))

/-- Row bytes of `xagree` (R236). -/
def agreeRow (i : Item) (rows : List (List Byte)) : List Byte :=
  let body := if i.sfmt = 6 then i.w else i.w / 2
  (List.range (i.w / 32)).map fun b => BitVec.ofNat 8 (agree (rows.map fun r => (lget 0 r (body + b)).toNat))

end Sys2Proof.Machine
end

