-- ==== Sys2Proof/Machine/Tiles.lean ====
section
/-!
DEFINITION. Sys2Proof/Machine/Tiles.lean: elements of accumulator tiles, the rows that `mld` and `mst` move (R198, R270), the times at which what a
matrix engine does falls (R262, R266), how its counters settle and an `mstat` is filled (R273), and how an `mma` is interrupted (R274).
-/
namespace Sys2Proof.Machine

/-- The store of the working plane of a tile's bank. -/
def Core.accStore (k : Core) (tile : Nat) : Store := .acc (k.accB tile)
/-- Element (r, c) of a tile in its working plane. -/
def Core.el (k : Core) (tile r c : Nat) : Word := tget 0 (k.plane (k.accB tile)).acc (1024 * tile + 32 * r + c)
/-- The core with an element of a tile written. -/
def Core.setEl (k : Core) (tile r c : Nat) (x : Word) : Core :=
  k.modPlane (k.accB tile) fun p => { p with acc := tset 0 p.acc (1024 * tile + 32 * r + c) x }
/-- Some granule of row `r` of a tile is poisoned. -/
def Core.rowBad (k : Core) (tile r : Nat) : Bool := (List.range 8).any fun j => k.bad (k.accStore tile) (8192 * tile + 256 * r + 32 * j)
/-- Some granule of row `r` of a tile fails its ECC beyond correction (R268, R270). -/
def Core.rowEcc (k : Core) (tile r : Nat) : Bool := (List.range 8).any fun j => k.eccBad (k.accStore tile) (8192 * tile + 256 * r + 32 * j)
/-- A row of a tile. -/
def Core.row (k : Core) (tile r : Nat) : List Word := (List.range 32).map (k.el tile r)
/-- The core with a row of a tile written. -/
def Core.setRow (k : Core) (tile r : Nat) (xs : List Word) : Core :=
  (List.range 32).foldl (fun k c => k.setEl tile r c (lget 0 xs c)) k

/-- What moving one row met. -/
inductive Mv where
  | ok (s : State)
  | bad (f : Fail)
  | page (va : Nat)
  | quota
  deriving DecidableEq, Repr

/-- The address of row `i` of an `mld` or `mst`. -/
def MItem.rowAt (m : MItem) (i : Nat) : Nat := if m.spad then (m.addr + i * m.stride) % 2 ^ 32 else (m.addr + i * m.stride) % 2 ^ 64

/-- Row `i` loaded from memory into the tile (R270). The fault address of bad data is the first such source address (R232). -/
def State.mldRow (s : State) (c : Nat) (m : MItem) (i : Nat) : Mv :=
  let a := m.rowAt i
  let put := fun (s : State) (bs : List Byte) => s.modCore c fun k => k.setRow m.tile i (dwords 32 bs)
  if m.spad then
    match s.spadLoc c (s.grpAt c m.slot) a, s.spadLoc c (s.grpAt c m.slot) (a + 255) with
    | some l, some _ =>
      if s.spadBus l then .bad ⟨.vbus, 0, BitVec.ofNat 64 a⟩
      else match s.spadWrong l 256 with
      | some (e, k) => .bad ⟨e, 0, BitVec.ofNat 64 (a + k)⟩
      | none => .ok (put (s.touchSpad l) (s.rdSpad l 256))
    | _, _ => .bad ⟨.spad, 0, BitVec.ofNat 64 a⟩
  else
    (cut a 256).foldl (fun (acc : Except Mv (List RB × State)) p => match acc with
      | .error e => .error e
      | .ok (bs, s) => match s.rdGlob anyItem c m.lid p.1 p.2 with
        | (.bad e sw, _, _) => .error (if sw then .page p.1 else .bad ⟨e, 0, BitVec.ofNat 64 p.1⟩)
        | (.ok _ _, r, s) => .ok (bs ++ r, s)) (.ok ([], s)) |> fun r => match r with
    | .error e => e
    | .ok (bs, s) => match (List.range bs.length).findSome? fun j => ((lget (0, none) bs j).2).map fun e => (e, j) with
      | some (e, j) => .bad ⟨e, 0, BitVec.ofNat 64 (a + j)⟩
      | none => .ok (put s (bs.map (·.1)))

/-- Row `i` of the tile stored to memory (R270). One that covers a poisoned or uncorrectable granule of its destination in part merges with no failure, the model's choice,
log entry 73. -/
def State.mstRow (s : State) (c : Nat) (m : MItem) (i : Nat) : Mv :=
  let a := m.rowAt i
  let k := s.coreAt c
  let bs := (k.row m.tile i).flatMap fun w => leBytes 8 w.toNat
  let l := s.lchAt m.lid
  if k.rowBad m.tile i then .bad ⟨.poison, 0, 0⟩
  else if k.rowEcc m.tile i then .bad ⟨.eccu, 0, 0⟩
  else if m.spad then
    match s.spadLoc c (s.grpAt c m.slot) a, s.spadLoc c (s.grpAt c m.slot) (a + 255) with
    | some loc, some _ => if s.spadBus loc then .bad ⟨.vbus, 1, BitVec.ofNat 64 a⟩ else .ok ((s.touchSpad loc).wrSpad loc bs)
    | _, _ => .bad ⟨.spad, 1, BitVec.ofNat 64 a⟩
  else if l.undeclared a 256 then .bad ⟨.undecl, 1, BitVec.ofNat 64 a⟩
  else match (cut a 256).findSome? fun p => match s.reach (some c) l.part p.1 true with
      | (.bad e sw, _) => some (if sw then Mv.page p.1 else .bad ⟨e, 1, BitVec.ofNat 64 p.1⟩)
      | (.ok pa _, s) => if !s.waits && s.homeBus pa then some (.bad ⟨.vbus, 1, BitVec.ofNat 64 p.1⟩) else none with
    | some e => e
    | none => match (cut a 256).foldl (fun (o : Option State) p => o.bind fun s =>
          s.wrGlob anyItem c m.lid p.1 (((bs.drop (p.1 - a)).take p.2).map fun b => (b, none))) (some s) with
      | some s => .ok s
      | none => .quota

/-- The rows of a mask moved in order; stops at the first that does not move, or waits (R270). -/
def State.mvRows (s : State) (c : Nat) (m : MItem) : List Nat → Mv
  | [] => .ok s
  | i :: is => match (if m.op == .mst then s.mstRow c m i else s.mldRow c m i) with
    | .ok s => if s.waits then .ok s else s.mvRows c m is
    | .bad f => .bad f
    | .page va => .page va
    | .quota => .quota
/-- Rows moved before one that does not, or would have to wait: the state that is left (R270). -/
def State.mvSome (s : State) (c : Nat) (m : MItem) : List Nat → State
  | [] => s
  | i :: is => match (if m.op == .mst then s.mstRow c m i else s.mldRow c m i) with
    | .ok s1 => if s1.waits && !s.waits then s else s1.mvSome c m is
    | _ => s

/-- The engine's work and counters settled up to a time within its tick (R273, R276). -/
def Core.settle (k : Core) (x : Nat) : Core :=
  let e := k.eng
  let n := x - e.t
  let k := { k with eng := { e with t := max e.t x } }
  match e.pos with
  | none => k
  | some _ => match e.run with
    | some r => if r.started then
        { (k.count 10 (n * (16 - e.lv))) with eng := { k.eng with run := some { r with left := r.left - n * e.lv } } }
      else k.count 11 n
    | none => k.count 11 n

/-- Tiles that a queued instruction touches (R262). -/
def MItem.tiles (m : MItem) : List Nat :=
  match m.op with
  | .mglow => []
  | .madd => [m.tile, m.x, m.y]
  | .mtrans => [m.tile, m.x]
  | _ => [m.tile]
/-- An `mma` whose steps are done or failed touches its tile no more. -/
def MItem.settled (m : MItem) : Bool := m.doneAt.isSome || m.fail.isSome
/-- The queue before an instruction, without what is settled. -/
def Core.ahead (k : Core) (m : MItem) : List MItem := (k.mq.takeWhile fun x => x.id != m.id).filter fun x => !x.settled
/-- An instruction issued earlier on one of its tiles has not taken effect (R254, R262). -/
def Core.mBlocked (k : Core) (m : MItem) : Bool := (k.ahead m).any fun x => x.tiles.any fun t => m.tiles.contains t

/-- The cycles that a queued instruction on tiles takes, and `mglow` at the head of the queue; none for those that go by other events (R262). -/
def MOp.cost : MOp → Option Nat
  | .mma => none
  | .mld => none
  | .mst => none
  | .mzero => some 4
  | .mtrans => some 16
  | .mglow => some 1
  | _ => some 8
/-- The time at which an instruction on tiles, or `mglow`, takes effect; none while it waits for what was issued before it (R262). -/
def Core.opAt (k : Core) (m : MItem) : Option Nat :=
  if (if m.op == .mglow then !(k.ahead m).isEmpty else k.mBlocked m) then none else m.op.cost.map (m.free + ·)

/-- A queued instruction belongs to a team, by its first slot. -/
def Core.ofTeam (k : Core) (slot0 : Nat) (m : MItem) : Bool :=
  let g := tget Group.reset k.groups m.slot
  g.bound && g.slot0 == slot0 && g.lid == m.lid && g.cohort == m.cohort
/-- A queued instruction belongs to a team that is being saved once the step under way is done (R274). -/
def Core.stopping (k : Core) (m : MItem) : Bool := k.eng.stop.any fun t => k.ofTeam t m
/-- The first `mma` of a queue that has not reached the engine and may, where the engine is free (R262, R274). -/
def Core.nextMma (k : Core) : Option MItem := if k.eng.run.isSome then none else k.mq.find? fun m => m.op == .mma && !m.settled && !k.stopping m
/-- The time at which the next `mma` reaches the engine; none while it waits for an `mld` or `mst` on its tile (R262, R266, R282). -/
def Core.reachAt (k : Core) : Option Nat :=
  k.nextMma.bind fun m =>
    if (k.ahead m).any fun x => (x.op == .mld || x.op == .mst) && x.tile == m.tile then none else some (max (m.since + 4) k.eng.lastEnd)
/-- The time at which the attempt under way ends at the level as it is. -/
def Engine.attemptAt (e : Engine) : Option Nat :=
  match e.pos, e.run with
  | some _, some r => if r.started && e.lv != 0 then some (e.t + (r.left + e.lv - 1) / e.lv) else none
  | _, _ => none
/-- The time at which the step under way is squashed or commits: an attempt ends, and what was issued earlier on its tile has taken effect; none while that has
not (R254, R266). -/
def Core.endAt (k : Core) : Option Nat := k.eng.attemptAt.bind fun b => (k.eng.run.bind fun r => k.mq.find? fun m => m.id == r.id).bind fun m =>
  if k.mBlocked m then none else some (max b m.free)
/-- The time at which an `mma` retires: 8 cycles after its last commit, and at once where it failed (R266, R268): log entry 31. -/
def MItem.retireAt (m : MItem) : Option Nat := if m.op == .mma then m.doneAt.map fun x => if m.fail.isSome then x else x + 7 else none
/-- The engine is not idle (R276). -/
def Engine.active (e : Engine) : Bool := e.pos.isSome || e.req.isSome
/-- A time is not before another, where there is one. -/
def notAfter (x : Nat) (o : Option Nat) : Bool := match o with
  | some y => x ≤ y
  | none => true
/-- Everything of a core's engine that falls before a time has happened: work and counters can be settled up to it. -/
def Core.upTo (k : Core) (x : Nat) : Bool :=
  notAfter x (k.reachAt.map (max · k.eng.t)) && notAfter x k.endAt && notAfter x (k.eng.run.bind (·.fetchEnd)) && (!k.eng.active || x ≤ k.eng.tick)
  && k.mq.all fun m => notAfter x (k.opAt m) && notAfter x m.retireAt

/-- A core's engine changed. -/
def State.modEng (s : State) (c : Nat) (f : Engine → Engine) : State := s.modCore c fun k => { k with eng := f k.eng }
/-- A queued instruction of a core changed. -/
def State.modMq (s : State) (c id : Nat) (f : MItem → MItem) : State :=
  s.modCore c fun k => { k with mq := k.mq.map fun m => if m.id == id then f m else m }
/-- A queued instruction of a core by its number. -/
def Core.mItem (k : Core) (id : Nat) : Option MItem := k.mq.find? fun m => m.id == id

/-- Something on the engine holds its level: an `mma` in it, a tile move on its port, an operation on tiles under way, or a queued `mglow`, at a time
(R262, R278, R283). -/
def Core.inFlight (k : Core) (x : Nat) : Bool :=
  k.eng.run.isSome || k.mq.any fun m => m.since ≤ x && (m.op == .mglow || m.run || (m.op != .mma && m.op != .mld && m.op != .mst && !k.mBlocked m))
/-- The engine would begin to ramp down at a time: an armed hold is used instead (R278, R279). -/
def Engine.beginDown (e : Engine) (x : Nat) : Engine :=
  if e.pos.isNone then e
  else match e.armed with
    | some n => { e with armed := none, holdTo := some (x + n) }
    | none => { e with down := true }
/-- The engine of a core begins to ramp down at a time where nothing is in flight, and the next `mma` does not reach it at that time (R278, R279, R283). -/
def State.restEng (s : State) (c x : Nat) : State :=
  let k := s.coreAt c
  let due := match k.reachAt with
    | some y => y ≤ x
    | none => false
  if k.inFlight x || due then s else s.modEng c fun e => e.beginDown x
/-- The same where something else has left the engine: work and counters are settled up to that time. -/
def State.restAt (s : State) (c x : Nat) : State :=
  if (s.coreAt c).eng.pos.isSome then (s.modCore c fun k => k.settle x).restEng c x else s
/-- A queued instruction has taken effect at a time: those behind it that share a tile with it, and every `mglow`, go on from there (R262). -/
def State.passMq (s : State) (c : Nat) (m : MItem) (x : Nat) : State :=
  let go := fun (y : MItem) => if y.op == .mglow || y.tiles.any fun t => m.tiles.contains t then { y with free := max y.free x } else y
  s.modCore c fun k => { k with mq := k.mq.takeWhile (fun y => y.id != m.id) ++ (k.mq.dropWhile fun y => y.id != m.id).map go }
/-- A matrix instruction leaves the queue, or its saved team, at a time: an `mstat` issued after it takes effect no earlier (R273). -/
def Core.mDrop (k : Core) (id x : Nat) : Core :=
  let late := fun (o : OutRes) => { o with op := o.op.map fun p => if id < p.1 then (p.1, p.2.1, p.2.2.1, max p.2.2.2 x) else p }
  { k with
    mq := k.mq.filter fun y => y.id != id
    away := k.away.filter (· != id)
    groups := k.groups.map fun g => (g.1, { g.2 with outs := g.2.outs.map late }) }

/-- What `mstat` reads: the record of a tile, or a counter (R273). -/
def Core.statVal (k : Core) (flg : Bool) (n : Nat) : Word :=
  if flg then
    let t := k.tile n
    (t.e ++ BitVec.ofNat 16 (t.exh.toNat + 2 * t.ovf.toNat + 4 * t.nan.toNat + 8 * t.flt.toNat)).zeroExtend 64
  else k.ctr n
/-- A result of `mstat` filled: the low half of a pair has the even register. -/
def RDest.fill (flg : Bool) (v : Word) : RDest → RDest
  | .v t n _ => .v t n (if flg || n % 2 == 0 then v.truncate 32 else (v >>> 32).truncate 32)
  | d => d
/-- An `mstat` may take effect: every matrix instruction issued before it has left the queue, an interrupted `mma` of a saved team has completed too, and the
engine has come to the time at which the last did (R273). -/
def Core.statNow (k : Core) (o : OutRes) : Bool := match o.op with
  | some (b, _, _, d) => !k.mq.any (fun m => m.id < b) && !k.away.any (· < b) && k.upTo d
  | none => false
/-- A result of an `mstat` that takes effect filled with what it reads at its time. -/
def Core.statFill (k : Core) (o : OutRes) : OutRes := match o.op with
  | some (_, flg, n, d) => if k.statNow o then { o with op := none, ds := o.ds.map (RDest.fill flg ((k.settle d).statVal flg n)) } else o
  | none => o
/-- The `mstat`s of a core that may take effect do (R273). -/
def State.statDue (s : State) (c : Nat) : State :=
  let k := s.coreAt c
  if !k.groups.any fun g => g.2.outs.any k.statNow then s
  else s.setCore c { k with groups := k.groups.map fun g => (g.1, { g.2 with outs := g.2.outs.map k.statFill }) }

/-- The `mma` in the engine is interrupted at a time, `r` being what of it is left: it is to resume at the step of `r`, and the engine is free (R274). -/
def State.interrupt (s : State) (c id : Nat) (r : Run) (x : Nat) : State :=
  let boff := match r.ops.head? with
    | some o => o.boff
    | none => r.boff
  (((s.modMq c id fun m => { m with resume := r.step, boff := boff }).modEng c fun e => { e with run := none, lastEnd := x }).restEng c x).statDue c
/-- A queued instruction is taken from the queue at a time, with no effect: what waited for it goes on (R262). -/
def State.takeMq (s : State) (c : Nat) (m : MItem) (x : Nat) : State :=
  let s := if m.settled then s else s.passMq c m x
  s.modCore c fun k => { k.mDrop m.id x with eng := match k.eng.run with
    | some r => if r.id == m.id then { k.eng with run := none, lastEnd := x } else k.eng
    | none => k.eng }
/-- Instructions taken from a core's queue at a time: where they alone kept the engine's level, it begins to ramp down (R278). -/
def State.takeAll (s : State) (c : Nat) (ms : List MItem) (x : Nat) : State :=
  let fly := (s.coreAt c).inFlight x
  let s := ms.foldl (fun s m => s.takeMq c m x) s
  if fly && !(s.coreAt c).inFlight x then s.restAt c x else s

end Sys2Proof.Machine
end

