-- ==== Sys2Proof/Machine/Ends.lean ====
section
/-!
DEFINITION. Sys2Proof/Machine/Ends.lean: how launches come to run and end: dequeue (R289 to R291), versions and quota (R292, R293, R298),
completion, commit and abort (R294 to R296, R303, R304), graphs (R350, R351), the release of teams and slots (R71, R162, R353), and the
retirement of items and children (R219, R231, R235, R301).
-/
namespace Sys2Proof.Machine

/-- The code of a trap cause (R9). -/
def Cause.code : Cause → Nat
  | .ill => 0x01
  | .priv => 0x02
  | .align => 0x03
  | .xlate => 0x04
  | .prot => 0x05
  | .spad => 0x06
  | .poison => 0x07
  | .staged => 0x08
  | .plane => 0x09
  | .xfer => 0x0A
  | .matfmt => 0x0B
  | .undecl => 0x0C
  | .txovf => 0x0D
  | .assert => 0x0E
  | .user => 0x0F
  | .brk => 0x10
  | .step => 0x11
  | .watch => 0x12
  | .lqdead => 0x13
  | .vbus => 0x14
  | .eccu => 0x15

/-- A 16-bit count that saturates. -/
def sat16 (x : BitVec 16) : BitVec 16 := if x = 0xFFFF then x else x + 1

/-- The group that occupies a slot for a cohort of a launch, bound or saved, changed (R237). -/
def State.modOwner (s : State) (c g lid coh : Nat) (f : Group → Group) : State :=
  if s.saved.any fun v => v.core == c && v.groups.any fun e => e.1 == g && e.2.lid == lid && e.2.cohort == coh then
    { s with saved := s.saved.map fun v =>
        if v.core == c then { v with groups := v.groups.map fun e => if e.1 == g && e.2.lid == lid && e.2.cohort == coh then (e.1, f e.2) else e } else v }
  else if (s.grpAt c g).bound && (s.grpAt c g).lid == lid && (s.grpAt c g).cohort == coh then s.modGrp c g f else s

/-- A group's status record and wick after an item or matrix instruction retired (R219, R231). -/
def Group.xRetire (g : Group) (w : Wick) (seq : BitVec 16) (f : Option Fail) : Group :=
  let g := match f with
    | none => g
    | some f =>
      let r := g.xs w
      let r := if r.failed = 0 then { r with cause := BitVec.ofNat 8 f.cause.code, detail := BitVec.ofNat 8 f.detail, seq := seq, faddr := f.faddr } else r
      g.setXs w { r with failed := sat16 r.failed }
  g.setWick w (g.wick w - 1)

/-- The scoreboard entries of an operation of core `c` removed (R163). -/
def State.unscore (s : State) (c op : Nat) : State :=
  { s with cores := s.cores.map fun e => (e.1, { e.2 with score := e.2.score.filter fun x => !(x.core == c && x.op == op) }) }
/-- An item leaves its core. -/
def State.dropItem (s : State) (c id : Nat) : State := (s.modCore c fun k => { k with items := k.items.filter fun i => i.id != id }).unscore c id
/-- The record of a collective item breaks R235. -/
def Item.broken (i : Item) : Bool := i.fail == some ⟨.xfer, 1, 0⟩
/-- A link exhausted its retries for the item (R229, R232). -/
def Item.cut_ (i : Item) : Bool := i.fail == some ⟨.xfer, 3, i.d1⟩
/-- Item `j` of core `k`, which has not failed with the collective, is a partner of item `i` of core `c`: the item of the same number on its own copy of the record, which names `c` (R235).
Which copy a record that breaks the table was R235 does not tell: any that names `c` may be it. -/
def State.peerOf (s : State) (c : Nat) (i : Item) (k : Nat) (j : Item) : Bool :=
  j.isColl && !j.badDesc && j.part == i.part && j.kseq == i.kseq && (!j.got || j.fail.isNone) && j.ends.contains (0xFFFF, c)
  && (j.ends == i.ends || (i.broken && Config.freeBool s.fresh (2 ^ 62 + k * 2 ^ 32 + j.id)))
/-- The partners of a failed collective item fail with PEER, those issued and those still to come (R235). -/
def State.failPeers (s : State) (c : Nat) (i : Item) : State :=
  if !i.isColl then s
  else
    let f := fun (k : Nat) (j : Item) => if s.peerOf c i k j && (j.fail.isNone || j.cut_) then { j with fail := some ⟨.xfer, 6, j.d1⟩ } else j
    let s := { s with cores := s.cores.map fun (e : Nat × Core) => if e.1 == c then e else (e.1, { e.2 with items := e.2.items.map (f e.1) }) }
    s.modCore c fun k => { k with collFail := k.collFail ++ (i.part, i.ends, i.coll, i.kseq) :: (if i.broken then [(i.part, [], i.coll, i.kseq)] else []) }
/-- An item retires: its record is updated, then its wick falls (R219). One that fails by itself, whether the collective has reached it or not, has its partners
fail (R235). -/
def State.retireItem (s : State) (c : Nat) (i : Item) (f : Option Fail) : State :=
  let s := if f.isSome && (!i.got || i.fail.isNone) then s.failPeers c i else s
  (s.modOwner c i.slot i.lid i.cohort fun g => g.xRetire i.wick i.seq f).dropItem c i.id

/-- A version whose last shadow line is gone turns FREE and gives its units back (R292, R294, R298). -/
def State.freeVer (s : State) (p t : Nat) : State :=
  let v := s.verAt p t
  if (v.st == .committed || v.st == .aborted) && v.lines.isEmpty then
    (s.modVer p t fun _ => Version.reset).modPart p fun x => { x with poolUsed := x.poolUsed - v.units }
  else s

/-- Panes, banks and weight buffer of a team released, and its bind record cleared (R200, R353). -/
def Core.freeTeam (k : Core) (slot0 : Nat) : Core :=
  let free := fun (o : Option Nat) => if o == some slot0 then none else o
  let freeP := fun (o : Option Pane) => if o.map (·.slot0) == some slot0 then none else o
  { k with
    binds := k.binds.filter fun b => !(b.slot0 == slot0 && b.started)
    panes := k.panes.map fun e => (e.1, freeP e.2)
    accOwn := k.accOwn.map fun e => (e.1, free e.2)
    wbufOwn := free k.wbufOwn
    eng := { k.eng with stop := k.eng.stop.filter (· != slot0) } }
/-- The scratchpad kept of a saved team is given up (R200, R324). -/
def Core.dropKept (k : Core) (v : Saved) : Core :=
  { k with keptPad := tcut k.keptPad v.at_ (2 ^ 20), keptPoi := tcut k.keptPoi (v.at_ / 32) (2 ^ 15) }
/-- A core with no team bound or saved lowers %wpr to 0 (R162). -/
def State.lowerWpr (s : State) (c : Nat) : State :=
  let k := s.coreAt c
  if k.bound.isEmpty && !s.saved.any (fun v => v.core == c) then
    if k.wpr = 0 then s.modCore c fun k => { k with wprChg := none }
    else s.modCore c fun k => { k with wprChg := some ⟨0, s.now, 128⟩ }
  else s
/-- A team leaves its core (R162, R200, R353). -/
def State.dropTeam (s : State) (c slot0 : Nat) : State := (s.modCore c fun k => { k.freeTeam slot0 with idleSince := s.now }).lowerWpr c

/-- A slot after its group left it: only the select bit stays. -/
def Group.vacate (g : Group) : Group := { Group.reset with selB := g.selB, a := g.a, b := g.b }

/-- A slot whose group was killed: a hold of transfer items stays until a flip, the others end (R201). -/
def Group.gone (g : Group) : Group := { g.vacate with held := if g.held == some .items then some .items else none }

/-- Some group of a team is still bound. -/
def State.teamLive (s : State) (c slot0 lid : Nat) : Bool :=
  (s.coreAt c).bound.any fun e => e.2.slot0 == slot0 && e.2.lid == lid

/-- A free number chosen from an open starting point. -/
def pickFree (n start : Nat) (p : Nat → Bool) : Option Nat := ((List.range n).map fun i => (start + i) % n).find? p

/-- A launch entry takes a LID and waits at step 1 of R289: the LID, and the state; none while no LID is free (R352). -/
def State.newLaunch (s : State) (q n : Nat) (ws : List Word) (lrec : Word) (node : Option (Nat × Nat)) (iss : Option Issuer) : Option (Nat × State) :=
  match pickFree 512 (Config.freeWord s.fresh (0x400000 + s.order)).toNat fun l => (s.lchAt l).st == .free with
  | none => none
  | some l =>
    let timed := (dw ws 0).getLsbD 9
    some (l, { (s.modLch l fun _ => { Launch.reset with
      st := .resolving, queue := q, pkt := n, node := node, issuer := iss, lrec := lrec.toNat, part := (s.qAt q).part, priv := (s.qAt q).priv
      step := 1, order := s.order, timed := timed, nbf := if timed then (dw ws 1).toNat else 0 }) with order := s.order + 1 })

/-- Cohorts of a launch that a wholly free cluster takes at once: slots, panes, banks and weight buffer of its six cores (R289). -/
def cohCap (l : Launch) : Nat :=
  let per := fun (have_ need : Nat) => if need = 0 then 128 else have_ / need
  let cap := min (min (per 128 l.ngrp) (per 64 l.panes)) (min (per 8 l.accb) (if l.wbuf then 1 else 128))
  let cap := if l.pfix != 0x7F && l.panes != 0 then min cap 1 else cap
  6 * cap / l.nteam

/-- The launch and kernel records read and checked (R284 to R289 step 1), and the state with their lines read; none rejects the launch. -/
def State.readRecs (s : State) (l : Launch) : Option (Launch × State) :=
  match s.feRead l.part l.lrec 64 with
  | .error _ => none
  | .ok (lb, s) =>
    let lr := toDws 8 lb
    match s.feRead l.part (dw lr 0).toNat 128 with
    | .error _ => none
    | .ok (kb, s) =>
      let kr := toDws 16 kb
      let h := dw kr 0
      let r := dw kr 4
      let f := dw lr 2
      let m := dw lr 5
      let regw := (List.range 16).map fun i => ofBytes32 ((kb.drop (64 + 4 * i)).take 4)
      let valid := m.getLsbD 24 || m.getLsbD 25
      let n : Launch := { l with
        direct := h.getLsbD 8 || f.getLsbD 24, cores := h.getLsbD 9
        ngrp := bits h 10 5 + 1, nteam := bits h 15 3 + 1, ncoh := bits f 0 24 + 1
        nv := bits h 18 6 + 1, ns := bits h 24 6 + 1, stagemap := bits h 32 18
        entry := dw kr 1, lcb := dw kr 2, fmt := dw kr 3, live := dw kr 5, livecnt := bits r 40 7, args := dw lr 1
        panes := bits r 0 7, pfix := bits r 8 7, pgrp := bits r 16 3, accb := bits r 20 4, wbuf := r.getLsbD 24
        rightT := r.getLsbD 32, rightC := r.getLsbD 33, rightK := r.getLsbD 34, rightW := r.getLsbD 35
        prio := bits f 25 2, quota := bits f 32 16, regw := regw
        bsem := dw lr 3, bthr := dw lr 4, bmap := m, bsrc0 := dw lr 6, bsrc1 := dw lr 7 }
      let z := fun (l : List Nat) => l.all (· == 0)
      let regOk := fun (w : BitVec 32) => let x := w.toNat; x / 4 % 4 == 0 && x / 2 ^ 28 == 0 && (x % 4 != 0 || x == 0)
      let cls := (List.range 24).filter fun k => s.partOfCl k == some l.part
      let fits := if n.cores then n.ncoh ≤ cls.length * cohCap n else !cls.isEmpty && 1 ≤ cohCap n
      if s.waits then some (l, s)
      else if l.lrec % 64 == 0 && (dw lr 0).toNat % 128 == 0 && n.args.toNat % 64 == 0
        && z [bits f 27 5, bits f 48 16, bits m 28 36] && n.bsem.toNat % 8 == 0 && (valid || n.bsem == 0)
        && n.bsrc0.toNat % 8 == 0 && n.bsrc1.toNat % 8 == 0
        && bits h 0 8 == 1 && n.nteam ≤ 6 && z [bits h 30 2, bits h 50 14] && n.entry.toNat % 4 == 0 && lvalid n.lcb && n.fmt.toNat % 64 == 0
        && z [bits r 7 1, bits r 15 1, bits r 19 1, bits r 25 7, bits r 36 4, bits r 47 17] && dw kr 6 == 0 && dw kr 7 == 0
        && n.panes ≤ 64 && (n.pfix == 0x7F || n.pfix ≤ 63) && n.pgrp * n.ngrp ≤ n.panes && n.accb ≤ 8 && n.livecnt ≤ 64
        && (n.livecnt != 0 || n.live == 0) && (n.pfix == 0x7F || n.pfix + n.panes ≤ 64) && regw.all regOk && fits
      then some ({ n with step := 2 }, s) else none

/-- A launch ends with an outcome; its completion is still to be posted. -/
def State.endWith (s : State) (lid : Nat) (e : Ending) : State :=
  s.modLch lid fun l => { l with st := .ended, ending := some { e with at_ := some s.wall } }

/-- A launch rejected at dequeue: what it took is given back (R289, R290). -/
def State.reject (s : State) (lid : Nat) : State :=
  let l := s.lchAt lid
  let s := l.refs.foldl (fun s p => match s.feAdd l.part p.toNat (-1) with
    | .ok s => s
    | .error _ => s) s
  let s := if !l.direct && 3 ≤ l.step then
      (s.modPart l.part fun x => { x with poolUsed := x.poolUsed - (s.verAt l.part l.ver).units }).modVer l.part l.ver fun _ => Version.reset
    else s
  (s.modLch lid fun l => { l with refs := [], gsigs := [] }).endWith lid (.plain 2 0 0x20)

/-- How a resolution step of R289 went. -/
inductive Res where
  | go (s : State)
  | wait
  | no (s : State)
  deriving DecidableEq, Repr

/-- One valid bound field: its source read, its value put where it goes, and counted when it is a counted pointer, in this order (R290): whether it went, its
value, the reference taken, and the state. -/
def State.boundField (s : State) (part : Nat) (src : Word) (counted : Bool) (put : State → Word → Option State) : Bool × Word × List Word × State :=
  match s.feRead part src.toNat 8 with
  | .error _ => (false, 0, [], s)
  | .ok (bs, s) =>
    let x := ofBytes64 bs
    match put s x with
    | none => (false, x, [], s)
    | some s =>
      if !counted then (true, x, [], s)
      else if x.toNat % 8 != 0 then (false, x, [], s)
      else match s.feAdd part x.toNat 1 with
        | .ok s => (true, x, [x], s)
        | .error _ => (false, x, [], s)

/-- How bound fields went: none while the semaphore is below its threshold; otherwise whether all went, the two values, the references taken, and the state
(R290). -/
def State.bounds (s : State) (part : Nat) (v0 v1 f0 f1 : Bool) (sem thr src0 src1 : Word) (put : Nat → State → Word → Option State) :
    Option (Bool × Word × Word × List Word × State) :=
  let w0 := Config.freeWord s.fresh 1
  let w1 := Config.freeWord s.fresh 2
  if !v0 && !v1 then some (true, w0, w1, [], s)
  else match s.feRead part sem.toNat 8 with
    | .error _ => some (false, w0, w1, [], s)
    | .ok (bs, s) =>
      if (ofBytes64 bs).ult thr then none
      else
        let a := if v0 then s.boundField part src0 f0 (put 0) else (true, w0, [], s)
        if !a.1 then some (false, a.2.1, w1, a.2.2.1, a.2.2.2)
        else
          let b := if v1 then a.2.2.2.boundField part src1 f1 (put 1) else (true, w1, [], a.2.2.2)
          some (b.1, a.2.1, b.2.1, a.2.2.1 ++ b.2.2.1, b.2.2.2)

/-- An argument dword written (R290). -/
def State.argPut (s : State) (l : Launch) (idx : Nat) (x : Word) : Option State :=
  match s.feWrite l.part (l.args.toNat + 8 * idx) (leBytes 8 x.toNat) with
  | .ok s => some s
  | .error _ => none

/-- Bound field `k` of a launch written into its argument block (R290). -/
def State.putBound (s : State) (l : Launch) (k : Nat) (x : Word) : Option State :=
  if l.bmap.getLsbD (24 + k) then s.argPut l (bits l.bmap (12 * k) 12) x else some s

/-- Step 3 of R289: bound fields, from the launch record, or from the graph's snapshot, which is resolved once (R290, R351). -/
def State.resolveBound (s : State) (lid : Nat) : Res :=
  let l := s.lchAt lid
  let done := fun (s : State) => s.modLch lid fun l => { l with step := 5 }
  match l.node.bind fun n => (s.graphAt n.1).map fun g => (n.1, g) with
  | some (gi, g) =>
    -- a field that cannot be put leaves what was put before it (R290)
    let put := fun (s : State) (x0 x1 : Word) => match s.putBound l 0 x0 with
      | none => Res.no s
      | some s => match s.putBound l 1 x1 with
        | some s => .go (done s)
        | none => .no s
    match g.snap with
    | some (x0, x1) => put s x0 x1
    | none => match s.bounds g.part g.s0 g.s1 g.f0 g.f1 g.gsem g.gthr g.src0 g.src1 fun _ s _ => some s with
      | none => .wait
      | some (false, _, _, refs, s1) => .no (s1.modLch lid fun l => { l with refs := refs })
      | some (true, x0, x1, refs, s1) => put { s1 with graphs := tput s1.graphs gi { g with snap := some (x0, x1), refs := refs } } x0 x1
  | none =>
    match s.bounds l.part (l.bmap.getLsbD 24) (l.bmap.getLsbD 25) (l.bmap.getLsbD 26) (l.bmap.getLsbD 27) l.bsem l.bthr l.bsrc0 l.bsrc1
        fun k s x => s.putBound l k x with
    | none => .wait
    | some (ok, _, _, refs, s1) =>
      let s1 := s1.modLch lid fun l => { l with refs := refs }
      if ok then .go (done s1) else .no s1

/-- Step 4 of R289: the declared regions (R287). -/
def State.resolveRegions (s : State) (lid : Nat) : Res :=
  let l := s.lchAt lid
  let step := fun (acc : Option (List Region × State)) (i : Nat) => acc.bind fun a =>
    let w := (lget 0 l.regw i).toNat
    if w % 4 = 0 then some a
    else match a.2.feRead l.part (l.args.toNat + 8 * (w / 16 % 4096)) 8 with
      | .error _ => none
      | .ok (b, s) => match s.feRead l.part (l.args.toNat + 8 * (w / 65536 % 4096)) 8 with
        | .error _ => none
        | .ok (z, s) =>
          let base := leNat b
          let size := leNat z
          if s.waits || size = 0 then some (a.1, s)
          else if 2 ^ 64 < base + size || !vaOk (base + size - 1) then none
          else some (a.1 ++ [⟨i, w % 4, base, base + size - 1⟩], s)
  match (List.range 16).foldl step (some ([], s)) with
  | none => .no s
  | some (rs, s) =>
    let s := s.modLch lid fun l => { l with regions := rs, step := 6 }
    match l.node with
    | some (gi, n) => match s.graphAt gi with
      | some g => match g.nodes[n]? with
        | some x => .go { s with graphs := tput s.graphs gi { g with nodes := g.nodes.set n { x with regions := rs } } }
        | none => .go s
      | none => .go s
    | none => .go s

/-- Two regions conflict: 128-byte lines in common and one of them written (R291). -/
def Region.conflicts (a b : Region) : Bool := (a.cls == 2 || b.cls == 2) && a.lo / 128 ≤ b.hi / 128 && b.lo / 128 ≤ a.hi / 128

/-- A launch is held by a transactional launch dequeued before it (R291). -/
def State.held (s : State) (l : Launch) : Bool :=
  !l.direct && s.launches.any fun e =>
    let o := e.2
    o.part == l.part && o.order < l.order && !o.direct && o.st != .free && o.ending.isNone && (3 ≤ o.step || o.st != .resolving)
    && (if o.st == .resolving && o.step < 6 then
        -- its regions are not known yet: those that could conflict hold
        o.regw.any fun w => w.toNat % 4 != 0 && l.regions.any fun b => w.toNat % 4 == 2 || b.cls == 2
      else o.regions.any fun a => l.regions.any fun b => a.conflicts b)

/-- One step of R289 for a resolving launch. What happens at the device-wide 256 transactional launches in flight R28 leaves open: dequeue waits, and a version is in
flight until it is FREE again, the model's choice, log entry 79. -/
def State.resolve1 (s : State) (lid : Nat) : Res :=
  let l := s.lchAt lid
  match l.step with
  | 1 => match s.readRecs l with
    | some (n, s) => .go (s.modLch lid fun _ => if n.direct then { n with step := 4 } else n)
    | none => .no s
  | 2 => if 256 ≤ (s.versions.filter fun v => v.2.st != .free).length then .wait else match pickFree 256 (Config.freeWord s.fresh (0x800000 + lid)).toNat fun t => (s.verAt l.part t).st == .free with
    | some t => .go ((s.modVer l.part t fun _ => ⟨.running, [], 0⟩).modLch lid fun l => { l with ver := t, step := 3 })
    | none => .wait
  | 3 =>
    let p := s.partAt l.part
    let q := if l.quota = 0 then p.defq else l.quota
    if p.poolUnits < q then .no s
    else if p.poolUnits < p.poolUsed + q then .wait
    else .go (((s.modPart l.part fun p => { p with poolUsed := p.poolUsed + q }).modVer l.part l.ver fun v => { v with units := q }).modLch lid
      fun l => { l with step := 4 })
  | 4 => s.resolveBound lid
  | 5 => s.resolveRegions lid
  | 6 => if s.held l then .wait else .go ((s.modLch lid fun l => { l with st := .ready, step := 7 }).signal (schedOf l.part) 1)
  | _ => .wait

/-- A resolving launch taken as far as it goes (R289). -/
def State.resolve (s : State) (lid : Nat) : Nat → State
  | 0 => s
  | k + 1 => if (s.lchAt lid).st != .resolving then s else match s.resolve1 lid with
    | .go s => s.resolve lid k
    | .wait => s
    | .no s => s.reject lid

/-- A graph node dequeued (R351). -/
def State.startNode (s : State) (gi n : Nat) : State :=
  match s.graphAt gi with
  | none => s
  | some g => match g.nodes[n]? with
    | none => s
    | some x =>
      if x.st != .waiting || x.count != 0 then s
      else
        let ws := ((s.qAt g.queue).pkts.find? fun p => p.n == g.pkt).map (·.dw) |>.getD []
        match s.newLaunch g.queue g.pkt ws (BitVec.ofNat 64 x.lrec) (some (gi, n)) none with
        | none => s
        | some (l, s) => ({ s with graphs := tput s.graphs gi { g with nodes := g.nodes.set n { x with st := .running } } }).resolve l 8

/-- Every node of a graph whose counter is 0 dequeued. -/
def State.startNodes (s : State) (gi : Nat) : State :=
  match s.graphAt gi with
  | none => s
  | some g => (List.range g.nodes.length).foldl (fun s n => s.startNode gi n) s

/-- Every resolving launch taken as far as it goes, and every ready node that had no LID tried again. Which of several that wait for a FREE tag or for pool units takes what
comes free first R289 leaves open: here the lowest LID, the model's choice, log entry 79. -/
def State.kick (s : State) : State :=
  let s := s.launches.foldl (fun s e => s.resolve e.1 8) s
  s.graphs.foldl (fun s e => s.startNodes e.1) s

/-- A counted pointer given back (R298). -/
def State.unref (s : State) (part : Nat) (ps : List Word) : State :=
  ps.foldl (fun s p => match s.feAdd part p.toNat (-1) with
    | .ok s => s
    | .error _ => s) s

/-- The outcome of a child retires on its issuer's wick (R300, R301). -/
def State.retireChild (s : State) (i : Issuer) (e : Ending) (ver : Nat) (dec : Bool) : State :=
  let f := fun (g : Group) =>
    let r := g.ls i.wick
    let r := if e.status = 0 then (if i.done then { r with committed := sat16 r.committed } else r)
      else
        let r := if r.failed = 0 then { r with cause := BitVec.ofNat 8 e.cause, detail := BitVec.ofNat 8 e.detail, ver := BitVec.ofNat 8 ver, code := e.code } else r
        { r with failed := sat16 r.failed }
    let g := g.setLs i.wick r
    if dec then g.setWick i.wick (g.wick i.wick - 1) else g
  match s.launches.find? fun l => l.2.order == i.ord && l.2.st != .free with
  | none => s
  | some l => s.modOwner i.core i.slot l.1 i.cohort f

/-- The end of a node passed on: successors' counters, and the graph's own completion (R351). -/
def State.nodeEnd (s : State) (gi n : Nat) (e : Ending) : State :=
  match s.graphAt gi with
  | none => s
  | some g =>
    let ok := e.status == 0
    let x := g.nodes[n]?
    let outs := match x with
      | some x => (g.edges.drop x.first).take x.nout
      | none => []
    let nodes := match x with
      | some x => g.nodes.set n { x with st := if ok then .done else .failed }
      | none => g.nodes
    let nodes := if ok then outs.foldl (fun ns ed => match ns[ed.1]? with
        | some y => ns.set ed.1 { y with count := y.count - 1 }
        | none => ns) nodes else nodes
    let g := { g with nodes := nodes, failed := g.failed || !ok
                      cause := if ok || g.failed then g.cause else e.cause, detail := if ok || g.failed then g.detail else e.detail }
    let s := { s with graphs := tput s.graphs gi g }
    if g.nodes.any fun y => y.st == .running || (y.st == .waiting && y.count == 0) then (outs.map (·.1)).foldl (fun s k => s.startNode gi k) s
    else
      let s := s.unref g.part g.refs
      let s := { s with graphs := tdel s.graphs gi, nodesUsed := s.nodesUsed - g.nodes.length }
      let en := Ending.plain (if g.nodes.all fun y => y.st == .done then 0 else 1) g.cause g.detail
      let s := match g.issuer with
        | some i => if i.done then s.retireChild i en 0 true else s
        | none => s
      s.pktDone g.queue g.pkt 0 false en

/-- Deferred children of a committed launch written into their rings in issue order, as far as there is room (R294, R300, R388). -/
def State.drainKids (s : State) (lid : Nat) : Nat → State
  | 0 => s
  | k + 1 => match (s.lchAt lid).deferred with
    | [] => s
    | d :: ds =>
      let next := fun (s : State) => (s.modLch lid fun l => { l with deferred := ds }).drainKids lid k
      match s.push (s.lchAt lid).part d.queue d.lrec d.by_ with
      | .ok s => next s
      | .wait s => s
      | .badq s => next (s.retireChild d.by_ (.plain 2 0 0x26) 0 false)

/-- The gsig entries of a launch performed as release adds at their homes, each under the keys of its page (R303, R364). -/
def State.doGsigs (s : State) (lid : Nat) : State :=
  let s := (s.lchAt lid).gsigs.foldl (fun s g =>
    let ln := storOf g.pa / 128
    let s := ((s.awaitEngine anyItem g.pa 8).touchHome g.pa).revoke none ln
    s.wrHome g.key g.pa (leBytes 8 ((ofBytes64 (s.rdHome g.key g.pa 8) + g.amount).toNat))) s
  s.modLch lid fun l => { l with gsigs := [] }

/-- The completion of an ended launch posted, and its entry freed (R298, R348, R352). VER of a launch rejected after it had taken a tag R289 and R348 leave open: it is that
tag, the model's choice, log entry 79. -/
def State.post (s : State) (lid : Nat) : State :=
  let l := s.lchAt lid
  match l.ending with
  | none => s
  | some e =>
    let ver := if l.direct then 0 else l.ver
    let s := { s with launches := tdel s.launches lid }
    let s := s.unref l.part l.refs
    let s := match l.node with
      | some (gi, n) => s.nodeEnd gi n e
      | none => s.pktDone l.queue l.pkt ver l.late e
    let s := match l.issuer with
      | some i => if i.done then s.retireChild i e ver true else s
      | none => s
    (if l.direct then s else s.freeVer l.part l.ver).signal (schedOf l.part) 2

/-- Ended launches posted, the earliest first, and what waits for them taken on. -/
def State.reap (s : State) : Nat → State
  | 0 => s
  | k + 1 =>
    match s.launches.find? fun e => e.2.st == .ended && e.2.ending.isSome && e.2.deferred.isEmpty with
    | none => s
    | some e => ((s.post e.1).kick).reap k

/-- The children whose issuers a test names are no longer kept queued (R300, R329). -/
def State.unhold (s : State) (p : Issuer → Bool) : State :=
  let go := fun (i : Issuer) => if i.hold && p i then { i with hold := false } else i
  { s with
    queues := s.queues.map fun e => (e.1, { e.2 with issuers := e.2.issuers.map fun x => (x.1, go x.2) })
    launches := s.launches.map fun e => (e.1, { e.2 with deferred := e.2.deferred.map fun d => { d with by_ := go d.by_ } }) }

/-- The matrix work of a launch on a core ends at this cycle: its tile moves have moved an open number of rows, work and counters are settled, and
what waited for it goes on (R262, R273, R274, R278). -/
def State.haltMq (s : State) (c lid : Nat) : State :=
  let s := s.modCore c fun k => k.settle s.now
  let ms := (s.coreAt c).mq.filter fun m => m.lid == lid
  let s := ms.foldl (fun s m => if m.run && (m.op == .mst || m.op == .mld) then
    s.mvSome c m ((bitsOf 32 m.mask.toNat).take ((Config.freeWord s.fresh (c * 2 ^ 48 + m.id)).toNat % 33)) else s) s
  ms.foldl (fun s m => s.unscore c m.id) (s.takeAll c ms s.now)
/-- A saved team ends with its launch: its interrupted `mma` and its scratchpad are given up (R273, R274, R319). -/
def State.haltSaved (s : State) (v : Saved) : State :=
  v.mqs.foldl (fun s m => (s.modCore v.core fun k => k.mDrop m.id s.now).unscore v.core m.id)
    { (s.modCore v.core fun k => k.dropKept v) with saved := s.saved.filter (· != v) }

/-- A launch's groups, items and matrix work stopped: every item and `mld` or `mst` retires failed with ABORT, what it had written being
open, and every team is released (R295, R318, R319). -/
def State.halt (s : State) (lid : Nat) : State :=
  let s := s.unhold fun i => i.ord == (s.lchAt lid).order
  -- the strong stores its groups have issued are performed: nothing rolls them back
  let s := (s.grpsOf lid).foldl (fun s e => s.drainBuf e.1 e.2) s
  let s := s.cores.foldl (fun s e => (s.coreAt e.1).items.foldl (fun s i =>
    if i.lid == lid then
      ((if i.got then s else s.partWrite e.1 i fun k => Config.freeBool s.fresh (e.1 * 2 ^ 48 + i.id * 2 ^ 20 + k)).failPeers e.1 i).dropItem e.1 i.id
    else s) s) s
  -- its matrix work ends at this cycle: what of an engine falls before has happened, and its work and counters are settled
  let hosts := s.cores.filter fun e => e.2.mq.any fun m => m.lid == lid
  let s := if hosts.any fun e => !(s.coreAt e.1).upTo s.now then { s with waits := true } else s
  let s := hosts.foldl (fun s e => s.haltMq e.1 lid) s
  let teams := ((s.grpsOf lid).map fun e => (e.1, (s.grpAt e.1 e.2).slot0)).eraseDups
  let gone := s.saved.filter fun v => v.groups.any fun e => e.2.lid == lid
  let s := gone.foldl State.haltSaved s
  let s := (s.grpsOf lid).foldl (fun s e => s.modGrp e.1 e.2 fun q => { q with bound := false }) s
  let s := { s with
    cores := s.cores.map fun e => (e.1, { e.2 with
      binds := e.2.binds.filter fun b => b.lid != lid
      groups := e.2.groups.map fun g => if g.2.lid == lid && !g.2.bound then (g.1, g.2.gone) else g }) }
  let s := gone.foldl (fun s v => s.lowerWpr v.core) (teams.foldl (fun s t => s.dropTeam t.1 t.2) s)
  (hosts.map (·.1) ++ gone.map (·.core)).eraseDups.foldl (fun s c => s.statDue c) s

/-- A launch ends by an abort or failure (R295, R304, R318, R319); a committed one ignores it. -/
def State.endLaunch (s : State) (lid : Nat) (e : Ending) : State :=
  let l := s.lchAt lid
  if l.st == .free || l.st == .ended then s
  else
    -- its deferred children retire as ABORTED with detail PARENT (R300)
    let s := l.deferred.foldl (fun s d => s.retireChild d.by_ (.plain 1 0 0x25) 0 false) s
    let s := s.halt lid
    let s := if l.direct || l.step < 3 then s
      else (s.revokeAll ((s.verAt l.part l.ver).lines.map (·.1))).modVer l.part l.ver fun v => { v with st := .aborted }
    let s := s.modLch lid fun l => { l with gsigs := [], deferred := [] }
    let e := { e with status := if l.direct then 3 else 1 }
    (s.endWith lid e).reap 512

/-- A launch whose last group has exited is complete (R292); a `.direct` one ends here (R303). -/
def State.launchDone (s : State) (lid : Nat) : State :=
  let l := s.lchAt lid
  if l.direct then
    (((s.modLch lid fun l => { l with complete := true }).doGsigs lid).endWith lid (.plain 0 0 0)).reap 512
  else (s.modLch lid fun l => { l with complete := true }).modVer l.part l.ver fun v => { v with st := .complete }

/-- Every earlier transactional launch and graph of the queue has resolved (R294, R347). -/
def State.commitTurn (s : State) (l : Launch) : Bool :=
  (s.qAt l.queue).pkts.all fun p => p.done || l.pkt ≤ p.n || (ptype p.dw != 1 && ptype p.dw != 2)
    || s.launches.any fun e => e.2.queue == l.queue && e.2.pkt == p.n && e.2.node.isNone && ((e.2.direct && 2 ≤ e.2.step) || e.2.st == .ended)

/-- A line of storage lies in a virtual region, page by page of 64 KiB. -/
def State.inStor (s : State) (part : Nat) (r : Region) (ln : Nat) : Bool :=
  (span (r.lo / 65536) (r.hi / 65536 + 1 - r.lo / 65536)).any fun pg =>
    let lo := max r.lo (65536 * pg)
    let hi := min r.hi (65536 * pg + 65535)
    match (s.xlate none part lo false).1 with
    | .ok a _ => (span (a / 128) ((a + (hi - lo)) / 128 + 1 - a / 128)).any fun x => storOf (128 * x) / 128 == ln
    | .bad _ _ => false
/-- Code that a launch wrote is fetched by launches that start after its commit: the lines it shadowed and those of its open regions leave every
instruction cache (R45, R166). -/
def State.newCode (s : State) (lid : Nat) : State :=
  let l := s.lchAt lid
  let new := fun (ln : Nat) => (s.verAt l.part l.ver).lines.any (fun x => x.1 == ln) || l.regions.any fun r => r.cls == 3 && s.inStor l.part r ln
  { s with cores := s.cores.map fun e => (e.1, { e.2 with icache := e.2.icache.filter fun x => !new (storOf (128 * x.1) / 128) }) }

/-- The commit of a complete launch, in one step, and what follows it (R294). -/
def State.commit (s : State) (lid : Nat) : State :=
  let l := s.lchAt lid
  if l.st == .ended then (s.drainKids lid 64).reap 512
  else if l.complete && !l.direct && s.commitTurn l then
    -- the shadow lines pass to their homes: no core owns them any more
    let s := ((s.newCode lid).revokeAll ((s.verAt l.part l.ver).lines.map (·.1))).modVer l.part l.ver fun v => { v with st := .committed }
    let s := (s.doGsigs lid).endWith lid (.plain 0 0 0)
    ((s.drainKids lid 4096).reap 512)
  else s

/-- A group leaves its slot, its staging plane freed whoever holds it (R71 step 3); the last of its team frees the team, the last of its launch completes
it. -/
def State.groupExit (s : State) (c g : Nat) : State :=
  let q := s.grpAt c g
  let s := ((s.drainBuf c g).cleanAll c false).modGrp c g Group.vacate
  let s := if s.teamLive c q.slot0 q.lid then s else s.dropTeam c q.slot0
  let s := s.modLch q.lid fun l => { l with exited := l.exited + 1 }
  let l := s.lchAt q.lid
  if l.exited = l.ngrp * l.nteam * l.ncoh then s.launchDone q.lid else s

/-- A packet taken by `lx.disp` starts (R355): the LID, or 0x3FF for a graph; none when no LID is free. -/
def State.startPkt (s : State) (q : Nat) (p : Pkt) : State := s.modQ q fun x => { x with pkts := x.pkts.map fun y => if y.n == p.n then { y with started := true } else y }

/-- A graph header's table read and checked (R350), and the state with its lines read. -/
def State.readGraph (s : State) (q : Nat) (p : Pkt) (iss : Option Issuer) : Option (Graph × State) :=
  let part := (s.qAt q).part
  let ga := dw p.dw 2
  match s.feRead part ga.toNat 64 with
  | .error _ => none
  | .ok (hb, s) =>
    let h := toDws 8 hb
    let nn := bits (dw h 0) 0 16
    let ne := bits (dw h 0) 16 16
    let na := (dw h 1).toNat
    let ea := (dw h 2).toNat
    let rd := fun (s : State) (a n k : Nat) => (List.range k).foldl (fun (o : Option (List (List Word) × State)) i => o.bind fun r =>
      match r.2.feRead part (a + n * i) n with
      | .ok (b, s) => some (r.1 ++ [toDws (n / 8) b], s)
      | .error _ => none) (some ([], s))
    let none_ : Graph := ⟨q, p.n, part, iss, [], [], 0, 0, 0, 0, false, false, false, false, none, [], s.order, 0, 0, false⟩
    if s.waits then some (none_, s)
    else if nn == 0 || 4096 < nn || bits (dw h 0) 32 8 != 1 || bits (dw h 0) 44 20 != 0 || na % 16 != 0 || ea % 8 != 0
      || dw h 7 != 0 || 65536 < s.nodesUsed + nn then none
    else match (rd s na 16 nn).bind fun r => (rd r.2 ea 8 ne).map fun x => (r.1, x.1, x.2) with
      | none => none
      | some (ns, es, s) =>
        let edges := es.map fun e => (bits (dw e 0) 0 16, bits (dw e 0) 16 16)
        let nodes : List GNode := ns.map fun n => ⟨(dw n 0).toNat, bits (dw n 1) 0 16, bits (dw n 1) 16 16, bits (dw n 1) 32 16, .waiting, []⟩
        let okEdges := es.all fun e => bits (dw e 0) 32 32 == 0
        let okNodes := ns.all fun n => bits (dw n 1) 48 16 == 0
        let into := fun (k : Nat) => (edges.filter fun e => e.1 == k).length
        let okIdx := edges.all (fun e => e.1 < nn) && (List.range nn).all fun k => match nodes[k]? with
          | some n => n.first + n.nout ≤ ne && ((edges.drop n.first).take n.nout).all (fun e => k < e.1) && n.count == into k
          | none => false
        if s.waits then some (none_, s)
        else if okEdges && okNodes && okIdx then
          some ({ none_ with
            nodes := nodes, edges := edges, gsem := dw h 5, gthr := dw h 6, src0 := dw h 3, src1 := dw h 4
            s0 := (dw h 0).getLsbD 42, s1 := (dw h 0).getLsbD 43, f0 := (dw h 0).getLsbD 40, f1 := (dw h 0).getLsbD 41 }, s)
        else none

/-- A GRAPH packet starts: its table is read, and its first nodes are dequeued (R350, R351). -/
def State.startGraph (s : State) (q : Nat) (p : Pkt) (iss : Option Issuer) : State :=
  let s := s.startPkt q p
  match s.readGraph q p iss with
  | none =>
    let s := s.pktDone q p.n 0 false (.plain 2 0 0x20)
    match iss with
    | some i => if i.done then s.retireChild i (.plain 2 0 0x20) 0 true else s
    | none => s
  | some (g, s) =>
    let gi := g.order
    let s := { s with order := s.order + 1, graphs := tput s.graphs gi g, nodesUsed := s.nodesUsed + g.nodes.length }
    (s.startNodes gi).reap 512

/-- A LAUNCH packet starts: the LID it got; none when none is free (R355). -/
def State.startLaunch (s : State) (q : Nat) (p : Pkt) (iss : Option Issuer) : Option (Nat × State) :=
  match s.newLaunch q p.n p.dw (dw p.dw 2) none iss with
  | none => none
  | some (l, s) => some (l, (((s.startPkt q p).resolve l 8).reap 512).runAll q)

end Sys2Proof.Machine
end

