-- ==== Sys2Proof/Machine/Ops.lean ====
section
/-!
DEFINITION. Sys2Proof/Machine/Ops.lean: what instructions of both streams share: taking a trap and returning from one (R312 to R318), debug
halts (R328, R329), the checks, writes and completion of a scalar instruction (R41, R42, R56, R57, R208) and of a lane instruction (R38, R120,
R152, R208, R339), and lantern mode's rules for them (R168 to R171).
-/
namespace Sys2Proof.Machine

/-- What a step answers. -/
abbrev Out := Host.Outcome State Fault Refusal

/-- The source rows of an item as address and length, in order; those of `xgath` from its index table as it stands. -/
def State.rowSrcs (s : State) (c : Nat) (i : Item) : List (Nat × Nat) :=
  match i.cmd with
  | .xfill => []
  | .xgath => (List.range i.h).flatMap fun r =>
    (i.d0.toNat + 8 * r, 8) :: (match s.rdGath c i (i.d0.toNat + 8 * r) 8 2 with
      | .ok bs _ => [(leNat (bs.map (·.1)), i.w)]
      | _ => [])
  | _ => if i.ssp = 1 then [] else (List.range i.h).map fun r => (i.d0.toNat + i.ss * r, i.srow)
/-- The address of the digest that an item's source is compared with: the 32 bytes after its last row (R230). -/
def Item.digAt (i : Item) : Nat := i.d0.toNat + i.ss * (i.h - 1) + i.w
/-- The source ranges of an item: its rows, and the digest it reads (R230). -/
def State.itemSrcs (s : State) (c : Nat) (i : Item) : List (Nat × Nat) :=
  s.rowSrcs c i ++ (if i.dig && i.ssp != 1 then [(i.digAt, 32)] else [])
/-- An unfinished item reads or writes a staging range that a test accepts: by kind, core, slot, first offset and length (R205). -/
def State.itemOn (s : State) (c : Nat) (i : Item) (p : Nat → Nat → Nat → Nat → Nat → Bool) : Bool :=
  !i.badDesc && (s.itemSrcs c i ++ i.dsts).any fun r => isStaging r.1 && p (stgKind r.1) (stgCore r.1) (stgSlot r.1) (stgOff r.1) r.2
/-- An unfinished item touches the staging register plane of a slot. -/
def State.grpItems (s : State) (c g : Nat) : Bool := s.allItems.any fun e => s.itemOn e.1 e.2 fun k c' g' _ _ => k == 0 && c' == c && g' == g

/-- The lane PC a frame or stop record names for a scalar trap: the frontier, or all ones when the lane stream is idle (R315). -/
def Group.lpcNow (g : Group) : Word :=
  match g.frontier with
  | some p => p
  | none => match g.lq with
    | b :: _ => b.entry
    | [] => BitVec.allOnes 64

/-- Dword 1 of the frame's s1 field (R315); CAUSE is 0 where the group itself raised nothing that the frame shows, the model's choice, log entry 65. -/
def TrapRec.s1 (t : TrapRec) : Word :=
  BitVec.ofNat 64 ((if t.silent && !t.late then 0 else t.cause.code) + 2 ^ 16 * t.lane.toNat + 2 ^ 17 * t.late.toNat + 2 ^ 18 * t.reex.toNat + 2 ^ 32 * t.code.toNat)

/-- A frontier block as the device writes it: its words are its own but for dword 0 (R316). -/
def State.frontWords (s : State) : List Word :=
  (List.range 32).map fun i => if i = 0 then Config.freeWord s.fresh 0x1000 ||| 2 else Config.freeWord s.fresh (0x1000 + i)

/-- The frame written into a plane: s1 to s5 and the frontier block in s32 to s63; the poison of what it writes clears (R314, R315). -/
def RegPlane.frame (p : RegPlane) (t : TrapRec) (front : List Word) : RegPlane :=
  let p := ((((p.ws 1 t.s1).ws 2 t.resume).ws 3 t.lpc).ws 4 t.faddr).ws 5 (t.fmask ++ t.exec)
  (List.range 32).foldl (fun p i => p.ws (32 + i) (lget 0 front i)) p

/-- The group may exchange its planes for a trap: no result outstanding, the staging plane free or held by items that have retired
(R314 steps 2 and 3). -/
def State.canEnter (s : State) (c g : Nat) : Bool :=
  let q := s.grpAt c g
  q.outs.isEmpty && !s.grpItems c g && (match q.held with
    | none => true
    | some .items => true
    | _ => false)

/-- Trap entry, all of R314: planes exchanged, frame written, handler entered. What was still to issue again after an earlier LATE trap is kept with the frontier
(R315, R317), but where the trap is that of the instruction itself. -/
def State.doEnter (s : State) (c g : Nat) (t : TrapRec) (halt : Bool) : State :=
  let q := s.grpAt c g
  let idle := q.idle && q.redo.isNone && !(List.range 32).any fun i => (q.thrAt i).st == .killed
  let words := if idle then (s.frontWords).set 0 0 else s.frontWords
  let s := if idle then s else { s with fronts := ⟨words, q.thr, q.lq, q.lrun, if t.lane && !t.late then none else q.redo⟩ :: s.fronts }
  s.modGrp c g fun q =>
    let q := { q with selB := !q.selB, sWait := .none, lWait := .none, sPark := none, lPark := none, pflip := none, pend := none, redo := none
                      held := some .trap, handler := true, pc := q.trapvec, halted := halt, dbgIn := halt, yielded := [], wprGo := false }
    q.modWork fun p => p.frame t words

/-- The stop record of a trap, as the completion's fields (R318, R348). -/
def TrapRec.ending (t : TrapRec) (hnd : Bool) : Ending :=
  ⟨1, t.cause.code, 0x21, t.thread, t.lane, hnd, t.spc, t.lpc, t.msg, t.faddr, 0, none⟩

/-- A group of its partition has halted: HLT is set (R327). -/
def State.hltSet (s : State) (c g : Nat) : State := s.modPart (s.lchAt (s.grpAt c g).lid).part fun x => { x with dbgHlt := true }
/-- HLT set and the halt reported (R327, R359). -/
def State.haltNote (s : State) (c g : Nat) (fa : Word) : State :=
  let lid := (s.grpAt c g).lid
  (s.hltSet c g).event (s.lchAt lid).part 4 fa lid

/-- Lantern mode of a group ends at a cycle: the restore begins (R171). -/
def Group.lanLeave (g : Group) (now : Nat) : Group :=
  g.modLan fun l => if l.phase == .leave then l else { l with phase := .leave, until_ := now + 16 }

/-- A group halts for a debugger (R328): by the trap entry, as soon as its planes may be exchanged; one that is in a handler, whose frame stands, freezes
where it is, the model's choice, log entry 65. -/
def State.haltIn (s : State) (c g : Nat) (t : TrapRec) : State :=
  if (s.grpAt c g).handler then (s.hltSet c g).modGrp c g fun q => { q with halted := true, pend := none }
  else if s.canEnter c g then (s.hltSet c g).doEnter c g t true
  else s.modGrp c g fun q => { q.lanLeave s.now with pend := some t }

/-- The trap halts the group for a debugger (R312, R328). -/
def State.haltsFor (s : State) (part : Nat) (c : Cause) : Bool :=
  c == .step || c == .watch || (c == .brk && (s.partAt part).dbgBrkh)

/-- The frame a group of a stopped context halts with (R318, R328). One whose precise trap waits halts at its instruction, which issues again when it is
continued; one whose late trap waits halts with that trap: the model's choice, log entry 65. -/
def State.stopRec (s : State) (x : Group) (cause : Cause) : TrapRec :=
  match x.pend with
  | none => ⟨cause, false, 0, false, false, x.pc, x.lpcNow, 0, 0, 0, 0xFF, 0, x.pc, false, true⟩
  | some p =>
    if p.silent || s.haltsFor (s.lchAt x.lid).part p.cause then p
    else if p.late then { p with silent := true }
    else { p with silent := true, swap := false, code := 0, resume := p.spc }
/-- The saved groups of a launch halt when they are back (R318, R324, R328). -/
def State.stopSaved (s : State) (lid : Nat) (cause : Cause) : State :=
  { s with saved := s.saved.map fun v => { v with groups := v.groups.map fun e =>
      if e.2.lid == lid then
        (e.1, { e.2 with stopped := e.2.stopped || cause == .assert, pend := if e.2.halted then e.2.pend else some (s.stopRec e.2 cause) })
      else e } }
/-- The context stops (R318): it ends, or it halts while DBG_CTL.HOLD is set, every group of it with a frame, the saved ones when they are back (R328). -/
def State.stopCtx (s : State) (c g : Nat) (t : TrapRec) : State :=
  let q := s.grpAt c g
  if (s.partAt (s.lchAt q.lid).part).dbgHold then
    let s := (s.grpsOf q.lid).foldl (fun s e =>
      let s := s.modGrp e.1 e.2 fun x => { x with stopped := x.stopped || t.cause == .assert }
      let x := s.grpAt e.1 e.2
      if e == (c, g) || x.halted then s else s.haltIn e.1 e.2 (s.stopRec x t.cause)) (s.modLch q.lid fun l => { l with frozen := true })
    let s := (s.stopSaved q.lid t.cause).haltIn c g t
    if (s.grpAt c g).halted then s.haltNote c g t.faddr else s
  else s.endLaunch q.lid (t.ending q.handler)

/-- A trap delivered (R312). -/
def State.deliver (s : State) (c g : Nat) (t : TrapRec) : State :=
  let q := s.grpAt c g
  let can := s.canEnter c g
  let s := s.modGrp c g fun q => { q with pend := none }
  if t.silent then s.haltIn c g t
  else if t.cause == .undecl || t.cause == .txovf then s.endLaunch q.lid (.plain 1 t.cause.code 0x21)
  else if t.cause == .assert then s.stopCtx c g t
  else if t.swap then s.modGrp c g fun q => { q with pend := some t }
  else if q.handler then s.stopCtx c g t
  else if s.haltsFor (s.lchAt q.lid).part t.cause then
    if can then (s.doEnter c g t true).haltNote c g t.faddr else s.modGrp c g fun q => { q with pend := some t }
  else if q.trapvec = 0 then s.stopCtx c g t
  else if can then s.doEnter c g t false else s.modGrp c g fun q => { q with pend := some t }

/-- `tret` (R317) by the group at a slot; a debugger's continue performs it too (R328). -/
def State.tretAt (s : State) (c g : Nat) : State :=
  let q := s.grpAt c g
  let w := q.work
  let stop := fun (cause : Cause) =>
    s.stopCtx c g ⟨cause, false, 0, false, false, q.pc, q.lpcNow, 0, 0, 0, 0xFF, 0, q.pc, false, false⟩
  if s.grpItems c g || !q.outs.isEmpty then s.modGrp c g fun q => { q with sWait := .other }
  else if q.stage_.anyBad then stop .staged
  else
    let s1 := w.rs 1
    let s2 := w.rs 2
    let l := w.rs 3
    let m : BitVec 32 := (w.rs 5 >>> 32).truncate 32
    let front := (List.range 32).map fun i => w.rs (32 + i)
    let known := s.fronts.find? fun f => f.words == front
    let redo := s1.getLsbD 18 && s1.getLsbD 16
    let late := s1.getLsbD 17
    if s2.toNat % 4 != 0 then stop .align
    else if lget 0 front 0 != 0 && lget 0 front 0 != 1 && known.isNone then stop .ill
    else if redo && m != 0 && !lvalid l then stop .align
    else
      let q := { q with selB := !q.selB, held := none, handler := false, halted := false, dbgIn := false, pc := s2, sWait := .none, redo := none }
      let q := if lget 0 front 0 = 0 then { q with thr := [], lq := [], lrun := false }
        else if lget 0 front 0 = 1 then { q with thr := (List.range 32).map fun t => (t, ⟨0, [], .killed⟩), lq := [], lrun := false }
        else match known with
          | some f => { q with thr := f.thr, lq := f.lq, lrun := f.lrun, redo := f.redo }
          | none => q
      let q := if redo then { q with redo := if m = 0 then q.redo else some (l, m, late) }
        else if s1.getLsbD 16 && !late then
          (bitsOf 32 m.toNat).foldl (fun q t => if (q.thrAt t).st == .running && (q.thrAt t).pc == l then q.modThr t fun x => { x with pc := lnext l } else q) q
        else q
      s.setGrp c g q

/-- The debugger steps the named stream of the group (R329). -/
def State.stepped (s : State) (c g : Nat) (lane : Bool) : Bool :=
  let p := s.partAt (s.lchAt (s.grpAt c g).lid).part
  p.dbgStep && p.dbgCore.toNat == c && p.dbgSlot.toNat == g && p.dbgLstp == lane

/-- A stepped stream halts after its instruction completed (R329); in a handler STEP is one more trap, which stops the context (R317, R318). -/
def State.stepHalt (s : State) (lane : Bool) : State :=
  let q := s.grp
  if q.bound && s.stepped s.core s.slot lane && !q.inLan && q.pend.isNone then
    s.deliver s.core s.slot ⟨.step, lane, 0, false, false, q.pc, q.lpcNow, 0, 0, 0, if lane then 0 else 0xFF, 0, q.pc, false, false⟩
  else s

/-- A stream has a result outstanding that an S point waits for: in lantern mode the dark ones are not awaited (R41, R170). -/
def Group.awaits (g : Group) (lane : Bool) : Bool :=
  g.outs.any fun o => o.lane == lane && !(g.lantern.isSome && (o.dark && o.missed || o.entry))

/-- One instruction issued in lantern mode counted (R171). -/
def Group.lanTick (g : Group) : Group := if g.inLan then g.modLan fun l => { l with count := l.count + 1 } else g

/-- Lantern mode of the acting group ends: it restores (R171). -/
def State.lanEnd (s : State) : State :=
  s.modG fun g => g.modLan fun l => if l.phase == .run then { l with phase := .leave, until_ := s.now + 16 } else l

/-- The group in a slot has issued a scalar instruction: those of its pipe that yielded to it wait for it no longer (R69). -/
def State.issued (s : State) : State :=
  s.modCore s.core fun k => if k.groups.any fun e => e.2.yielded.contains s.slot then
    { k with groups := k.groups.map fun e => (e.1, { e.2 with yielded := e.2.yielded.filter (· != s.slot) }) } else k

/-- The group whose scalar stream goes on at a PC; with S it parks (R41). -/
def Group.sGoes (g : Group) (sw : Bool) (pc : Word) (now : Nat) : Group :=
  let g := { g.lanTick with pc := pc, sWait := .none }
  if sw && g.awaits false then { g with sPark := some now } else g

/-- A scalar instruction completes and the stream goes on at a PC. -/
def State.sGo (s : State) (sw : Bool) (pc : Word) : State := ((s.modG fun g => g.sGoes sw pc s.now).issued).stepHalt false

/-- A scalar instruction completes and the stream goes on at the next word. -/
def State.sDone (s : State) (sw : Bool) : State := s.sGo sw (s.grp.pc + 4)

/-- A scalar instruction is suppressed in lantern mode and counted (R169). -/
def State.sSuppress (s : State) (sw : Bool) : State := (s.modG Group.suppress).sDone sw

/-- A scalar instruction stalls: it issues again later (R167, R323). -/
def State.sStall (s : State) (w : Wait) : State := s.modG fun g => { g with sWait := w }

/-- The trap of a scalar instruction as it will be recorded (R315, R318). -/
def State.sTrap (s : State) (c : Cause) (code : BitVec 32) (fa : Word) (swap : Bool) (resume : Word) : TrapRec :=
  let q := s.grp
  ⟨c, false, code, false, false, resume, q.lpcNow, fa, 0, 0, 0xFF, 0, q.pc, swap, false⟩

/-- A scalar instruction raises a cause, precisely (R8, R312). In lantern mode the trap is suppressed and counted, and an ILL ends the mode
(R44, R169); the marker `sw` of the instruction parks its stream all the same (R41, R170). -/
def State.sRaiseX (s : State) (sw : Bool) (c : Cause) (code : BitVec 32) (fa : Word) (swap : Bool) (resume : Word) : State :=
  if s.grp.inLan then (if c == .ill then (s.modG Group.suppress).lanEnd else s.sSuppress sw)
  else s.deliver s.core s.slot (s.sTrap c code fa swap resume)
/-- A scalar instruction raises a cause with no fault address. -/
def State.sRaise (s : State) (sw : Bool) (c : Cause) : State := s.sRaiseX sw c 0 0 false s.grp.pc
/-- A scalar instruction raises a cause at an address. -/
def State.sRaiseAt (s : State) (sw : Bool) (c : Cause) (fa : Word) (swap : Bool) : State := s.sRaiseX sw c 0 fa swap s.grp.pc

/-- Some source register of a scalar instruction is poisoned (R208). -/
def State.sPoi (s : State) (rs : List SReg) : Bool := rs.any fun r => s.sBadR r.toNat
/-- Some source register of a scalar instruction is dark (R168). -/
def State.sDrk (s : State) (rs : List SReg) : Bool := rs.any fun r => s.grp.sDark r.toNat
/-- A scalar register written, and marked dark or not in lantern mode (R57, R168). -/
def State.wS (s : State) (rd : SReg) (x : Word) (dark : Bool) : State :=
  s.modG fun g => (g.modWork fun p => p.ws rd.toNat x).setSDark rd.toNat (dark && rd != 0)

/-- A scalar instruction whose sources are read: POISON when one is poisoned (R208); otherwise its effect. -/
def State.sRead (s : State) (sw : Bool) (rs : List SReg) (k : State → State) : State := if s.sPoi rs then s.sRaise sw .poison else k s

/-- The first check that fails raises its cause; the checks stand in the order of the cause codes (R10). -/
def State.sChecks (s : State) (sw : Bool) (cs : List (Bool × Cause)) (k : State) : State :=
  match cs.find? (·.1) with
  | some c => s.sRaise sw c.2
  | none => k

/-- A computation made for another group than the acting one. -/
def State.asGrp (s : State) (c g : Nat) (f : State → State) : State :=
  let r := f { s with core := c, slot := g }
  { r with core := s.core, slot := s.slot }

/-- A scalar instruction that only writes a register (R59). -/
def State.sCalc (s : State) (sw : Bool) (rd : SReg) (rs : List SReg) (x : Word) : State :=
  if s.sPoi rs then
    if s.grp.inLan then ((s.modG Group.suppress).wS rd 0 true).sDone sw else s.sRaise sw .poison
  else (s.wS rd x (s.sDrk rs)).sDone sw

/-- The scalar registers of results marked dark or not (R168). -/
def Group.markLate (dark : Bool) : List RDest → Group → Group
  | [], g => g
  | .s n _ :: ds, g => Group.markLate dark ds (g.setSDark n dark)
  | _ :: ds, g => Group.markLate dark ds g

/-- A result newly outstanding (R41). -/
def OutRes.of (lane : Bool) (ds : List RDest) (missed dark : Bool) : OutRes := ⟨lane, ds, missed, dark, false, false, none, none, false⟩

/-- A scalar instruction whose result is variable-latency: the result is outstanding until it returns (R41). -/
def State.sLate (s : State) (sw : Bool) (ds : List RDest) (dark missed : Bool) : State :=
  (s.modG fun g => { g.markLate dark ds with outs := g.outs ++ [OutRes.of false ds missed g.inLan] }).sDone sw

/-- What a lane instruction acts on: its PC, the active mask F and the execute mask E (R38, R120), its marker, and whether its threads have gone on
already (R315). -/
structure Lane where
  pc : Word
  f : List Nat
  e : List Nat
  sw : Bool
  stay : Bool
  deriving DecidableEq, Repr

/-- A thread's fault: cause, address, and whether its page is valid but not resident (R151). -/
structure TFault where
  t : Nat
  c : Cause
  fa : Word
  swap : Bool
  deriving DecidableEq, Repr

/-- The trap of a lane instruction as it will be recorded (R152, R315, R318, R339); LATE stays with a load done again. -/
def State.lTrap (s : State) (c : Cause) (fa : Word) (swap : Bool) (l : Word) (exec fmask : List Nat) (t : Nat) : TrapRec :=
  ⟨c, true, 0, s.grp.stays, true, s.grp.pc, l, fa, tmask exec, tmask fmask, BitVec.ofNat 8 t, 0, s.grp.pc, swap, false⟩

/-- Threads moved to a lane PC. -/
def Group.moveTo (g : Group) (ts : List Nat) (p : Word) : Group := ts.foldl (fun g t => g.modThr t fun x => { x with pc := p }) g

/-- An outstanding result once a later instruction of its stream has issued: the trap of a load whose data is bad is LATE (R315). -/
def OutRes.onward (o : OutRes) : OutRes := { o with pend := o.pend.map fun t => { t with late := true } }

/-- The group whose lane stream goes on; with S it parks (R41). -/
def Group.lGoes (g : Group) (sw : Bool) (now : Nat) : Group :=
  let g := { g.lanTick with redo := none, lWait := .none, outs := g.outs.map OutRes.onward }
  if sw && g.awaits true then { g with lPark := some now } else g

/-- A lane instruction completes; a stepped stream halts (R329). The threads have moved. -/
def State.lGo (s : State) (sw : Bool) : State := (s.modG fun g => g.lGoes sw s.now).stepHalt true

/-- A non-control lane instruction completes: every active thread advances (R120). -/
def State.lDone (s : State) (sw : Bool) (x : Lane) : State := (s.modG fun g => g.moveTo (if x.stay then [] else x.f) (lnext x.pc)).lGo sw
/-- A lane instruction is suppressed in lantern mode and counted (R169). -/
def State.lSuppress (s : State) (sw : Bool) (x : Lane) : State := (s.modG Group.suppress).lDone sw x
/-- A lane instruction stalls: it issues again later. -/
def State.lStall (s : State) (w : Wait) : State := s.modG fun g => { g with lWait := w }

/-- A lane instruction raises a cause as a whole, met first by thread `t`: no thread completed (R339). In lantern mode it is suppressed and
counted. -/
def State.lRaiseT (s : State) (x : Lane) (c : Cause) (fa : Word) (swap : Bool) (exec : List Nat) (t : Nat) : State :=
  if s.grp.inLan then
    if c == .ill then (s.modG Group.suppress).lanEnd else s.lSuppress x.sw x
  else s.deliver s.core s.slot (s.lTrap c fa swap x.pc exec exec t)
/-- The same, by the lowest thread. -/
def State.lRaise (s : State) (x : Lane) (c : Cause) (fa : Word) (swap : Bool) (exec : List Nat) : State :=
  s.lRaiseT x c fa swap exec ((exec.head?).getD 0)

/-- The fault a partially completed instruction records: the lowest code, at the lowest thread that bears it (R152). -/
def recorded : List TFault → Option TFault
  | [] => none
  | f :: fs => match recorded fs with
    | none => some f
    | some g => if f.c.code ≤ g.c.code then some f else some g

/-- A lane instruction ends with the faults of its threads: none, and it is done; otherwise the others advance and the trap records the
faulting mask (R152). -/
def State.lEnd (s : State) (sw : Bool) (x : Lane) (fs : List TFault) : State :=
  match recorded fs with
  | none => s.lDone sw x
  | some f =>
    if s.grp.inLan then s.lSuppress sw x
    else
      let bad := fs.map (·.t)
      let s := s.modG fun g => { g.moveTo (x.f.filter fun t => !x.stay && !bad.contains t) (lnext x.pc) with redo := none, lWait := .none }
      s.deliver s.core s.slot (s.lTrap f.c f.fa f.swap x.pc x.e (x.e.filter fun t => bad.contains t) f.t)

/-- The threads of a list whose guard holds (R38); in lantern mode a thread whose guard predicate is dark does not execute (R92). -/
def State.guarded (s : State) (h : LHdr) (f : List Nat) : List Nat :=
  f.filter fun t => s.rP t h.prd.toNat != h.neg && !s.grp.pDark t h.prd.toNat
/-- The guard predicate is dark in some active thread (R133). -/
def State.guardDark (s : State) (h : LHdr) (f : List Nat) : Bool := f.any fun t => s.grp.pDark t h.prd.toNat

/-- A lane instruction issues at the frontier under its guard; a poisoned guard predicate raises POISON for the active mask (R38, R120,
R208, R339), and in lantern mode leaves the destinations of a load dark, which `dark` does (R169). -/
def State.laneBy (s : State) (h : LHdr) (dark : State → Lane → State) (k : State → Lane → State) : State :=
  match s.grp.active with
  | none => s
  | some (pc, f) =>
    if f.any fun t => s.pBadR t h.prd.toNat then
      let x : Lane := ⟨pc, f, f, h.sw, s.grp.stays⟩
      (if s.grp.inLan then dark s x else s).lRaise x .poison 0 false f
    else k s ⟨pc, f, s.guarded h f, h.sw, s.grp.stays⟩
/-- A lane instruction that in lantern mode leaves its destinations as they were, and not dark, where its guard is poisoned, which R92 and R169 do not settle: the
model's choice, log entry 18. -/
def State.lane (s : State) (h : LHdr) (k : State → Lane → State) : State := s.laneBy h (fun s _ => s) k

/-- One result of a lane instruction written to its register. -/
def RegPlane.putDest (p : RegPlane) : RDest → RegPlane
  | .s n x => p.ws n x
  | .v t n x => p.wv t n x
  | .p t n x => p.wp t n x
/-- A result register marked dark or not (R168). -/
def Group.markDest (g : Group) (dark : Bool) : RDest → Group
  | .s n _ => g.setSDark n dark
  | .v t n _ => g.setVDark t n dark
  | .p t n _ => g.setPDark t n dark
/-- The thread of a result. -/
def RDest.thread : RDest → Nat
  | .s _ _ => 0
  | .v t _ _ => t
  | .p t _ _ => t
/-- A predicate result written into a poisoned predicate granule raises POISON (R208). -/
def RegPlane.destBad (p : RegPlane) : RDest → Bool
  | .p t n _ => n != 0 && p.pBad t
  | _ => false

/-- A lane instruction that writes, in each executing thread, results computed from that thread's sources: `bad` and `dark` say whether a
source of a thread is poisoned or dark; `slow` results are variable-latency (R41, R79, R152, R168, R208). -/
def State.lMap (s : State) (h : LHdr) (slow : Bool) (bad dark : Nat → Bool) (out : Nat → List RDest) : State :=
  s.lane h fun s x =>
    let w := s.grp.work
    let isBad := fun t => bad t || (out t).any w.destBad
    let good := x.e.filter fun t => !isBad t
    let ds := good.flatMap out
    let lan := s.grp.inLan
    -- dark: what a dark source or a dark guard leaves unknown (R92), and what a poisoned source does (R169)
    let drk := if lan then ((x.f.filter fun t => s.grp.pDark t h.prd.toNat || x.e.contains t && (isBad t || dark t)).flatMap out) else []
    let s := s.modG fun g =>
      let g := if slow then { g with outs := if ds.isEmpty then g.outs else g.outs ++ [OutRes.of true ds (lan && good.all dark) lan] }
        else g.modWork fun p => ds.foldl RegPlane.putDest p
      if lan then drk.foldl (fun g d => g.markDest true d) (ds.foldl (fun g d => g.markDest false d) g) else g
    s.lEnd h.sw x ((x.e.filter isBad).map fun t => ⟨t, .poison, 0, false⟩)

end Sys2Proof.Machine
end

