-- ==== Sys2Proof/Machine/Ladder.lean ====
section
/-!
DEFINITION. Sys2Proof/Machine/Ladder.lean: the format ladder: descriptors (R241 to R244), weight-buffer chunks (R265), one attempt of a step with its
monitors (R245 to R251), what a commit does to a tile (R252, R253), and the arithmetic of tiles (R271).
-/
namespace Sys2Proof.Machine

/-- A field of operand `o` of a descriptor, 0 for A and 1 for B (R243). -/
def opField (ws : List Word) (o lo n : Nat) : Nat := bits (dw ws (1 + 2 * o)) lo n
/-- SFMT of an operand. -/
def sfmtOf (ws : List Word) (o : Nat) : Nat := opField ws o 0 4
/-- BLK of an operand. -/
def blkOf (ws : List Word) (o : Nat) : Bool := opField ws o 4 1 == 1
/-- SCADDR of an operand. -/
def scAddr (ws : List Word) (o : Nat) : Nat := bits (dw ws (2 + 2 * o)) 0 32
/-- SCSTRIDE of an operand. -/
def scStride (ws : List Word) (o : Nat) : Nat := opField ws o 32 16
/-- START of a descriptor (R242). -/
def startOf (ws : List Word) : Nat := bits (dw ws 0) 9 2
/-- MAXR of a descriptor. -/
def maxrOf (ws : List Word) : Nat := bits (dw ws 0) 11 2
/-- A narrow source format (R246). -/
def narrowFmt (f : Nat) : Bool := f == 6 || f == 7
/-- The rung of a narrow source (R246). -/
def narrowRung (f : Nat) : Nat := if f = 6 then 1 else 0
/-- The conditions of R244 in its order, against the mode and exponent of a tile. -/
def descConds (ws : List Word) (flt : Bool) (e : BitVec 16) : List Bool :=
  let h := dw ws 0
  let fs := [sfmtOf ws 0, sfmtOf ws 1]
  let resv := fun (o : Nat) => opField ws o 5 3 != 0 || opField ws o 48 16 != 0 || bits (dw ws (2 + 2 * o)) 32 32 != 0
  [bits h 0 8 != 1,
   bits h 13 3 != 0 || bits h 34 14 != 0 || resv 0 || resv 1 || dw ws 5 != 0 || dw ws 6 != 0 || dw ws 7 != 0,
   [0, 1].any fun o => let f := sfmtOf ws o; !(f == 1 || f == 3 || narrowFmt f) || (blkOf ws o && narrowFmt f),
   maxrOf ws < startOf ws,
   h.getLsbD 8 && bits h 48 16 != 0,
   fs.any fun f => narrowFmt f && !(startOf ws == narrowRung f && maxrOf ws == narrowRung f),
   fs.all narrowFmt && sfmtOf ws 0 != sfmtOf ws 1,
   [0, 1].any fun o => !narrowFmt (sfmtOf ws o) && (scStride ws o != 0 || scAddr ws o != 0),
   h.getLsbD 8 != flt || bits h 48 16 != e.toNat]
/-- The number of the first condition of R244 that a descriptor meets, 0 where it is valid (R272). -/
def descCheck (ws : List Word) (flt : Bool) (e : BitVec 16) : Nat :=
  let cs := descConds ws flt e
  match findBelow (fun i => lget false cs i) cs.length with
  | some i => i + 1
  | none => 0

/-- Bytes of `n` elements of a source format (R263). -/
def elBytes (f n : Nat) : Nat :=
  match f with
  | 1 => 4 * n
  | 3 => 2 * n
  | 6 => n
  | _ => (n + 1) / 2
/-- Element `k` of packed elements from an offset on (R263). -/
def elAt (rd : Nat → Byte) (f base k : Nat) : Nat :=
  match f with
  | 1 => leNat ((span (base + 4 * k) 4).map rd)
  | 3 => leNat ((span (base + 2 * k) 2).map rd)
  | 6 => (rd (base + k)).toNat
  | _ => (rd (base + k / 2)).toNat / 16 ^ (k % 2) % 16

/-- The exponents of a ZRD chunk from its nibbles and escape bytes; none where one is out of range or the escapes do not match (R265). -/
def zrdExps : List Nat → List Nat → Nat → Option (List Nat)
  | [], [], _ => some []
  | [], _ :: _, _ => none
  | 15 :: ns, e :: es, _ => (zrdExps ns es e).map fun r => e :: r
  | 15 :: _, [], _ => none
  | n :: ns, es, x => if x + n < 7 || 262 < x + n then none else (zrdExps ns es (x + n - 7)).map fun r => (x + n - 7) :: r

/-- Elements put where a mask is set, zero elsewhere (R265). -/
def spread (mask : Nat) (xs : List Nat) : Nat → Nat → List Nat
  | 0, _ => []
  | k + 1, i => if mask.testBit i then (xs.head?).getD 0 :: spread mask xs.tail k (i + 1) else 0 :: spread mask xs k (i + 1)

/-- A chunk of the weight buffer expanded: its 64 elements and its bytes; none where it is invalid (R265). -/
def expand (rd : Nat → Byte) (f off : Nat) : Option (List Nat × Nat) :=
  let h := ofBytes64 ((span off 8).map rd)
  let mode := bits h 0 2
  let nesc := bits h 16 8
  let fits := fun (n : Nat) (els : List Nat) => let size := (n + 7) / 8 * 8
    if 0x100000 < off + size then none else some (els, size)
  if 0x100000 < off + 8 || mode == 3 || bits h 2 6 != 0 || bits h 24 40 != 0 || (mode != 2 && bits h 8 16 != 0) || (mode == 2 && narrowFmt f) then none
  else if mode = 0 then fits (8 + elBytes f 64) ((List.range 64).map (elAt rd f (off + 8)))
  else
    let mask := leNat ((span (off + 8) 8).map rd)
    let n := (bitsOf 64 mask).length
    if mode = 1 then fits (16 + elBytes f n) (spread mask ((List.range n).map (elAt rd f (off + 16))) 64 0)
    else
      let nb := off + 16
      let eb := nb + (n + 1) / 2
      let pb := eb + nesc
      let pw := if f = 1 then 3 else 1
      match zrdExps ((List.range n).map (elAt rd 7 nb)) ((span eb nesc).map fun o => (rd o).toNat) (bits h 8 8) with
      | none => none
      | some xs =>
        let el := fun (i : Nat) =>
          let p := leNat ((span (pb + pw * i) pw).map rd)
          let x := lget 0 xs i
          if f = 1 then p / 2 ^ 23 * 2 ^ 31 + x * 2 ^ 23 + p % 2 ^ 23 else p / 2 ^ 7 * 2 ^ 15 + x * 2 ^ 7 + p % 2 ^ 7
        fits (16 + (n + 1) / 2 + nesc + pw * n) (spread mask ((List.range n).map el) 64 0)

/-- One row of A or column of B brought to an integer rung: its codes as integers, the exponent of each half, none where it is NaN, and its
saturation and underflow events (R246 to R248). -/
structure IntVec where
  vals : List Int
  exps : List (Option Int)
  sat : Nat
  und : Nat

/-- An element coded as the outlier of its pair loses more than one half (R248). -/
def outlierLoss (e : Int) (p : FV × FV) : Bool :=
  let c := qxCode e p
  c.2 && !atMost (e - 1) (2 * lget 0 qxMag (lget 0 c.1 1 % 8) + 1) p.1
/-- A block quantised, with its events (R103, R246, R248). -/
def intBlock (i8 : Bool) (xs : List FV) : IntVec :=
  let q := quantise i8 xs
  let e : Int := (q.1 : Int) - 127
  let ints := codeInts i8 q.2
  if q.1 = 255 then ⟨ints, [none], 0, 0⟩
  else ⟨ints, [some e], if i8 then 0 else (pairs xs).countP (outlierLoss e), (xs.zip ints).countP fun p => !p.1.isZero && p.2 == 0⟩
/-- A row or column brought to rung 0, or to rung 1 under `i8` (R245, R246). -/
def intVec (i8 : Bool) (f : Nat) (blk : Bool) (els sc : List Nat) : IntVec :=
  if narrowFmt f then
    let ex := (List.range 2).map fun j => let g := lget 0 sc j; if g = 255 then none else some ((g : Int) - 127)
    ⟨codeInts i8 els, ex,
      if i8 then 0 else (List.range 2).foldl (fun n j => n + if (lget none ex j).isNone then 0
        else (pairs ((els.drop (32 * j)).take 32)).countP fun p => qxEvent p.1 p.2) 0, 0⟩
  else
    let xs := els.map fun c => (if f = 1 then fp32 else bf16).dec c
    if blk then let b := intBlock i8 xs; ⟨b.vals, b.exps ++ b.exps, b.sat, b.und⟩
    else
      let b := intBlock i8 (xs.take 32)
      let c := intBlock i8 (xs.drop 32)
      ⟨b.vals ++ c.vals, b.exps ++ c.exps, b.sat + c.sat, b.und + c.und⟩

/-- One element brought to rung 2 or 3: its value, and whether it saturates or underflows (R245, R248). Whether a finite FP32 element above the largest finite
BF16 that `rne` brings back to it counts as clamped R245 and R248 leave open: only one that would round to infinity does, the model's choice, log entry 77. -/
def floatEl (f rung c : Nat) : FV × Bool × Bool :=
  if f = 3 then (bf16.dec c, false, false)
  else if rung = 3 then (fp32.dec c, false, false)
  else
    let x := fp32.dec c
    let b := bf16.enc .rn x
    if !x.isFin then (bf16.dec b, false, false)
    else if b % 2 ^ 15 = 0x7F80 then (bf16.dec (b - 1), true, false)
    else (bf16.dec b, false, b % 2 ^ 15 == 0 && !x.isZero)

/-- What a step gives one output (R251). -/
inductive SOut where
  | nan
  /-- partials: integer factor and exponent -/
  | int (ps : List (Int × Int))
  | flo (x : FV)

/-- A sum rounded to FP64. -/
def add64 (x y : FV) : FV := fp64.dec (fp64.enc .rn (x.add .rn y))
/-- Sums of neighbours, level after level (R251). -/
def tree : Nat → List FV → FV
  | 0, xs => (xs.head?).getD (.fin false 0 0)
  | k + 1, xs => tree k ((pairs xs).map fun p => add64 p.1 p.2)
/-- The magnitude of a value. -/
def FV.mag : FV → FV
  | .nan => .nan
  | .inf _ => .inf false
  | .fin _ m e => .fin false m e

/-- An attempt of a step: the events in the order of R250's tests, and its outputs by active row. -/
structure Attempt where
  ev : List Nat
  outs : List (Nat × List SOut)

/-- A sum of products over a range of K. -/
def dot (xs ys : List Int) : Int := (xs.zip ys).foldl (fun n p => n + p.1 * p.2) 0
/-- The sum of the absolute products. -/
def dotAbs (xs ys : List Int) : Int := (xs.zip ys).foldl (fun n p => n + (p.1 * p.2).natAbs) 0

/-- One output at an integer rung, and whether it counts a cancellation (R249, R251). -/
def intOut (one : Bool) (c : Nat) (a b : IntVec) : SOut × Bool :=
  match a.exps, b.exps with
  | [some ea0, some ea1], [some eb0, some eb1] =>
    let lo := fun (v : IntVec) => v.vals.take 32
    let hi := fun (v : IntVec) => v.vals.drop 32
    let e0 := ea0 + eb0
    let e1 := ea1 + eb1
    let n0 := dot (lo a) (lo b)
    let n1 := dot (hi a) (hi b)
    let g := min e0 e1
    let s := n0 * 2 ^ (e0 - g).toNat + n1 * 2 ^ (e1 - g).toNat
    let t := dotAbs (lo a) (lo b) * 2 ^ (e0 - g).toNat + dotAbs (hi a) (hi b) * 2 ^ (e1 - g).toNat
    (.int (if one then [(n0 + n1, e0)] else [(n0, e0), (n1, e1)]), 0 < t && (s.natAbs : Int) * 2 ^ c < t)
  | _, _ => (.nan, false)
/-- One output at a float rung, and whether it counts a cancellation (R249, R251). -/
def floOut (c : Nat) (a b : List FV) : SOut × Bool :=
  let ps := (a.zip b).map fun p => p.1.mul p.2
  let s := tree 6 ps
  let t := tree 6 (ps.map FV.mag)
  (if s.isNan then .nan else .flo s, !t.isZero && FV.cmp (s.mag.scale c) t == some .lt)

/-- An attempt at a rung, of the rows of a mask (R248 to R251). -/
def attempt (ws : List Word) (o : StepOps) (mask : BitVec 32) (rung : Nat) : Attempt :=
  let rows := bitsOf 32 mask.toNat
  let c := bits (dw ws 0) 28 6
  let fa := sfmtOf ws 0
  let fb := sfmtOf ws 1
  let sum := fun (l : List Nat) => l.foldl (· + ·) 0
  if rung < 2 then
    let i8 := rung == 1
    let av := rows.map fun i => (i, intVec i8 fa (blkOf ws 0) (lget [] o.a i) (lget [] o.sa i))
    let bv := (List.range 32).map fun j => intVec i8 fb (blkOf ws 1) (lget [] o.b j) (lget [] o.sb j)
    let r := av.map fun a => (a.1, bv.map fun b => intOut (blkOf ws 0 && blkOf ws 1) c a.2 b)
    ⟨[sum (av.map (·.2.sat)), sum (bv.map (·.sat)), sum (av.map (·.2.und)), sum (bv.map (·.und)), sum (r.map fun x => x.2.countP (·.2))],
      r.map fun x => (x.1, x.2.map (·.1))⟩
  else
    let av := rows.map fun i => (i, (lget [] o.a i).map (floatEl fa rung))
    let bv := (List.range 32).map fun j => (lget [] o.b j).map (floatEl fb rung)
    let r := av.map fun a => (a.1, bv.map fun b => floOut c (a.2.map (·.1)) (b.map (·.1)))
    ⟨[sum (av.map fun x => x.2.countP (·.2.1)), sum (bv.map fun x => x.countP (·.2.1)), sum (av.map fun x => x.2.countP (·.2.2)),
        sum (bv.map fun x => x.countP (·.2.2)), sum (r.map fun x => x.2.countP (·.2))],
      r.map fun x => (x.1, x.2.map (·.1))⟩

/-- The budgets of a descriptor in the order of R250's tests. -/
def budgets (ws : List Word) : List Nat :=
  [opField ws 0 8 12, opField ws 1 8 12, opField ws 0 20 12, opField ws 1 20 12, bits (dw ws 0) 16 12]
/-- An attempt is over budget; a budget of 4,095 disables its test (R250). -/
def overBudget (ws : List Word) (ev : List Nat) : Bool := (ev.zip (budgets ws)).any fun p => p.2 != 4095 && p.2 < p.1

/-- The NaN code of FIX mode (R252). -/
def nanCode : Word := 0x8000000000000000
/-- An element's new value, whether it was clamped, and whether it is NaN or the NaN code (R252, R257). -/
abbrev El := Word × Bool × Bool
/-- An exact integer as a FIX element, clamped (R252). -/
def fixEl (v : Int) : El :=
  let hi : Int := 2 ^ 63 - 1
  if hi < v then (BitVec.ofInt 64 hi, true, false) else if v < -hi then (BitVec.ofInt 64 (-hi), true, false) else (BitVec.ofInt 64 v, false, false)
/-- An FP64 code as a FLT element. -/
def fltEl (c : Nat) : El := (BitVec.ofNat 64 c, false, (fp64.dec c).isNan)
/-- A number far beyond every bound of FIX mode. -/
def farInt (neg : Bool) : Int := if neg then -(2 ^ 70) else 2 ^ 70
/-- rne(x × 2^-E) as an integer; an infinity lies beyond every bound. -/
def fixOf (e : Int) : FV → Int
  | .nan => 0
  | .inf n => farInt n
  | .fin n m f => if m != 0 && 200 < f + m.log2 - e then farInt n else sgnInt n (roundQ .rn n m false f e)
/-- n × 2^(x - E) truncated toward -∞. -/
def floorTo (n x e : Int) : Int := if e ≤ x then n * 2 ^ (x - e).toNat else n / 2 ^ (e - x).toNat
/-- The sum of partials as an exact value (R253). -/
def partSum (ps : List (Int × Int)) : FV :=
  ps.foldl (fun x p => x.add .rn (.fin (p.1 < 0) p.1.natAbs p.2)) (.fin false 0 0)
/-- What a commit makes of one element (R252, R253). -/
def commitEl (flt : Bool) (e : Int) (old : Word) (o : SOut) : El :=
  if flt then
    let add := fun (s : FV) => fltEl (fp64.addC .rn old.toNat (fp64.enc .rn s))
    match o with
    | .nan => fltEl fp64.nan
    | .flo s => add s
    | .int ps => add (partSum ps)
  else if old == nanCode then (nanCode, false, true)
  else match o with
    | .nan => (nanCode, false, true)
    | .flo s => fixEl (old.toInt + fixOf e s)
    | .int ps => fixEl (ps.foldl (fun v p => v + floorTo p.1 p.2 e) old.toInt)

/-- The sum of two elements (R271). -/
def addEl (flt : Bool) (x y : Word) : El :=
  if flt then fltEl (fp64.addC .rn x.toNat y.toNat)
  else if x == nanCode || y == nanCode then (nanCode, false, true) else fixEl (x.toInt + y.toInt)
/-- An element times 2^k (R271). -/
def sclEl (flt : Bool) (k : Int) (x : Word) : El :=
  if flt then fltEl (fp64.enc .rn ((fp64.dec x.toNat).scale k))
  else if x == nanCode then (nanCode, false, true)
  else fixEl (fixOf 0 ((FV.ofInt x.toInt).scale k))
/-- An element converted from one mode and exponent to another (R271). R271 gives no conversion of FLT to FLT: the bits stay as they are, the model's choice,
log entry 81. -/
def cvtEl (flt0 : Bool) (e0 : Int) (flt : Bool) (e : Int) (x : Word) : El :=
  if flt0 then
    let v := fp64.dec x.toNat
    if flt then (x, false, v.isNan) else if v.isNan then (nanCode, false, true) else fixEl (fixOf e v)
  else if x == nanCode then (if flt then fltEl fp64.nan else (nanCode, false, true))
  else if flt then fltEl (fp64.enc .rn ((FV.ofInt x.toInt).scale e0))
  else fixEl (fixOf (e - e0) (FV.ofInt x.toInt))

end Sys2Proof.Machine
end

