-- ==== Sys2Proof/WellFormed.lean ====
section
/-!
DEFINITION. Sys2Proof/WellFormed.lean: which instructions a word may stand for. What fails a check here raises ILL at decode (R43).
-/
namespace Sys2Proof

/-- The guard (!p0) raises ILL (R38). -/
def LHdr.ok (h : LHdr) : Bool := !(h.neg && h.prd == 0)

/-- An even vector register below v63: the destination of a 64-bit result (R36). -/
def evenV (n : VReg) : Bool := n.toNat % 2 == 0

/-- A source that a 64-bit position may name: an odd vector register may not stand there (R36). -/
def Sel.ok64 : Sel → Bool
  | .v n => evenV n
  | _ => true

/-- The source is the imm32 field. -/
def Sel.isImm : Sel → Bool
  | .imm => true
  | _ => false

/-- A data operand of a store or atomic with a direct offset: not the imm32 field (R37), and an even register where 64 bits are read. R144 lists no predicate
for it; one that is selected is read as 0 or 1 as in any 32-bit position, the model's choice, log entry 80. -/
def Sel.okData (dw : Bool) (x : Sel) : Bool := !x.isImm && (!dw || x.ok64)

/-- A source with one value for all threads: a captured operand, the imm32 field or an inline constant (R260). -/
def Sel.uniform : Sel → Bool
  | .v _ => false
  | .p _ => false
  | _ => true

/-- The imm32 field is zero unless some operand selects it (R37). -/
def immOk (imm : BitVec 32) (xs : List Sel) : Bool := imm == 0 || xs.any Sel.isImm

/-- A predicate destination is p1 to p7 (R35). -/
def Dst.ok : Dst → Bool
  | .v _ => true
  | .p n => n != 0

/-- The destination is a vector register. -/
def Dst.isV : Dst → Bool
  | .v _ => true
  | .p _ => false

/-- An address operand in a 64-bit position (R36). -/
def ASel.ok64 : ASel → Bool
  | .v n => evenV n
  | _ => true

/-- A strong scope, 1 to 5 (R32). -/
def Scope.strong : Scope → Bool
  | .weak => false
  | _ => true

/-- A scope a scratchpad access may carry: weak, .g, .t or .k (R144). -/
def Scope.spad : Scope → Bool
  | .d => false
  | .s => false
  | _ => true

/-- The orders of a load: weak with .rlx, or strong with .rlx or .acq (R32). -/
def loadOrd (o : Order) (x : Scope) : Bool := match o with
  | .rlx => true
  | .acq => x.strong
  | _ => false

/-- The orders of a store: weak with .rlx, or strong with .rlx or .rel (R32). -/
def storeOrd (o : Order) (x : Scope) : Bool := match o with
  | .rlx => true
  | .rel => x.strong
  | _ => false

/-- How many significand bits a format keeps: a conversion to more bits of range and precision widens (R74, R111). -/
def FFmt.widens : FFmt → FFmt → Bool
  | .s, .h => true
  | .s, .bf => true
  | .d, .s => true
  | .d, .h => true
  | .d, .bf => true
  | _, _ => false

/-- A conversion changes the format, and a widening one carries rounding code 0 (R74, R111). -/
def cvtOk (tgt frm : FFmt) (rm : Rm) : Bool := tgt != frm && (!FFmt.widens tgt frm || rm == .rn)

/-- The register of a plane command is used by the domains that take a mask or range; elsewhere it is zero (R202). -/
def Dom.takesRun (ra : SReg) : Dom → Bool
  | .acc => true
  | .pane => true
  | _ => ra == 0

/-- How many registers a vector form names. -/
def VecN.count : VecN → Nat
  | .v2 => 2
  | .v4 => 4

/-- The register run of a vector form starts at a multiple of its count (R142). -/
def VecN.fits (k : VecN) (n : VReg) : Bool := n.toNat % k.count == 0

/-- The operands of a compare-and-swap: the compare and the swap value in consecutive registers, or in consecutive pairs from a multiple of 4
(R187). -/
def casOk (dw : Bool) (c : VReg) : Bool := if dw then c.toNat % 4 == 0 else c.toNat ≤ 0x3E

/-- A special register that `lsrd` may read: its number and element are listed (R73, R89). -/
def specialOk (num : BitVec 8) (elem : BitVec 4) : Bool := num.toNat ≤ 0x10 && (elem == 0 || (num == 0x0F && elem.toNat ≤ 4))

/-- The instruction is one that a word stands for. -/
def wellFormed : Instr → Bool
  | .nop _ => true
  | .add _ _ _ _ => true
  | .sub _ _ _ _ => true
  | .mul _ _ _ _ => true
  | .mulhu _ _ _ _ => true
  | .mulhs _ _ _ _ => true
  | .divu _ _ _ _ => true
  | .divs _ _ _ _ => true
  | .remu _ _ _ _ => true
  | .rems _ _ _ _ => true
  | .and _ _ _ _ => true
  | .or _ _ _ _ => true
  | .xor _ _ _ _ => true
  | .andn _ _ _ _ => true
  | .shl _ _ _ _ => true
  | .shr _ _ _ _ => true
  | .sar _ _ _ _ => true
  | .minu _ _ _ _ => true
  | .mins _ _ _ _ => true
  | .maxu _ _ _ _ => true
  | .maxs _ _ _ _ => true
  | .clz _ _ _ => true
  | .ctz _ _ _ => true
  | .popc _ _ _ => true
  | .bext _ _ _ _ _ => true
  | .bins _ _ _ _ => true
  | .cmp _ _ _ _ _ => true
  | .csel _ _ _ _ _ => true
  | .addi _ _ _ _ => true
  | .andi _ _ _ _ => true
  | .ori _ _ _ _ => true
  | .xori _ _ _ _ => true
  | .shli _ _ _ _ => true
  | .shri _ _ _ _ => true
  | .sari _ _ _ _ => true
  | .cmpi _ _ _ _ _ => true
  | .li _ _ _ => true
  | .lih _ _ _ => true
  | .lea _ _ _ _ _ => true
  | .addpc _ _ _ => true
  | .b _ _ => true
  | .bc _ _ _ _ => true
  | .loop _ ra _ => ra != 0
  | .call _ _ => true
  | .ret _ _ => true
  | .jr _ _ => true
  | .lgo _ _ cbase count => count.toNat ≤ 8 && cbase.toNat + count.toNat ≤ 64
  | .ljoin _ => true
  | .lpop _ _ => true
  | .wait _ _ _ => true
  | .yield _ => true
  | .exit _ => true
  | .bar _ _ => true
  | .srd _ _ _ _ => true
  | .swr _ _ _ _ => true
  | .sleep _ _ _ => true
  | .sld _ _ _ _ ord scope _ => loadOrd ord scope
  | .sst _ _ _ _ ord scope _ => storeOrd ord scope
  | .sldp _ rd _ _ _ => rd.toNat ≤ 62
  | .sstp _ rd _ _ _ => rd.toNat ≤ 62
  | .satom _ _ _ _ _ _ scope => scope.strong
  | .scas _ rd _ _ _ scope => scope.strong && rd.toNat ≤ 62
  | .fence _ ord scope => scope.strong && ord != .rlx
  | .cinv _ _ _ scope _ => scope.strong
  | .ccln _ _ _ scope _ => scope.strong
  | .pref _ _ _ _ _ => true
  | .flip _ dom mode _ ra => Dom.takesRun ra dom && (mode != .flow || dom == .pane)
  | .pfree _ dom mode mv ra => Dom.takesRun ra dom && dom != .clus && mode != .flow && (mv == .none || dom == .pane)
  | .pstat _ dom _ _ => dom != .core && dom != .clus
  | .xfer _ ra _ => ra.toNat + 4 ≤ 64
  | .xcvt _ ra _ => ra.toNat + 4 ≤ 64
  | .xfill _ ra _ => ra.toNat + 4 ≤ 64
  | .xgath _ ra _ => ra.toNat + 4 ≤ 64
  | .xred _ ra _ => ra.toNat + 4 ≤ 64
  | .xbcst _ ra _ => ra.toNat + 4 ≤ 64
  | .xagree _ ra _ => ra.toNat + 4 ≤ 64
  | .xcanc _ _ => true
  | .xstat _ _ _ ra _ => ra.toNat + 2 ≤ 64
  | .launch _ _ ra _ => ra.toNat + 2 ≤ 64
  | .gsig _ ra => ra.toNat + 2 ≤ 64
  | .tstat _ self clr ra wick => ra.toNat + 2 ≤ 64 && (!self || (!clr && wick == 0))
  | .tabort _ _ => true
  | .semsig _ scope ra => scope.strong && ra.toNat + 2 ≤ 64
  | .semwait _ _ scope ra => scope.strong && ra.toNat + 2 ≤ 64
  | .trap _ _ => true
  | .assert _ _ _ => true
  | .phint _ _ => true
  | .tret _ => true
  | .brk _ _ => true
  | .sysr _ _ _ => true
  | .sysw _ _ _ => true
  | .kzero _ _ => true
  | .scrub _ _ _ => true
  | .tlbi _ kind ra => (match kind with | .va => ra.toNat + 2 ≤ 64 | .part => true | .all => ra == 0)
  | .cctl _ _ _ => true
  | .vbrep _ _ => true
  | .sfadd _ _ _ _ _ _ => true
  | .sfsub _ _ _ _ _ _ => true
  | .sfmul _ _ _ _ _ _ => true
  | .sffma _ _ _ _ _ _ => true
  | .sfmin _ _ _ _ _ => true
  | .sfmax _ _ _ _ _ => true
  | .sfcmp _ _ _ _ _ _ => true
  | .sfcvt _ tgt frm rm _ _ => cvtOk tgt frm rm
  | .sf2i _ _ _ _ _ _ => true
  | .si2f _ _ _ _ _ _ => true
  | .sfabs _ _ _ _ => true
  | .sfneg _ _ _ _ => true
  | .sfrcp _ _ _ _ _ => true
  | .sfsqrt _ _ _ _ _ => true
  | .sfdiv _ _ _ _ _ _ => true
  | .sfround _ _ _ _ _ => true
  | .lnop _ => true
  | .iadd h _ a b imm => h.ok && immOk imm [a, b]
  | .isub h _ a b imm => h.ok && immOk imm [a, b]
  | .imul h _ a b imm => h.ok && immOk imm [a, b]
  | .imad h _ a b c imm => h.ok && immOk imm [a, b, c]
  | .imulh h _ _ a b imm => h.ok && immOk imm [a, b]
  | .iabs h _ a imm => h.ok && immOk imm [a]
  | .imin h _ _ a b imm => h.ok && immOk imm [a, b]
  | .imax h _ _ a b imm => h.ok && immOk imm [a, b]
  | .laneAnd h _ a b imm => h.ok && immOk imm [a, b]
  | .laneOr h _ a b imm => h.ok && immOk imm [a, b]
  | .laneXor h _ a b imm => h.ok && immOk imm [a, b]
  | .not h _ a imm => h.ok && immOk imm [a]
  | .laneShl h _ a b imm => h.ok && immOk imm [a, b]
  | .laneShr h _ a b imm => h.ok && immOk imm [a, b]
  | .laneSar h _ a b imm => h.ok && immOk imm [a, b]
  | .dsh h _ _ a b c imm => h.ok && immOk imm [a, b, c]
  | .bfe h _ _ a b imm => h.ok && immOk imm [a, b]
  | .bfi h _ a b c imm => h.ok && immOk imm [a, b, c]
  | .lanePopc h _ a imm => h.ok && immOk imm [a]
  | .laneClz h _ a imm => h.ok && immOk imm [a]
  | .brev h _ a imm => h.ok && immOk imm [a]
  | .perm h _ a b c imm => h.ok && immOk imm [a, b, c]
  | .plut h form _ a b c imm => h.ok && b.ok64 && c.ok64 && (form != .nib || c == .v 0) && immOk imm [a, b, c]
  | .icmp h _ d a b imm => h.ok && d.ok && immOk imm [a, b]
  | .sel h _ a b c imm => h.ok && immOk imm [a, b, c]
  | .mov h _ a imm => h.ok && immOk imm [a]
  | .idot4 h _ _ a b c imm => h.ok && immOk imm [a, b, c]
  | .prev h _ a b imm => h.ok && immOk imm [a, b]
  | .next h _ a b imm => h.ok && immOk imm [a, b]
  | .pick h _ _ a b c imm => h.ok && immOk imm [a, b, c]
  | .rdfl h _ a imm => h.ok && immOk imm [a]
  | .vote h mode d a imm => h.ok && d.ok && (mode != .ballot || d.isV) && immOk imm [a]
  | .gred h _ _ a imm => h.ok && immOk imm [a]
  | .gscan h _ _ _ a imm => h.ok && immOk imm [a]
  | .plog h _ d a b c imm => h.ok && d.ok && immOk imm [a, b, c]
  | .lsrd h _ num elem _ => h.ok && specialOk num elem
  | .lpush h dw a imm => h.ok && (!dw || a.ok64) && immOk imm [a]
  | .ipack h _ _ _ _ a b imm => h.ok && immOk imm [a, b]
  | .iext h _ _ _ a b imm => h.ok && immOk imm [a, b]
  | .fadd h _ _ _ a b imm => h.ok && immOk imm [a, b]
  | .fsub h _ _ _ a b imm => h.ok && immOk imm [a, b]
  | .fmul h _ _ _ a b imm => h.ok && immOk imm [a, b]
  | .ffma h _ _ _ a b c imm => h.ok && immOk imm [a, b, c]
  | .fmin h _ _ a b imm => h.ok && immOk imm [a, b]
  | .fmax h _ _ a b imm => h.ok && immOk imm [a, b]
  | .fabs h _ a imm => h.ok && immOk imm [a]
  | .fneg h _ a imm => h.ok && immOk imm [a]
  | .fcmp h _ _ d a b imm => h.ok && d.ok && immOk imm [a, b]
  | .fclass h fmt _ a imm => h.ok && (fmt != .d || a.ok64) && immOk imm [a]
  | .frcp h _ _ _ a imm => h.ok && immOk imm [a]
  | .frsq h _ _ _ a imm => h.ok && immOk imm [a]
  | .fsqrt h _ _ _ a imm => h.ok && immOk imm [a]
  | .fdiv h _ _ _ a b imm => h.ok && immOk imm [a, b]
  | .fexp2 h _ _ _ a imm => h.ok && immOk imm [a]
  | .flog2 h _ _ _ a imm => h.ok && immOk imm [a]
  | .fround h _ _ _ a imm => h.ok && immOk imm [a]
  | .fscale h _ _ _ a b imm => h.ok && immOk imm [a, b]
  | .fgetexp h _ _ a imm => h.ok && immOk imm [a]
  | .f2i h _ _ _ a imm => h.ok && immOk imm [a]
  | .i2f h _ _ _ a imm => h.ok && immOk imm [a]
  | .fcvt h tgt frm rm d a imm => h.ok && cvtOk tgt frm rm && (frm != .d || a.ok64) && (tgt != .d || evenV d) && immOk imm [a]
  | .fpack2 h _ _ _ a b imm => h.ok && immOk imm [a, b]
  | .hadd2 h _ _ _ a b imm => h.ok && immOk imm [a, b]
  | .hmul2 h _ _ _ a b imm => h.ok && immOk imm [a, b]
  | .hfma2 h _ _ _ a b c imm => h.ok && immOk imm [a, b, c]
  | .qpack h _ fix d a b imm => h.ok && evenV d && (fix || b == .v 0) && immOk imm [a, b]
  | .qunpack h _ _ a b c imm => h.ok && immOk imm [a, b, c]
  | .f8pack h _ _ _ _ _ a b c imm => h.ok && immOk imm [a, b, c]
  | .f8unpack h _ _ a b imm => h.ok && immOk imm [a, b]
  | .dadd h _ d a b imm => h.ok && evenV d && a.ok64 && b.ok64 && immOk imm [a, b]
  | .dfma h _ d a b c imm => h.ok && evenV d && a.ok64 && b.ok64 && c.ok64 && immOk imm [a, b, c]
  | .lbr h _ => h.ok
  | .ljmp h a imm => h.ok && immOk imm [a]
  | .lcall h _ => h.ok
  | .lret h => h.ok
  | .lend h => h.ok
  | .lkill h => h.ok
  | .lmask h _ d a imm => h.ok && d != 0 && immOk imm [a]
  | .lassert h a b imm => h.ok && b.ok64 && immOk imm [a, b]
  | .ldg h size sx ord scope d _ _ _ => h.ok && loadOrd ord scope && (!sx || size == .b || size == .h) && (size != .d || evenV d)
  | .stg h size ord scope _ _ c _ => h.ok && storeOrd ord scope && Sel.okData (size == .d) c
  | .ldgx h size sx ord scope d a _ => h.ok && loadOrd ord scope && (!sx || size == .b || size == .h) && (size != .d || evenV d) && a.ok64
  | .stgx h size ord scope a c _ => h.ok && storeOrd ord scope && Sel.okData (size == .d) c && a.ok64
  | .ldgv h cnt d _ _ _ => h.ok && cnt.fits d
  | .stgv h cnt _ _ c _ => h.ok && cnt.fits c
  | .lds h size sx ord scope d _ _ => h.ok && loadOrd ord scope && (!sx || size == .b || size == .h) && (size != .d || evenV d) && scope.spad
  | .sts h size ord scope _ c _ => h.ok && storeOrd ord scope && Sel.okData (size == .d) c && scope.spad
  | .ldsb h cnt d _ _ => h.ok && cnt.fits d
  | .stsb h cnt _ c _ => h.ok && cnt.fits c
  | .atomg h dw _ _ scope d _ _ c _ => h.ok && scope.strong && (!dw || evenV d) && Sel.okData dw c
  | .casg h dw _ scope d _ _ c _ => h.ok && scope.strong && (!dw || evenV d) && casOk dw c
  | .atomgx h dw _ _ scope d a c _ => h.ok && scope.strong && (!dw || evenV d) && Sel.okData dw c && a.ok64
  | .redg h dw _ ord scope _ _ c _ => h.ok && scope.strong && (ord == .rlx || ord == .rel) && Sel.okData dw c
  | .atoms h dw _ _ scope d _ c _ => h.ok && scope.strong && (!dw || evenV d) && Sel.okData dw c && scope.spad
  | .cass h dw _ scope d _ c _ => h.ok && scope.strong && (!dw || evenV d) && casOk dw c && scope.spad
  | .prefg h _ _ _ _ _ => h.ok
  | .ldbc h size sx ord scope d _ _ => h.ok && loadOrd ord scope && (!sx || size == .b || size == .h) && (size != .d || evenV d)
  | .stgm h dw a b c _ => h.ok && Sel.okData dw c && a.ok64 && !b.isImm
  | .pchk h _ d a _ => h.ok && d != 0 && a.ok64
  | .mma h _ _ _ _ _ _ => h.ok
  | .mzero h flt _ e => h.ok && (!flt || e == 0)
  | .mld h _ _ _ _ _ => h.ok
  | .mst h _ _ _ _ _ => h.ok
  | .madd h _ _ _ => h.ok
  | .mcvt h flt _ e => h.ok && (!flt || e == 0)
  | .mscl h _ a imm => h.ok && immOk imm [a]
  | .mfmt h _ _ _ => h.ok
  | .mstat h flg d n => h.ok && (flg || (n.toNat ≤ 11 && evenV d))
  | .wsel h a imm => h.ok && a.uniform && immOk imm [a]
  | .mtrans h _ _ => h.ok
  | .mglow h _ => h.ok
  | .lxRfetch _ _ _ => true
  | .lxBfx _ _ _ _ => true
  | .lxSwait _ _ _ => true
  | .lxDisp _ _ _ => true
  | .lxBind _ _ _ => true
  | .lxSwaitTimeout _ => true
  | .launchPacket _ => true
  | .graphPacket _ => true
  | .signalPacket _ => true
  | .nopPacket _ => true
  | .linkPacket _ => true
  | .resumePacket _ => true
  | .packetFetchRetry _ => true
  | .doorbellWrite _ _ => true
  | .eventQueueRdWrite _ _ => true
  | .queueEnable _ _ _ => true
  | .queueNextWrite _ _ _ => true
  | .boundFieldResolve _ => true
  | .launchUnitRelease _ _ => true
  | .laneBlockStart _ _ => true
  | .variableResultReturn _ _ _ => true
  | .sleepExpiry _ _ => true
  | .semwaitRecheck _ _ => true
  | .homeRevoke _ _ => true
  | .wprWrite _ _ _ => true
  | .wprChangeComplete _ => true
  | .trapvecWrite _ _ _ => true
  | .lanternEntry _ _ => true
  | .lanternCheckpointDone _ _ => true
  | .lanternInstrLimit _ _ => true
  | .lanternRestoreDone _ _ => true
  | .itemDispatch _ => true
  | .itemRetire _ _ => true
  | .itemTimeout _ _ _ => true
  | .cancelRetire _ _ _ => true
  | .collectivePeerFail _ _ _ => true
  | .flipExchange _ _ => true
  | .clusterFlipAck _ _ => true
  | .clusterFlipExchange _ => true
  | .matrixQueueExecute _ => true
  | .mmaReachEngine _ => true
  | .mmaStepFetchDone _ => true
  | .mmaAttemptEnd _ => true
  | .mmaRetire _ _ => true
  | .tileMoveDone _ _ => true
  | .dimmerTick _ => true
  | .glowHoldExpiry _ => true
  | .dimRampWrite _ _ => true
  | .trapEntry _ _ => true
  | .debugHalt _ _ => true
  | .dbgContinue _ => true
  | .supervisorKill _ => true
  | .partitionReset _ => true
  | .watchdogExpiry _ => true
  | .preemptionRequest _ _ => true
  | .preemptDeadline _ _ => true
  | .teamSave _ _ => true
  | .teamRestore _ _ => true
  | .contextSwap _ _ => true
  | .pageFaultSwap _ _ => true
  | .launchCommit _ => true
  | .shadowMerge _ _ => true
  | .shadowFree _ _ => true
  | .quotaGrant _ => true
  | .partMapWrite _ _ => true
  | .clusterWipeDone _ => true
  | .clusterPowerUpDone _ => true
  | .keySlotSelect _ _ => true
  | .keySlotLoad _ _ _ => true
  | .keySlotZero _ => true
  | .snufferCoreWipeDone _ => true
  | .snufferFrameDone _ => true
  | .vbusStatWrite _ _ _ => true
  | .brusNodeWrite _ => true
  | .sysregWrite _ _ _ _ => true
  | .vbusLaneFailure _ _ _ => true
  | .driftRetrain _ _ => true
  | .dramPatrol _ _ _ => true
  | .sramPatrol _ _ _ _ _ _ => true
  | .telemetryRefresh _ _ _ => true
  | .layerGate _ => true
  | .layerWakeDone _ => true
  | .powerCapStep _ _ => true
  | .inputUndervoltage _ => true
  | .undervoltagePowerDown => true
  | .overvoltageDisconnect => true
  | .linkDown _ _ => true
  | .linkCrcRetry _ _ _ => true
  | .walltime1pps _ => true
  | .mctpMessage _ => true
  | .firmwareLiveUpdate _ _ => true
  | .coldReset => true
  | .warmReset => true
  | .lamplighterDeviceAccess _ _ => true
  | .inboundPeerOrHostWrite _ _ => true
  | .homeAcknowledgement _ _ _ => true
  | .lxTimerSignal _ => true
  | .linkTrained _ _ _ => true
  | .inputVoltageRestored _ => true

end Sys2Proof
end

