-- ==== Sys2Proof/Decode.lean ====
section
/-!
DEFINITION. Sys2Proof/Decode.lean: what a word stands for (R29 to R43, R46 to R48, R354), total on any bytes, and the words of an instruction.
Words are numbers whose bit 0 is bit 0 of the lowest-addressed byte.
-/
namespace Sys2Proof

/-- Why bytes stand for no instruction; each raises ILL (R43), the last an RISC-V illegal-instruction exception on a Lamplighter core (R354). -/
inductive Reject where
  /-- an unassigned opcode -/
  | opcode
  /-- a nonzero reserved or unused field -/
  | field
  /-- a selector or code that names nothing -/
  | value
  /-- operands that the instruction's rules exclude -/
  | operands
  /-- not the number of bytes of a word of the class -/
  | length
  deriving DecidableEq, Repr

/-- The `n` bits of `w` from bit `lo`. -/
def fld (w lo n : Nat) : Nat := w / 2 ^ lo % 2 ^ n

/-- Bit `lo` of `w`. -/
def flag (w lo : Nat) : Bool := fld w lo 1 == 1

/-- The `n` bits of `w` from bit `lo` as a bit vector. -/
def bv (n w lo : Nat) : BitVec n := BitVec.ofNat n (fld w lo n)

/-- The marker and guard of a lane word (R34). -/
def hdr (w : Nat) : LHdr := ⟨flag w 95, flag w 86, bv 3 w 83⟩

/-- A selector that must be a captured operand (R142). -/
def numC (k : Nat) : Option (BitVec 3) :=
  if 0x40 ≤ k then (if k < 0x48 then some (BitVec.ofNat 3 k) else none) else none

/-- A selector that must be a vector register (R35). -/
def numV (k : Nat) : Option VReg := if k < 0x40 then some (BitVec.ofNat 6 k) else none

/-- A destination selector that must be a predicate (R35). -/
def numP (k : Nat) : Option (BitVec 3) :=
  if 0x48 ≤ k then (if k < 0x50 then some (BitVec.ofNat 3 k) else none) else none

/-- A word from its fields: pairs of a field's lowest bit and its value. -/
def pack : List (Nat × Nat) → Nat
  | [] => 0
  | f :: fs => f.2 * 2 ^ f.1 + pack fs

/-- An instruction from a word whose fixed fields hold what they must, and whose operands its rules allow. -/
def build (fixed : Bool) (r : Option Instr) : Except Reject Instr :=
  if fixed then
    match r with
    | some i => if wellFormed i then .ok i else .error .operands
    | none => .error .value
  else .error .field

/-- What a scalar word stands for (R29, R46, R47), opcodes 0x00 to 0x0F. -/
def decodeScalar0 (w : Nat) : Nat → Except Reject Instr
  | 0 => build (fld w 0 24 == 0) (some (.nop (flag w 31)))
  | 1 => build (fld w 0 6 == 0) (some (.add (flag w 31) (bv 6 w 18) (bv 6 w 12) (bv 6 w 6)))
  | 2 => build (fld w 0 6 == 0) (some (.sub (flag w 31) (bv 6 w 18) (bv 6 w 12) (bv 6 w 6)))
  | 3 => build (fld w 0 6 == 0) (some (.mul (flag w 31) (bv 6 w 18) (bv 6 w 12) (bv 6 w 6)))
  | 4 => build (fld w 0 6 == 0) (some (.mulhu (flag w 31) (bv 6 w 18) (bv 6 w 12) (bv 6 w 6)))
  | 5 => build (fld w 0 6 == 0) (some (.mulhs (flag w 31) (bv 6 w 18) (bv 6 w 12) (bv 6 w 6)))
  | 6 => build (fld w 0 6 == 0) (some (.divu (flag w 31) (bv 6 w 18) (bv 6 w 12) (bv 6 w 6)))
  | 7 => build (fld w 0 6 == 0) (some (.divs (flag w 31) (bv 6 w 18) (bv 6 w 12) (bv 6 w 6)))
  | 8 => build (fld w 0 6 == 0) (some (.remu (flag w 31) (bv 6 w 18) (bv 6 w 12) (bv 6 w 6)))
  | 9 => build (fld w 0 6 == 0) (some (.rems (flag w 31) (bv 6 w 18) (bv 6 w 12) (bv 6 w 6)))
  | 10 => build (fld w 0 6 == 0) (some (.and (flag w 31) (bv 6 w 18) (bv 6 w 12) (bv 6 w 6)))
  | 11 => build (fld w 0 6 == 0) (some (.or (flag w 31) (bv 6 w 18) (bv 6 w 12) (bv 6 w 6)))
  | 12 => build (fld w 0 6 == 0) (some (.xor (flag w 31) (bv 6 w 18) (bv 6 w 12) (bv 6 w 6)))
  | 13 => build (fld w 0 6 == 0) (some (.andn (flag w 31) (bv 6 w 18) (bv 6 w 12) (bv 6 w 6)))
  | 14 => build (fld w 0 6 == 0) (some (.shl (flag w 31) (bv 6 w 18) (bv 6 w 12) (bv 6 w 6)))
  | 15 => build (fld w 0 6 == 0) (some (.shr (flag w 31) (bv 6 w 18) (bv 6 w 12) (bv 6 w 6)))
  | _ => .error .opcode

/-- What a scalar word stands for (R29, R46, R47), opcodes 0x10 to 0x1F. -/
def decodeScalar1 (w : Nat) : Nat → Except Reject Instr
  | 0 => build (fld w 0 6 == 0) (some (.sar (flag w 31) (bv 6 w 18) (bv 6 w 12) (bv 6 w 6)))
  | 1 => build (fld w 0 6 == 0) (some (.minu (flag w 31) (bv 6 w 18) (bv 6 w 12) (bv 6 w 6)))
  | 2 => build (fld w 0 6 == 0) (some (.mins (flag w 31) (bv 6 w 18) (bv 6 w 12) (bv 6 w 6)))
  | 3 => build (fld w 0 6 == 0) (some (.maxu (flag w 31) (bv 6 w 18) (bv 6 w 12) (bv 6 w 6)))
  | 4 => build (fld w 0 6 == 0) (some (.maxs (flag w 31) (bv 6 w 18) (bv 6 w 12) (bv 6 w 6)))
  | 5 => build (fld w 6 6 == 0 && fld w 0 6 == 0) (some (.clz (flag w 31) (bv 6 w 18) (bv 6 w 12)))
  | 6 => build (fld w 6 6 == 0 && fld w 0 6 == 0) (some (.ctz (flag w 31) (bv 6 w 18) (bv 6 w 12)))
  | 7 => build (fld w 6 6 == 0 && fld w 0 6 == 0) (some (.popc (flag w 31) (bv 6 w 18) (bv 6 w 12)))
  | 8 => build (fld w 1 5 == 0) (some (.bext (flag w 31) (flag w 0) (bv 6 w 18) (bv 6 w 12) (bv 6 w 6)))
  | 9 => build (fld w 0 6 == 0) (some (.bins (flag w 31) (bv 6 w 18) (bv 6 w 12) (bv 6 w 6)))
  | 10 => build (fld w 4 2 == 0) ((Cond.ofCode (fld w 0 4)).bind fun cc => some (.cmp (flag w 31) cc (bv 6 w 18) (bv 6 w 12) (bv 6 w 6)))
  | 11 => build (true) (some (.csel (flag w 31) (bv 6 w 18) (bv 6 w 12) (bv 6 w 6) (bv 6 w 0)))
  | 12 => build (true) (some (.addi (flag w 31) (bv 6 w 18) (bv 6 w 12) (bv 12 w 0)))
  | 13 => build (true) (some (.andi (flag w 31) (bv 6 w 18) (bv 6 w 12) (bv 12 w 0)))
  | 14 => build (true) (some (.ori (flag w 31) (bv 6 w 18) (bv 6 w 12) (bv 12 w 0)))
  | 15 => build (true) (some (.xori (flag w 31) (bv 6 w 18) (bv 6 w 12) (bv 12 w 0)))
  | _ => .error .opcode

/-- What a scalar word stands for (R29, R46, R47), opcodes 0x20 to 0x2F. -/
def decodeScalar2 (w : Nat) : Nat → Except Reject Instr
  | 0 => build (fld w 6 6 == 0) (some (.shli (flag w 31) (bv 6 w 18) (bv 6 w 12) (bv 6 w 0)))
  | 1 => build (fld w 6 6 == 0) (some (.shri (flag w 31) (bv 6 w 18) (bv 6 w 12) (bv 6 w 0)))
  | 2 => build (fld w 6 6 == 0) (some (.sari (flag w 31) (bv 6 w 18) (bv 6 w 12) (bv 6 w 0)))
  | 3 => build (true) ((Cond.ofCode (fld w 8 4)).bind fun cc => some (.cmpi (flag w 31) cc (bv 6 w 18) (bv 6 w 12) (bv 8 w 0)))
  | 4 => build (true) (some (.li (flag w 31) (bv 6 w 18) (bv 18 w 0)))
  | 5 => build (true) (some (.lih (flag w 31) (bv 6 w 18) (bv 18 w 0)))
  | 6 => build (fld w 3 3 == 0) (some (.lea (flag w 31) (bv 6 w 18) (bv 6 w 12) (bv 6 w 6) (bv 3 w 0)))
  | 7 => build (true) (some (.addpc (flag w 31) (bv 6 w 18) (bv 18 w 0)))
  | 8 => build (true) (some (.b (flag w 31) (bv 24 w 0)))
  | 9 => build (true) ((Cond.ofCode (fld w 20 4)).bind fun cc => some (.bc (flag w 31) cc (bv 6 w 14) (bv 14 w 0)))
  | 10 => build (fld w 20 4 == 0) (some (.loop (flag w 31) (bv 6 w 14) (bv 14 w 0)))
  | 11 => build (true) (some (.call (flag w 31) (bv 24 w 0)))
  | 12 => build (fld w 18 6 == 0 && fld w 6 6 == 0 && fld w 0 6 == 0) (some (.ret (flag w 31) (bv 6 w 12)))
  | 13 => build (fld w 18 6 == 0 && fld w 6 6 == 0 && fld w 0 6 == 0) (some (.jr (flag w 31) (bv 6 w 12)))
  | 14 => build (fld w 0 8 == 0) (some (.lgo (flag w 31) (bv 6 w 18) (bv 6 w 12) (bv 4 w 8)))
  | 15 => build (fld w 0 24 == 0) (some (.ljoin (flag w 31)))
  | _ => .error .opcode

/-- What a scalar word stands for (R29, R46, R47), opcodes 0x30 to 0x3F. -/
def decodeScalar3 (w : Nat) : Nat → Except Reject Instr
  | 0 => build (fld w 12 6 == 0 && fld w 6 6 == 0 && fld w 0 6 == 0) (some (.lpop (flag w 31) (bv 6 w 18)))
  | 1 => build (fld w 18 6 == 0) (some (.wait (flag w 31) (bv 4 w 14) (bv 14 w 0)))
  | 2 => build (fld w 0 24 == 0) (some (.yield (flag w 31)))
  | 3 => build (fld w 0 24 == 0) (some (.exit (flag w 31)))
  | 4 => build (fld w 12 12 == 0 && fld w 1 11 == 0) (some (.bar (flag w 31) (flag w 0)))
  | 5 => build (fld w 12 6 == 0) (some (.srd (flag w 31) (bv 6 w 18) (bv 8 w 0) (bv 4 w 8)))
  | 6 => build (fld w 18 6 == 0) (some (.swr (flag w 31) (bv 6 w 12) (bv 8 w 0) (bv 4 w 8)))
  | 7 => build (fld w 18 6 == 0) (some (.sleep (flag w 31) (bv 6 w 12) (bv 12 w 0)))
  | 8 => build (true) ((MemSize.ofCode (fld w 10 2)).bind fun size => (Order.ofCode (fld w 8 2)).bind fun ord => (Scope.ofCode (fld w 5 3)).bind fun scope => some (.sld (flag w 31) (bv 6 w 18) (bv 6 w 12) size ord scope (bv 5 w 0)))
  | 9 => build (true) ((MemSize.ofCode (fld w 10 2)).bind fun size => (Order.ofCode (fld w 8 2)).bind fun ord => (Scope.ofCode (fld w 5 3)).bind fun scope => some (.sst (flag w 31) (bv 6 w 18) (bv 6 w 12) size ord scope (bv 5 w 0)))
  | 10 => build (fld w 8 2 == 0 && fld w 5 3 == 0) ((MemSize.ofCode (fld w 10 2)).bind fun size => some (.sldp (flag w 31) (bv 6 w 18) (bv 6 w 12) size (bv 5 w 0)))
  | 11 => build (fld w 8 2 == 0 && fld w 5 3 == 0) ((MemSize.ofCode (fld w 10 2)).bind fun size => some (.sstp (flag w 31) (bv 6 w 18) (bv 6 w 12) size (bv 5 w 0)))
  | 12 => build (fld w 11 1 == 1 && fld w 4 1 == 0) ((Order.ofCode (fld w 8 2)).bind fun ord => (Scope.ofCode (fld w 5 3)).bind fun scope => (AtomOp.ofCode (fld w 0 4)).bind fun op => some (.satom (flag w 31) (bv 6 w 18) (bv 6 w 12) (flag w 10) op ord scope))
  | 13 => build (fld w 11 1 == 1 && fld w 0 5 == 0) ((Order.ofCode (fld w 8 2)).bind fun ord => (Scope.ofCode (fld w 5 3)).bind fun scope => some (.scas (flag w 31) (bv 6 w 18) (bv 6 w 12) (flag w 10) ord scope))
  | 14 => build (fld w 10 14 == 0 && fld w 0 5 == 0) ((Order.ofCode (fld w 8 2)).bind fun ord => (Scope.ofCode (fld w 5 3)).bind fun scope => some (.fence (flag w 31) ord scope))
  | 15 => build (fld w 18 6 == 0 && fld w 8 2 == 0) ((MemSize.ofCode (fld w 10 2)).bind fun size => (Scope.ofCode (fld w 5 3)).bind fun scope => some (.cinv (flag w 31) (bv 6 w 12) size scope (bv 5 w 0)))
  | _ => .error .opcode

/-- What a scalar word stands for (R29, R46, R47), opcodes 0x40 to 0x4F. -/
def decodeScalar4 (w : Nat) : Nat → Except Reject Instr
  | 0 => build (fld w 18 6 == 0 && fld w 8 2 == 0) ((MemSize.ofCode (fld w 10 2)).bind fun size => (Scope.ofCode (fld w 5 3)).bind fun scope => some (.ccln (flag w 31) (bv 6 w 12) size scope (bv 5 w 0)))
  | 1 => build (fld w 19 5 == 0 && fld w 5 5 == 0) ((MemSize.ofCode (fld w 10 2)).bind fun size => some (.pref (flag w 31) (flag w 18) (bv 6 w 12) size (bv 5 w 0)))
  | 2 => build (fld w 14 4 == 0 && fld w 6 8 == 0) ((Dom.ofCode (fld w 0 3)).bind fun dom => (FlipMode.ofCode (fld w 3 2)).bind fun mode => some (.flip (flag w 31) dom mode (flag w 5) (bv 6 w 18)))
  | 3 => build (fld w 14 4 == 0 && fld w 5 1 == 0 && fld w 8 6 == 0) ((Dom.ofCode (fld w 0 3)).bind fun dom => (FlipMode.ofCode (fld w 3 2)).bind fun mode => (PaneMove.ofCode (fld w 6 2)).bind fun mv => some (.pfree (flag w 31) dom mode mv (bv 6 w 18)))
  | 4 => build (fld w 14 4 == 0 && fld w 5 9 == 0) ((Dom.ofCode (fld w 0 3)).bind fun dom => (PWhat.ofCode (fld w 3 2)).bind fun what => some (.pstat (flag w 31) dom what (bv 6 w 18)))
  | 5 => build (fld w 0 14 == 0) (some (.xfer (flag w 31) (bv 6 w 18) (bv 4 w 14)))
  | 6 => build (fld w 0 14 == 0) (some (.xcvt (flag w 31) (bv 6 w 18) (bv 4 w 14)))
  | 7 => build (fld w 0 14 == 0) (some (.xfill (flag w 31) (bv 6 w 18) (bv 4 w 14)))
  | 8 => build (fld w 0 14 == 0) (some (.xgath (flag w 31) (bv 6 w 18) (bv 4 w 14)))
  | 9 => build (fld w 0 14 == 0) (some (.xred (flag w 31) (bv 6 w 18) (bv 4 w 14)))
  | 10 => build (fld w 0 14 == 0) (some (.xbcst (flag w 31) (bv 6 w 18) (bv 4 w 14)))
  | 11 => build (fld w 0 14 == 0) (some (.xagree (flag w 31) (bv 6 w 18) (bv 4 w 14)))
  | 12 => build (fld w 18 6 == 0 && fld w 0 14 == 0) (some (.xcanc (flag w 31) (bv 4 w 14)))
  | 13 => build (fld w 2 12 == 0) (some (.xstat (flag w 31) (flag w 0) (flag w 1) (bv 6 w 18) (bv 4 w 14)))
  | 14 => build (fld w 1 13 == 0) (some (.launch (flag w 31) (flag w 0) (bv 6 w 18) (bv 4 w 14)))
  | 15 => build (fld w 14 4 == 0 && fld w 0 14 == 0) (some (.gsig (flag w 31) (bv 6 w 18)))
  | _ => .error .opcode

/-- What a scalar word stands for (R29, R46, R47), opcodes 0x50 to 0x5F. -/
def decodeScalar5 (w : Nat) : Nat → Except Reject Instr
  | 0 => build (fld w 2 12 == 0) (some (.tstat (flag w 31) (flag w 0) (flag w 1) (bv 6 w 18) (bv 4 w 14)))
  | 1 => build (fld w 14 4 == 0 && fld w 0 14 == 0) (some (.tabort (flag w 31) (bv 6 w 18)))
  | 2 => build (fld w 14 4 == 0 && fld w 3 11 == 0) ((Scope.ofCode (fld w 0 3)).bind fun scope => some (.semsig (flag w 31) scope (bv 6 w 18)))
  | 3 => build (fld w 14 4 == 0 && fld w 4 10 == 0) ((Scope.ofCode (fld w 0 3)).bind fun scope => some (.semwait (flag w 31) (flag w 3) scope (bv 6 w 18)))
  | 4 => build (fld w 18 6 == 0) (some (.trap (flag w 31) (bv 18 w 0)))
  | 5 => build (fld w 0 12 == 0) (some (.assert (flag w 31) (bv 6 w 12) (bv 6 w 18)))
  | 6 => build (fld w 18 6 == 0 && fld w 6 12 == 0) (some (.phint (flag w 31) (bv 6 w 0)))
  | 7 => build (fld w 0 24 == 0) (some (.tret (flag w 31)))
  | 8 => build (fld w 18 6 == 0) (some (.brk (flag w 31) (bv 18 w 0)))
  | 9 => build (fld w 12 6 == 0) (some (.sysr (flag w 31) (bv 6 w 18) (bv 12 w 0)))
  | 10 => build (fld w 18 6 == 0) (some (.sysw (flag w 31) (bv 6 w 12) (bv 12 w 0)))
  | 11 => build (fld w 14 4 == 0 && fld w 0 14 == 0) (some (.kzero (flag w 31) (bv 6 w 18)))
  | 12 => build (fld w 0 14 == 0) (some (.scrub (flag w 31) (bv 6 w 18) (bv 4 w 14)))
  | 13 => build (fld w 14 4 == 0 && fld w 2 12 == 0) ((TlbKind.ofCode (fld w 0 2)).bind fun kind => some (.tlbi (flag w 31) kind (bv 6 w 18)))
  | 14 => build (fld w 14 4 == 0 && fld w 2 12 == 0) ((CctlOp.ofCode (fld w 0 2)).bind fun op => some (.cctl (flag w 31) op (bv 6 w 18)))
  | 15 => build (fld w 14 4 == 0 && fld w 0 14 == 0) (some (.vbrep (flag w 31) (bv 6 w 18)))
  | _ => .error .opcode

/-- What a scalar word stands for (R29, R46, R47), opcodes 0x60 to 0x6F. -/
def decodeScalar6 (w : Nat) : Nat → Except Reject Instr
  | 0 => build (fld w 5 1 == 0 && fld w 2 2 == 0) ((Rm.ofCode (fld w 0 2)).bind fun rm => some (.sfadd (flag w 31) (flag w 4) rm (bv 6 w 18) (bv 6 w 12) (bv 6 w 6)))
  | 1 => build (fld w 5 1 == 0 && fld w 2 2 == 0) ((Rm.ofCode (fld w 0 2)).bind fun rm => some (.sfsub (flag w 31) (flag w 4) rm (bv 6 w 18) (bv 6 w 12) (bv 6 w 6)))
  | 2 => build (fld w 5 1 == 0 && fld w 2 2 == 0) ((Rm.ofCode (fld w 0 2)).bind fun rm => some (.sfmul (flag w 31) (flag w 4) rm (bv 6 w 18) (bv 6 w 12) (bv 6 w 6)))
  | 3 => build (fld w 5 1 == 0 && fld w 2 2 == 0) ((Rm.ofCode (fld w 0 2)).bind fun rm => some (.sffma (flag w 31) (flag w 4) rm (bv 6 w 18) (bv 6 w 12) (bv 6 w 6)))
  | 4 => build (fld w 5 1 == 0 && fld w 0 4 == 0) (some (.sfmin (flag w 31) (flag w 4) (bv 6 w 18) (bv 6 w 12) (bv 6 w 6)))
  | 5 => build (fld w 5 1 == 0 && fld w 0 4 == 0) (some (.sfmax (flag w 31) (flag w 4) (bv 6 w 18) (bv 6 w 12) (bv 6 w 6)))
  | 6 => build (fld w 5 1 == 0) ((FCond.ofCode (fld w 0 4)).bind fun fc => some (.sfcmp (flag w 31) fc (flag w 4) (bv 6 w 18) (bv 6 w 12) (bv 6 w 6)))
  | 7 => build (fld w 6 6 == 0) ((FFmt.ofCode (fld w 4 2)).bind fun tgt => (FFmt.ofCode (fld w 2 2)).bind fun frm => (Rm.ofCode (fld w 0 2)).bind fun rm => some (.sfcvt (flag w 31) tgt frm rm (bv 6 w 18) (bv 6 w 12)))
  | 8 => build (fld w 6 6 == 0 && fld w 5 1 == 0 && fld w 3 1 == 0) ((Rm.ofCode (fld w 0 2)).bind fun rm => some (.sf2i (flag w 31) (flag w 2) (flag w 4) rm (bv 6 w 18) (bv 6 w 12)))
  | 9 => build (fld w 6 6 == 0 && fld w 5 1 == 0 && fld w 3 1 == 0) ((Rm.ofCode (fld w 0 2)).bind fun rm => some (.si2f (flag w 31) (flag w 2) (flag w 4) rm (bv 6 w 18) (bv 6 w 12)))
  | 10 => build (fld w 6 6 == 0 && fld w 5 1 == 0 && fld w 0 4 == 0) (some (.sfabs (flag w 31) (flag w 4) (bv 6 w 18) (bv 6 w 12)))
  | 11 => build (fld w 6 6 == 0 && fld w 5 1 == 0 && fld w 0 4 == 0) (some (.sfneg (flag w 31) (flag w 4) (bv 6 w 18) (bv 6 w 12)))
  | 12 => build (fld w 6 6 == 0 && fld w 5 1 == 0 && fld w 2 2 == 0) ((Rm.ofCode (fld w 0 2)).bind fun rm => some (.sfrcp (flag w 31) (flag w 4) rm (bv 6 w 18) (bv 6 w 12)))
  | 13 => build (fld w 6 6 == 0 && fld w 5 1 == 0 && fld w 2 2 == 0) ((Rm.ofCode (fld w 0 2)).bind fun rm => some (.sfsqrt (flag w 31) (flag w 4) rm (bv 6 w 18) (bv 6 w 12)))
  | 14 => build (fld w 5 1 == 0 && fld w 2 2 == 0) ((Rm.ofCode (fld w 0 2)).bind fun rm => some (.sfdiv (flag w 31) (flag w 4) rm (bv 6 w 18) (bv 6 w 12) (bv 6 w 6)))
  | 15 => build (fld w 6 6 == 0 && fld w 5 1 == 0 && fld w 2 2 == 0) ((Rm.ofCode (fld w 0 2)).bind fun rm => some (.sfround (flag w 31) (flag w 4) rm (bv 6 w 18) (bv 6 w 12)))
  | _ => .error .opcode

/-- What a scalar word stands for (R29, R46, R47): an opcode from 0x70 up is unassigned (R43). -/
def decodeScalar (w : Nat) : Except Reject Instr :=
  let op := fld w 24 7
  match op / 16 with
  | 0 => decodeScalar0 w (op % 16)
  | 1 => decodeScalar1 w (op % 16)
  | 2 => decodeScalar2 w (op % 16)
  | 3 => decodeScalar3 w (op % 16)
  | 4 => decodeScalar4 w (op % 16)
  | 5 => decodeScalar5 w (op % 16)
  | 6 => decodeScalar6 w (op % 16)
  | _ => .error .opcode

/-- What a lane word stands for (R34, R48), opcodes 0x00 to 0x0F. -/
def decodeLane0 (w : Nat) : Nat → Except Reject Instr
  | 0 => build (fld w 83 4 == 0 && fld w 75 8 == 0 && fld w 67 8 == 0 && fld w 59 8 == 0 && fld w 51 8 == 0 && fld w 32 3 == 0 && fld w 35 16 == 0 && fld w 0 32 == 0) (some (.lnop (flag w 95)))
  | 1 => build (fld w 51 8 == 0 && fld w 32 3 == 0 && fld w 35 16 == 0) ((numV (fld w 75 8)).bind fun d => (Sel.ofCode (fld w 67 8)).bind fun a => (Sel.ofCode (fld w 59 8)).bind fun b => some (.iadd (hdr w) d a b (bv 32 w 0)))
  | 2 => build (fld w 51 8 == 0 && fld w 32 3 == 0 && fld w 35 16 == 0) ((numV (fld w 75 8)).bind fun d => (Sel.ofCode (fld w 67 8)).bind fun a => (Sel.ofCode (fld w 59 8)).bind fun b => some (.isub (hdr w) d a b (bv 32 w 0)))
  | 3 => build (fld w 51 8 == 0 && fld w 32 3 == 0 && fld w 35 16 == 0) ((numV (fld w 75 8)).bind fun d => (Sel.ofCode (fld w 67 8)).bind fun a => (Sel.ofCode (fld w 59 8)).bind fun b => some (.imul (hdr w) d a b (bv 32 w 0)))
  | 4 => build (fld w 32 3 == 0 && fld w 35 16 == 0) ((numV (fld w 75 8)).bind fun d => (Sel.ofCode (fld w 67 8)).bind fun a => (Sel.ofCode (fld w 59 8)).bind fun b => (Sel.ofCode (fld w 51 8)).bind fun c => some (.imad (hdr w) d a b c (bv 32 w 0)))
  | 5 => build (fld w 51 8 == 0 && fld w 32 3 == 0 && fld w 36 15 == 0) ((numV (fld w 75 8)).bind fun d => (Sel.ofCode (fld w 67 8)).bind fun a => (Sel.ofCode (fld w 59 8)).bind fun b => some (.imulh (hdr w) (flag w 35) d a b (bv 32 w 0)))
  | 6 => build (fld w 59 8 == 0 && fld w 51 8 == 0 && fld w 32 3 == 0 && fld w 35 16 == 0) ((numV (fld w 75 8)).bind fun d => (Sel.ofCode (fld w 67 8)).bind fun a => some (.iabs (hdr w) d a (bv 32 w 0)))
  | 7 => build (fld w 51 8 == 0 && fld w 32 3 == 0 && fld w 36 15 == 0) ((numV (fld w 75 8)).bind fun d => (Sel.ofCode (fld w 67 8)).bind fun a => (Sel.ofCode (fld w 59 8)).bind fun b => some (.imin (hdr w) (flag w 35) d a b (bv 32 w 0)))
  | 8 => build (fld w 51 8 == 0 && fld w 32 3 == 0 && fld w 36 15 == 0) ((numV (fld w 75 8)).bind fun d => (Sel.ofCode (fld w 67 8)).bind fun a => (Sel.ofCode (fld w 59 8)).bind fun b => some (.imax (hdr w) (flag w 35) d a b (bv 32 w 0)))
  | 9 => build (fld w 51 8 == 0 && fld w 32 3 == 0 && fld w 35 16 == 0) ((numV (fld w 75 8)).bind fun d => (Sel.ofCode (fld w 67 8)).bind fun a => (Sel.ofCode (fld w 59 8)).bind fun b => some (.laneAnd (hdr w) d a b (bv 32 w 0)))
  | 10 => build (fld w 51 8 == 0 && fld w 32 3 == 0 && fld w 35 16 == 0) ((numV (fld w 75 8)).bind fun d => (Sel.ofCode (fld w 67 8)).bind fun a => (Sel.ofCode (fld w 59 8)).bind fun b => some (.laneOr (hdr w) d a b (bv 32 w 0)))
  | 11 => build (fld w 51 8 == 0 && fld w 32 3 == 0 && fld w 35 16 == 0) ((numV (fld w 75 8)).bind fun d => (Sel.ofCode (fld w 67 8)).bind fun a => (Sel.ofCode (fld w 59 8)).bind fun b => some (.laneXor (hdr w) d a b (bv 32 w 0)))
  | 12 => build (fld w 59 8 == 0 && fld w 51 8 == 0 && fld w 32 3 == 0 && fld w 35 16 == 0) ((numV (fld w 75 8)).bind fun d => (Sel.ofCode (fld w 67 8)).bind fun a => some (.not (hdr w) d a (bv 32 w 0)))
  | 13 => build (fld w 51 8 == 0 && fld w 32 3 == 0 && fld w 35 16 == 0) ((numV (fld w 75 8)).bind fun d => (Sel.ofCode (fld w 67 8)).bind fun a => (Sel.ofCode (fld w 59 8)).bind fun b => some (.laneShl (hdr w) d a b (bv 32 w 0)))
  | 14 => build (fld w 51 8 == 0 && fld w 32 3 == 0 && fld w 35 16 == 0) ((numV (fld w 75 8)).bind fun d => (Sel.ofCode (fld w 67 8)).bind fun a => (Sel.ofCode (fld w 59 8)).bind fun b => some (.laneShr (hdr w) d a b (bv 32 w 0)))
  | 15 => build (fld w 51 8 == 0 && fld w 32 3 == 0 && fld w 35 16 == 0) ((numV (fld w 75 8)).bind fun d => (Sel.ofCode (fld w 67 8)).bind fun a => (Sel.ofCode (fld w 59 8)).bind fun b => some (.laneSar (hdr w) d a b (bv 32 w 0)))
  | _ => .error .opcode

/-- What a lane word stands for (R34, R48), opcodes 0x10 to 0x1F. -/
def decodeLane1 (w : Nat) : Nat → Except Reject Instr
  | 0 => build (fld w 32 3 == 0 && fld w 36 15 == 0) ((numV (fld w 75 8)).bind fun d => (Sel.ofCode (fld w 67 8)).bind fun a => (Sel.ofCode (fld w 59 8)).bind fun b => (Sel.ofCode (fld w 51 8)).bind fun c => some (.dsh (hdr w) (flag w 35) d a b c (bv 32 w 0)))
  | 1 => build (fld w 51 8 == 0 && fld w 32 3 == 0 && fld w 36 15 == 0) ((numV (fld w 75 8)).bind fun d => (Sel.ofCode (fld w 67 8)).bind fun a => (Sel.ofCode (fld w 59 8)).bind fun b => some (.bfe (hdr w) (flag w 35) d a b (bv 32 w 0)))
  | 2 => build (fld w 32 3 == 0 && fld w 35 16 == 0) ((numV (fld w 75 8)).bind fun d => (Sel.ofCode (fld w 67 8)).bind fun a => (Sel.ofCode (fld w 59 8)).bind fun b => (Sel.ofCode (fld w 51 8)).bind fun c => some (.bfi (hdr w) d a b c (bv 32 w 0)))
  | 3 => build (fld w 59 8 == 0 && fld w 51 8 == 0 && fld w 32 3 == 0 && fld w 35 16 == 0) ((numV (fld w 75 8)).bind fun d => (Sel.ofCode (fld w 67 8)).bind fun a => some (.lanePopc (hdr w) d a (bv 32 w 0)))
  | 4 => build (fld w 59 8 == 0 && fld w 51 8 == 0 && fld w 32 3 == 0 && fld w 35 16 == 0) ((numV (fld w 75 8)).bind fun d => (Sel.ofCode (fld w 67 8)).bind fun a => some (.laneClz (hdr w) d a (bv 32 w 0)))
  | 5 => build (fld w 59 8 == 0 && fld w 51 8 == 0 && fld w 32 3 == 0 && fld w 35 16 == 0) ((numV (fld w 75 8)).bind fun d => (Sel.ofCode (fld w 67 8)).bind fun a => some (.brev (hdr w) d a (bv 32 w 0)))
  | 6 => build (fld w 32 3 == 0 && fld w 35 16 == 0) ((numV (fld w 75 8)).bind fun d => (Sel.ofCode (fld w 67 8)).bind fun a => (Sel.ofCode (fld w 59 8)).bind fun b => (Sel.ofCode (fld w 51 8)).bind fun c => some (.perm (hdr w) d a b c (bv 32 w 0)))
  | 7 => build (fld w 32 3 == 0 && fld w 37 14 == 0) ((numV (fld w 75 8)).bind fun d => (Sel.ofCode (fld w 67 8)).bind fun a => (Sel.ofCode (fld w 59 8)).bind fun b => (Sel.ofCode (fld w 51 8)).bind fun c => (PlutForm.ofCode (fld w 35 2)).bind fun form => some (.plut (hdr w) form d a b c (bv 32 w 0)))
  | 8 => build (fld w 51 8 == 0 && fld w 32 3 == 0 && fld w 39 12 == 0) ((Dst.ofCode (fld w 75 8)).bind fun d => (Sel.ofCode (fld w 67 8)).bind fun a => (Sel.ofCode (fld w 59 8)).bind fun b => (Cond.ofCode (fld w 35 4)).bind fun cc => some (.icmp (hdr w) cc d a b (bv 32 w 0)))
  | 9 => build (fld w 32 3 == 0 && fld w 35 16 == 0) ((numV (fld w 75 8)).bind fun d => (Sel.ofCode (fld w 67 8)).bind fun a => (Sel.ofCode (fld w 59 8)).bind fun b => (Sel.ofCode (fld w 51 8)).bind fun c => some (.sel (hdr w) d a b c (bv 32 w 0)))
  | 10 => build (fld w 59 8 == 0 && fld w 51 8 == 0 && fld w 32 3 == 0 && fld w 35 16 == 0) ((numV (fld w 75 8)).bind fun d => (Sel.ofCode (fld w 67 8)).bind fun a => some (.mov (hdr w) d a (bv 32 w 0)))
  | 11 => build (fld w 32 3 == 0 && fld w 36 15 == 0) ((numV (fld w 75 8)).bind fun d => (Sel.ofCode (fld w 67 8)).bind fun a => (Sel.ofCode (fld w 59 8)).bind fun b => (Sel.ofCode (fld w 51 8)).bind fun c => some (.idot4 (hdr w) (flag w 35) d a b c (bv 32 w 0)))
  | 12 => build (fld w 51 8 == 0 && fld w 32 3 == 0 && fld w 35 16 == 0) ((numV (fld w 75 8)).bind fun d => (Sel.ofCode (fld w 67 8)).bind fun a => (Sel.ofCode (fld w 59 8)).bind fun b => some (.prev (hdr w) d a b (bv 32 w 0)))
  | 13 => build (fld w 51 8 == 0 && fld w 32 3 == 0 && fld w 35 16 == 0) ((numV (fld w 75 8)).bind fun d => (Sel.ofCode (fld w 67 8)).bind fun a => (Sel.ofCode (fld w 59 8)).bind fun b => some (.next (hdr w) d a b (bv 32 w 0)))
  | 14 => build (fld w 32 3 == 0 && fld w 37 14 == 0) ((numV (fld w 75 8)).bind fun d => (Sel.ofCode (fld w 67 8)).bind fun a => (Sel.ofCode (fld w 59 8)).bind fun b => (Sel.ofCode (fld w 51 8)).bind fun c => (PickMode.ofCode (fld w 35 2)).bind fun mode => some (.pick (hdr w) mode d a b c (bv 32 w 0)))
  | 15 => build (fld w 59 8 == 0 && fld w 51 8 == 0 && fld w 32 3 == 0 && fld w 35 16 == 0) ((numV (fld w 75 8)).bind fun d => (Sel.ofCode (fld w 67 8)).bind fun a => some (.rdfl (hdr w) d a (bv 32 w 0)))
  | _ => .error .opcode

/-- What a lane word stands for (R34, R48), opcodes 0x20 to 0x2F. -/
def decodeLane2 (w : Nat) : Nat → Except Reject Instr
  | 0 => build (fld w 59 8 == 0 && fld w 51 8 == 0 && fld w 32 3 == 0 && fld w 37 14 == 0) ((Dst.ofCode (fld w 75 8)).bind fun d => (Sel.ofCode (fld w 67 8)).bind fun a => (VoteMode.ofCode (fld w 35 2)).bind fun mode => some (.vote (hdr w) mode d a (bv 32 w 0)))
  | 1 => build (fld w 59 8 == 0 && fld w 51 8 == 0 && fld w 32 3 == 0 && fld w 38 13 == 0) ((numV (fld w 75 8)).bind fun d => (Sel.ofCode (fld w 67 8)).bind fun a => (RedOp.ofCode (fld w 35 3)).bind fun op => some (.gred (hdr w) op d a (bv 32 w 0)))
  | 2 => build (fld w 59 8 == 0 && fld w 51 8 == 0 && fld w 32 3 == 0 && fld w 38 1 == 0 && fld w 40 11 == 0) ((numV (fld w 75 8)).bind fun d => (Sel.ofCode (fld w 67 8)).bind fun a => (RedOp.ofCode (fld w 35 3)).bind fun op => some (.gscan (hdr w) op (flag w 39) d a (bv 32 w 0)))
  | 3 => build (fld w 32 3 == 0 && fld w 43 8 == 0) ((Dst.ofCode (fld w 75 8)).bind fun d => (Sel.ofCode (fld w 67 8)).bind fun a => (Sel.ofCode (fld w 59 8)).bind fun b => (Sel.ofCode (fld w 51 8)).bind fun c => some (.plog (hdr w) (bv 8 w 35) d a b c (bv 32 w 0)))
  | 4 => build (fld w 67 8 == 0 && fld w 59 8 == 0 && fld w 51 8 == 0 && fld w 32 3 == 0 && fld w 48 3 == 0 && fld w 0 32 == 0) ((numV (fld w 75 8)).bind fun d => some (.lsrd (hdr w) (flag w 47) (bv 8 w 35) (bv 4 w 43) d))
  | 5 => build (fld w 75 8 == 0 && fld w 59 8 == 0 && fld w 51 8 == 0 && fld w 32 3 == 0 && fld w 36 15 == 0) ((Sel.ofCode (fld w 67 8)).bind fun a => some (.lpush (hdr w) (flag w 35) a (bv 32 w 0)))
  | 6 => build (fld w 51 8 == 0 && fld w 32 3 == 0 && fld w 38 13 == 0) ((numV (fld w 75 8)).bind fun d => (Sel.ofCode (fld w 67 8)).bind fun a => (Sel.ofCode (fld w 59 8)).bind fun b => some (.ipack (hdr w) (flag w 36) (flag w 35) (flag w 37) d a b (bv 32 w 0)))
  | 7 => build (fld w 51 8 == 0 && fld w 32 3 == 0 && fld w 37 14 == 0) ((numV (fld w 75 8)).bind fun d => (Sel.ofCode (fld w 67 8)).bind fun a => (Sel.ofCode (fld w 59 8)).bind fun b => some (.iext (hdr w) (flag w 36) (flag w 35) d a b (bv 32 w 0)))
  | 8 => build (fld w 51 8 == 0 && fld w 32 3 == 0 && fld w 38 13 == 0) ((numV (fld w 75 8)).bind fun d => (Sel.ofCode (fld w 67 8)).bind fun a => (Sel.ofCode (fld w 59 8)).bind fun b => (Rm.ofCode (fld w 35 2)).bind fun rm => some (.fadd (hdr w) (flag w 37) rm d a b (bv 32 w 0)))
  | 9 => build (fld w 51 8 == 0 && fld w 32 3 == 0 && fld w 38 13 == 0) ((numV (fld w 75 8)).bind fun d => (Sel.ofCode (fld w 67 8)).bind fun a => (Sel.ofCode (fld w 59 8)).bind fun b => (Rm.ofCode (fld w 35 2)).bind fun rm => some (.fsub (hdr w) (flag w 37) rm d a b (bv 32 w 0)))
  | 10 => build (fld w 51 8 == 0 && fld w 32 3 == 0 && fld w 38 13 == 0) ((numV (fld w 75 8)).bind fun d => (Sel.ofCode (fld w 67 8)).bind fun a => (Sel.ofCode (fld w 59 8)).bind fun b => (Rm.ofCode (fld w 35 2)).bind fun rm => some (.fmul (hdr w) (flag w 37) rm d a b (bv 32 w 0)))
  | 11 => build (fld w 32 3 == 0 && fld w 38 13 == 0) ((numV (fld w 75 8)).bind fun d => (Sel.ofCode (fld w 67 8)).bind fun a => (Sel.ofCode (fld w 59 8)).bind fun b => (Sel.ofCode (fld w 51 8)).bind fun c => (Rm.ofCode (fld w 35 2)).bind fun rm => some (.ffma (hdr w) (flag w 37) rm d a b c (bv 32 w 0)))
  | 12 => build (fld w 51 8 == 0 && fld w 32 3 == 0 && fld w 35 2 == 0 && fld w 38 13 == 0) ((numV (fld w 75 8)).bind fun d => (Sel.ofCode (fld w 67 8)).bind fun a => (Sel.ofCode (fld w 59 8)).bind fun b => some (.fmin (hdr w) (flag w 37) d a b (bv 32 w 0)))
  | 13 => build (fld w 51 8 == 0 && fld w 32 3 == 0 && fld w 35 2 == 0 && fld w 38 13 == 0) ((numV (fld w 75 8)).bind fun d => (Sel.ofCode (fld w 67 8)).bind fun a => (Sel.ofCode (fld w 59 8)).bind fun b => some (.fmax (hdr w) (flag w 37) d a b (bv 32 w 0)))
  | 14 => build (fld w 59 8 == 0 && fld w 51 8 == 0 && fld w 32 3 == 0 && fld w 35 16 == 0) ((numV (fld w 75 8)).bind fun d => (Sel.ofCode (fld w 67 8)).bind fun a => some (.fabs (hdr w) d a (bv 32 w 0)))
  | 15 => build (fld w 59 8 == 0 && fld w 51 8 == 0 && fld w 32 3 == 0 && fld w 35 16 == 0) ((numV (fld w 75 8)).bind fun d => (Sel.ofCode (fld w 67 8)).bind fun a => some (.fneg (hdr w) d a (bv 32 w 0)))
  | _ => .error .opcode

/-- What a lane word stands for (R34, R48), opcodes 0x30 to 0x3F. -/
def decodeLane3 (w : Nat) : Nat → Except Reject Instr
  | 0 => build (fld w 51 8 == 0 && fld w 32 3 == 0 && fld w 35 2 == 0 && fld w 38 1 == 0 && fld w 43 8 == 0) ((Dst.ofCode (fld w 75 8)).bind fun d => (Sel.ofCode (fld w 67 8)).bind fun a => (Sel.ofCode (fld w 59 8)).bind fun b => (FCond.ofCode (fld w 39 4)).bind fun fc => some (.fcmp (hdr w) fc (flag w 37) d a b (bv 32 w 0)))
  | 1 => build (fld w 59 8 == 0 && fld w 51 8 == 0 && fld w 32 3 == 0 && fld w 35 4 == 0 && fld w 41 10 == 0) ((numV (fld w 75 8)).bind fun d => (Sel.ofCode (fld w 67 8)).bind fun a => (FFmt.ofCode (fld w 39 2)).bind fun fmt => some (.fclass (hdr w) fmt d a (bv 32 w 0)))
  | 2 => build (fld w 59 8 == 0 && fld w 51 8 == 0 && fld w 32 3 == 0 && fld w 38 13 == 0) ((numV (fld w 75 8)).bind fun d => (Sel.ofCode (fld w 67 8)).bind fun a => (Rm.ofCode (fld w 35 2)).bind fun rm => some (.frcp (hdr w) (flag w 37) rm d a (bv 32 w 0)))
  | 3 => build (fld w 59 8 == 0 && fld w 51 8 == 0 && fld w 32 3 == 0 && fld w 38 13 == 0) ((numV (fld w 75 8)).bind fun d => (Sel.ofCode (fld w 67 8)).bind fun a => (Rm.ofCode (fld w 35 2)).bind fun rm => some (.frsq (hdr w) (flag w 37) rm d a (bv 32 w 0)))
  | 4 => build (fld w 59 8 == 0 && fld w 51 8 == 0 && fld w 32 3 == 0 && fld w 38 13 == 0) ((numV (fld w 75 8)).bind fun d => (Sel.ofCode (fld w 67 8)).bind fun a => (Rm.ofCode (fld w 35 2)).bind fun rm => some (.fsqrt (hdr w) (flag w 37) rm d a (bv 32 w 0)))
  | 5 => build (fld w 51 8 == 0 && fld w 32 3 == 0 && fld w 38 13 == 0) ((numV (fld w 75 8)).bind fun d => (Sel.ofCode (fld w 67 8)).bind fun a => (Sel.ofCode (fld w 59 8)).bind fun b => (Rm.ofCode (fld w 35 2)).bind fun rm => some (.fdiv (hdr w) (flag w 37) rm d a b (bv 32 w 0)))
  | 6 => build (fld w 59 8 == 0 && fld w 51 8 == 0 && fld w 32 3 == 0 && fld w 38 13 == 0) ((numV (fld w 75 8)).bind fun d => (Sel.ofCode (fld w 67 8)).bind fun a => (Rm.ofCode (fld w 35 2)).bind fun rm => some (.fexp2 (hdr w) (flag w 37) rm d a (bv 32 w 0)))
  | 7 => build (fld w 59 8 == 0 && fld w 51 8 == 0 && fld w 32 3 == 0 && fld w 38 13 == 0) ((numV (fld w 75 8)).bind fun d => (Sel.ofCode (fld w 67 8)).bind fun a => (Rm.ofCode (fld w 35 2)).bind fun rm => some (.flog2 (hdr w) (flag w 37) rm d a (bv 32 w 0)))
  | 8 => build (fld w 59 8 == 0 && fld w 51 8 == 0 && fld w 32 3 == 0 && fld w 38 13 == 0) ((numV (fld w 75 8)).bind fun d => (Sel.ofCode (fld w 67 8)).bind fun a => (Rm.ofCode (fld w 35 2)).bind fun rm => some (.fround (hdr w) (flag w 37) rm d a (bv 32 w 0)))
  | 9 => build (fld w 51 8 == 0 && fld w 32 3 == 0 && fld w 38 13 == 0) ((numV (fld w 75 8)).bind fun d => (Sel.ofCode (fld w 67 8)).bind fun a => (Sel.ofCode (fld w 59 8)).bind fun b => (Rm.ofCode (fld w 35 2)).bind fun rm => some (.fscale (hdr w) (flag w 37) rm d a b (bv 32 w 0)))
  | 10 => build (fld w 59 8 == 0 && fld w 51 8 == 0 && fld w 32 3 == 0 && fld w 35 2 == 0 && fld w 38 13 == 0) ((numV (fld w 75 8)).bind fun d => (Sel.ofCode (fld w 67 8)).bind fun a => some (.fgetexp (hdr w) (flag w 37) d a (bv 32 w 0)))
  | 11 => build (fld w 59 8 == 0 && fld w 51 8 == 0 && fld w 32 3 == 0 && fld w 37 1 == 0 && fld w 39 12 == 0) ((numV (fld w 75 8)).bind fun d => (Sel.ofCode (fld w 67 8)).bind fun a => (Rm.ofCode (fld w 35 2)).bind fun rm => some (.f2i (hdr w) (flag w 38) rm d a (bv 32 w 0)))
  | 12 => build (fld w 59 8 == 0 && fld w 51 8 == 0 && fld w 32 3 == 0 && fld w 37 1 == 0 && fld w 39 12 == 0) ((numV (fld w 75 8)).bind fun d => (Sel.ofCode (fld w 67 8)).bind fun a => (Rm.ofCode (fld w 35 2)).bind fun rm => some (.i2f (hdr w) (flag w 38) rm d a (bv 32 w 0)))
  | 13 => build (fld w 59 8 == 0 && fld w 51 8 == 0 && fld w 32 3 == 0 && fld w 37 2 == 0 && fld w 43 8 == 0) ((numV (fld w 75 8)).bind fun d => (Sel.ofCode (fld w 67 8)).bind fun a => (FFmt.ofCode (fld w 39 2)).bind fun tgt => (FFmt.ofCode (fld w 41 2)).bind fun frm => (Rm.ofCode (fld w 35 2)).bind fun rm => some (.fcvt (hdr w) tgt frm rm d a (bv 32 w 0)))
  | 14 => build (fld w 51 8 == 0 && fld w 32 3 == 0 && fld w 37 2 == 0 && fld w 40 11 == 0) ((numV (fld w 75 8)).bind fun d => (Sel.ofCode (fld w 67 8)).bind fun a => (Sel.ofCode (fld w 59 8)).bind fun b => (Rm.ofCode (fld w 35 2)).bind fun rm => some (.fpack2 (hdr w) (flag w 39) rm d a b (bv 32 w 0)))
  | 15 => build (fld w 51 8 == 0 && fld w 32 3 == 0 && fld w 37 2 == 0 && fld w 40 11 == 0) ((numV (fld w 75 8)).bind fun d => (Sel.ofCode (fld w 67 8)).bind fun a => (Sel.ofCode (fld w 59 8)).bind fun b => (Rm.ofCode (fld w 35 2)).bind fun rm => some (.hadd2 (hdr w) (flag w 39) rm d a b (bv 32 w 0)))
  | _ => .error .opcode

/-- What a lane word stands for (R34, R48), opcodes 0x40 to 0x4F. -/
def decodeLane4 (w : Nat) : Nat → Except Reject Instr
  | 0 => build (fld w 51 8 == 0 && fld w 32 3 == 0 && fld w 37 2 == 0 && fld w 40 11 == 0) ((numV (fld w 75 8)).bind fun d => (Sel.ofCode (fld w 67 8)).bind fun a => (Sel.ofCode (fld w 59 8)).bind fun b => (Rm.ofCode (fld w 35 2)).bind fun rm => some (.hmul2 (hdr w) (flag w 39) rm d a b (bv 32 w 0)))
  | 1 => build (fld w 32 3 == 0 && fld w 37 2 == 0 && fld w 40 11 == 0) ((numV (fld w 75 8)).bind fun d => (Sel.ofCode (fld w 67 8)).bind fun a => (Sel.ofCode (fld w 59 8)).bind fun b => (Sel.ofCode (fld w 51 8)).bind fun c => (Rm.ofCode (fld w 35 2)).bind fun rm => some (.hfma2 (hdr w) (flag w 39) rm d a b c (bv 32 w 0)))
  | 2 => build (fld w 51 8 == 0 && fld w 32 3 == 0 && fld w 35 3 == 0 && fld w 40 11 == 0) ((numV (fld w 75 8)).bind fun d => (Sel.ofCode (fld w 67 8)).bind fun a => (Sel.ofCode (fld w 59 8)).bind fun b => some (.qpack (hdr w) (flag w 39) (flag w 38) d a b (bv 32 w 0)))
  | 3 => build (fld w 32 3 == 0 && fld w 35 4 == 0 && fld w 40 11 == 0) ((numV (fld w 75 8)).bind fun d => (Sel.ofCode (fld w 67 8)).bind fun a => (Sel.ofCode (fld w 59 8)).bind fun b => (Sel.ofCode (fld w 51 8)).bind fun c => some (.qunpack (hdr w) (flag w 39) d a b c (bv 32 w 0)))
  | 4 => build (fld w 32 3 == 0 && fld w 37 1 == 0 && fld w 41 10 == 0) ((numV (fld w 75 8)).bind fun d => (Sel.ofCode (fld w 67 8)).bind fun a => (Sel.ofCode (fld w 59 8)).bind fun b => (Sel.ofCode (fld w 51 8)).bind fun c => (Rm.ofCode (fld w 35 2)).bind fun rm => some (.f8pack (hdr w) (flag w 39) (flag w 38) (flag w 40) rm d a b c (bv 32 w 0)))
  | 5 => build (fld w 51 8 == 0 && fld w 32 3 == 0 && fld w 35 4 == 0 && fld w 40 11 == 0) ((numV (fld w 75 8)).bind fun d => (Sel.ofCode (fld w 67 8)).bind fun a => (Sel.ofCode (fld w 59 8)).bind fun b => some (.f8unpack (hdr w) (flag w 39) d a b (bv 32 w 0)))
  | 6 => build (fld w 51 8 == 0 && fld w 32 3 == 0 && fld w 37 14 == 0) ((numV (fld w 75 8)).bind fun d => (Sel.ofCode (fld w 67 8)).bind fun a => (Sel.ofCode (fld w 59 8)).bind fun b => (Rm.ofCode (fld w 35 2)).bind fun rm => some (.dadd (hdr w) rm d a b (bv 32 w 0)))
  | 7 => build (fld w 32 3 == 0 && fld w 37 14 == 0) ((numV (fld w 75 8)).bind fun d => (Sel.ofCode (fld w 67 8)).bind fun a => (Sel.ofCode (fld w 59 8)).bind fun b => (Sel.ofCode (fld w 51 8)).bind fun c => (Rm.ofCode (fld w 35 2)).bind fun rm => some (.dfma (hdr w) rm d a b c (bv 32 w 0)))
  | 8 => build (fld w 75 8 == 0 && fld w 67 8 == 0 && fld w 59 8 == 0 && fld w 51 8 == 0 && fld w 32 3 == 0 && fld w 35 16 == 0) (some (.lbr (hdr w) (bv 32 w 0)))
  | 9 => build (fld w 75 8 == 0 && fld w 59 8 == 0 && fld w 51 8 == 0 && fld w 32 3 == 0 && fld w 35 16 == 0) ((Sel.ofCode (fld w 67 8)).bind fun a => some (.ljmp (hdr w) a (bv 32 w 0)))
  | 10 => build (fld w 75 8 == 0 && fld w 67 8 == 0 && fld w 59 8 == 0 && fld w 51 8 == 0 && fld w 32 3 == 0 && fld w 35 16 == 0) (some (.lcall (hdr w) (bv 32 w 0)))
  | 11 => build (fld w 75 8 == 0 && fld w 67 8 == 0 && fld w 59 8 == 0 && fld w 51 8 == 0 && fld w 32 3 == 0 && fld w 35 16 == 0 && fld w 0 32 == 0) (some (.lret (hdr w)))
  | 12 => build (fld w 75 8 == 0 && fld w 67 8 == 0 && fld w 59 8 == 0 && fld w 51 8 == 0 && fld w 32 3 == 0 && fld w 35 16 == 0 && fld w 0 32 == 0) (some (.lend (hdr w)))
  | 13 => build (fld w 75 8 == 0 && fld w 67 8 == 0 && fld w 59 8 == 0 && fld w 51 8 == 0 && fld w 32 3 == 0 && fld w 35 16 == 0 && fld w 0 32 == 0) (some (.lkill (hdr w)))
  | 14 => build (fld w 59 8 == 0 && fld w 51 8 == 0 && fld w 32 3 == 0 && fld w 37 14 == 0) ((numP (fld w 75 8)).bind fun d => (Sel.ofCode (fld w 67 8)).bind fun a => (MaskMode.ofCode (fld w 35 2)).bind fun mode => some (.lmask (hdr w) mode d a (bv 32 w 0)))
  | 15 => build (fld w 75 8 == 0 && fld w 51 8 == 0 && fld w 32 3 == 0 && fld w 35 16 == 0) ((Sel.ofCode (fld w 67 8)).bind fun a => (Sel.ofCode (fld w 59 8)).bind fun b => some (.lassert (hdr w) a b (bv 32 w 0)))
  | _ => .error .opcode

/-- What a lane word stands for (R34, R48), opcodes 0x50 to 0x5F. -/
def decodeLane5 (w : Nat) : Nat → Except Reject Instr
  | 0 => build (fld w 51 8 == 0 && fld w 32 3 == 0 && fld w 43 8 == 0) ((numV (fld w 75 8)).bind fun d => (numC (fld w 67 8)).bind fun ca => (Idx.ofCode (fld w 59 8)).bind fun x => (MemSize.ofCode (fld w 35 2)).bind fun size => (Order.ofCode (fld w 38 2)).bind fun ord => (Scope.ofCode (fld w 40 3)).bind fun scope => some (.ldg (hdr w) size (flag w 37) ord scope d ca x (bv 32 w 0)))
  | 1 => build (fld w 75 8 == 0 && fld w 32 3 == 0 && fld w 37 1 == 0 && fld w 43 8 == 0) ((numC (fld w 67 8)).bind fun ca => (Idx.ofCode (fld w 59 8)).bind fun x => (Sel.ofCode (fld w 51 8)).bind fun c => (MemSize.ofCode (fld w 35 2)).bind fun size => (Order.ofCode (fld w 38 2)).bind fun ord => (Scope.ofCode (fld w 40 3)).bind fun scope => some (.stg (hdr w) size ord scope ca x c (bv 32 w 0)))
  | 2 => build (fld w 59 8 == 0 && fld w 51 8 == 0 && fld w 32 3 == 0 && fld w 43 8 == 0) ((numV (fld w 75 8)).bind fun d => (ASel.ofCode (fld w 67 8)).bind fun a => (MemSize.ofCode (fld w 35 2)).bind fun size => (Order.ofCode (fld w 38 2)).bind fun ord => (Scope.ofCode (fld w 40 3)).bind fun scope => some (.ldgx (hdr w) size (flag w 37) ord scope d a (bv 32 w 0)))
  | 3 => build (fld w 75 8 == 0 && fld w 59 8 == 0 && fld w 32 3 == 0 && fld w 37 1 == 0 && fld w 43 8 == 0) ((ASel.ofCode (fld w 67 8)).bind fun a => (Sel.ofCode (fld w 51 8)).bind fun c => (MemSize.ofCode (fld w 35 2)).bind fun size => (Order.ofCode (fld w 38 2)).bind fun ord => (Scope.ofCode (fld w 40 3)).bind fun scope => some (.stgx (hdr w) size ord scope a c (bv 32 w 0)))
  | 4 => build (fld w 51 8 == 0 && fld w 32 3 == 0 && fld w 35 2 == 2 && fld w 37 6 == 0 && fld w 45 6 == 0) ((numV (fld w 75 8)).bind fun d => (numC (fld w 67 8)).bind fun ca => (Idx.ofCode (fld w 59 8)).bind fun x => (VecN.ofCode (fld w 43 2)).bind fun cnt => some (.ldgv (hdr w) cnt d ca x (bv 32 w 0)))
  | 5 => build (fld w 75 8 == 0 && fld w 32 3 == 0 && fld w 35 2 == 2 && fld w 37 6 == 0 && fld w 45 6 == 0) ((numC (fld w 67 8)).bind fun ca => (Idx.ofCode (fld w 59 8)).bind fun x => (numV (fld w 51 8)).bind fun c => (VecN.ofCode (fld w 43 2)).bind fun cnt => some (.stgv (hdr w) cnt ca x c (bv 32 w 0)))
  | 6 => build (fld w 59 8 == 0 && fld w 51 8 == 0 && fld w 32 3 == 0 && fld w 43 8 == 0) ((numV (fld w 75 8)).bind fun d => (ASel.ofCode (fld w 67 8)).bind fun a => (MemSize.ofCode (fld w 35 2)).bind fun size => (Order.ofCode (fld w 38 2)).bind fun ord => (Scope.ofCode (fld w 40 3)).bind fun scope => some (.lds (hdr w) size (flag w 37) ord scope d a (bv 32 w 0)))
  | 7 => build (fld w 75 8 == 0 && fld w 59 8 == 0 && fld w 32 3 == 0 && fld w 37 1 == 0 && fld w 43 8 == 0) ((ASel.ofCode (fld w 67 8)).bind fun a => (Sel.ofCode (fld w 51 8)).bind fun c => (MemSize.ofCode (fld w 35 2)).bind fun size => (Order.ofCode (fld w 38 2)).bind fun ord => (Scope.ofCode (fld w 40 3)).bind fun scope => some (.sts (hdr w) size ord scope a c (bv 32 w 0)))
  | 8 => build (fld w 59 8 == 0 && fld w 51 8 == 0 && fld w 32 3 == 0 && fld w 35 2 == 2 && fld w 37 6 == 0 && fld w 45 6 == 0) ((numV (fld w 75 8)).bind fun d => (ASel.ofCode (fld w 67 8)).bind fun a => (VecN.ofCode (fld w 43 2)).bind fun cnt => some (.ldsb (hdr w) cnt d a (bv 32 w 0)))
  | 9 => build (fld w 75 8 == 0 && fld w 59 8 == 0 && fld w 32 3 == 0 && fld w 35 2 == 2 && fld w 37 6 == 0 && fld w 45 6 == 0) ((ASel.ofCode (fld w 67 8)).bind fun a => (numV (fld w 51 8)).bind fun c => (VecN.ofCode (fld w 43 2)).bind fun cnt => some (.stsb (hdr w) cnt a c (bv 32 w 0)))
  | 10 => build (fld w 32 3 == 0 && fld w 36 1 == 1 && fld w 37 1 == 0 && fld w 43 4 == 0) ((numV (fld w 75 8)).bind fun d => (numC (fld w 67 8)).bind fun ca => (Idx.ofCode (fld w 59 8)).bind fun x => (Sel.ofCode (fld w 51 8)).bind fun c => (Order.ofCode (fld w 38 2)).bind fun ord => (Scope.ofCode (fld w 40 3)).bind fun scope => (AtomOp.ofCode (fld w 47 4)).bind fun op => some (.atomg (hdr w) (flag w 35) op ord scope d ca x c (bv 32 w 0)))
  | 11 => build (fld w 32 3 == 0 && fld w 36 1 == 1 && fld w 37 1 == 0 && fld w 43 8 == 0) ((numV (fld w 75 8)).bind fun d => (numC (fld w 67 8)).bind fun ca => (Idx.ofCode (fld w 59 8)).bind fun x => (numV (fld w 51 8)).bind fun c => (Order.ofCode (fld w 38 2)).bind fun ord => (Scope.ofCode (fld w 40 3)).bind fun scope => some (.casg (hdr w) (flag w 35) ord scope d ca x c (bv 32 w 0)))
  | 12 => build (fld w 59 8 == 0 && fld w 32 3 == 0 && fld w 36 1 == 1 && fld w 37 1 == 0 && fld w 43 4 == 0) ((numV (fld w 75 8)).bind fun d => (ASel.ofCode (fld w 67 8)).bind fun a => (Sel.ofCode (fld w 51 8)).bind fun c => (Order.ofCode (fld w 38 2)).bind fun ord => (Scope.ofCode (fld w 40 3)).bind fun scope => (AtomOp.ofCode (fld w 47 4)).bind fun op => some (.atomgx (hdr w) (flag w 35) op ord scope d a c (bv 32 w 0)))
  | 13 => build (fld w 75 8 == 0 && fld w 32 3 == 0 && fld w 36 1 == 1 && fld w 37 1 == 0 && fld w 43 4 == 0) ((numC (fld w 67 8)).bind fun ca => (Idx.ofCode (fld w 59 8)).bind fun x => (Sel.ofCode (fld w 51 8)).bind fun c => (Order.ofCode (fld w 38 2)).bind fun ord => (Scope.ofCode (fld w 40 3)).bind fun scope => (AtomOp.ofCode (fld w 47 4)).bind fun op => some (.redg (hdr w) (flag w 35) op ord scope ca x c (bv 32 w 0)))
  | 14 => build (fld w 59 8 == 0 && fld w 32 3 == 0 && fld w 36 1 == 1 && fld w 37 1 == 0 && fld w 43 4 == 0) ((numV (fld w 75 8)).bind fun d => (ASel.ofCode (fld w 67 8)).bind fun a => (Sel.ofCode (fld w 51 8)).bind fun c => (Order.ofCode (fld w 38 2)).bind fun ord => (Scope.ofCode (fld w 40 3)).bind fun scope => (AtomOp.ofCode (fld w 47 4)).bind fun op => some (.atoms (hdr w) (flag w 35) op ord scope d a c (bv 32 w 0)))
  | 15 => build (fld w 59 8 == 0 && fld w 32 3 == 0 && fld w 36 1 == 1 && fld w 37 1 == 0 && fld w 43 8 == 0) ((numV (fld w 75 8)).bind fun d => (ASel.ofCode (fld w 67 8)).bind fun a => (numV (fld w 51 8)).bind fun c => (Order.ofCode (fld w 38 2)).bind fun ord => (Scope.ofCode (fld w 40 3)).bind fun scope => some (.cass (hdr w) (flag w 35) ord scope d a c (bv 32 w 0)))
  | _ => .error .opcode

/-- What a lane word stands for (R34, R48), opcodes 0x60 to 0x6F. -/
def decodeLane6 (w : Nat) : Nat → Except Reject Instr
  | 0 => build (fld w 75 8 == 0 && fld w 51 8 == 0 && fld w 32 3 == 0 && fld w 37 8 == 0 && fld w 46 5 == 0) ((numC (fld w 67 8)).bind fun ca => (Idx.ofCode (fld w 59 8)).bind fun x => (MemSize.ofCode (fld w 35 2)).bind fun size => some (.prefg (hdr w) size (flag w 45) ca x (bv 32 w 0)))
  | 1 => build (fld w 59 8 == 0 && fld w 51 8 == 0 && fld w 32 3 == 0 && fld w 43 8 == 0) ((numV (fld w 75 8)).bind fun d => (numC (fld w 67 8)).bind fun ca => (MemSize.ofCode (fld w 35 2)).bind fun size => (Order.ofCode (fld w 38 2)).bind fun ord => (Scope.ofCode (fld w 40 3)).bind fun scope => some (.ldbc (hdr w) size (flag w 37) ord scope d ca (bv 32 w 0)))
  | 2 => build (fld w 75 8 == 0 && fld w 32 3 == 0 && fld w 36 1 == 1 && fld w 37 14 == 0) ((ASel.ofCode (fld w 67 8)).bind fun a => (Sel.ofCode (fld w 59 8)).bind fun b => (Sel.ofCode (fld w 51 8)).bind fun c => some (.stgm (hdr w) (flag w 35) a b c (bv 32 w 0)))
  | 3 => build (fld w 59 8 == 0 && fld w 51 8 == 0 && fld w 32 3 == 0 && fld w 35 10 == 0 && fld w 46 5 == 0) ((numP (fld w 75 8)).bind fun d => (ASel.ofCode (fld w 67 8)).bind fun a => some (.pchk (hdr w) (flag w 45) d a (bv 32 w 0)))
  | 4 => build (fld w 75 8 == 0 && fld w 51 8 == 0 && fld w 32 3 == 0 && fld w 45 6 == 0 && fld w 20 12 == 0) ((numC (fld w 67 8)).bind fun ca => (numC (fld w 59 8)).bind fun cb => some (.mma (hdr w) (bv 6 w 35) (bv 4 w 41) ca cb (bv 8 w 0) (bv 12 w 8)))
  | 5 => build (fld w 75 8 == 0 && fld w 67 8 == 0 && fld w 59 8 == 0 && fld w 51 8 == 0 && fld w 32 3 == 0 && fld w 41 4 == 0 && fld w 46 5 == 0 && fld w 16 16 == 0) (some (.mzero (hdr w) (flag w 45) (bv 6 w 35) (bv 16 w 0)))
  | 6 => build (fld w 75 8 == 0 && fld w 59 8 == 0 && fld w 51 8 == 0 && fld w 32 3 == 0 && fld w 46 5 == 0) ((numC (fld w 67 8)).bind fun ca => some (.mld (hdr w) (flag w 45) (bv 6 w 35) (bv 4 w 41) ca (bv 32 w 0)))
  | 7 => build (fld w 75 8 == 0 && fld w 59 8 == 0 && fld w 51 8 == 0 && fld w 32 3 == 0 && fld w 46 5 == 0) ((numC (fld w 67 8)).bind fun ca => some (.mst (hdr w) (flag w 45) (bv 6 w 35) (bv 4 w 41) ca (bv 32 w 0)))
  | 8 => build (fld w 75 8 == 0 && fld w 67 8 == 0 && fld w 59 8 == 0 && fld w 51 8 == 0 && fld w 32 3 == 0 && fld w 41 10 == 0 && fld w 6 2 == 0 && fld w 14 18 == 0) (some (.madd (hdr w) (bv 6 w 35) (bv 6 w 0) (bv 6 w 8)))
  | 9 => build (fld w 75 8 == 0 && fld w 67 8 == 0 && fld w 59 8 == 0 && fld w 51 8 == 0 && fld w 32 3 == 0 && fld w 41 4 == 0 && fld w 46 5 == 0 && fld w 16 16 == 0) (some (.mcvt (hdr w) (flag w 45) (bv 6 w 35) (bv 16 w 0)))
  | 10 => build (fld w 75 8 == 0 && fld w 59 8 == 0 && fld w 51 8 == 0 && fld w 32 3 == 0 && fld w 41 10 == 0) ((Sel.ofCode (fld w 67 8)).bind fun a => some (.mscl (hdr w) (bv 6 w 35) a (bv 32 w 0)))
  | 11 => build (fld w 67 8 == 0 && fld w 59 8 == 0 && fld w 51 8 == 0 && fld w 32 3 == 0 && fld w 41 10 == 0 && fld w 8 24 == 0) ((numV (fld w 75 8)).bind fun d => some (.mfmt (hdr w) d (bv 6 w 35) (bv 8 w 0)))
  | 12 => build (fld w 67 8 == 0 && fld w 59 8 == 0 && fld w 51 8 == 0 && fld w 32 3 == 0 && fld w 41 4 == 0 && fld w 46 5 == 0 && fld w 0 32 == 0) ((numV (fld w 75 8)).bind fun d => some (.mstat (hdr w) (flag w 45) d (bv 6 w 35)))
  | 13 => build (fld w 75 8 == 0 && fld w 59 8 == 0 && fld w 51 8 == 0 && fld w 32 3 == 0 && fld w 35 16 == 0) ((Sel.ofCode (fld w 67 8)).bind fun a => some (.wsel (hdr w) a (bv 32 w 0)))
  | 14 => build (fld w 75 8 == 0 && fld w 67 8 == 0 && fld w 59 8 == 0 && fld w 51 8 == 0 && fld w 32 3 == 0 && fld w 41 10 == 0 && fld w 6 26 == 0) (some (.mtrans (hdr w) (bv 6 w 35) (bv 6 w 0)))
  | 15 => build (fld w 75 8 == 0 && fld w 67 8 == 0 && fld w 59 8 == 0 && fld w 51 8 == 0 && fld w 32 3 == 0 && fld w 35 16 == 0 && fld w 20 12 == 0) (some (.mglow (hdr w) (bv 20 w 0)))
  | _ => .error .opcode

/-- What a lane word stands for (R34, R48): an opcode from 0x70 up is unassigned (R43). -/
def decodeLane (w : Nat) : Except Reject Instr :=
  let op := fld w 87 8
  match op / 16 with
  | 0 => decodeLane0 w (op % 16)
  | 1 => decodeLane1 w (op % 16)
  | 2 => decodeLane2 w (op % 16)
  | 3 => decodeLane3 w (op % 16)
  | 4 => decodeLane4 w (op % 16)
  | 5 => decodeLane5 w (op % 16)
  | 6 => decodeLane6 w (op % 16)
  | _ => .error .opcode

/-- What a 32-bit word stands for on a Lamplighter core among the Lx instructions: opcode 0x0B, funct3 and funct7 (R354). -/
def decodeLx (w : Nat) : Except Reject Instr :=
  match fld w 12 3 with
  | 0 => build (fld w 26 6 == 0 && fld w 25 1 == 0 && fld w 0 7 == 11) (some (.lxRfetch (bv 5 w 7) (bv 5 w 15) (bv 5 w 20)))
  | 1 => build (fld w 26 6 == 0 && fld w 0 7 == 11) (some (.lxBfx (flag w 25) (bv 5 w 7) (bv 5 w 15) (bv 5 w 20)))
  | 2 => build (fld w 26 6 == 0 && fld w 25 1 == 0 && fld w 0 7 == 11) (some (.lxSwait (bv 5 w 7) (bv 5 w 15) (bv 5 w 20)))
  | 3 => build (fld w 26 6 == 0 && fld w 25 1 == 0 && fld w 0 7 == 11) (some (.lxDisp (bv 5 w 7) (bv 5 w 15) (bv 5 w 20)))
  | 4 => build (fld w 26 6 == 0 && fld w 25 1 == 0 && fld w 0 7 == 11) (some (.lxBind (bv 5 w 7) (bv 5 w 15) (bv 5 w 20)))
  | _ => .error .opcode

/-- The instruction that the bytes of a word stand for, the lowest-addressed first. -/
def decode (c : Cls) (bs : List Byte) : Except Reject Instr :=
  match c with
  | .scalar => if bs.length = 4 then decodeScalar (leNat bs) else .error .length
  | .lane => if bs.length = 12 then decodeLane (leNat bs) else .error .length
  | .lx => if bs.length = 4 then decodeLx (leNat bs) else .error .length
  | .event => .error .length

/-- The word of a scalar instruction (R29, R30). -/
def encodeScalar : Instr → Nat
  | .nop sw => pack [(31, sw.toNat)]
  | .add sw rd ra rb => pack [(31, sw.toNat), (24, 1), (18, rd.toNat), (12, ra.toNat), (6, rb.toNat)]
  | .sub sw rd ra rb => pack [(31, sw.toNat), (24, 2), (18, rd.toNat), (12, ra.toNat), (6, rb.toNat)]
  | .mul sw rd ra rb => pack [(31, sw.toNat), (24, 3), (18, rd.toNat), (12, ra.toNat), (6, rb.toNat)]
  | .mulhu sw rd ra rb => pack [(31, sw.toNat), (24, 4), (18, rd.toNat), (12, ra.toNat), (6, rb.toNat)]
  | .mulhs sw rd ra rb => pack [(31, sw.toNat), (24, 5), (18, rd.toNat), (12, ra.toNat), (6, rb.toNat)]
  | .divu sw rd ra rb => pack [(31, sw.toNat), (24, 6), (18, rd.toNat), (12, ra.toNat), (6, rb.toNat)]
  | .divs sw rd ra rb => pack [(31, sw.toNat), (24, 7), (18, rd.toNat), (12, ra.toNat), (6, rb.toNat)]
  | .remu sw rd ra rb => pack [(31, sw.toNat), (24, 8), (18, rd.toNat), (12, ra.toNat), (6, rb.toNat)]
  | .rems sw rd ra rb => pack [(31, sw.toNat), (24, 9), (18, rd.toNat), (12, ra.toNat), (6, rb.toNat)]
  | .and sw rd ra rb => pack [(31, sw.toNat), (24, 10), (18, rd.toNat), (12, ra.toNat), (6, rb.toNat)]
  | .or sw rd ra rb => pack [(31, sw.toNat), (24, 11), (18, rd.toNat), (12, ra.toNat), (6, rb.toNat)]
  | .xor sw rd ra rb => pack [(31, sw.toNat), (24, 12), (18, rd.toNat), (12, ra.toNat), (6, rb.toNat)]
  | .andn sw rd ra rb => pack [(31, sw.toNat), (24, 13), (18, rd.toNat), (12, ra.toNat), (6, rb.toNat)]
  | .shl sw rd ra rb => pack [(31, sw.toNat), (24, 14), (18, rd.toNat), (12, ra.toNat), (6, rb.toNat)]
  | .shr sw rd ra rb => pack [(31, sw.toNat), (24, 15), (18, rd.toNat), (12, ra.toNat), (6, rb.toNat)]
  | .sar sw rd ra rb => pack [(31, sw.toNat), (24, 16), (18, rd.toNat), (12, ra.toNat), (6, rb.toNat)]
  | .minu sw rd ra rb => pack [(31, sw.toNat), (24, 17), (18, rd.toNat), (12, ra.toNat), (6, rb.toNat)]
  | .mins sw rd ra rb => pack [(31, sw.toNat), (24, 18), (18, rd.toNat), (12, ra.toNat), (6, rb.toNat)]
  | .maxu sw rd ra rb => pack [(31, sw.toNat), (24, 19), (18, rd.toNat), (12, ra.toNat), (6, rb.toNat)]
  | .maxs sw rd ra rb => pack [(31, sw.toNat), (24, 20), (18, rd.toNat), (12, ra.toNat), (6, rb.toNat)]
  | .clz sw rd ra => pack [(31, sw.toNat), (24, 21), (18, rd.toNat), (12, ra.toNat)]
  | .ctz sw rd ra => pack [(31, sw.toNat), (24, 22), (18, rd.toNat), (12, ra.toNat)]
  | .popc sw rd ra => pack [(31, sw.toNat), (24, 23), (18, rd.toNat), (12, ra.toNat)]
  | .bext sw sx rd ra rb => pack [(31, sw.toNat), (24, 24), (18, rd.toNat), (12, ra.toNat), (6, rb.toNat), (0, sx.toNat)]
  | .bins sw rd ra rb => pack [(31, sw.toNat), (24, 25), (18, rd.toNat), (12, ra.toNat), (6, rb.toNat)]
  | .cmp sw cc rd ra rb => pack [(31, sw.toNat), (24, 26), (18, rd.toNat), (12, ra.toNat), (6, rb.toNat), (0, cc.code)]
  | .csel sw rd ra rb sc => pack [(31, sw.toNat), (24, 27), (18, rd.toNat), (12, ra.toNat), (6, rb.toNat), (0, sc.toNat)]
  | .addi sw rd ra imm => pack [(31, sw.toNat), (24, 28), (18, rd.toNat), (12, ra.toNat), (0, imm.toNat)]
  | .andi sw rd ra imm => pack [(31, sw.toNat), (24, 29), (18, rd.toNat), (12, ra.toNat), (0, imm.toNat)]
  | .ori sw rd ra imm => pack [(31, sw.toNat), (24, 30), (18, rd.toNat), (12, ra.toNat), (0, imm.toNat)]
  | .xori sw rd ra imm => pack [(31, sw.toNat), (24, 31), (18, rd.toNat), (12, ra.toNat), (0, imm.toNat)]
  | .shli sw rd ra n => pack [(31, sw.toNat), (24, 32), (18, rd.toNat), (12, ra.toNat), (0, n.toNat)]
  | .shri sw rd ra n => pack [(31, sw.toNat), (24, 33), (18, rd.toNat), (12, ra.toNat), (0, n.toNat)]
  | .sari sw rd ra n => pack [(31, sw.toNat), (24, 34), (18, rd.toNat), (12, ra.toNat), (0, n.toNat)]
  | .cmpi sw cc rd ra imm => pack [(31, sw.toNat), (24, 35), (18, rd.toNat), (12, ra.toNat), (8, cc.code), (0, imm.toNat)]
  | .li sw rd imm => pack [(31, sw.toNat), (24, 36), (18, rd.toNat), (0, imm.toNat)]
  | .lih sw rd imm => pack [(31, sw.toNat), (24, 37), (18, rd.toNat), (0, imm.toNat)]
  | .lea sw rd ra rb sh => pack [(31, sw.toNat), (24, 38), (18, rd.toNat), (12, ra.toNat), (6, rb.toNat), (0, sh.toNat)]
  | .addpc sw rd imm => pack [(31, sw.toNat), (24, 39), (18, rd.toNat), (0, imm.toNat)]
  | .b sw off => pack [(31, sw.toNat), (24, 40), (0, off.toNat)]
  | .bc sw cc ra off => pack [(31, sw.toNat), (24, 41), (20, cc.code), (14, ra.toNat), (0, off.toNat)]
  | .loop sw ra off => pack [(31, sw.toNat), (24, 42), (14, ra.toNat), (0, off.toNat)]
  | .call sw off => pack [(31, sw.toNat), (24, 43), (0, off.toNat)]
  | .ret sw ra => pack [(31, sw.toNat), (24, 44), (12, ra.toNat)]
  | .jr sw ra => pack [(31, sw.toNat), (24, 45), (12, ra.toNat)]
  | .lgo sw entry cbase count => pack [(31, sw.toNat), (24, 46), (18, entry.toNat), (12, cbase.toNat), (8, count.toNat)]
  | .ljoin sw => pack [(31, sw.toNat), (24, 47)]
  | .lpop sw rd => pack [(31, sw.toNat), (24, 48), (18, rd.toNat)]
  | .wait sw wick k => pack [(31, sw.toNat), (24, 49), (14, wick.toNat), (0, k.toNat)]
  | .yield sw => pack [(31, sw.toNat), (24, 50)]
  | .exit sw => pack [(31, sw.toNat), (24, 51)]
  | .bar sw cohort => pack [(31, sw.toNat), (24, 52), (0, cohort.toNat)]
  | .srd sw rd num elem => pack [(31, sw.toNat), (24, 53), (18, rd.toNat), (0, num.toNat), (8, elem.toNat)]
  | .swr sw ra num elem => pack [(31, sw.toNat), (24, 54), (12, ra.toNat), (0, num.toNat), (8, elem.toNat)]
  | .sleep sw ra imm => pack [(31, sw.toNat), (24, 55), (12, ra.toNat), (0, imm.toNat)]
  | .sld sw rd ra size ord scope imm => pack [(31, sw.toNat), (24, 56), (18, rd.toNat), (12, ra.toNat), (10, size.code), (8, ord.code), (5, scope.code), (0, imm.toNat)]
  | .sst sw rd ra size ord scope imm => pack [(31, sw.toNat), (24, 57), (18, rd.toNat), (12, ra.toNat), (10, size.code), (8, ord.code), (5, scope.code), (0, imm.toNat)]
  | .sldp sw rd ra size imm => pack [(31, sw.toNat), (24, 58), (18, rd.toNat), (12, ra.toNat), (10, size.code), (0, imm.toNat)]
  | .sstp sw rd ra size imm => pack [(31, sw.toNat), (24, 59), (18, rd.toNat), (12, ra.toNat), (10, size.code), (0, imm.toNat)]
  | .satom sw rd ra dw op ord scope => pack [(31, sw.toNat), (24, 60), (18, rd.toNat), (12, ra.toNat), (11, 1), (10, dw.toNat), (8, ord.code), (5, scope.code), (0, op.code)]
  | .scas sw rd ra dw ord scope => pack [(31, sw.toNat), (24, 61), (18, rd.toNat), (12, ra.toNat), (11, 1), (10, dw.toNat), (8, ord.code), (5, scope.code)]
  | .fence sw ord scope => pack [(31, sw.toNat), (24, 62), (8, ord.code), (5, scope.code)]
  | .cinv sw ra size scope imm => pack [(31, sw.toNat), (24, 63), (12, ra.toNat), (10, size.code), (5, scope.code), (0, imm.toNat)]
  | .ccln sw ra size scope imm => pack [(31, sw.toNat), (24, 64), (12, ra.toNat), (10, size.code), (5, scope.code), (0, imm.toNat)]
  | .pref sw x ra size imm => pack [(31, sw.toNat), (24, 65), (18, x.toNat), (12, ra.toNat), (10, size.code), (0, imm.toNat)]
  | .flip sw dom mode lazy ra => pack [(31, sw.toNat), (24, 66), (18, ra.toNat), (0, dom.code), (3, mode.code), (5, lazy.toNat)]
  | .pfree sw dom mode mv ra => pack [(31, sw.toNat), (24, 67), (18, ra.toNat), (0, dom.code), (3, mode.code), (6, mv.code)]
  | .pstat sw dom what ra => pack [(31, sw.toNat), (24, 68), (18, ra.toNat), (0, dom.code), (3, what.code)]
  | .xfer sw ra wick => pack [(31, sw.toNat), (24, 69), (18, ra.toNat), (14, wick.toNat)]
  | .xcvt sw ra wick => pack [(31, sw.toNat), (24, 70), (18, ra.toNat), (14, wick.toNat)]
  | .xfill sw ra wick => pack [(31, sw.toNat), (24, 71), (18, ra.toNat), (14, wick.toNat)]
  | .xgath sw ra wick => pack [(31, sw.toNat), (24, 72), (18, ra.toNat), (14, wick.toNat)]
  | .xred sw ra wick => pack [(31, sw.toNat), (24, 73), (18, ra.toNat), (14, wick.toNat)]
  | .xbcst sw ra wick => pack [(31, sw.toNat), (24, 74), (18, ra.toNat), (14, wick.toNat)]
  | .xagree sw ra wick => pack [(31, sw.toNat), (24, 75), (18, ra.toNat), (14, wick.toNat)]
  | .xcanc sw wick => pack [(31, sw.toNat), (24, 76), (14, wick.toNat)]
  | .xstat sw clr chk ra wick => pack [(31, sw.toNat), (24, 77), (18, ra.toNat), (14, wick.toNat), (0, clr.toNat), (1, chk.toNat)]
  | .launch sw done ra wick => pack [(31, sw.toNat), (24, 78), (18, ra.toNat), (14, wick.toNat), (0, done.toNat)]
  | .gsig sw ra => pack [(31, sw.toNat), (24, 79), (18, ra.toNat)]
  | .tstat sw self clr ra wick => pack [(31, sw.toNat), (24, 80), (18, ra.toNat), (14, wick.toNat), (0, self.toNat), (1, clr.toNat)]
  | .tabort sw ra => pack [(31, sw.toNat), (24, 81), (18, ra.toNat)]
  | .semsig sw scope ra => pack [(31, sw.toNat), (24, 82), (18, ra.toNat), (0, scope.code)]
  | .semwait sw take scope ra => pack [(31, sw.toNat), (24, 83), (18, ra.toNat), (0, scope.code), (3, take.toNat)]
  | .trap sw code => pack [(31, sw.toNat), (24, 84), (0, code.toNat)]
  | .assert sw ra rm => pack [(31, sw.toNat), (24, 85), (18, rm.toNat), (12, ra.toNat)]
  | .phint sw n => pack [(31, sw.toNat), (24, 86), (0, n.toNat)]
  | .tret sw => pack [(31, sw.toNat), (24, 87)]
  | .brk sw code => pack [(31, sw.toNat), (24, 88), (0, code.toNat)]
  | .sysr sw rd num => pack [(31, sw.toNat), (24, 89), (18, rd.toNat), (0, num.toNat)]
  | .sysw sw ra num => pack [(31, sw.toNat), (24, 90), (12, ra.toNat), (0, num.toNat)]
  | .kzero sw ra => pack [(31, sw.toNat), (24, 91), (18, ra.toNat)]
  | .scrub sw ra wick => pack [(31, sw.toNat), (24, 92), (18, ra.toNat), (14, wick.toNat)]
  | .tlbi sw kind ra => pack [(31, sw.toNat), (24, 93), (18, ra.toNat), (0, kind.code)]
  | .cctl sw op ra => pack [(31, sw.toNat), (24, 94), (18, ra.toNat), (0, op.code)]
  | .vbrep sw ra => pack [(31, sw.toNat), (24, 95), (18, ra.toNat)]
  | .sfadd sw d rm rd ra rb => pack [(31, sw.toNat), (24, 96), (18, rd.toNat), (12, ra.toNat), (6, rb.toNat), (4, d.toNat), (0, rm.code)]
  | .sfsub sw d rm rd ra rb => pack [(31, sw.toNat), (24, 97), (18, rd.toNat), (12, ra.toNat), (6, rb.toNat), (4, d.toNat), (0, rm.code)]
  | .sfmul sw d rm rd ra rb => pack [(31, sw.toNat), (24, 98), (18, rd.toNat), (12, ra.toNat), (6, rb.toNat), (4, d.toNat), (0, rm.code)]
  | .sffma sw d rm rd ra rb => pack [(31, sw.toNat), (24, 99), (18, rd.toNat), (12, ra.toNat), (6, rb.toNat), (4, d.toNat), (0, rm.code)]
  | .sfmin sw d rd ra rb => pack [(31, sw.toNat), (24, 100), (18, rd.toNat), (12, ra.toNat), (6, rb.toNat), (4, d.toNat)]
  | .sfmax sw d rd ra rb => pack [(31, sw.toNat), (24, 101), (18, rd.toNat), (12, ra.toNat), (6, rb.toNat), (4, d.toNat)]
  | .sfcmp sw fc d rd ra rb => pack [(31, sw.toNat), (24, 102), (18, rd.toNat), (12, ra.toNat), (6, rb.toNat), (4, d.toNat), (0, fc.code)]
  | .sfcvt sw tgt frm rm rd ra => pack [(31, sw.toNat), (24, 103), (18, rd.toNat), (12, ra.toNat), (4, tgt.code), (2, frm.code), (0, rm.code)]
  | .sf2i sw u d rm rd ra => pack [(31, sw.toNat), (24, 104), (18, rd.toNat), (12, ra.toNat), (4, d.toNat), (2, u.toNat), (0, rm.code)]
  | .si2f sw u d rm rd ra => pack [(31, sw.toNat), (24, 105), (18, rd.toNat), (12, ra.toNat), (4, d.toNat), (2, u.toNat), (0, rm.code)]
  | .sfabs sw d rd ra => pack [(31, sw.toNat), (24, 106), (18, rd.toNat), (12, ra.toNat), (4, d.toNat)]
  | .sfneg sw d rd ra => pack [(31, sw.toNat), (24, 107), (18, rd.toNat), (12, ra.toNat), (4, d.toNat)]
  | .sfrcp sw d rm rd ra => pack [(31, sw.toNat), (24, 108), (18, rd.toNat), (12, ra.toNat), (4, d.toNat), (0, rm.code)]
  | .sfsqrt sw d rm rd ra => pack [(31, sw.toNat), (24, 109), (18, rd.toNat), (12, ra.toNat), (4, d.toNat), (0, rm.code)]
  | .sfdiv sw d rm rd ra rb => pack [(31, sw.toNat), (24, 110), (18, rd.toNat), (12, ra.toNat), (6, rb.toNat), (4, d.toNat), (0, rm.code)]
  | .sfround sw d rm rd ra => pack [(31, sw.toNat), (24, 111), (18, rd.toNat), (12, ra.toNat), (4, d.toNat), (0, rm.code)]
  | _ => 0

/-- The word of a lane instruction (R34). -/
def encodeLane : Instr → Nat
  | .lnop sw => pack [(95, sw.toNat)]
  | .iadd h d a b imm => pack [(87, 1), (95, h.sw.toNat), (86, h.neg.toNat), (83, h.prd.toNat), (75, d.toNat), (67, a.code), (59, b.code), (0, imm.toNat)]
  | .isub h d a b imm => pack [(87, 2), (95, h.sw.toNat), (86, h.neg.toNat), (83, h.prd.toNat), (75, d.toNat), (67, a.code), (59, b.code), (0, imm.toNat)]
  | .imul h d a b imm => pack [(87, 3), (95, h.sw.toNat), (86, h.neg.toNat), (83, h.prd.toNat), (75, d.toNat), (67, a.code), (59, b.code), (0, imm.toNat)]
  | .imad h d a b c imm => pack [(87, 4), (95, h.sw.toNat), (86, h.neg.toNat), (83, h.prd.toNat), (75, d.toNat), (67, a.code), (59, b.code), (51, c.code), (0, imm.toNat)]
  | .imulh h u d a b imm => pack [(87, 5), (95, h.sw.toNat), (86, h.neg.toNat), (83, h.prd.toNat), (75, d.toNat), (67, a.code), (59, b.code), (35, u.toNat), (0, imm.toNat)]
  | .iabs h d a imm => pack [(87, 6), (95, h.sw.toNat), (86, h.neg.toNat), (83, h.prd.toNat), (75, d.toNat), (67, a.code), (0, imm.toNat)]
  | .imin h u d a b imm => pack [(87, 7), (95, h.sw.toNat), (86, h.neg.toNat), (83, h.prd.toNat), (75, d.toNat), (67, a.code), (59, b.code), (35, u.toNat), (0, imm.toNat)]
  | .imax h u d a b imm => pack [(87, 8), (95, h.sw.toNat), (86, h.neg.toNat), (83, h.prd.toNat), (75, d.toNat), (67, a.code), (59, b.code), (35, u.toNat), (0, imm.toNat)]
  | .laneAnd h d a b imm => pack [(87, 9), (95, h.sw.toNat), (86, h.neg.toNat), (83, h.prd.toNat), (75, d.toNat), (67, a.code), (59, b.code), (0, imm.toNat)]
  | .laneOr h d a b imm => pack [(87, 10), (95, h.sw.toNat), (86, h.neg.toNat), (83, h.prd.toNat), (75, d.toNat), (67, a.code), (59, b.code), (0, imm.toNat)]
  | .laneXor h d a b imm => pack [(87, 11), (95, h.sw.toNat), (86, h.neg.toNat), (83, h.prd.toNat), (75, d.toNat), (67, a.code), (59, b.code), (0, imm.toNat)]
  | .not h d a imm => pack [(87, 12), (95, h.sw.toNat), (86, h.neg.toNat), (83, h.prd.toNat), (75, d.toNat), (67, a.code), (0, imm.toNat)]
  | .laneShl h d a b imm => pack [(87, 13), (95, h.sw.toNat), (86, h.neg.toNat), (83, h.prd.toNat), (75, d.toNat), (67, a.code), (59, b.code), (0, imm.toNat)]
  | .laneShr h d a b imm => pack [(87, 14), (95, h.sw.toNat), (86, h.neg.toNat), (83, h.prd.toNat), (75, d.toNat), (67, a.code), (59, b.code), (0, imm.toNat)]
  | .laneSar h d a b imm => pack [(87, 15), (95, h.sw.toNat), (86, h.neg.toNat), (83, h.prd.toNat), (75, d.toNat), (67, a.code), (59, b.code), (0, imm.toNat)]
  | .dsh h l d a b c imm => pack [(87, 16), (95, h.sw.toNat), (86, h.neg.toNat), (83, h.prd.toNat), (75, d.toNat), (67, a.code), (59, b.code), (51, c.code), (35, l.toNat), (0, imm.toNat)]
  | .bfe h sx d a b imm => pack [(87, 17), (95, h.sw.toNat), (86, h.neg.toNat), (83, h.prd.toNat), (75, d.toNat), (67, a.code), (59, b.code), (35, sx.toNat), (0, imm.toNat)]
  | .bfi h d a b c imm => pack [(87, 18), (95, h.sw.toNat), (86, h.neg.toNat), (83, h.prd.toNat), (75, d.toNat), (67, a.code), (59, b.code), (51, c.code), (0, imm.toNat)]
  | .lanePopc h d a imm => pack [(87, 19), (95, h.sw.toNat), (86, h.neg.toNat), (83, h.prd.toNat), (75, d.toNat), (67, a.code), (0, imm.toNat)]
  | .laneClz h d a imm => pack [(87, 20), (95, h.sw.toNat), (86, h.neg.toNat), (83, h.prd.toNat), (75, d.toNat), (67, a.code), (0, imm.toNat)]
  | .brev h d a imm => pack [(87, 21), (95, h.sw.toNat), (86, h.neg.toNat), (83, h.prd.toNat), (75, d.toNat), (67, a.code), (0, imm.toNat)]
  | .perm h d a b c imm => pack [(87, 22), (95, h.sw.toNat), (86, h.neg.toNat), (83, h.prd.toNat), (75, d.toNat), (67, a.code), (59, b.code), (51, c.code), (0, imm.toNat)]
  | .plut h form d a b c imm => pack [(87, 23), (95, h.sw.toNat), (86, h.neg.toNat), (83, h.prd.toNat), (75, d.toNat), (67, a.code), (59, b.code), (51, c.code), (35, form.code), (0, imm.toNat)]
  | .icmp h cc d a b imm => pack [(87, 24), (95, h.sw.toNat), (86, h.neg.toNat), (83, h.prd.toNat), (75, d.code), (67, a.code), (59, b.code), (35, cc.code), (0, imm.toNat)]
  | .sel h d a b c imm => pack [(87, 25), (95, h.sw.toNat), (86, h.neg.toNat), (83, h.prd.toNat), (75, d.toNat), (67, a.code), (59, b.code), (51, c.code), (0, imm.toNat)]
  | .mov h d a imm => pack [(87, 26), (95, h.sw.toNat), (86, h.neg.toNat), (83, h.prd.toNat), (75, d.toNat), (67, a.code), (0, imm.toNat)]
  | .idot4 h u d a b c imm => pack [(87, 27), (95, h.sw.toNat), (86, h.neg.toNat), (83, h.prd.toNat), (75, d.toNat), (67, a.code), (59, b.code), (51, c.code), (35, u.toNat), (0, imm.toNat)]
  | .prev h d a b imm => pack [(87, 28), (95, h.sw.toNat), (86, h.neg.toNat), (83, h.prd.toNat), (75, d.toNat), (67, a.code), (59, b.code), (0, imm.toNat)]
  | .next h d a b imm => pack [(87, 29), (95, h.sw.toNat), (86, h.neg.toNat), (83, h.prd.toNat), (75, d.toNat), (67, a.code), (59, b.code), (0, imm.toNat)]
  | .pick h mode d a b c imm => pack [(87, 30), (95, h.sw.toNat), (86, h.neg.toNat), (83, h.prd.toNat), (75, d.toNat), (67, a.code), (59, b.code), (51, c.code), (35, mode.code), (0, imm.toNat)]
  | .rdfl h d a imm => pack [(87, 31), (95, h.sw.toNat), (86, h.neg.toNat), (83, h.prd.toNat), (75, d.toNat), (67, a.code), (0, imm.toNat)]
  | .vote h mode d a imm => pack [(87, 32), (95, h.sw.toNat), (86, h.neg.toNat), (83, h.prd.toNat), (75, d.code), (67, a.code), (35, mode.code), (0, imm.toNat)]
  | .gred h op d a imm => pack [(87, 33), (95, h.sw.toNat), (86, h.neg.toNat), (83, h.prd.toNat), (75, d.toNat), (67, a.code), (35, op.code), (0, imm.toNat)]
  | .gscan h op excl d a imm => pack [(87, 34), (95, h.sw.toNat), (86, h.neg.toNat), (83, h.prd.toNat), (75, d.toNat), (67, a.code), (35, op.code), (39, excl.toNat), (0, imm.toNat)]
  | .plog h tt d a b c imm => pack [(87, 35), (95, h.sw.toNat), (86, h.neg.toNat), (83, h.prd.toNat), (75, d.code), (67, a.code), (59, b.code), (51, c.code), (35, tt.toNat), (0, imm.toNat)]
  | .lsrd h hi num elem d => pack [(87, 36), (95, h.sw.toNat), (86, h.neg.toNat), (83, h.prd.toNat), (75, d.toNat), (35, num.toNat), (43, elem.toNat), (47, hi.toNat)]
  | .lpush h dw a imm => pack [(87, 37), (95, h.sw.toNat), (86, h.neg.toNat), (83, h.prd.toNat), (67, a.code), (35, dw.toNat), (0, imm.toNat)]
  | .ipack h byt u sat d a b imm => pack [(87, 38), (95, h.sw.toNat), (86, h.neg.toNat), (83, h.prd.toNat), (75, d.toNat), (67, a.code), (59, b.code), (36, byt.toNat), (35, u.toNat), (37, sat.toNat), (0, imm.toNat)]
  | .iext h byt u d a b imm => pack [(87, 39), (95, h.sw.toNat), (86, h.neg.toNat), (83, h.prd.toNat), (75, d.toNat), (67, a.code), (59, b.code), (36, byt.toNat), (35, u.toNat), (0, imm.toNat)]
  | .fadd h ftz rm d a b imm => pack [(87, 40), (95, h.sw.toNat), (86, h.neg.toNat), (83, h.prd.toNat), (75, d.toNat), (67, a.code), (59, b.code), (37, ftz.toNat), (35, rm.code), (0, imm.toNat)]
  | .fsub h ftz rm d a b imm => pack [(87, 41), (95, h.sw.toNat), (86, h.neg.toNat), (83, h.prd.toNat), (75, d.toNat), (67, a.code), (59, b.code), (37, ftz.toNat), (35, rm.code), (0, imm.toNat)]
  | .fmul h ftz rm d a b imm => pack [(87, 42), (95, h.sw.toNat), (86, h.neg.toNat), (83, h.prd.toNat), (75, d.toNat), (67, a.code), (59, b.code), (37, ftz.toNat), (35, rm.code), (0, imm.toNat)]
  | .ffma h ftz rm d a b c imm => pack [(87, 43), (95, h.sw.toNat), (86, h.neg.toNat), (83, h.prd.toNat), (75, d.toNat), (67, a.code), (59, b.code), (51, c.code), (37, ftz.toNat), (35, rm.code), (0, imm.toNat)]
  | .fmin h ftz d a b imm => pack [(87, 44), (95, h.sw.toNat), (86, h.neg.toNat), (83, h.prd.toNat), (75, d.toNat), (67, a.code), (59, b.code), (37, ftz.toNat), (0, imm.toNat)]
  | .fmax h ftz d a b imm => pack [(87, 45), (95, h.sw.toNat), (86, h.neg.toNat), (83, h.prd.toNat), (75, d.toNat), (67, a.code), (59, b.code), (37, ftz.toNat), (0, imm.toNat)]
  | .fabs h d a imm => pack [(87, 46), (95, h.sw.toNat), (86, h.neg.toNat), (83, h.prd.toNat), (75, d.toNat), (67, a.code), (0, imm.toNat)]
  | .fneg h d a imm => pack [(87, 47), (95, h.sw.toNat), (86, h.neg.toNat), (83, h.prd.toNat), (75, d.toNat), (67, a.code), (0, imm.toNat)]
  | .fcmp h fc ftz d a b imm => pack [(87, 48), (95, h.sw.toNat), (86, h.neg.toNat), (83, h.prd.toNat), (75, d.code), (67, a.code), (59, b.code), (39, fc.code), (37, ftz.toNat), (0, imm.toNat)]
  | .fclass h fmt d a imm => pack [(87, 49), (95, h.sw.toNat), (86, h.neg.toNat), (83, h.prd.toNat), (75, d.toNat), (67, a.code), (39, fmt.code), (0, imm.toNat)]
  | .frcp h ftz rm d a imm => pack [(87, 50), (95, h.sw.toNat), (86, h.neg.toNat), (83, h.prd.toNat), (75, d.toNat), (67, a.code), (37, ftz.toNat), (35, rm.code), (0, imm.toNat)]
  | .frsq h ftz rm d a imm => pack [(87, 51), (95, h.sw.toNat), (86, h.neg.toNat), (83, h.prd.toNat), (75, d.toNat), (67, a.code), (37, ftz.toNat), (35, rm.code), (0, imm.toNat)]
  | .fsqrt h ftz rm d a imm => pack [(87, 52), (95, h.sw.toNat), (86, h.neg.toNat), (83, h.prd.toNat), (75, d.toNat), (67, a.code), (37, ftz.toNat), (35, rm.code), (0, imm.toNat)]
  | .fdiv h ftz rm d a b imm => pack [(87, 53), (95, h.sw.toNat), (86, h.neg.toNat), (83, h.prd.toNat), (75, d.toNat), (67, a.code), (59, b.code), (37, ftz.toNat), (35, rm.code), (0, imm.toNat)]
  | .fexp2 h ftz rm d a imm => pack [(87, 54), (95, h.sw.toNat), (86, h.neg.toNat), (83, h.prd.toNat), (75, d.toNat), (67, a.code), (37, ftz.toNat), (35, rm.code), (0, imm.toNat)]
  | .flog2 h ftz rm d a imm => pack [(87, 55), (95, h.sw.toNat), (86, h.neg.toNat), (83, h.prd.toNat), (75, d.toNat), (67, a.code), (37, ftz.toNat), (35, rm.code), (0, imm.toNat)]
  | .fround h ftz rm d a imm => pack [(87, 56), (95, h.sw.toNat), (86, h.neg.toNat), (83, h.prd.toNat), (75, d.toNat), (67, a.code), (37, ftz.toNat), (35, rm.code), (0, imm.toNat)]
  | .fscale h ftz rm d a b imm => pack [(87, 57), (95, h.sw.toNat), (86, h.neg.toNat), (83, h.prd.toNat), (75, d.toNat), (67, a.code), (59, b.code), (37, ftz.toNat), (35, rm.code), (0, imm.toNat)]
  | .fgetexp h ftz d a imm => pack [(87, 58), (95, h.sw.toNat), (86, h.neg.toNat), (83, h.prd.toNat), (75, d.toNat), (67, a.code), (37, ftz.toNat), (0, imm.toNat)]
  | .f2i h u rm d a imm => pack [(87, 59), (95, h.sw.toNat), (86, h.neg.toNat), (83, h.prd.toNat), (75, d.toNat), (67, a.code), (38, u.toNat), (35, rm.code), (0, imm.toNat)]
  | .i2f h u rm d a imm => pack [(87, 60), (95, h.sw.toNat), (86, h.neg.toNat), (83, h.prd.toNat), (75, d.toNat), (67, a.code), (38, u.toNat), (35, rm.code), (0, imm.toNat)]
  | .fcvt h tgt frm rm d a imm => pack [(87, 61), (95, h.sw.toNat), (86, h.neg.toNat), (83, h.prd.toNat), (75, d.toNat), (67, a.code), (39, tgt.code), (41, frm.code), (35, rm.code), (0, imm.toNat)]
  | .fpack2 h bf rm d a b imm => pack [(87, 62), (95, h.sw.toNat), (86, h.neg.toNat), (83, h.prd.toNat), (75, d.toNat), (67, a.code), (59, b.code), (39, bf.toNat), (35, rm.code), (0, imm.toNat)]
  | .hadd2 h bf rm d a b imm => pack [(87, 63), (95, h.sw.toNat), (86, h.neg.toNat), (83, h.prd.toNat), (75, d.toNat), (67, a.code), (59, b.code), (39, bf.toNat), (35, rm.code), (0, imm.toNat)]
  | .hmul2 h bf rm d a b imm => pack [(87, 64), (95, h.sw.toNat), (86, h.neg.toNat), (83, h.prd.toNat), (75, d.toNat), (67, a.code), (59, b.code), (39, bf.toNat), (35, rm.code), (0, imm.toNat)]
  | .hfma2 h bf rm d a b c imm => pack [(87, 65), (95, h.sw.toNat), (86, h.neg.toNat), (83, h.prd.toNat), (75, d.toNat), (67, a.code), (59, b.code), (51, c.code), (39, bf.toNat), (35, rm.code), (0, imm.toNat)]
  | .qpack h i8 fix d a b imm => pack [(87, 66), (95, h.sw.toNat), (86, h.neg.toNat), (83, h.prd.toNat), (75, d.toNat), (67, a.code), (59, b.code), (39, i8.toNat), (38, fix.toNat), (0, imm.toNat)]
  | .qunpack h i8 d a b c imm => pack [(87, 67), (95, h.sw.toNat), (86, h.neg.toNat), (83, h.prd.toNat), (75, d.toNat), (67, a.code), (59, b.code), (51, c.code), (39, i8.toNat), (0, imm.toNat)]
  | .f8pack h e5 sat hi rm d a b c imm => pack [(87, 68), (95, h.sw.toNat), (86, h.neg.toNat), (83, h.prd.toNat), (75, d.toNat), (67, a.code), (59, b.code), (51, c.code), (39, e5.toNat), (38, sat.toNat), (40, hi.toNat), (35, rm.code), (0, imm.toNat)]
  | .f8unpack h e5 d a b imm => pack [(87, 69), (95, h.sw.toNat), (86, h.neg.toNat), (83, h.prd.toNat), (75, d.toNat), (67, a.code), (59, b.code), (39, e5.toNat), (0, imm.toNat)]
  | .dadd h rm d a b imm => pack [(87, 70), (95, h.sw.toNat), (86, h.neg.toNat), (83, h.prd.toNat), (75, d.toNat), (67, a.code), (59, b.code), (35, rm.code), (0, imm.toNat)]
  | .dfma h rm d a b c imm => pack [(87, 71), (95, h.sw.toNat), (86, h.neg.toNat), (83, h.prd.toNat), (75, d.toNat), (67, a.code), (59, b.code), (51, c.code), (35, rm.code), (0, imm.toNat)]
  | .lbr h off => pack [(87, 72), (95, h.sw.toNat), (86, h.neg.toNat), (83, h.prd.toNat), (0, off.toNat)]
  | .ljmp h a imm => pack [(87, 73), (95, h.sw.toNat), (86, h.neg.toNat), (83, h.prd.toNat), (67, a.code), (0, imm.toNat)]
  | .lcall h off => pack [(87, 74), (95, h.sw.toNat), (86, h.neg.toNat), (83, h.prd.toNat), (0, off.toNat)]
  | .lret h => pack [(87, 75), (95, h.sw.toNat), (86, h.neg.toNat), (83, h.prd.toNat)]
  | .lend h => pack [(87, 76), (95, h.sw.toNat), (86, h.neg.toNat), (83, h.prd.toNat)]
  | .lkill h => pack [(87, 77), (95, h.sw.toNat), (86, h.neg.toNat), (83, h.prd.toNat)]
  | .lmask h mode d a imm => pack [(87, 78), (95, h.sw.toNat), (86, h.neg.toNat), (83, h.prd.toNat), (75, (0x48 + d.toNat)), (67, a.code), (35, mode.code), (0, imm.toNat)]
  | .lassert h a b imm => pack [(87, 79), (95, h.sw.toNat), (86, h.neg.toNat), (83, h.prd.toNat), (67, a.code), (59, b.code), (0, imm.toNat)]
  | .ldg h size sx ord scope d ca x off => pack [(87, 80), (95, h.sw.toNat), (86, h.neg.toNat), (83, h.prd.toNat), (75, d.toNat), (67, (0x40 + ca.toNat)), (59, x.code), (35, size.code), (38, ord.code), (40, scope.code), (37, sx.toNat), (0, off.toNat)]
  | .stg h size ord scope ca x c off => pack [(87, 81), (95, h.sw.toNat), (86, h.neg.toNat), (83, h.prd.toNat), (67, (0x40 + ca.toNat)), (59, x.code), (51, c.code), (35, size.code), (38, ord.code), (40, scope.code), (0, off.toNat)]
  | .ldgx h size sx ord scope d a off => pack [(87, 82), (95, h.sw.toNat), (86, h.neg.toNat), (83, h.prd.toNat), (75, d.toNat), (67, a.code), (35, size.code), (38, ord.code), (40, scope.code), (37, sx.toNat), (0, off.toNat)]
  | .stgx h size ord scope a c off => pack [(87, 83), (95, h.sw.toNat), (86, h.neg.toNat), (83, h.prd.toNat), (67, a.code), (51, c.code), (35, size.code), (38, ord.code), (40, scope.code), (0, off.toNat)]
  | .ldgv h cnt d ca x off => pack [(87, 84), (95, h.sw.toNat), (86, h.neg.toNat), (83, h.prd.toNat), (75, d.toNat), (67, (0x40 + ca.toNat)), (59, x.code), (35, 2), (43, cnt.code), (0, off.toNat)]
  | .stgv h cnt ca x c off => pack [(87, 85), (95, h.sw.toNat), (86, h.neg.toNat), (83, h.prd.toNat), (67, (0x40 + ca.toNat)), (59, x.code), (51, c.toNat), (35, 2), (43, cnt.code), (0, off.toNat)]
  | .lds h size sx ord scope d a off => pack [(87, 86), (95, h.sw.toNat), (86, h.neg.toNat), (83, h.prd.toNat), (75, d.toNat), (67, a.code), (35, size.code), (38, ord.code), (40, scope.code), (37, sx.toNat), (0, off.toNat)]
  | .sts h size ord scope a c off => pack [(87, 87), (95, h.sw.toNat), (86, h.neg.toNat), (83, h.prd.toNat), (67, a.code), (51, c.code), (35, size.code), (38, ord.code), (40, scope.code), (0, off.toNat)]
  | .ldsb h cnt d a off => pack [(87, 88), (95, h.sw.toNat), (86, h.neg.toNat), (83, h.prd.toNat), (75, d.toNat), (67, a.code), (35, 2), (43, cnt.code), (0, off.toNat)]
  | .stsb h cnt a c off => pack [(87, 89), (95, h.sw.toNat), (86, h.neg.toNat), (83, h.prd.toNat), (67, a.code), (51, c.toNat), (35, 2), (43, cnt.code), (0, off.toNat)]
  | .atomg h dw op ord scope d ca x c off => pack [(87, 90), (95, h.sw.toNat), (86, h.neg.toNat), (83, h.prd.toNat), (75, d.toNat), (67, (0x40 + ca.toNat)), (59, x.code), (51, c.code), (36, 1), (35, dw.toNat), (38, ord.code), (40, scope.code), (47, op.code), (0, off.toNat)]
  | .casg h dw ord scope d ca x c off => pack [(87, 91), (95, h.sw.toNat), (86, h.neg.toNat), (83, h.prd.toNat), (75, d.toNat), (67, (0x40 + ca.toNat)), (59, x.code), (51, c.toNat), (36, 1), (35, dw.toNat), (38, ord.code), (40, scope.code), (0, off.toNat)]
  | .atomgx h dw op ord scope d a c off => pack [(87, 92), (95, h.sw.toNat), (86, h.neg.toNat), (83, h.prd.toNat), (75, d.toNat), (67, a.code), (51, c.code), (36, 1), (35, dw.toNat), (38, ord.code), (40, scope.code), (47, op.code), (0, off.toNat)]
  | .redg h dw op ord scope ca x c off => pack [(87, 93), (95, h.sw.toNat), (86, h.neg.toNat), (83, h.prd.toNat), (67, (0x40 + ca.toNat)), (59, x.code), (51, c.code), (36, 1), (35, dw.toNat), (38, ord.code), (40, scope.code), (47, op.code), (0, off.toNat)]
  | .atoms h dw op ord scope d a c off => pack [(87, 94), (95, h.sw.toNat), (86, h.neg.toNat), (83, h.prd.toNat), (75, d.toNat), (67, a.code), (51, c.code), (36, 1), (35, dw.toNat), (38, ord.code), (40, scope.code), (47, op.code), (0, off.toNat)]
  | .cass h dw ord scope d a c off => pack [(87, 95), (95, h.sw.toNat), (86, h.neg.toNat), (83, h.prd.toNat), (75, d.toNat), (67, a.code), (51, c.toNat), (36, 1), (35, dw.toNat), (38, ord.code), (40, scope.code), (0, off.toNat)]
  | .prefg h size tlb ca x off => pack [(87, 96), (95, h.sw.toNat), (86, h.neg.toNat), (83, h.prd.toNat), (67, (0x40 + ca.toNat)), (59, x.code), (35, size.code), (45, tlb.toNat), (0, off.toNat)]
  | .ldbc h size sx ord scope d ca off => pack [(87, 97), (95, h.sw.toNat), (86, h.neg.toNat), (83, h.prd.toNat), (75, d.toNat), (67, (0x40 + ca.toNat)), (35, size.code), (38, ord.code), (40, scope.code), (37, sx.toNat), (0, off.toNat)]
  | .stgm h dw a b c off => pack [(87, 98), (95, h.sw.toNat), (86, h.neg.toNat), (83, h.prd.toNat), (67, a.code), (59, b.code), (51, c.code), (36, 1), (35, dw.toNat), (0, off.toNat)]
  | .pchk h wr d a off => pack [(87, 99), (95, h.sw.toNat), (86, h.neg.toNat), (83, h.prd.toNat), (75, (0x48 + d.toNat)), (67, a.code), (45, wr.toNat), (0, off.toNat)]
  | .mma h tile wick ca cb desc steps => pack [(87, 100), (95, h.sw.toNat), (86, h.neg.toNat), (83, h.prd.toNat), (67, (0x40 + ca.toNat)), (59, (0x40 + cb.toNat)), (35, tile.toNat), (41, wick.toNat), (0, desc.toNat), (8, steps.toNat)]
  | .mzero h flt tile e => pack [(87, 101), (95, h.sw.toNat), (86, h.neg.toNat), (83, h.prd.toNat), (35, tile.toNat), (45, flt.toNat), (0, e.toNat)]
  | .mld h sp tile wick ca stride => pack [(87, 102), (95, h.sw.toNat), (86, h.neg.toNat), (83, h.prd.toNat), (67, (0x40 + ca.toNat)), (35, tile.toNat), (41, wick.toNat), (45, sp.toNat), (0, stride.toNat)]
  | .mst h sp tile wick ca stride => pack [(87, 103), (95, h.sw.toNat), (86, h.neg.toNat), (83, h.prd.toNat), (67, (0x40 + ca.toNat)), (35, tile.toNat), (41, wick.toNat), (45, sp.toNat), (0, stride.toNat)]
  | .madd h td tx ty => pack [(87, 104), (95, h.sw.toNat), (86, h.neg.toNat), (83, h.prd.toNat), (35, td.toNat), (0, tx.toNat), (8, ty.toNat)]
  | .mcvt h flt tile e => pack [(87, 105), (95, h.sw.toNat), (86, h.neg.toNat), (83, h.prd.toNat), (35, tile.toNat), (45, flt.toNat), (0, e.toNat)]
  | .mscl h tile a imm => pack [(87, 106), (95, h.sw.toNat), (86, h.neg.toNat), (83, h.prd.toNat), (67, a.code), (35, tile.toNat), (0, imm.toNat)]
  | .mfmt h d tile desc => pack [(87, 107), (95, h.sw.toNat), (86, h.neg.toNat), (83, h.prd.toNat), (75, d.toNat), (35, tile.toNat), (0, desc.toNat)]
  | .mstat h flg d n => pack [(87, 108), (95, h.sw.toNat), (86, h.neg.toNat), (83, h.prd.toNat), (75, d.toNat), (35, n.toNat), (45, flg.toNat)]
  | .wsel h a imm => pack [(87, 109), (95, h.sw.toNat), (86, h.neg.toNat), (83, h.prd.toNat), (67, a.code), (0, imm.toNat)]
  | .mtrans h td tx => pack [(87, 110), (95, h.sw.toNat), (86, h.neg.toNat), (83, h.prd.toNat), (35, td.toNat), (0, tx.toNat)]
  | .mglow h n => pack [(87, 111), (95, h.sw.toNat), (86, h.neg.toNat), (83, h.prd.toNat), (0, n.toNat)]
  | _ => 0

/-- The word of an Lx instruction (R354). -/
def encodeLx : Instr → Nat
  | .lxRfetch rd rs1 rs2 => pack [(20, rs2.toNat), (15, rs1.toNat), (7, rd.toNat), (0, 11)]
  | .lxBfx sx rd rs1 rs2 => pack [(25, sx.toNat), (20, rs2.toNat), (15, rs1.toNat), (12, 1), (7, rd.toNat), (0, 11)]
  | .lxSwait rd rs1 rs2 => pack [(20, rs2.toNat), (15, rs1.toNat), (12, 2), (7, rd.toNat), (0, 11)]
  | .lxDisp rd rs1 rs2 => pack [(20, rs2.toNat), (15, rs1.toNat), (12, 3), (7, rd.toNat), (0, 11)]
  | .lxBind rd rs1 rs2 => pack [(20, rs2.toNat), (15, rs1.toNat), (12, 4), (7, rd.toNat), (0, 11)]
  | _ => 0

/-- The word of an instruction; an event has none. -/
def encodeNat (i : Instr) : Option Nat :=
  match i.cls with
  | .scalar => some (encodeScalar i)
  | .lane => some (encodeLane i)
  | .lx => some (encodeLx i)
  | .event => none

/-- The number of bytes of a word of a class. -/
def Cls.bytes : Cls → Nat
  | .scalar => 4
  | .lane => 12
  | .lx => 4
  | .event => 0

/-- The bytes of an instruction's word, the lowest-addressed first (R29, R34). -/
def encode (i : Instr) : Option (List Byte) :=
  (encodeNat i).map (leBytes i.cls.bytes)

/-- The instruction a word of the opcode table's numbering stands for: 96 bits are a lane word; 32 bits a scalar word or, where they are none, an Lx word. -/
def decodeTableWord (nbits w : Nat) : Option Instr :=
  if nbits = 96 then (decode .lane (leBytes 12 w)).toOption
  else if nbits ≤ 32 then
    match decode .scalar (leBytes 4 w) with
    | .ok i => some i
    | .error _ => (decode .lx (leBytes 4 w)).toOption
  else none

end Sys2Proof
end

