-- ==== Sys2Proof/Machine/Operands.lean ====
section
/-!
DEFINITION. Sys2Proof/Machine/Operands.lean: the operand forms of lane instructions: selectors at each width (R35, R36), their poison and
darkness (R168, R208), uniform values, and the addresses of the lane memory forms (R137, R138).
-/
namespace Sys2Proof.Machine

/-- Captured operand `n` of the running block; 0 beyond those captured (R63). -/
def Group.cap (g : Group) (n : Nat) : Word := match g.lq with
  | b :: _ => lget 0 b.caps n
  | [] => 0

/-- A source in a 32-bit integer position (R36). -/
def State.op32 (s : State) (imm : BitVec 32) (t : Nat) : Sel → BitVec 32
  | .v n => s.rV t n
  | .c n => (s.grp.cap n.toNat).truncate 32
  | .p n => b2w 32 (s.rP t n.toNat)
  | .imm => imm
  | .const n => BitVec.ofInt 32 ((n.toNat : Int) - 32)

/-- A pair of vector registers of a thread, the low half first (R36). -/
def State.pair (s : State) (t : Nat) (n : VReg) : Word := s.rV t (n + 1) ++ s.rV t n

/-- A source in a 64-bit integer position (R36). -/
def State.op64 (s : State) (imm : BitVec 32) (t : Nat) : Sel → Word
  | .v n => s.pair t n
  | .c n => s.grp.cap n.toNat
  | .p n => b2w 64 (s.rP t n.toNat)
  | .imm => imm.signExtend 64
  | .const n => BitVec.ofInt 64 ((n.toNat : Int) - 32)

/-- A source in a floating-point position of a format of at most 32 bits: registers as they stand, imm32 as an FP32 pattern converted by
nearest even, constants exactly (R36). -/
def State.opF (s : State) (p : Fp) (imm : BitVec 32) (t : Nat) : Sel → Nat
  | .imm => if p = fp32 then imm.toNat else cvtCode p fp32 .rn imm.toNat
  | .const n => p.enc .rn (FV.ofInt ((n.toNat : Int) - 32))
  | x => (s.op32 imm t x).toNat % 2 ^ (p.f + p.eb + 1)

/-- A source in an FP64 position (R36). -/
def State.opD (s : State) (imm : BitVec 32) (t : Nat) : Sel → Nat
  | .imm => cvtCode fp64 fp32 .rn imm.toNat
  | .const n => fp64.enc .rn (FV.ofInt ((n.toNat : Int) - 32))
  | x => (s.op64 imm t x).toNat

/-- A packed pair of 16-bit floats: a constant or imm32 supplies each half (R36, R112). -/
def State.opH (s : State) (p : Fp) (imm : BitVec 32) (t : Nat) : Sel → BitVec 32
  | .imm => let c := cvtCode p fp32 .rn imm.toNat; BitVec.ofNat 32 (c * 65536 + c)
  | .const n => let c := p.enc .rn (FV.ofInt ((n.toNat : Int) - 32)); BitVec.ofNat 32 (c * 65536 + c)
  | x => s.op32 imm t x

/-- A source register of a thread is poisoned; `wide` for a pair (R208). -/
def State.selBad (s : State) (wide : Bool) (t : Nat) : Sel → Bool
  | .v n => s.vBadR t n.toNat || (wide && s.vBadR t (n.toNat + 1))
  | .p n => s.pBadR t n.toNat
  | _ => false
/-- A source register of a thread is dark. -/
def State.selDark (s : State) (wide : Bool) (t : Nat) : Sel → Bool
  | .v n => s.grp.vDark t n.toNat || (wide && s.grp.vDark t (n.toNat + 1))
  | .p n => s.grp.pDark t n.toNat
  | _ => false
/-- Some source of a thread is poisoned. -/
def State.anyBad (s : State) (xs : List (Sel × Bool)) (t : Nat) : Bool := xs.any fun x => s.selBad x.2 t x.1
/-- Some source of a thread is dark. -/
def State.anyDark (s : State) (xs : List (Sel × Bool)) (t : Nat) : Bool := xs.any fun x => s.selDark x.2 t x.1

/-- A 32-bit result in a vector register, or its bit 0 in a predicate (R80). -/
def Dst.put (d : Dst) (t : Nat) (x : BitVec 32) : List RDest :=
  match d with
  | .v n => [.v t n.toNat x]
  | .p n => [.p t n.toNat (x.getLsbD 0)]
/-- A 64-bit result in a pair of vector registers (R36). -/
def putPair (d : VReg) (t : Nat) (x : Word) : List RDest := [.v t d.toNat (x.truncate 32), .v t (d.toNat + 1) ((x >>> 32).truncate 32)]

/-- An address operand of the direct form (R137). -/
def ASel.sel : ASel → Sel
  | .v n => .v n
  | .c n => .c n
  | .zero => .const 32
/-- An index operand as a source (R137). -/
def Idx.sel : Idx → Sel
  | .v n => .v n
  | .none => .const 32

/-- A global address of a thread in the indexed form: C[a] + zext(X) × w + sext(imm32) (R137). -/
def State.eaIdx (s : State) (ca : BitVec 3) (x : Idx) (w : Nat) (off : BitVec 32) (t : Nat) : Word :=
  let i : Nat := match x with
    | .v n => (s.rV t n).toNat
    | .none => 0
  s.grp.cap ca.toNat + BitVec.ofNat 64 (i * w) + off.signExtend 64
/-- A global address of a thread in the direct form (R137). -/
def State.eaDir (s : State) (a : ASel) (off : BitVec 32) (t : Nat) : Word :=
  (match a with
    | .zero => 0
    | x => s.op64 0 t (ASel.sel x)) + off.signExtend 64
/-- A scratchpad address of a thread (R138). -/
def State.saOf (s : State) (a : ASel) (off : BitVec 32) (t : Nat) : Nat :=
  ((match a with
    | .zero => 0
    | x => s.op32 0 t (ASel.sel x)) + off).toNat

end Sys2Proof.Machine
end

