-- ==== Sys2Proof/Machine/Fetch.lean ====
section
/-!
DEFINITION. Sys2Proof/Machine/Fetch.lean: which stream may issue (R41, R56, R69, R168, R314, R321), the fetch of its instruction (R45, R62, R134),
and the clock and turn that follow a step.
-/
namespace Sys2Proof.Machine

/-- Nothing holds the whole group: bound and released, not halted, no trap pending, not ready for a save, not copying for lantern mode. -/
def Group.live (g : Group) : Bool :=
  g.bound && g.released && !g.halted && !g.stopped && g.pend.isNone && !(match g.preempt with
    | some p => p.ready
    | none => false) && (match g.lantern with
    | some l => l.phase == .run && l.count < 2048
    | none => true)

/-- The module has power and is connected; otherwise nothing but a cold reset happens (R381). -/
def State.isOn (s : State) : Bool := s.powered && s.connected
/-- An event of the opcode table may happen. -/
def State.eventOn (s : State) (i : Instr) : Bool := i.cls == .event && (s.isOn || i == .coldReset)

/-- The scalar stream of a slot may issue. -/
def State.sReady (s : State) (c g : Nat) : Bool :=
  let q := s.grpAt c g
  q.live && q.sPark.isNone && q.sWait != .sleep && (match q.lantern with
    | some l => l.sWait == .none
    | none => true)
/-- The scalar stream of a slot is ready and waits in no instruction (R69). -/
def State.sAble (s : State) (c g : Nat) : Bool := s.sReady c g && (s.grpAt c g).sWait == .none
/-- A group that has yielded lets every other ready group of its pipe issue once first (R69). -/
def State.sTurn (s : State) (c g : Nat) : Bool := s.sReady c g && !(s.grpAt c g).yielded.any fun j => s.sAble c j
/-- The slot that scalar pipe `n` takes next: the first in turn after the one it took last (R14). -/
def State.sPick (s : State) (c n : Nat) : Option Nat :=
  ((List.range 32).map fun i => (tget (124 + n) (s.coreAt c).sLast n + 4 * (i + 1)) % 128).find? (s.sTurn c)
/-- The state as scalar pipe `n` of a core takes a slot. -/
def State.sTake (s : State) (c n g : Nat) : State := { s.modCore c fun k => { k with sLast := tput k.sLast n g } with slot := g }

/-- The lane stream of a slot may issue. -/
def State.lReady (s : State) (c g : Nat) : Bool :=
  let q := s.grpAt c g
  q.live && q.lrun && !q.handler && q.lPark.isNone && (match q.lantern with
    | some l => l.lWait == .none
    | none => true)

/-- The slot that lane pipe `n` takes next: its two slots alternate (R14). -/
def State.lPick (s : State) (c n : Nat) : Option Nat :=
  let last := tget (2 * n + 1) (s.coreAt c).lLast n
  [4 * n + 1 - last, last].find? (s.lReady c)
/-- The state as lane pipe `n` of a core takes a slot. -/
def State.lTake (s : State) (c n g : Nat) : State := { s.modCore c fun k => { k with lLast := tput k.lLast n g } with slot := g }

/-- A fetch: the bytes of a word and the state with the instruction cache and TLBs filled, or a fault. -/
inductive Fetch where
  | word (bs : List Byte) (s : State)
  | bad (c : Cause) (swap : Bool)
  deriving DecidableEq, Repr

/-- Physical lines read into a core's instruction cache from their homes (R45). -/
def State.icFill (s : State) (c : Nat) (key : List Byte) (lns : List Nat) : State :=
  lns.foldl (fun s ln =>
    let s := s.revoke none (storOf (128 * ln) / 128)
    let d := lineData (s.rdHome key (128 * ln) 128)
    s.modCore c fun k => { k with icache := tput k.icache ln d }) s

/-- Bytes of instruction memory by core `c` (R45): from its instruction cache, filled from home where it does not hold the whole word. A word that
it holds is the old one or what its home holds now, one or the other for each fetch. A fetch that reaches the home needs its vertical bus and no other (R373), and waits for
a transfer engine that owns the line or a line of the walk (R228). -/
def State.fetchBytes (s : State) (c part : Nat) (va : Word) (n : Nat) : Fetch :=
  match s.reach (some c) part va.toNat false with
  | (.bad e sw, _) => .bad e sw
  | (.ok pa key, s) =>
    let home := fun (s : State) => (s.awaitEngine anyItem pa n).arriveAt pa n
    let lns := linesOf pa n
    let read := fun (s : State) => (span pa n).map fun a => byteOf (tget 0 (s.coreAt c).icache (a / 128)) (a % 128)
    if lns.all fun ln => (s.coreAt c).icache.any fun e => e.1 == ln then
      if Config.freeBool s.fresh 8 && !s.homeBus pa then
        let s := (home s).revokeAll (storLines pa n)
        .word (s.rdHome key pa n) s
      else .word (read s) s
    else if s.homeBus pa then .bad .vbus false
    else
      let s := (home s).icFill c key lns
      .word (read s) s

/-- A scalar fetch that does not translate (R62, R312). -/
def State.sFetchBad (s : State) (c : Cause) (swap : Bool) : State :=
  if s.grp.inLan then (s.modG Group.suppress).lanEnd else s.sRaiseAt false c s.grp.pc swap
/-- A lane fetch that does not translate, for the whole frontier (R134, R339). -/
def State.lFetchBad (s : State) (c : Cause) (swap : Bool) (l : Word) (f : List Nat) : State :=
  if s.grp.inLan then (s.modG Group.suppress).lanEnd else s.lRaise ⟨l, f, f, false, s.grp.stays⟩ c l swap f

/-- The walltime of a launch's first issue is kept (R320). -/
def State.noteFirst (s : State) : State :=
  if s.lch.first.isNone then s.modLch s.grp.lid fun l => { l with first := some s.wall } else s

/-- The next instruction of the acting group's scalar stream, or the state where there is none to execute. -/
def State.sNext (s : State) : Instr × State ⊕ State :=
  match s.fetchBytes s.core s.prt s.grp.pc 4 with
    | .bad c sw => .inr (s.sFetchBad c sw)
    | .word bs s1 => match decode .scalar bs with
      | .ok i => .inl (i, s1.noteFirst)
      | .error _ => .inr (s1.noteFirst.sRaise false .ill)

/-- The scalar pipe of the turn's slot takes the next ready group and fetches its instruction (R14). -/
def State.sFetch (s : State) : Instr × State ⊕ State :=
  match (if s.isOn then s.sPick s.core (s.slot % 4) else none) with
  | none => .inr s
  | some g => (s.sTake s.core (s.slot % 4) g).sNext

/-- The next instruction of the acting group's lane stream, or the state where there is none to execute. -/
def State.lNext (s : State) : Instr × State ⊕ State :=
  match s.grp.active with
    | none => .inr s
    | some (l, f) => match s.fetchBytes s.core s.prt l 12 with
      | .bad c sw => .inr (s.lFetchBad c sw l f)
      | .word bs s1 => match decode .lane bs with
        | .ok i => .inl (i, s1)
        | .error _ => .inr (s1.lRaise ⟨l, f, f, false, s1.grp.stays⟩ .ill 0 false f)

/-- The lane pipe of the turn's slot takes the next ready group and fetches its instruction (R14). -/
def State.lFetch (s : State) : Instr × State ⊕ State :=
  match (if s.isOn then s.lPick s.core (s.slot / 2) else none) with
  | none => .inr s
  | some g => (s.lTake s.core (s.slot / 2) g).lNext

/-- A RISC-V exception or interrupt of a Lamplighter core taken to its vector; an `lx.swait` under way ends (R349, R354, R356). The address of the
vector, and MIE and MPIE, as RISC-V machine mode has them: PRESUMED, log entry 53. -/
def State.rvTrap (s : State) (h : Nat) (cause val : Word) : State :=
  s.modHart h fun x => { x with
    mepc := x.pc, mcause := cause, mtval := val, mpie := x.mie, mie := false, swait := none, resv := none
    pc := x.mtvec &&& ~~~3#64 + (if x.mtvec.getLsbD 0 && cause.getLsbD 63 then 4 * (cause &&& 0xFFFF) else 0) }

/-- The partition of a byte of device memory: that of its column's cluster, none for host and peer memory. -/
def State.partOfPa (s : State) (pa : Nat) : Option Nat := match locOf pa with
  | some (.col c _) => s.partOfCore c
  | _ => none
/-- A Lamplighter core may reach a physical byte: the supervisor all, a scheduler the column DRAM of its partition's clusters; host and peer memory are
none of what a partition owns (R23, R341). -/
def State.lampMay (s : State) (h pa : Nat) : Bool := h == 0 || (h ≤ 8 && s.partOfPa pa == some (h - 1))
/-- `n` bytes at a PC of a Lamplighter core: its private SRAM, or device memory (R341). -/
def State.rvBytes (s : State) (h pc n : Nat) : Option (List Byte × State) :=
  if pc + n ≤ 0x40000 then some (tbytes (s.hartAt h).sram pc n, s)
  else if 2 ^ 63 ≤ pc && pc + n ≤ 2 ^ 63 + 2 ^ 48 && (span (pc - 2 ^ 63) n).all (s.lampMay h) then s.physRead (pc - 2 ^ 63) n else none

/-- What a Lamplighter core does next. -/
inductive LxNext where
  | run (i : Instr) (s : State)
  | done (s : State)
  /-- an RV64IMAC word that is not an Lx word, of 16 or 32 bits (R341) -/
  | rv (w : Nat) (s : State)
  deriving DecidableEq, Repr

/-- The next instruction of the acting Lamplighter core (R341, R354). A pending segment-linking interrupt is taken where MIE and its bit of mie enable
it. -/
def State.lxFetch (s : State) : LxNext :=
  let x := s.hartAt s.hart
  if !s.isOn || 10 ≤ s.hart then .done s
  else if x.irq && x.mie && x.ie.getLsbD 24 then
    .done ((s.rvTrap s.hart (BitVec.ofNat 64 (2 ^ 63 + 24)) 0).modHart s.hart fun x => { x with irq := false })
  else match s.rvBytes s.hart x.pc.toNat 2 with
    | none => .done (s.rvTrap s.hart 1 x.pc)
    | some (lo, s1) =>
      if leNat lo % 4 != 3 then .rv (leNat lo) s1
      else match s.rvBytes s.hart x.pc.toNat 4 with
        | none => .done (s.rvTrap s.hart 1 (x.pc + 2))
        | some (bs, s1) => match decode .lx bs with
          | .ok i => .run i s1
          | .error _ => if leNat bs % 128 = 0x0B then .done (s.rvTrap s.hart 2 (BitVec.ofNat 64 (leNat bs))) else .rv (leNat bs) s1

/-- What follows every step: the clocks move on, the next turn is taken, and a frame that may move to its other window is known (R386). -/
def State.tick (s : State) : State :=
  let n := s.fresh + 1
  { s with
    fresh := n, now := s.now + Config.cycles n, wall := s.wall + Config.nanos n
    turn := Config.turn n, core := Config.core n, slot := Config.slot n, hart := Config.hart n, waits := false, wins := s.winSettle.wins }

/-- The page entry, valid for reading and writing, under which an instruction is placed for a step. -/
def placeLeaf : Leaf := ⟨0, .k64, true, true, true, false, 0⟩
/-- The number that the bytes of a table word take in memory order. -/
def wordBytes (n w : Nat) : List Byte := leBytes n w

/-- The acting group bound to a running launch of partition 0, with the page at virtual address 0 mapped, and bytes at that page. -/
def State.placeGroup (s : State) (bs : List Byte) (f : Group → Group) : State :=
  let s := s.modLch 0 fun l => { l with st := .running }
  let s := s.modCore s.core fun k => { k with
    tlb := ⟨0, 0, placeLeaf⟩ :: k.tlb, icache := [], sLast := [], lLast := [], a := { k.a with cache := [] }, b := { k.b with cache := [] } }
  let s := s.modG fun g => f { g with
    bound := true, released := true, lid := 0, slot0 := s.slot, ngrp := 1, halted := false, stopped := false, pend := none, preempt := none
    lantern := none, sPark := none, lPark := none, sWait := .none, lWait := .none, yielded := [], redo := none, handler := false }
  { s with mem := memWrite s.mem 0 bs, owners := tdel s.owners 0, wins := tdel s.wins 0, encTags := tdel s.encTags 0, versions := [], waits := false
           left := s.left.filter (· != (0, 0)) }

/-- A word stored where the acting agent's next step fetches it. -/
def State.placeWord (s : State) (nbits w : Nat) : State :=
  let s := { s with powered := true, connected := true }
  match (decodeTableWord nbits w).map Instr.cls with
  | some .lx => { (s.modHart 0 fun x => { x with sram := twrite x.sram 0 (wordBytes 4 w), pc := 0, irq := false, swait := none }) with
      turn := .lx, hart := 0 }
  | some .lane =>
    let s := { s with turn := .lane, core := 0, slot := 0 }
    s.placeGroup (wordBytes 12 w) fun g => { g with
      lq := [⟨0, []⟩], lrun := true, thr := (List.range 32).map fun t => (t, ⟨0, [], .running⟩) }
  | _ =>
    let s := { s with turn := .scalar, core := 0, slot := 0 }
    s.placeGroup (wordBytes 4 w) fun g => { g with pc := 0 }

end Sys2Proof.Machine
end

