-- ==== Sys2Proof/Machine/ScalarCtl.lean ====
section
/-!
DEFINITION. Sys2Proof/Machine/ScalarCtl.lean: scalar control flow, lane coupling, waiting and special registers, opcodes 0x28 to 0x37 (R61 to R73),
with their behaviour in lantern mode (R77) and in a handler (R317).
-/
namespace Sys2Proof.Machine

/-- A branch target: the address of the branch plus 4 × sext(offset) (R31). -/
def target {n : Nat} (pc : Word) (off : BitVec n) : Word := pc + (off.signExtend 64 <<< 2)

/-- `b` (R61). -/
def execB (sw : Bool) (off : BitVec 24) (s : State) : Out := .next (s.sGo sw (target s.grp.pc off))

/-- `bc` (R61); a dark condition ends lantern mode (R77). -/
def execBc (sw : Bool) (cc : Cond) (ra : SReg) (off : BitVec 14) (s : State) : Out :=
  .next (if s.sDrk [ra] then s.lanEnd
    else if s.grp.inLan && s.sPoi [ra] then s.sSuppress sw
    else s.sRead sw [ra] fun s => s.sGo sw (if Cond.holds cc (s.rS ra) 0 then target s.grp.pc off else s.grp.pc + 4))

/-- `loop` (R61). -/
def execLoop (sw : Bool) (ra : SReg) (off : BitVec 14) (s : State) : Out :=
  .next (if s.sDrk [ra] then s.lanEnd
    else if s.grp.inLan && s.sPoi [ra] then s.sSuppress sw
    else s.sRead sw [ra] fun s =>
      let x := s.rS ra - 1
      (s.wS ra x false).sGo sw (if x != 0 then target s.grp.pc off else s.grp.pc + 4))

/-- `call` (R61). -/
def execCall (sw : Bool) (off : BitVec 24) (s : State) : Out :=
  .next ((s.wS 63 (s.grp.pc + 4) false).sGo sw (target s.grp.pc off))

/-- A jump to the address in a register (R31, R61). -/
def State.jump (s : State) (sw : Bool) (ra : SReg) : State :=
  if s.sDrk [ra] then s.lanEnd
  else if s.grp.inLan && ((s.rS ra).toNat % 4 != 0 || s.sPoi [ra]) then s.sSuppress sw
  else s.sChecks sw [((s.rS ra).toNat % 4 != 0, .align), (s.sPoi [ra], .poison)] (s.sGo sw (s.rS ra))

/-- `ret` (R61). -/
def execRet (sw : Bool) (ra : SReg) (s : State) : Out := .next (s.jump sw ra)

/-- `jr` (R61). -/
def execJr (sw : Bool) (ra : SReg) (s : State) : Out := .next (s.jump sw ra)

/-- `lgo` (R63, R66). -/
def execLgo (sw : Bool) (entry cbase : SReg) (count : BitVec 4) (s : State) : Out :=
  .next (
    let p := s.lch.lcb + s.rS entry
    let regs := (List.range count.toNat).map fun i => cbase + BitVec.ofNat 6 i
    if s.grp.inLan then s.sSuppress sw
    else s.sChecks sw [(s.grp.handler, .priv), (!lvalid p, .align), (s.sPoi (entry :: regs), .poison)]
      (if 4 ≤ s.grp.lq.length then s.sStall .lgo
      else
        let caps := regs.map s.rS
        ((s.drainBuf s.core s.slot).modG fun g => { g with lq := g.lq ++ [⟨p, caps⟩] }).sDone sw))

/-- `ljoin` (R64, R66). -/
def execLjoin (sw : Bool) (s : State) : Out :=
  .next (if s.grp.inLan then s.lanEnd
    else s.sChecks sw [(s.grp.handler, .priv)]
      (if s.grp.idle then (s.drainBuf s.core s.slot).sDone sw else s.sStall .ljoin))

/-- `lpop` (R65, R66). -/
def execLpop (sw : Bool) (rd : SReg) (s : State) : Out :=
  .next (if s.grp.inLan then s.lanEnd
    else s.sChecks sw [(s.grp.handler, .priv)]
      (match s.grp.resq with
      | x :: r => (s.modG fun g => { g with resq := r }).sLate sw [.s rd.toNat x] false false
      | [] => if s.grp.idle then s.sRaise sw .lqdead else s.sStall .lpop))

/-- What a wait to zero on a wick acquires: the destinations of items were made visible where the engine wrote them (R196); of a `scrub` it is an acquire at .s
(R384). -/
def State.waited (s : State) (wick : Wick) (k : BitVec 14) : State :=
  if k = 0 && s.grp.scrubs.contains wick then (s.acquire s.core .s).modG fun g => { g with scrubs := g.scrubs.filter (· != wick) } else s
/-- `wait` (R68). -/
def execWait (sw : Bool) (wick : Wick) (k : BitVec 14) (s : State) : Out :=
  .next (if s.grp.inLan then s.lanEnd
    else if (s.grp.wick wick).toNat ≤ k.toNat then (s.waited wick k).sDone sw else s.sStall .wait)

/-- `yield` (R69): the other ready groups of its scalar pipe issue once first. -/
def execYield (sw : Bool) (s : State) : Out :=
  .next (if s.grp.inLan then s.sSuppress sw
    else
      let others := (s.me.bound.map (·.1)).filter fun j => j != s.slot && j % 4 == s.slot % 4 && s.sAble s.core j
      (s.modG fun g => { g with yielded := others }).sDone sw)

/-- `exit` (R71). -/
def execExit (_sw : Bool) (s : State) : Out :=
  .next (if s.grp.inLan then s.lanEnd
    else if s.grp.idle && s.grp.wicks.all (fun e => e.2 == 0) then s.groupExit s.core s.slot else s.sStall .other)

/-- The other groups that a barrier of the acting group waits for: of its team, or of all teams of its cohort (R72). -/
def State.barPeers (s : State) (cohort : Bool) : List (Nat × Nat) :=
  let q := s.grp
  (s.grpsOf q.lid).filter fun e =>
    let o := s.grpAt e.1 e.2
    e != (s.core, s.slot) && (if cohort then o.cohort == q.cohort else e.1 == s.core && o.slot0 == q.slot0)
/-- A saved team of the acting group's cohort has not reached the barrier. -/
def State.barSaved (s : State) : Bool :=
  s.saved.any fun v => v.groups.any fun e => e.2.lid == s.grp.lid && e.2.cohort == s.grp.cohort
/-- A group stands at a `bar` of a scope, able to leave it. -/
def Group.atBar (g : Group) (cohort : Bool) : Bool := g.live && g.lantern.isNone && (match g.sWait with
  | .bar k _ => k == cohort
  | _ => false)
/-- The switch marker of the `bar` that a group stands at. -/
def Group.barSw (g : Group) : Bool := match g.sWait with
  | .bar _ sw => sw
  | _ => false
/-- The release of a `bar` by the acting group (R181, R194). -/
def State.barRel (s : State) (cohort : Bool) : State :=
  let s := s.drainBuf s.core s.slot
  if cohort then s.release s.core .k else s
/-- The acting group leaves a `bar` with its acquire (R182, R194). -/
def State.barLeave (s : State) (sw cohort : Bool) : State := (if cohort then s.acquire s.core .k else s).sDone sw

/-- `bar` (R72, R194): the last to arrive lets all leave in one step. -/
def execBar (sw cohort : Bool) (s : State) : Out :=
  .next (if s.grp.inLan then s.sSuppress sw
    else
      let s := s.barRel cohort
      let ps := s.barPeers cohort
      if ps.all (fun e => (s.grpAt e.1 e.2).atBar cohort) && !(cohort && s.barSaved) then
        ps.foldl (fun s e => s.asGrp e.1 e.2 fun t => t.barLeave t.grp.barSw cohort) (s.barLeave sw cohort)
      else s.sStall (.bar cohort sw))

/-- The value of a special register of the acting group; none where `srd` of it raises ILL (R73). -/
def State.special (s : State) (num elem : Nat) : Option Word :=
  let g := s.grp
  let l := s.lch
  let n := fun (x : Nat) => some (BitVec.ofNat 64 x)
  if num = 0x0F then
    match elem with
    | 0 => some (g.lanT.zeroExtend 64)
    | 1 => some g.lan1
    | 2 => some g.lan2
    | 3 => some g.lan3
    | 4 => some g.lan4
    | _ => none
  else if elem != 0 then none
  else match num with
    | 0x01 => n g.gid
    | 0x02 => n g.team
    | 0x03 => n g.cohort
    | 0x04 => n g.stage
    | 0x05 => n (s.core % 6)
    | 0x06 => n (s.core / 6 % 6)
    | 0x07 => n (s.core / 36)
    | 0x08 => n s.now
    | 0x09 => n s.wall
    | 0x0A => n (if l.direct then 256 else l.ver)
    | 0x0B => some l.lcb
    | 0x0C => some l.args
    | 0x0D => some l.fmt
    | 0x0E => n s.me.wpr
    | 0x10 => some g.trapvec
    | _ => none
/-- The launch constants, read with fixed latency (R56). -/
def launchConst (num : Nat) : Bool := (1 ≤ num && num ≤ 7) || (0x0A ≤ num && num ≤ 0x0D)

/-- `srd` (R56, R73): a read of %wpr waits for a change in progress; a result is never dark (R77). -/
def execSrd (sw : Bool) (rd : SReg) (num : BitVec 8) (elem : BitVec 4) (s : State) : Out :=
  .next (match s.special num.toNat elem.toNat with
    | none => s.sRaise sw .ill
    | some x =>
      if num = 0x0E && s.me.wprChg.isSome then s.sStall .other
      else if launchConst num.toNat then (s.wS rd x false).sDone sw
      else s.sLate sw [.s rd.toNat x] false false)

/-- A change of %wpr begun by a group: a value above 8 is taken as 8 (R158, R159). -/
def State.wprBegin (s : State) (c g : Nat) (v : Nat) : State :=
  s.modCore c fun k => { k with wprChg := some ⟨min v 8, s.now + 2048 * (min v 8 - k.wpr), g⟩ }
/-- A flip of the core's column planes is in progress (R161). -/
def State.colFlip (s : State) (c : Nat) : Bool :=
  (s.clAt (c / 6)).flipBy.isSome || (s.coreAt c).groups.any fun e => match e.2.pflip with
    | some f => f.dom == .col || f.dom == .core || f.dom == .clus
    | none => false
/-- The groups whose writes of %wpr wait on a core, in issue order: those that still stand at theirs (R158). -/
def State.wprLine (s : State) (c : Nat) : List Nat := (s.coreAt c).wprQ.filter fun g => (s.grpAt c g).bound && (s.grpAt c g).sWait == .wpr
/-- The acting group's write of %wpr waits behind the others (R158). -/
def State.wprAwait (s : State) : State :=
  let line := s.wprLine s.core
  let mine := (match s.me.wprChg with
    | some w => w.slot == s.slot
    | none => false) || line.contains s.slot
  (s.modCore s.core fun k => { k with wprQ := if mine then line else line ++ [s.slot] }).sStall .wpr
/-- A change of %wpr may begin. -/
def State.wprFree (s : State) (c : Nat) : Bool := (s.coreAt c).wprChg.isNone && !s.colFlip c

/-- `swr` (R73, R158): writes of %wpr are performed in issue order. -/
def execSwr (sw : Bool) (ra : SReg) (num : BitVec 8) (elem : BitVec 4) (s : State) : Out :=
  .next (
    let x := s.rS ra
    if elem != 0 || !(num == 0x0E || num == 0x0F || num == 0x10) then s.sRaise sw .ill
    else if s.grp.inLan then s.sSuppress sw
    else s.sChecks sw [(num == 0x0E && !s.lch.rightW, .priv), (num == 0x10 && x.toNat % 4 != 0, .align), (s.sPoi [ra], .poison)]
      (if num = 0x0F then (s.modG fun g => { g with lanT := x.truncate 16 }).sDone sw
      else if num = 0x10 then (s.modG fun g => { g with trapvec := x }).sDone sw
      else if s.grp.wprGo then (s.modG fun g => { g with wprGo := false }).sDone sw
      else if !s.wprFree s.core || ((s.wprLine s.core).head?.getD s.slot) != s.slot then s.wprAwait
      else
        let s := s.modCore s.core fun k => { k with wprQ := (s.wprLine s.core).filter (· != s.slot) }
        if s.me.wpr = min x.toNat 8 then s.sDone sw else (s.wprBegin s.core s.slot x.toNat).sStall .wpr))

/-- `sleep` (R70): n is S[ra] + zext(imm12) as an unsigned 64-bit value. Whether a `sleep` that a debugger steps completes at issue or after n cycles
R70 and R329 leave open: at issue, and its halt ends the sleep, the model's choice, log entry 65. -/
def execSleep (sw : Bool) (ra : SReg) (imm : BitVec 12) (s : State) : Out :=
  .next (if s.grp.inLan then s.lanEnd
    else s.sRead sw [ra] fun s =>
      let n := (s.rS ra + imm.zeroExtend 64).toNat
      (s.sDone sw).modG fun g => if n = 0 || g.halted || g.pend.isSome then g else { g with sWait := .sleep, sleepTo := s.now + n })

end Sys2Proof.Machine
end

