-- ==== Sys2Proof/Machine/LaneInt.lean ====
section
/-!
DEFINITION. Sys2Proof/Machine/LaneInt.lean: lane integer and bit instructions, predicate logic, thread exchange, special registers and the result
queue, lane opcodes 0x00 to 0x27 (R78 to R93).
-/
namespace Sys2Proof.Machine

/-- A lane integer instruction on 32-bit sources, per thread (R80, R82). -/
def State.lInt (s : State) (h : LHdr) (imm : BitVec 32) (srcs : List Sel) (f : Nat → (Sel → BitVec 32) → List RDest) : State :=
  let xs := srcs.map fun x => (x, false)
  s.lMap h false (s.anyBad xs) (s.anyDark xs) fun t => f t (s.op32 imm t)

/-- `lnop` (R82). -/
def execLnop (sw : Bool) (s : State) : Out := .next (s.lane ⟨sw, false, 0⟩ fun s x => s.lDone sw x)

/-- `iadd` (R82). -/
def execIadd (h : LHdr) (d : VReg) (a b : Sel) (imm : BitVec 32) (s : State) : Out :=
  .next (s.lInt h imm [a, b] fun t v => [.v t d.toNat (v a + v b)])
/-- `isub` (R82). -/
def execIsub (h : LHdr) (d : VReg) (a b : Sel) (imm : BitVec 32) (s : State) : Out :=
  .next (s.lInt h imm [a, b] fun t v => [.v t d.toNat (v a - v b)])
/-- `imul` (R82): low half. -/
def execImul (h : LHdr) (d : VReg) (a b : Sel) (imm : BitVec 32) (s : State) : Out :=
  .next (s.lInt h imm [a, b] fun t v => [.v t d.toNat (v a * v b)])
/-- `imad` (R82). -/
def execImad (h : LHdr) (d : VReg) (a b c : Sel) (imm : BitVec 32) (s : State) : Out :=
  .next (s.lInt h imm [a, b, c] fun t v => [.v t d.toNat (v a * v b + v c)])
/-- `imulh` (R82): high half. -/
def execImulh (h : LHdr) (u : Bool) (d : VReg) (a b : Sel) (imm : BitVec 32) (s : State) : Out :=
  .next (s.lInt h imm [a, b] fun t v => [.v t d.toNat (if u then mulhu (v a) (v b) else mulhs (v a) (v b))])
/-- `iabs` (R82): the most negative number gives itself. -/
def execIabs (h : LHdr) (d : VReg) (a : Sel) (imm : BitVec 32) (s : State) : Out :=
  .next (s.lInt h imm [a] fun t v => [.v t d.toNat (if (v a).slt 0 then -(v a) else v a)])
/-- `imin` (R82). -/
def execImin (h : LHdr) (u : Bool) (d : VReg) (a b : Sel) (imm : BitVec 32) (s : State) : Out :=
  .next (s.lInt h imm [a, b] fun t v => [.v t d.toNat (if u then minu (v a) (v b) else mins (v a) (v b))])
/-- `imax` (R82). -/
def execImax (h : LHdr) (u : Bool) (d : VReg) (a b : Sel) (imm : BitVec 32) (s : State) : Out :=
  .next (s.lInt h imm [a, b] fun t v => [.v t d.toNat (if u then maxu (v a) (v b) else maxs (v a) (v b))])
/-- `and` (R82). -/
def execLaneAnd (h : LHdr) (d : VReg) (a b : Sel) (imm : BitVec 32) (s : State) : Out :=
  .next (s.lInt h imm [a, b] fun t v => [.v t d.toNat (v a &&& v b)])
/-- `or` (R82). -/
def execLaneOr (h : LHdr) (d : VReg) (a b : Sel) (imm : BitVec 32) (s : State) : Out :=
  .next (s.lInt h imm [a, b] fun t v => [.v t d.toNat (v a ||| v b)])
/-- `xor` (R82). -/
def execLaneXor (h : LHdr) (d : VReg) (a b : Sel) (imm : BitVec 32) (s : State) : Out :=
  .next (s.lInt h imm [a, b] fun t v => [.v t d.toNat (v a ^^^ v b)])
/-- `not` (R82). -/
def execNot (h : LHdr) (d : VReg) (a : Sel) (imm : BitVec 32) (s : State) : Out :=
  .next (s.lInt h imm [a] fun t v => [.v t d.toNat (~~~(v a))])
/-- `shl` (R80, R82). -/
def execLaneShl (h : LHdr) (d : VReg) (a b : Sel) (imm : BitVec 32) (s : State) : Out :=
  .next (s.lInt h imm [a, b] fun t v => [.v t d.toNat (v a <<< ((v b).toNat % 32))])
/-- `shr` (R80, R82). -/
def execLaneShr (h : LHdr) (d : VReg) (a b : Sel) (imm : BitVec 32) (s : State) : Out :=
  .next (s.lInt h imm [a, b] fun t v => [.v t d.toNat (v a >>> ((v b).toNat % 32))])
/-- `sar` (R80, R82). -/
def execLaneSar (h : LHdr) (d : VReg) (a b : Sel) (imm : BitVec 32) (s : State) : Out :=
  .next (s.lInt h imm [a, b] fun t v => [.v t d.toNat ((v a).sshiftRight ((v b).toNat % 32))])
/-- `dsh` (R82). -/
def execDsh (h : LHdr) (l : Bool) (d : VReg) (a b c : Sel) (imm : BitVec 32) (s : State) : Out :=
  .next (s.lInt h imm [a, b, c] fun t v => [.v t d.toNat (dshOf l (v a) (v b) (v c))])
/-- `bfe` (R83). -/
def execBfe (h : LHdr) (sx : Bool) (d : VReg) (a b : Sel) (imm : BitVec 32) (s : State) : Out :=
  .next (s.lInt h imm [a, b] fun t v => [.v t d.toNat (bfeOf sx (v a) (v b))])
/-- `bfi` (R83). -/
def execBfi (h : LHdr) (d : VReg) (a b c : Sel) (imm : BitVec 32) (s : State) : Out :=
  .next (s.lInt h imm [a, b, c] fun t v => [.v t d.toNat (bfiOf (v a) (v b) (v c))])
/-- `popc` (R82). -/
def execLanePopc (h : LHdr) (d : VReg) (a : Sel) (imm : BitVec 32) (s : State) : Out :=
  .next (s.lInt h imm [a] fun t v => [.v t d.toNat (popc (v a))])
/-- `clz` (R82). -/
def execLaneClz (h : LHdr) (d : VReg) (a : Sel) (imm : BitVec 32) (s : State) : Out :=
  .next (s.lInt h imm [a] fun t v => [.v t d.toNat (clz (v a))])
/-- `brev` (R82). -/
def execBrev (h : LHdr) (d : VReg) (a : Sel) (imm : BitVec 32) (s : State) : Out :=
  .next (s.lInt h imm [a] fun t v => [.v t d.toNat (brev (v a))])
/-- `perm` (R84). -/
def execPerm (h : LHdr) (d : VReg) (a b c : Sel) (imm : BitVec 32) (s : State) : Out :=
  .next (s.lInt h imm [a, b, c] fun t v => [.v t d.toNat (permOf (v a) (v b) (v c))])
/-- `plut` (R85): its table operands are 64 bits wide; the nibble form reads no c. -/
def execPlut (h : LHdr) (form : PlutForm) (d : VReg) (a b c : Sel) (imm : BitVec 32) (s : State) : Out :=
  .next (
    let xs := (a, false) :: (b, true) :: (if form == .nib then [] else [(c, true)])
    s.lMap h false (s.anyBad xs) (s.anyDark xs) fun t =>
      let x := s.op32 imm t a
      [.v t d.toNat (match form with
        | .nib => plutNib x (s.op64 imm t b)
        | .b => plutByte false x (s.op64 imm t b) (s.op64 imm t c)
        | .bhi => plutByte true x (s.op64 imm t b) (s.op64 imm t c))])
/-- `icmp` (R58, R82). -/
def execIcmp (h : LHdr) (cc : Cond) (d : Dst) (a b : Sel) (imm : BitVec 32) (s : State) : Out :=
  .next (s.lInt h imm [a, b] fun t v => Dst.put d t (b2w 32 (Cond.holds cc (v a) (v b))))
/-- `sel` (R82). -/
def execSel (h : LHdr) (d : VReg) (a b c : Sel) (imm : BitVec 32) (s : State) : Out :=
  .next (s.lInt h imm [a, b, c] fun t v => [.v t d.toNat (if v c != 0 then v a else v b)])
/-- `mov` (R82). -/
def execMov (h : LHdr) (d : VReg) (a : Sel) (imm : BitVec 32) (s : State) : Out :=
  .next (s.lInt h imm [a] fun t v => [.v t d.toNat (v a)])
/-- `idot4` (R82). -/
def execIdot4 (h : LHdr) (u : Bool) (d : VReg) (a b c : Sel) (imm : BitVec 32) (s : State) : Out :=
  .next (s.lInt h imm [a, b, c] fun t v => [.v t d.toNat (idot4Of u (v a) (v b) (v c))])
/-- `plog` (R87). -/
def execPlog (h : LHdr) (tt : BitVec 8) (d : Dst) (a b c : Sel) (imm : BitVec 32) (s : State) : Out :=
  .next (s.lInt h imm [a, b, c] fun t v =>
    Dst.put d t (b2w 32 (tt.getLsbD (4 * (v a != 0).toNat + 2 * (v b != 0).toNat + (v c != 0).toNat))))
/-- `ipack` (R86). -/
def execIpack (h : LHdr) (byt u sat : Bool) (d : VReg) (a b : Sel) (imm : BitVec 32) (s : State) : Out :=
  .next (s.lInt h imm [a, b] fun t v => [.v t d.toNat (ipackOf byt u sat (v a) (v b))])
/-- `iext` (R86). -/
def execIext (h : LHdr) (byt u : Bool) (d : VReg) (a b : Sel) (imm : BitVec 32) (s : State) : Out :=
  .next (s.lInt h imm [a, b] fun t v => [.v t d.toNat (iextOf byt u (v a) (v b))])

/-- A thread-exchange instruction: every source is read before a result is written, and a poisoned source in any executing thread raises POISON
for the whole instruction, a poisoned destination granule for its own thread (R88, R92, R208, R209). -/
def State.lXchg (s : State) (h : LHdr) (slow : Bool) (srcs : List (Sel × Bool)) (dark : Lane → Nat → Bool) (out : Lane → Nat → List RDest) :
    State :=
  s.lane h fun s x =>
    let lan := s.grp.inLan
    let hidden := (x.f.filter fun t => s.grp.pDark t h.prd.toNat).flatMap (out x)
    let mark := fun (s : State) (b : Bool) (ds : List RDest) => s.modG fun g => ds.foldl (fun g d => g.markDest b d) g
    if x.e.any fun t => s.anyBad srcs t then
      if lan then (mark s true (hidden ++ x.e.flatMap (out x))).lSuppress h.sw x else s.lRaise x .poison 0 false x.e
    else
      let bad := x.e.filter fun t => (out x t).any s.grp.work.destBad
      let ds := (x.e.filter fun t => !bad.contains t).flatMap (out x)
      let unseen := x.e.all (dark x)
      let s := s.modG fun g =>
        if slow then { g with outs := if ds.isEmpty then g.outs else g.outs ++ [OutRes.of true ds (lan && unseen) lan] }
        else g.modWork fun p => ds.foldl RegPlane.putDest p
      (if lan then mark (mark s false ds) true (hidden ++ ((x.e.filter (dark x)) ++ bad).flatMap (out x)) else s).lEnd h.sw x
        (bad.map fun t => ⟨t, .poison, 0, false⟩)

/-- The executing thread before one, if any (R88). -/
def before (e : List Nat) (t : Nat) : Option Nat := (e.filter (· < t)).reverse.head?
/-- The executing thread after one, if any (R88). -/
def after (e : List Nat) (t : Nat) : Option Nat := (e.filter (t < ·)).head?
/-- The thread that `pick` names, where it executes (R88). -/
def pickSrc (mode : PickMode) (e : List Nat) (t : Nat) (b : BitVec 32) : Option Nat :=
  let i : Int := match mode with
    | .idx => b.toNat
    | .xor => (t ^^^ b.toNat : Nat)
    | .up => (t : Int) - b.toNat
    | .dn => (t : Int) + b.toNat
  if 0 ≤ i then e.find? fun u => u == i.toNat else none

/-- `prev` (R88). -/
def execPrev (h : LHdr) (d : VReg) (a b : Sel) (imm : BitVec 32) (s : State) : Out :=
  .next (s.lXchg h false [(a, false), (b, false)]
    (fun x t => match before x.e t with
      | some u => s.selDark false u a
      | none => s.selDark false t b)
    fun x t => [.v t d.toNat (match before x.e t with
      | some u => s.op32 imm u a
      | none => s.op32 imm t b)])
/-- `next` (R88). -/
def execNext (h : LHdr) (d : VReg) (a b : Sel) (imm : BitVec 32) (s : State) : Out :=
  .next (s.lXchg h false [(a, false), (b, false)]
    (fun x t => match after x.e t with
      | some u => s.selDark false u a
      | none => s.selDark false t b)
    fun x t => [.v t d.toNat (match after x.e t with
      | some u => s.op32 imm u a
      | none => s.op32 imm t b)])
/-- `pick` (R88). -/
def execPick (h : LHdr) (mode : PickMode) (d : VReg) (a b c : Sel) (imm : BitVec 32) (s : State) : Out :=
  .next (s.lXchg h false [(a, false), (b, false), (c, false)]
    (fun x t => s.selDark false t b || match pickSrc mode x.e t (s.op32 imm t b) with
      | some u => s.selDark false u a
      | none => s.selDark false t c)
    fun x t => [.v t d.toNat (match pickSrc mode x.e t (s.op32 imm t b) with
      | some u => s.op32 imm u a
      | none => s.op32 imm t c)])
/-- The first thread of the execute mask (R88). -/
def Lane.first (x : Lane) : Nat := (x.e.head?).getD 0
/-- `rdfl` (R88). -/
def execRdfl (h : LHdr) (d : VReg) (a : Sel) (imm : BitVec 32) (s : State) : Out :=
  .next (s.lXchg h false [(a, false)] (fun x _ => s.selDark false x.first a) fun x t => [.v t d.toNat (s.op32 imm x.first a)])
/-- The result of `vote` (R88). -/
def voteOf (mode : VoteMode) (e : List Nat) (v : Nat → BitVec 32) : BitVec 32 :=
  match mode with
  | .ballot => tmask (e.filter fun t => v t != 0)
  | .any => b2w 32 (e.any fun t => v t != 0)
  | .all => b2w 32 (e.all fun t => v t != 0)
  | .eq => b2w 32 (e.all fun t => v t == v ((e.head?).getD 0))
/-- `vote` (R88). -/
def execVote (h : LHdr) (mode : VoteMode) (d : Dst) (a : Sel) (imm : BitVec 32) (s : State) : Out :=
  .next (s.lXchg h false [(a, false)] (fun x _ => x.e.any fun u => s.selDark false u a)
    fun x t => Dst.put d t (voteOf mode x.e fun u => s.op32 imm u a))
/-- An operation applied to values in order; its identity where there is none (R88). -/
def redAll (op : RedOp) (xs : List (BitVec 32)) : BitVec 32 := xs.foldl (redOf op) (redId op)
/-- `gred` (R88): variable-latency. -/
def execGred (h : LHdr) (op : RedOp) (d : VReg) (a : Sel) (imm : BitVec 32) (s : State) : Out :=
  .next (s.lXchg h true [(a, false)] (fun x _ => x.e.any fun u => s.selDark false u a)
    fun x t => [.v t d.toNat (redAll op (x.e.map fun u => s.op32 imm u a))])
/-- `gscan` (R88): variable-latency. -/
def execGscan (h : LHdr) (op : RedOp) (excl : Bool) (d : VReg) (a : Sel) (imm : BitVec 32) (s : State) : Out :=
  .next (
    let upTo := fun (x : Lane) (t : Nat) => x.e.filter fun u => u < t || (u == t && !excl)
    s.lXchg h true [(a, false)] (fun x t => (upTo x t).any fun u => s.selDark false u a)
      fun x t => [.v t d.toNat (redAll op ((upTo x t).map fun u => s.op32 imm u a))])

/-- `lsrd` (R43, R73, R89): %tid reads as the thread number; the result is variable-latency and never dark. -/
def execLsrd (h : LHdr) (hi : Bool) (num : BitVec 8) (elem : BitVec 4) (d : VReg) (s : State) : Out :=
  .next (match s.grp.active with
    | none => s
    | some (pc, f) =>
      let val := fun (t : Nat) => if num = 0 && elem = 0 then some (BitVec.ofNat 64 t) else s.special num.toNat elem.toNat
      if (val 0).isNone then s.lRaise ⟨pc, f, f, h.sw, s.grp.stays⟩ .ill 0 false f
      else if num = 0x0E && s.me.wprChg.isSome && !(s.guarded h f).isEmpty then s.lStall .other
      else
        s.lMap h true (fun _ => false) (fun _ => false) fun t =>
          let w := (val t).getD 0
          [.v t d.toNat ((if hi then w >>> 32 else w).truncate 32)])

/-- `lpush` (R65, R66, R90). In lantern mode with an empty execute mask R91 gives no effect and R92 a suppression that counts: it counts, the model's
choice, log entry 18. -/
def execLpush (h : LHdr) (dw : Bool) (a : Sel) (imm : BitVec 32) (s : State) : Out :=
  .next (s.lane h fun s x =>
    if s.grp.inLan then s.lSuppress h.sw x
    else if x.e.isEmpty then s.lDone h.sw x
    else if 16 ≤ s.grp.resq.length then s.lStall .lpush
    else
      let t := x.first
      if s.selBad dw t a then s.lEnd h.sw x [⟨t, .poison, 0, false⟩]
      else
        let v : Word := if dw then s.op64 imm t a else (s.op32 imm t a).zeroExtend 64
        ((s.drainBuf s.core s.slot).modG fun g => { g with resq := g.resq ++ [v] }).lDone h.sw x)

end Sys2Proof.Machine
end

