-- ==== Sys2Proof/Machine/MemOps.lean ====
section
/-!
DEFINITION. Sys2Proof/Machine/MemOps.lean: accesses of the acting group to global memory as instructions of both streams make them: useful hits
(R172), the rules of lantern mode (R169), prefetches (R148), and what a scalar access does with how it ended.
-/
namespace Sys2Proof.Machine

/-- An access of the acting core at a scope hits a line filled at a lantern request and not touched since: one performed at its home, as every access at
.k or wider is, hits a line of the core's column SRAM only where that is the home (R172, R183). -/
def State.lanHit (s : State) (va : Nat) (x : Scope) : Bool :=
  match (s.xlate (some s.core) s.prt va false).1 with
  | .ok pa _ =>
    let l := s.me.colWork.line pa
    l.valid && !l.stale && l.lan && (!Scope.wide x || homedAt s.core pa)
  | .bad _ _ => false
/-- A useful hit counted, and its line touched: it counts once (R172). -/
def State.useful (s : State) (hit : Bool) (va : Nat) : State :=
  if hit then
    let s := s.modG fun g => { g with lan3 := g.lan3 + 1 }
    match (s.xlate (some s.core) s.prt va false).1 with
    | .ok pa _ => s.modCore s.core fun k => k.modPlane k.colSel fun p => p.mapLines fun a l => if a == pa / 128 * 128 then { l with lan := false } else l
    | .bad _ _ => s
  else s

/-- An address of the trap hold of the acting group, which is in its handler (R317). -/
def State.inHold (s : State) (va : Nat) : Bool :=
  s.grp.handler && isStaging va && stgKind va == 0 && stgCore va == s.core && stgSlot va == s.slot
/-- A load of the acting group (R144, R172, R317). -/
def State.gLoad (s : State) (lane : Bool) (va n : Nat) (o : Order) (x : Scope) : LoadRes :=
  if s.inHold va then .bad .priv false s
  else match s.load s.core s.grp.lid (if lane then s.grp.lsbuf else s.grp.sbuf) va n o x with
  | .ok bs m s1 => .ok bs m (s1.useful (s.lanHit va x) va)
  | r => r
/-- A store of the acting group (R144, R172, R317). Whether one that the launch's shadow takes is a hit of the line R172 leaves open: it reaches no line of
the column SRAM and counts none, as an atomic there, the model's choice, log entry 20. -/
def State.gStore (s : State) (lane : Bool) (va : Nat) (bs : List Byte) (o : Order) (x : Scope) : StoreRes :=
  if s.inHold va then .bad .priv false s
  else match s.store s.core s.slot lane va bs o x with
  | .ok s1 => .ok (s1.useful (s.lanHit va x && !s.lch.shadowed va bs.length) va)
  | r => r
/-- An atomic of the acting group, performed at the home or in the shadow (R172, R186, R188, R189, R317). -/
def State.gAtomic (s : State) (va n : Nat) (o : Order) (x : Scope) (f : List Byte → List Byte) : LoadRes :=
  if s.inHold va then .bad .priv false s
  else match s.atomic s.core s.slot va n o x f with
  | .ok bs m s1 => .ok bs m (s1.useful (s.lanHit va .k && !s.lch.shadowed va n) va)
  | r => r

/-- How a load went in lantern mode (R169). -/
inductive LanLoad where
  | data (bs : List Byte) (s : State)
  /-- nothing returned: the destination is dark -/
  | dark (s : State)
  /-- a fault: the destination is dark, and a suppression counts -/
  | fault (s : State)
  deriving DecidableEq, Repr

/-- A line of the acting core marked as filled at a lantern request. -/
def State.markLan (s : State) (va : Nat) : State :=
  match (s.xlate (some s.core) s.prt va false).1 with
  | .ok pa _ =>
    let l := s.me.colWork.line pa
    if l.valid then s.putLine s.core pa { l with lan := true } else s
  | .bad _ _ => s
/-- Lines requested in lantern mode counted (R172). -/
def State.requested (s : State) : State := s.modG fun g => { g with lan2 := g.lan2 + 1 }

/-- An aligned load of the acting group in lantern mode (R169): a walk that succeeds fills the TLBs whatever follows. What R169 leaves open, the model's choice,
log entries 18 and 20: one that meets WATCH or VBUS is suppressed and counted as the faults its table lists, and one that hits a line filled at a lantern request
touches it, uncounted (R172). -/
def State.lanLoad (s : State) (lane : Bool) (va n : Nat) : LanLoad :=
  match s.load s.core s.grp.lid (if lane then s.grp.lsbuf else s.grp.sbuf) va n .rlx .weak with
  | .ok bs m s1 => if m then .dark (s1.markLan va).requested else .data bs s1
  | .bad .xlate _ s1 => .dark s1
  | .bad _ _ s1 => .fault s1
  | _ => .dark s

/-- The load of an aligned address in lantern mode would request its line (R169). -/
def State.lanAsks (s : State) (va n : Nat) : Bool :=
  match s.load s.core s.grp.lid s.grp.lsbuf va n .rlx .weak with
  | .ok _ m _ => m
  | _ => false
/-- The same for one thread of a lane instruction that began in state `s0`: it hits only a line that stood there then, and a line that an earlier
thread has requested, `again`, is requested once (R154, R169). -/
def State.lanThread (s0 s : State) (again : Bool) (va n : Nat) : LanLoad :=
  if s0.lanAsks va n then (if again then .dark s else (match s.lanLoad true va n with
    | .dark s1 => .dark s1
    | _ => .dark s))
  else s.lanLoad true va n

/-- A prefetch of the acting core: of a translation under `tlb`, else of a line; dropped whole on any fault or conflict, or where its address is no multiple
of `n` (R148, R164, R169). A line reaches the layers of the core, and where it is not there
those of the home (R375). -/
def State.prefetch (s : State) (tlb : Bool) (va n : Nat) : State :=
  if va % n != 0 || s.me.scoreHit (.global s.prt) va n || s.walkWaits (some s.core) s.prt va then s
  else match s.xlate (some s.core) s.prt va false with
    | (.bad _ _, _) => s
    | (.ok pa key, s1) =>
      if tlb then s1
      else if s.poiFor s.lch (storOf pa) n || s.linePoi s.core pa n || s.busBad s.core pa false || s.eccFor s.lch (storOf pa) n || s.watched s.prt va n false
        || (s.reachesHome s.core pa && s.engineOwns anyItem (storLines pa n)) then s
      else match locOf pa with
        | some (.col _ _) =>
          let lan := s.grp.inLan
          let s1 := (if s1.hits s.core pa then s1 else s1.touchHome pa).touchS s.core
          let r := s1.cached s.core pa key lan
          if r.2.1 && lan then r.2.2.requested else if r.2.1 then r.2.2 else s1
        | _ => s1

/-- The launch waits for more quota, and the acting stream with it (R298). -/
def State.quotaNote (s : State) : State := s.modLch s.grp.lid fun l => { l with quotaWait := true }

/-- The lower of a fault's cause and the POISON of a source register (R10, R208). -/
def worst (poi : Bool) (c : Cause) : Cause := if poi && 7 < c.code then .poison else c

/-- What a scalar load or atomic does with how it ended: a fault is precise, with no effect but the translations that its walk filled (R141, R155, R185). -/
def State.sLoaded (s : State) (sw : Bool) (poi : Bool) (ea : Word) (r : LoadRes) (k : State → List Byte → Bool → State) : State :=
  match r with
  | .bad c swap s1 => (if poi && 7 < c.code then s else s1).sRaiseAt sw (worst poi c) ea swap
  | .ok bs m s1 => if poi then s.sRaise sw .poison else k s1 bs m
  | .stall => if poi then s.sRaise sw .poison else s.sStall .other
  | .quota => if poi then s.sRaise sw .poison else s.quotaNote.sStall .other
/-- What a scalar store does with how it ended. -/
def State.sStored (s : State) (sw : Bool) (poi : Bool) (ea : Word) (r : StoreRes) (k : State → State) : State :=
  match r with
  | .bad c swap s1 => (if poi && 7 < c.code then s else s1).sRaiseAt sw (worst poi c) ea swap
  | .ok s1 => if poi then s.sRaise sw .poison else k s1
  | .stall => if poi then s.sRaise sw .poison else s.sStall .other
  | .quota => if poi then s.sRaise sw .poison else s.quotaNote.sStall .other

end Sys2Proof.Machine
end

