-- ==== Sys2Proof/Machine/ScalarMem.lean ====
section
/-!
DEFINITION. Sys2Proof/Machine/ScalarMem.lean: scalar loads, stores and prefetch (R140, R141), scalar atomics (R185, R186), fences and cache
operations (R190, R191), and semaphores (R192, R193).
-/
namespace Sys2Proof.Machine

/-- Bytes of an access of a size (R30). -/
def MemSize.bytes (z : MemSize) : Nat := 2 ^ z.code
/-- The effective address of the SM word: S[ra] + zext(imm5) × 2^size (R32). -/
def State.smAddr (s : State) (ra : SReg) (size : MemSize) (imm : BitVec 5) : Word := s.rS ra + (imm.zeroExtend 64 <<< size.code)

/-- A scalar load of `k` elements of `n` bytes into registers from rd on (R141, R169). -/
def State.sLoad (s : State) (sw : Bool) (rd ra : SReg) (ea : Word) (k n : Nat) (o : Order) (x : Scope) : State :=
  let rds := (List.range k).map fun i => (rd + BitVec.ofNat 6 i).toNat
  let dests := fun (bs : List Byte) => (List.range k).map fun i =>
    RDest.s (rd + BitVec.ofNat 6 i).toNat (BitVec.ofNat 64 (leNat ((bs.drop (n * i)).take n)))
  let darken := fun (s : State) => s.modG fun g => rds.foldl (fun g r => g.setSDark r (r != 0)) g
  if s.grp.inLan then
    if s.sDrk [ra] then (darken s).sDone sw
    else if s.sPoi [ra] || ea.toNat % (k * n) != 0 then (darken (s.modG Group.suppress)).sDone sw
    else match s.lanLoad false ea.toNat (k * n) with
      | .data bs s1 => s1.sLate sw (dests bs) false false
      | .dark s1 => (darken s1).sDone sw
      | .fault s1 => (darken (s1.modG Group.suppress)).sDone sw
  else if s.inHold ea.toNat then s.sRaiseAt sw .priv ea false
  else if ea.toNat % (k * n) != 0 then s.sRaiseAt sw .align ea false
  else s.sLoaded sw (s.sPoi [ra]) ea (s.gLoad false ea.toNat (k * n) o x) fun s1 bs m => s1.sLate sw (dests bs) false m

/-- A scalar store of `k` elements of `n` bytes from registers from rd on (R141, R166, R169). -/
def State.sStore (s : State) (sw : Bool) (rd ra : SReg) (ea : Word) (k n : Nat) (o : Order) (x : Scope) : State :=
  let srcs := (List.range k).map fun i => rd + BitVec.ofNat 6 i
  let bs := srcs.flatMap fun r => leBytes n (s.rS r).toNat
  let poi := s.sPoi (ra :: srcs)
  if s.grp.inLan then s.sSuppress sw
  else if s.inHold ea.toNat then s.sRaiseAt sw .priv ea false
  else if ea.toNat % (k * n) != 0 then s.sRaiseAt sw .align ea false
  else if s.lch.undeclared ea.toNat (k * n) then s.sRaiseAt sw (worst poi .undecl) ea false
  else s.sStored sw poi ea (s.gStore false ea.toNat bs o x) fun s1 => s1.sDone sw

/-- `sld` (R140, R141). -/
def execSld (sw : Bool) (rd ra : SReg) (size : MemSize) (ord : Order) (scope : Scope) (imm : BitVec 5) (s : State) : Out :=
  .next (s.sLoad sw rd ra (s.smAddr ra size imm) 1 (MemSize.bytes size) ord scope)

/-- `sst` (R140, R141). -/
def execSst (sw : Bool) (rd ra : SReg) (size : MemSize) (ord : Order) (scope : Scope) (imm : BitVec 5) (s : State) : Out :=
  .next (s.sStore sw rd ra (s.smAddr ra size imm) 1 (MemSize.bytes size) ord scope)

/-- `sldp` (R140, R141): one access of a pair. -/
def execSldp (sw : Bool) (rd ra : SReg) (size : MemSize) (imm : BitVec 5) (s : State) : Out :=
  .next (s.sLoad sw rd ra (s.smAddr ra size imm) 2 (MemSize.bytes size) .rlx .weak)

/-- `sstp` (R140, R141): one access of a pair. -/
def execSstp (sw : Bool) (rd ra : SReg) (size : MemSize) (imm : BitVec 5) (s : State) : Out :=
  .next (s.sStore sw rd ra (s.smAddr ra size imm) 2 (MemSize.bytes size) .rlx .weak)

/-- Bytes of an atomic: a dword or a word. -/
def atomBytes (d : Bool) : Nat := if d then 8 else 4
/-- The new bytes of an atomic operation (R186). -/
def atomNew (d : Bool) (op : AtomOp) (v : Word) (bs : List Byte) : List Byte :=
  if op == .fadd then
    let p := if d then fp64 else fp32
    leBytes (atomBytes d) (p.addC .rn (leNat bs) (v.toNat % 2 ^ (8 * atomBytes d)))
  else if d then leBytes 8 (atomInt op (ofBytes64 bs) v).toNat
  else leBytes 4 (atomInt op (ofBytes32 bs) (v.truncate 32)).toNat
/-- The new bytes of a compare-and-swap (R185). -/
def casNew (d : Bool) (expected new : Word) (bs : List Byte) : List Byte :=
  if leNat bs = expected.toNat % 2 ^ (8 * atomBytes d) then leBytes (atomBytes d) new.toNat else bs

/-- A scalar atomic at an address with a result function and what to do with the old value (R185, R189, R197). -/
def State.sAtomic (s : State) (sw : Bool) (srcs : List SReg) (ea : Word) (n : Nat) (o : Order) (x : Scope) (f : List Byte → List Byte)
    (k : State → List Byte → State) : State :=
  let poi := s.sPoi srcs
  if s.grp.inLan then s.sSuppress sw
  else if s.inHold ea.toNat then s.sRaiseAt sw .priv ea false
  else if ea.toNat % n != 0 then s.sRaiseAt sw .align ea false
  else if s.lch.undeclared ea.toNat n then s.sRaiseAt sw (worst poi .undecl) ea false
  else s.sLoaded sw poi ea (s.gAtomic ea.toNat n o x f) fun s1 bs _ => k s1 bs

/-- The destination of an atomic that lantern mode suppresses is dark: log entry 18. -/
def State.sHush (s : State) (rd : SReg) : State := if s.grp.inLan then s.modG fun g => g.setSDark rd.toNat (rd != 0) else s

/-- `satom` (R185, R186). -/
def execSatom (sw : Bool) (rd ra : SReg) (dw : Bool) (op : AtomOp) (ord : Order) (scope : Scope) (s : State) : Out :=
  .next ((s.sHush rd).sAtomic sw [ra, rd] (s.rS ra) (atomBytes dw) ord scope (atomNew dw op (s.rS rd))
    fun s1 bs => s1.sLate sw [.s rd.toNat (BitVec.ofNat 64 (leNat bs))] false false)

/-- `scas` (R185). -/
def execScas (sw : Bool) (rd ra : SReg) (dw : Bool) (ord : Order) (scope : Scope) (s : State) : Out :=
  .next ((s.sHush rd).sAtomic sw [ra, rd, rd + 1] (s.rS ra) (atomBytes dw) ord scope (casNew dw (s.rS rd) (s.rS (rd + 1)))
    fun s1 bs => s1.sLate sw [.s rd.toNat (BitVec.ofNat 64 (leNat bs))] false false)

/-- `fence` (R190): its release performs the stream's queued stores and cleans, its acquire marks stale. -/
def execFence (sw : Bool) (ord : Order) (scope : Scope) (s : State) : Out :=
  .next (if s.grp.inLan then s.sSuppress sw
    else
      let s := if ord == .rel || ord == .ar then (s.drainBuf s.core s.slot).release s.core scope else s
      (if ord == .acq || ord == .ar then s.acquire s.core scope else s).sDone sw)

/-- A cache operation on the superblock that holds an address (R191, R228, R317); `bus` says whether, there, it needs a vertical bus that failed beyond repair
(R373). -/
def State.superOp (s : State) (sw : Bool) (ra : SReg) (ea : Word) (n : Nat) (bus : State → Nat → Bool) (k : State → Nat → State) : State :=
  let poi := s.sPoi [ra]
  if s.grp.inLan then s.sSuppress sw
  else if s.inHold ea.toNat then s.sRaiseAt sw .priv ea false
  else if ea.toNat % n != 0 then s.sRaiseAt sw .align ea false
  else if s.walkWaits (some s.core) s.prt ea.toNat then (if poi then s.sRaise sw .poison else s.sStall .other)
  else match s.xlate (some s.core) s.prt ea.toNat false with
    | (.bad c w, s1) => (if poi && 7 < c.code then s else s1).sRaiseAt sw (worst poi c) ea w
    | (.ok pa _, s1) =>
      if poi then s.sRaise sw .poison
      else if s.lch.shadowed ea.toNat 1 then s1.sDone sw
      else if bus s1 pa then s1.sRaiseAt sw .vbus ea false
      else (k s1 pa).sDone sw

/-- The superblock stands in the column SRAM of the core, whose vertical bus failed beyond repair (R373). -/
def State.superBus (s : State) (c pa : Nat) : Bool := (s.coreAt c).vbus.failS && ((s.coreAt c).colWork.super pa).isSome
/-- Words of the superblock that a clean of core `c` writes home need a vertical bus that failed beyond repair: that of the core's column SRAM, or of their
home (R191, R373). -/
def State.cleanBus (s : State) (c pa : Nat) : Bool :=
  !homedAt c pa && (match (s.coreAt c).colWork.super pa with
    | none => false
    | some x => (List.range 4).any fun i => (x.line i).dirty != 0 && ((s.coreAt c).vbus.failS || s.homeBus (x.pa (setOf pa) i)))

/-- `cinv` (R191): stale lines of the superblock that the core does not own. -/
def execCinv (sw : Bool) (ra : SReg) (size : MemSize) (_scope : Scope) (imm : BitVec 5) (s : State) : Out :=
  .next (s.superOp sw ra (s.smAddr ra size imm) (MemSize.bytes size) (fun s pa => s.superBus s.core pa) fun s pa => s.markStale s.core fun q => q / 512 == pa / 512)

/-- The dirty words of a core's superblock written home, ownership kept, where the home is another column (R191). -/
def State.cleanSuper (s : State) (c pa : Nat) : State :=
  if homedAt c pa then s
  else match (s.coreAt c).colWork.super pa with
  | none => s
  | some x =>
    let s := s.evict c (setOf pa) x
    s.modCore c fun k => k.modPlane k.colSel fun p => p.mapLines fun q l => if q / 512 == pa / 512 then { l with dirty := 0 } else l

/-- `ccln` (R191): at .g or .t it does nothing. -/
def execCcln (sw : Bool) (ra : SReg) (size : MemSize) (scope : Scope) (imm : BitVec 5) (s : State) : Out :=
  .next (s.superOp sw ra (s.smAddr ra size imm) (MemSize.bytes size)
    (fun s pa => Scope.wide scope && s.cleanBus s.core pa) fun s pa => if Scope.wide scope then s.cleanSuper s.core pa else s)

/-- `pref` (R141, R148): it raises nothing, and its size only scales the offset, so that no address of it is misaligned (R140). -/
def execPref (sw x : Bool) (ra : SReg) (size : MemSize) (imm : BitVec 5) (s : State) : Out :=
  .next ((if s.sDrk [ra] || s.sPoi [ra] then s else s.prefetch x (s.smAddr ra size imm).toNat 1).sDone sw)

/-- `semsig` (R189, R192): a release add at the semaphore's home. -/
def execSemsig (sw : Bool) (scope : Scope) (ra : SReg) (s : State) : Out :=
  .next (s.sAtomic sw [ra, ra + 1] (s.rS ra) 8 .rel scope (atomNew true .add (s.rRun ra 1)) fun s1 _ => s1.sDone sw)

/-- `semwait` (R189, R193): tested at the home; under `.take` the test and the subtraction are one step. -/
def execSemwait (sw take : Bool) (scope : Scope) (ra : SReg) (s : State) : Out :=
  .next (
    let ea := s.rS ra
    let n := s.rRun ra 1
    let poi := s.sPoi [ra, ra + 1]
    let home := if Scope.wide scope then scope else .k
    if s.grp.inLan then s.lanEnd
    else if s.inHold ea.toNat then s.sRaiseAt sw .priv ea false
    else if ea.toNat % 8 != 0 then s.sRaiseAt sw .align ea false
    else if s.lch.undeclared ea.toNat 8 then s.sRaiseAt sw (worst poi .undecl) ea false
    else s.sLoaded sw poi ea ((s.drainBuf s.core s.slot).gLoad false ea.toNat 8 .rlx home) fun s1 bs _ =>
      if (ofBytes64 bs).ult n then s1.sStall .semwait
      else if take then
        s1.sLoaded sw poi ea (s1.gAtomic ea.toNat 8 .acq scope fun bs => leBytes 8 (ofBytes64 bs - n).toNat) fun s2 _ _ => s2.sDone sw
      else (s1.acquire s.core scope).sDone sw)

end Sys2Proof.Machine
end

