-- ==== Sys2Proof/Machine/LaneMem.lean ====
section
/-!
DEFINITION. Sys2Proof/Machine/LaneMem.lean: lane loads, stores, prefetch and probe (R142 to R153, R166, R169) and the lane atomics (R187 to R189),
lane opcodes 0x50 to 0x63.
-/
namespace Sys2Proof.Machine

/-- What the accesses of a lane instruction have come to, thread after thread (R144). -/
structure LAcc where
  s : State
  /-- results -/
  ds : List RDest
  /-- per-thread faults -/
  fs : List TFault
  miss : Bool
  /-- some thread's access must wait: the instruction waits whole -/
  stall : Bool
  /-- some thread's store waits for shadow quota -/
  quota : Bool

/-- The access of one thread: `bad` when one of its source registers is poisoned (R144, R152, R208). -/
def LAcc.one (bad : Nat → Bool) (ea : Nat → Word) (acc : State → Nat → LoadRes) (dests : Nat → List Byte → List RDest) (x : LAcc) (t : Nat) :
    LAcc :=
  let fault := fun c w => { x with fs := x.fs ++ [⟨t, c, ea t, w⟩] }
  if x.stall || x.quota then x
  else match acc x.s t with
    | .bad c w s1 => if bad t && 7 < c.code then fault .poison false else { fault c w with s := s1 }
    | .ok bs m s1 => if bad t then fault .poison false else { x with s := s1, ds := x.ds ++ dests t bs, miss := x.miss || m }
    | .stall => if bad t then fault .poison false else { x with stall := true }
    | .quota => if bad t then fault .poison false else { x with quota := true }

/-- A thread put into a list that rises by line, before those of its own line. -/
def insLine (line : Nat → Nat) (t : Nat) : List Nat → List Nat
  | [] => [t]
  | u :: us => if line t ≤ line u then t :: u :: us else u :: insLine line t us
/-- The line that the coalescer requests for an address of the acting group: that of its physical address, so that two virtual aliases of one line stay in
thread order and the requests leave by rising physical address (R144, R154); where nothing translates, the virtual one. Log entry 74. -/
def State.lineAt (s : State) (va : Word) : Nat :=
  match (s.physFor (some s.core) s.prt va.toNat false).or (s.physFor (some s.core) s.prt va.toNat true) with
  | some pa => pa / 128
  | none => va.toNat / 128
/-- Threads by the line they access, rising, and in thread order within a line: the coalescer's requests leave so (R144, R154). -/
def State.byLine (s : State) (ea : Nat → Word) (ts : List Nat) : List Nat := ts.foldr (insLine fun t => s.lineAt (ea t)) []

/-- A lane load whose bad data comes after its stream has gone on: every thread advances, and the trap waits with the results (R315). -/
def State.lLate (s : State) (sw : Bool) (x : Lane) (o : OutRes) (fs : List TFault) : State :=
  match recorded fs with
  | none => s
  | some f =>
    let t := s.lTrap f.c f.fa f.swap x.pc x.e (fs.map (·.t)) f.t
    ((s.modG fun g => { g with outs := g.outs ++ [o] }).lDone sw x).modG fun g => { g with outs := g.outs.dropLast ++ [{ o with pend := some t }] }

/-- The accesses of a lane instruction by its executing threads, in the order `ts`; its results are outstanding until they return (R144, R149, R152).
Whether the data of a `load` that ends in POISON or ECCU comes after its stream has gone on is open (R315). -/
def State.lAccess (s : State) (load : Bool) (ts : List Nat) (sw : Bool) (x : Lane) (bad : Nat → Bool) (ea : Nat → Word) (acc : State → Nat → LoadRes)
    (dests : Nat → List Byte → List RDest) : State :=
  let r := ts.foldl (LAcc.one bad ea acc dests) ⟨s, [], [], false, false, false⟩
  let fs := x.e.filterMap fun t => r.fs.find? fun f => f.t == t
  let o := OutRes.of true r.ds r.miss false
  if r.stall then s.lStall .other
  else if r.quota then s.quotaNote.lStall .other
  else if load && !x.stay && !fs.isEmpty && fs.all (fun f => (f.c == .poison || f.c == .eccu) && !bad f.t) && Config.freeBool s.fresh 9 then
    r.s.lLate sw x o fs
  else (r.s.modG fun g => if r.ds.isEmpty then g else { g with outs := g.outs ++ [o] }).lEnd sw x fs

/-- The first thread of the execute mask that fails a whole-instruction check raises its cause for all (R151). -/
def State.lCheck (s : State) (x : Lane) (c : Cause) (ea : Nat → Word) (fails : Nat → Bool) (k : State) : State :=
  match x.e.find? fails with
  | some t => s.lRaiseT x c (ea t) false x.e t
  | none => k

/-- Results of a lane load marked dark or not in lantern mode (R169). -/
def State.lMark (s : State) (ds : List RDest) (dark : Bool) : State := s.modG fun g => ds.foldl (fun g d => g.markDest dark d) g

/-- What the loads of a lane instruction in lantern mode have come to. -/
structure LLan where
  s : State
  ds : List RDest
  /-- some thread's fault was suppressed -/
  sup : Bool

/-- A lane load in lantern mode, in the order `ts` of its threads (R154, R169): `addr` names the address sources, `one` the access of a thread. -/
def State.lanEach (s : State) (h : LHdr) (x : Lane) (ts : List Nat) (addr : Nat → Bool × Bool) (one : State → Nat → LanLoad) (dests : Nat → List Byte → List RDest) :
    State :=
  let hidden := (x.f.filter fun t => s.grp.pDark t h.prd.toNat).flatMap fun t => dests t []
  let r := ts.foldl (fun (a : LLan) t =>
    let drop := fun (s : State) (sup : Bool) => LLan.mk (s.lMark (dests t []) true) a.ds (a.sup || sup)
    if (addr t).2 then drop a.s false
    else if (addr t).1 then drop a.s true
    else match one a.s t with
      | .data bs s1 => ⟨s1.lMark (dests t bs) false, a.ds ++ dests t bs, a.sup⟩
      | .dark s1 => drop s1 false
      | .fault s1 => drop s1 true) ⟨s.lMark hidden true, [], false⟩
  (r.s.modG fun g =>
    let g := if r.ds.isEmpty then g else { g with outs := g.outs ++ [OutRes.of true r.ds false true] }
    if r.sup then g.suppress else g).lDone h.sw x

/-- Every active thread's results of an instruction dark, as a poisoned guard leaves them (R169). -/
def darkAll (dests : Nat → List Byte → List RDest) (s : State) (x : Lane) : State := s.lMark (x.f.flatMap fun t => dests t []) true

/-- A global load of `n` bytes aligned to `n` by each executing thread (R144, R151, R169). -/
def State.lgLoad (s : State) (h : LHdr) (srcs : List (Sel × Bool)) (ea : State → Nat → Word) (n : Nat) (o : Order) (sc : Scope)
    (dests : Nat → List Byte → List RDest) : State :=
  s.laneBy h (darkAll dests) fun s x =>
    let ea := ea s
    if s.grp.inLan then
      let asks := fun (u : Nat) => !s.anyBad srcs u && !s.anyDark srcs u && (ea u).toNat % n == 0 && s.lanAsks (ea u).toNat n
      let again := fun (t : Nat) => x.e.any fun u => u < t && asks u && s.lineAt (ea u) == s.lineAt (ea t)
      s.lanEach h x (s.byLine ea x.e) (fun t => (s.anyBad srcs t, s.anyDark srcs t))
        (fun s1 t => if (ea t).toNat % n != 0 then .fault s1 else s.lanThread s1 (again t) (ea t).toNat n) dests
    else s.lCheck x .align ea (fun t => (ea t).toNat % n != 0)
      (s.lAccess true (s.byLine ea x.e) h.sw x (s.anyBad srcs) ea (fun s t => s.gLoad true (ea t).toNat n o sc) dests)

/-- A store's outcome as an access that returns nothing. -/
def StoreRes.asLoad : StoreRes → LoadRes
  | .ok s => .ok [] false s
  | .bad c w s => .bad c w s
  | .stall => .stall
  | .quota => .quota

/-- A lane instruction suppressed in lantern mode; what it would have returned is dark: log entry 18. -/
def State.lHush (s : State) (h : LHdr) (x : Lane) (dests : Nat → List Byte → List RDest) : State :=
  (s.lMark ((x.f.filter fun t => x.e.contains t || s.grp.pDark t h.prd.toNat).flatMap fun t => dests t []) true).lSuppress h.sw x

/-- A lane access that writes global memory: its whole-instruction checks, the region check over every thread, then each thread
(R144, R151, R166, R189); in lantern mode it is suppressed and counted (R169). Threads that `on` leaves out make no access (R146). Weak
accesses leave by rising line, `line`, others in thread order (R153, R154, R188). -/
def State.lgWrite (s : State) (line : Bool) (h : LHdr) (bad : State → Nat → Bool) (on : State → Nat → Bool) (ea : State → Nat → Word) (n : Nat)
    (acc : State → State → Nat → LoadRes) (dests : Nat → List Byte → List RDest) : State :=
  s.laneBy h (darkAll dests) fun s x =>
    let ea := ea s
    let on := on s
    if s.grp.inLan then s.lHush h x dests
    else s.lCheck x .align ea (fun t => on t && (ea t).toNat % n != 0)
      (s.lCheck x .undecl ea (fun t => on t && s.lch.undeclared (ea t).toNat n)
        (s.lAccess false (if line then s.byLine ea x.e else x.e) h.sw x (bad s) ea (fun s1 t => if on t then acc s s1 t else .ok [] false s1) dests))

/-- Every thread makes its access. -/
def allOn (_ : State) (_ : Nat) : Bool := true

/-- The results of a loaded element: sign- or zero-extended, or a pair (R144). -/
def loadDests (size : MemSize) (sx : Bool) (d : VReg) (t : Nat) (bs : List Byte) : List RDest :=
  let x := leNat bs
  match size with
  | .d => putPair d t (BitVec.ofNat 64 x)
  | .w => [.v t d.toNat (BitVec.ofNat 32 x)]
  | .h => [.v t d.toNat (if sx then (BitVec.ofNat 16 x).signExtend 32 else BitVec.ofNat 32 x)]
  | .b => [.v t d.toNat (if sx then (BitVec.ofNat 8 x).signExtend 32 else BitVec.ofNat 32 x)]
/-- The results of a vector form (R144). -/
def vecDests (k : VecN) (d : VReg) (t : Nat) (bs : List Byte) : List RDest :=
  (List.range (VecN.count k)).map fun i => .v t (d.toNat + i) (ofBytes32 ((bs.drop (4 * i)).take 4))
/-- The bytes of a thread's data operand (R144). -/
def State.dataOf (s : State) (size : MemSize) (c : Sel) (t : Nat) : List Byte :=
  leBytes (MemSize.bytes size) (if size == .d then (s.op64 0 t c).toNat else (s.op32 0 t c).toNat)
/-- The bytes of a vector form's data registers (R144). -/
def State.vecData (s : State) (k : VecN) (c : VReg) (t : Nat) : List Byte :=
  (List.range (VecN.count k)).flatMap fun i => leBytes 4 (s.rV t (c + BitVec.ofNat 6 i)).toNat
/-- The data registers of a vector form as sources. -/
def vecSrcs (k : VecN) (c : VReg) : List (Sel × Bool) := (List.range (VecN.count k)).map fun i => (.v (c + BitVec.ofNat 6 i), false)

/-- `ldg` (R143, R144). -/
def execLdg (h : LHdr) (size : MemSize) (sx : Bool) (ord : Order) (scope : Scope) (d : VReg) (ca : BitVec 3) (x : Idx) (off : BitVec 32)
    (s : State) : Out :=
  .next (s.lgLoad h [(Idx.sel x, false)] (fun s => s.eaIdx ca x (MemSize.bytes size) off) (MemSize.bytes size) ord scope (loadDests size sx d))
/-- `ldgx` (R143, R144). -/
def execLdgx (h : LHdr) (size : MemSize) (sx : Bool) (ord : Order) (scope : Scope) (d : VReg) (a : ASel) (off : BitVec 32) (s : State) : Out :=
  .next (s.lgLoad h [(ASel.sel a, true)] (fun s => s.eaDir a off) (MemSize.bytes size) ord scope (loadDests size sx d))
/-- `ldgv` (R143, R144): one access of n words. -/
def execLdgv (h : LHdr) (cnt : VecN) (d : VReg) (ca : BitVec 3) (x : Idx) (off : BitVec 32) (s : State) : Out :=
  .next (s.lgLoad h [(Idx.sel x, false)] (fun s => s.eaIdx ca x (4 * VecN.count cnt) off) (4 * VecN.count cnt) .rlx .weak (vecDests cnt d))

/-- `stg` (R143, R144). -/
def execStg (h : LHdr) (size : MemSize) (ord : Order) (scope : Scope) (ca : BitVec 3) (x : Idx) (c : Sel) (off : BitVec 32) (s : State) : Out :=
  .next (s.lgWrite (!Scope.wide scope) h (fun s => s.anyBad [(Idx.sel x, false), (c, size == .d)]) allOn (fun s => s.eaIdx ca x (MemSize.bytes size) off) (MemSize.bytes size)
    (fun s0 s t => (s.gStore true (s0.eaIdx ca x (MemSize.bytes size) off t).toNat (s0.dataOf size c t) ord scope).asLoad) fun _ _ => [])
/-- `stgx` (R143, R144). -/
def execStgx (h : LHdr) (size : MemSize) (ord : Order) (scope : Scope) (a : ASel) (c : Sel) (off : BitVec 32) (s : State) : Out :=
  .next (s.lgWrite (!Scope.wide scope) h (fun s => s.anyBad [(ASel.sel a, true), (c, size == .d)]) allOn (fun s => s.eaDir a off) (MemSize.bytes size)
    (fun s0 s t => (s.gStore true (s0.eaDir a off t).toNat (s0.dataOf size c t) ord scope).asLoad) fun _ _ => [])
/-- `stgv` (R143, R144): one access of n words. -/
def execStgv (h : LHdr) (cnt : VecN) (ca : BitVec 3) (x : Idx) (c : VReg) (off : BitVec 32) (s : State) : Out :=
  let n := 4 * VecN.count cnt
  .next (s.lgWrite true h (fun s => s.anyBad ((Idx.sel x, false) :: vecSrcs cnt c)) allOn (fun s => s.eaIdx ca x n off) n
    (fun s0 s t => (s.gStore true (s0.eaIdx ca x n off t).toNat (s0.vecData cnt c t) .rlx .weak).asLoad) fun _ _ => [])

/-- The enabled bytes of a thread's masked store, as runs: first byte and bytes (R146). -/
def maskRuns (mask : Nat) : Nat → Nat → List Byte → List (Nat × List Byte)
  | 0, _, _ => []
  | k + 1, i, bs =>
    let rest := maskRuns mask k (i + 1) (bs.drop 1)
    if mask.testBit i then
      match rest with
      | (j, r) :: more => if j = i + 1 then (i, bs.take 1 ++ r) :: more else (i, bs.take 1) :: rest
      | [] => [(i, bs.take 1)]
    else rest
/-- A masked store of one thread: the aligned element is checked as a whole, and the enabled bytes are stored (R146, R209). -/
def State.maskStore (s : State) (va n mask : Nat) (bs : List Byte) : LoadRes :=
  match s.gStore true va bs .rlx .weak with
  | .ok _ => (maskRuns mask n 0 bs).foldl (fun r p => match r with
      | .ok _ _ s1 => (s1.gStore true (va + p.1) p.2 .rlx .weak).asLoad
      | r => r) (.ok [] false s)
  | r => r.asLoad
/-- `stgm` (R146): a thread whose enabled bytes are all zero makes no access. -/
def execStgm (h : LHdr) (dw : Bool) (a : ASel) (b c : Sel) (off : BitVec 32) (s : State) : Out :=
  let n := atomBytes dw
  let size : MemSize := if dw then .d else .w
  let mask := fun (s : State) (t : Nat) => (s.op32 0 t b).toNat % 2 ^ n
  .next (s.lgWrite true h (fun s t => s.selBad false t b || (mask s t != 0 && s.anyBad [(ASel.sel a, true), (c, dw)] t)) (fun s t => mask s t != 0) (fun s => s.eaDir a off) n
    (fun s0 s t => s.maskStore (s0.eaDir a off t).toNat n (mask s0 t) (s0.dataOf size c t)) fun _ _ => [])

/-- `ldbc` (R145): one read for the group, every fault whole. Whether bad data of it comes after its stream has gone on is open (R315). -/
def execLdbc (h : LHdr) (size : MemSize) (sx : Bool) (ord : Order) (scope : Scope) (d : VReg) (ca : BitVec 3) (off : BitVec 32) (s : State) :
    Out :=
  .next (s.laneBy h (darkAll fun t bs => loadDests size sx d t bs) fun s x =>
    let n := MemSize.bytes size
    let ea := s.grp.cap ca.toNat + off.signExtend 64
    let dests := fun (bs : List Byte) => x.e.flatMap fun t => loadDests size sx d t bs
    let hidden := (x.f.filter fun t => s.grp.pDark t h.prd.toNat).flatMap fun t => loadDests size sx d t []
    if x.e.isEmpty then (s.lMark hidden s.grp.inLan).lDone h.sw x
    else if s.grp.inLan then
      let s := s.lMark hidden true
      if ea.toNat % n != 0 then ((s.lMark (dests []) true).modG Group.suppress).lDone h.sw x
      else match s.lanLoad true ea.toNat n with
        | .data bs s1 => ((s1.lMark (dests bs) false).modG fun g => { g with outs := g.outs ++ [OutRes.of true (dests bs) false true] }).lDone h.sw x
        | .dark s1 => (s1.lMark (dests []) true).lDone h.sw x
        | .fault s1 => ((s1.lMark (dests []) true).modG Group.suppress).lDone h.sw x
    else if ea.toNat % n != 0 then s.lRaise x .align ea false x.e
    else match s.gLoad true ea.toNat n ord scope with
      | .bad c w s1 =>
        if (c == .poison || c == .eccu) && !x.stay && Config.freeBool s.fresh 9 then
          s1.lLate h.sw x (OutRes.of true [] false false) (x.e.map fun t => ⟨t, c, ea, w⟩)
        else s1.lRaise x c ea w x.e
      | .stall => s.lStall .other
      | .quota => s.lStall .other
      | .ok bs m s1 => (s1.modG fun g => { g with outs := g.outs ++ [OutRes.of true (dests bs) m false] }).lDone h.sw x)

/-- The answer of `pchk` for an address, and the state with the TLBs filled (R147). -/
def State.probe (s : State) (wr : Bool) (va : Nat) : Bool × State :=
  match s.xlate (some s.core) s.prt va wr with
  | (.ok _ _, s1) => (!(wr && s.lch.undeclared va 1), s1)
  | (.bad _ _, s1) => (false, s1)
/-- `pchk` (R147, R164, R169): it raises no trap for what it probes. A poisoned address register and a poisoned predicate granule of its destination raise
POISON per thread all the same, as R208 and R209 have it of every instruction, log entry 28. -/
def execPchk (h : LHdr) (wr : Bool) (d : BitVec 3) (a : ASel) (off : BitVec 32) (s : State) : Out :=
  .next (s.laneBy h (darkAll fun t _ => [RDest.p t d.toNat false]) fun s x =>
    let ea := s.eaDir a off
    let srcs := [(ASel.sel a, true)]
    let dests := fun (t : Nat) (bs : List Byte) => [RDest.p t d.toNat (leNat bs != 0)]
    let answer := fun (r : Bool × State) => (if r.1 then [1] else [0], r.2)
    let w := s.grp.work
    let bad := fun (t : Nat) => s.anyBad srcs t || w.destBad (.p t d.toNat false)
    if s.grp.inLan then
      s.lanEach h x (s.byLine ea x.e) (fun t => (bad t, s.anyDark srcs t))
        (fun s t => if s.walkWaits (some s.core) s.prt (ea t).toNat then .dark s
          else let r := answer (s.probe wr (ea t).toNat); .data r.1 r.2) dests
    else
      s.lAccess false (s.byLine ea x.e) h.sw x bad ea
        (fun s t =>
          if s.me.scoreHit (.global s.prt) (ea t).toNat 1 || s.walkWaits (some s.core) s.prt (ea t).toNat then .stall
          else let r := answer (s.probe wr (ea t).toNat); .ok r.1 false r.2) dests)

/-- `prefg` (R148, R169): it raises nothing for its addresses; only a poisoned or dark one is dropped. What alignment it needs the spec leaves open: a
multiple of its size, the model's choice, log entry 28. -/
def execPrefg (h : LHdr) (size : MemSize) (tlb : Bool) (ca : BitVec 3) (x : Idx) (off : BitVec 32) (s : State) : Out :=
  .next (s.lane h fun s l =>
    let srcs := [(Idx.sel x, false)]
    let ea := s.eaIdx ca x (MemSize.bytes size) off
    let ts := l.e.filter fun t => !s.anyBad srcs t && !s.anyDark srcs t
    ((s.byLine ea ts).foldl (fun s t => s.prefetch tlb (ea t).toNat (MemSize.bytes size)) s).lDone h.sw l)

/-- An access of the scratchpad of a group by its address: its place, once the whole-instruction checks have passed (R138, R151). -/
def State.spadAt (s : State) (sa : Nat) : Option SLoc := s.spadLoc s.core s.grp sa
/-- A scratchpad load of one thread (R144, R151, R164, R208). -/
def State.spLoad (s : State) (sa n : Nat) : LoadRes :=
  match s.spadAt sa with
  | none => .bad .spad false s
  | some l =>
    if s.spadStall l n then .stall
    else if s.spadPoi l n then .bad .poison false (s.touchSpad l)
    else if s.spadBus l then .bad .vbus false s
    else if s.spadEcc l n then .bad .eccu false (s.touchSpad l)
    else .ok (s.rdSpad l n) false (s.touchSpad l)
/-- Queued matrix multiplications whose A operand a scratchpad store touches compute unspecified products (R164). -/
def State.taintAt (s : State) (l : SLoc) (n : Nat) : State :=
  let hit := fun (t a : Nat) => s.modCore t fun k =>
    let ops := (k.score.filter fun e => !e.dst && e.space == .spad && grainHit e.lo e.hi a n).map (·.op)
    if ops.isEmpty then k else { k with mq := k.mq.map fun m => if m.op == .mma && ops.contains m.id then { m with taint := true } else m }
  match l with
  | .pad t a => hit t a
  | .col t a => hit t (0x800000 + a)
/-- A scratchpad access of one thread that writes what a function makes of the old bytes (R144, R188, R209). -/
def State.spModify (s : State) (sa n : Nat) (f : List Byte → List Byte) : LoadRes :=
  match s.spLoad sa n with
  | .ok bs m s1 => match s.spadAt sa with
    | some l => .ok bs m ((s1.wrSpad l (f bs)).taintAt l n)
    | none => .bad .spad false s
  | r => r
/-- A scratchpad access orders memory at scope .k beyond the core (R181, R182); at that scope a store or atomic comes after the strong stores issued
before it (R184). -/
def State.spOrder (s : State) (acq : Bool) (o : Order) (x : Scope) : State :=
  if acq then (if o == .acq || o == .ar then s.acquire s.core x else s)
  else if o == .rel || o == .ar then (s.drainBuf s.core s.slot).release s.core x else if Scope.wide x then s.drainBuf s.core s.slot else s

/-- A scratchpad instruction: `ALIGN` and `SPAD` for any thread are raised for all (R151). While some thread's access lies in ways that a change of %wpr
covers, the instruction waits whole, so that every thread meets the one count after it (R161, R340). -/
def State.lsAccess (s : State) (h : LHdr) (srcs : List (Sel × Bool)) (write : Bool) (sa : State → Nat → Nat) (n : Nat)
    (acc : State → State → Nat → LoadRes) (dests : Nat → List Byte → List RDest) : State :=
  s.laneBy h (darkAll dests) fun s x =>
    let sa := sa s
    let ea := fun t => BitVec.ofNat 64 (sa t)
    let moves := fun (t : Nat) => (s.spadAt (sa t)).any s.spadMoves
    if s.grp.inLan then
      if write then s.lHush h x dests
      -- a thread whose access is dropped or misaligned makes none; one that a change of %wpr covers has the instruction wait whole (R161, R169, R340)
      else if x.e.any fun t => !s.anyBad srcs t && !s.anyDark srcs t && sa t % n == 0 && moves t then s.lStall .other
      else s.lanEach h x x.e (fun t => (s.anyBad srcs t, s.anyDark srcs t))
        (fun s1 t => if sa t % n != 0 then .fault s1 else match acc s s1 t with
          | .ok bs _ s2 => .data bs s2
          | .bad _ _ s2 => .fault s2
          | _ => .dark s1) dests
    else s.lCheck x .align ea (fun t => sa t % n != 0)
      (if x.e.any moves then s.lStall .other
      else s.lCheck x .spad ea (fun t => (s.spadAt (sa t)).isNone)
        (s.lAccess (!write) x.e h.sw x (s.anyBad srcs) ea (acc s) dests))

/-- `lds` (R143, R144). -/
def execLds (h : LHdr) (size : MemSize) (sx : Bool) (ord : Order) (scope : Scope) (d : VReg) (a : ASel) (off : BitVec 32) (s : State) : Out :=
  .next (s.lsAccess h [(ASel.sel a, false)] false (fun s => s.saOf a off) (MemSize.bytes size)
    (fun s0 s t => match s.spLoad (s0.saOf a off t) (MemSize.bytes size) with
      | .ok bs m s1 => .ok bs m (s1.spOrder true ord scope)
      | r => r) (loadDests size sx d))
/-- `ldsb` (R143, R144): one access of n words. -/
def execLdsb (h : LHdr) (cnt : VecN) (d : VReg) (a : ASel) (off : BitVec 32) (s : State) : Out :=
  .next (s.lsAccess h [(ASel.sel a, false)] false (fun s => s.saOf a off) (4 * VecN.count cnt)
    (fun s0 s t => s.spLoad (s0.saOf a off t) (4 * VecN.count cnt)) (vecDests cnt d))
/-- `sts` (R143, R144). -/
def execSts (h : LHdr) (size : MemSize) (ord : Order) (scope : Scope) (a : ASel) (c : Sel) (off : BitVec 32) (s : State) : Out :=
  .next (s.lsAccess h [(ASel.sel a, false), (c, size == .d)] true (fun s => s.saOf a off) (MemSize.bytes size)
    (fun s0 s t => (s.spOrder false ord scope).spModify (s0.saOf a off t) (MemSize.bytes size) fun _ => s0.dataOf size c t) fun _ _ => [])
/-- `stsb` (R143, R144): one access of n words. -/
def execStsb (h : LHdr) (cnt : VecN) (a : ASel) (c : VReg) (off : BitVec 32) (s : State) : Out :=
  .next (s.lsAccess h ((ASel.sel a, false) :: vecSrcs cnt c) true (fun s => s.saOf a off) (4 * VecN.count cnt)
    (fun s0 s t => s.spModify (s0.saOf a off t) (4 * VecN.count cnt) fun _ => s0.vecData cnt c t) fun _ _ => [])

/-- The operand of a lane atomic (R187). -/
def State.atomArg (s : State) (dw : Bool) (c : Sel) (t : Nat) : Word := if dw then s.op64 0 t c else (s.op32 0 t c).zeroExtend 64
/-- The results of a lane atomic: the old value (R188). -/
def atomDests (dw : Bool) (d : VReg) (t : Nat) (bs : List Byte) : List RDest := loadDests (if dw then .d else .w) false d t bs
/-- The new bytes of a lane compare-and-swap of a thread: expected in c, new in the register or pair after it (R187). -/
def State.casArg (s : State) (dw : Bool) (c : VReg) (t : Nat) : List Byte → List Byte :=
  casNew dw (s.atomArg dw (.v c) t) (s.atomArg dw (.v (c + if dw then 2 else 1)) t)
/-- The registers of a lane compare-and-swap as sources. -/
def casSrcs (dw : Bool) (c : VReg) : List (Sel × Bool) := [(.v c, dw), (.v (c + if dw then 2 else 1), dw)]

/-- A lane atomic on global memory (R187 to R189). -/
def State.lgAtomic (s : State) (h : LHdr) (dw : Bool) (ord : Order) (scope : Scope) (srcs : List (Sel × Bool)) (ea : State → Nat → Word)
    (f : State → Nat → List Byte → List Byte) (dests : Nat → List Byte → List RDest) : State :=
  s.lgWrite false h (fun s => s.anyBad srcs) allOn ea (atomBytes dw) (fun s0 s t => s.gAtomic (ea s0 t).toNat (atomBytes dw) ord scope (f s0 t)) dests

/-- `atomg` (R187, R188). -/
def execAtomg (h : LHdr) (dw : Bool) (op : AtomOp) (ord : Order) (scope : Scope) (d : VReg) (ca : BitVec 3) (x : Idx) (c : Sel)
    (off : BitVec 32) (s : State) : Out :=
  .next (s.lgAtomic h dw ord scope [(Idx.sel x, false), (c, dw)] (fun s => s.eaIdx ca x (atomBytes dw) off)
    (fun s t => atomNew dw op (s.atomArg dw c t)) (atomDests dw d))
/-- `casg` (R187, R188). -/
def execCasg (h : LHdr) (dw : Bool) (ord : Order) (scope : Scope) (d : VReg) (ca : BitVec 3) (x : Idx) (c : VReg) (off : BitVec 32)
    (s : State) : Out :=
  .next (s.lgAtomic h dw ord scope ((Idx.sel x, false) :: casSrcs dw c) (fun s => s.eaIdx ca x (atomBytes dw) off)
    (fun s t => s.casArg dw c t) (atomDests dw d))
/-- `atomgx` (R187, R188). -/
def execAtomgx (h : LHdr) (dw : Bool) (op : AtomOp) (ord : Order) (scope : Scope) (d : VReg) (a : ASel) (c : Sel) (off : BitVec 32)
    (s : State) : Out :=
  .next (s.lgAtomic h dw ord scope [(ASel.sel a, true), (c, dw)] (fun s => s.eaDir a off)
    (fun s t => atomNew dw op (s.atomArg dw c t)) (atomDests dw d))
/-- `redg` (R187, R188): no old value is returned. -/
def execRedg (h : LHdr) (dw : Bool) (op : AtomOp) (ord : Order) (scope : Scope) (ca : BitVec 3) (x : Idx) (c : Sel) (off : BitVec 32)
    (s : State) : Out :=
  .next (s.lgAtomic h dw ord scope [(Idx.sel x, false), (c, dw)] (fun s => s.eaIdx ca x (atomBytes dw) off)
    (fun s t => atomNew dw op (s.atomArg dw c t)) fun _ _ => [])

/-- A lane atomic on scratchpad, performed at the pane's core (R186 to R188). -/
def State.lsAtomic (s : State) (h : LHdr) (dw : Bool) (ord : Order) (scope : Scope) (srcs : List (Sel × Bool)) (a : ASel) (off : BitVec 32)
    (f : State → Nat → List Byte → List Byte) (dests : Nat → List Byte → List RDest) : State :=
  s.lsAccess h ((ASel.sel a, false) :: srcs) true (fun s => s.saOf a off) (atomBytes dw)
    (fun s0 s t => match (s.spOrder false ord scope).spModify (s0.saOf a off t) (atomBytes dw) (f s0 t) with
      | .ok bs m s1 => .ok bs m (s1.spOrder true ord scope)
      | r => r) dests
/-- `atoms` (R187, R188). -/
def execAtoms (h : LHdr) (dw : Bool) (op : AtomOp) (ord : Order) (scope : Scope) (d : VReg) (a : ASel) (c : Sel) (off : BitVec 32) (s : State) :
    Out :=
  .next (s.lsAtomic h dw ord scope [(c, dw)] a off (fun s t => atomNew dw op (s.atomArg dw c t)) (atomDests dw d))
/-- `cass` (R187, R188). -/
def execCass (h : LHdr) (dw : Bool) (ord : Order) (scope : Scope) (d : VReg) (a : ASel) (c : VReg) (off : BitVec 32) (s : State) : Out :=
  .next (s.lsAtomic h dw ord scope (casSrcs dw c) a off (fun s t => s.casArg dw c t) (atomDests dw d))

end Sys2Proof.Machine
end

