-- ==== Sys2Proof/Machine/Matrix.lean ====
section
/-!
DEFINITION. Sys2Proof/Machine/Matrix.lean: matrix instructions, lane opcodes 0x64 to 0x6F: their checks, their place in the matrix queue, and what
`mfmt`, `mstat` and `wsel` do at once (R259 to R275). What queued instructions do stands in EvMatrix.lean.
-/
namespace Sys2Proof.Machine

/-- A check at issue: whether it fails, with which cause, address and page fault. -/
structure MChk where
  bad : Bool
  c : Cause
  fa : Word
  swap : Bool
  deriving DecidableEq, Repr

/-- The failing check with the lowest code (R10, R261). -/
def lowest : List MChk → Option MChk
  | [] => none
  | x :: xs => match lowest xs with
    | none => if x.bad then some x else none
    | some y => if x.bad && x.c.code ≤ y.c.code then some x else some y

/-- A matrix instruction under its guard; suppressed in lantern mode, and without effect where the execute mask is empty (R275). -/
def State.mLane (s : State) (h : LHdr) (k : State → Lane → State) : State :=
  s.lane h fun s x => if s.grp.inLan then s.lSuppress h.sw x else if x.e.isEmpty then s.lDone h.sw x else k s x
/-- The checks of a matrix instruction (R261). -/
def State.mChecks (s : State) (x : Lane) (cs : List MChk) (k : State) : State :=
  match lowest cs with
  | some f => s.lRaise x f.c f.fa f.swap x.e
  | none => k

/-- A tile lies in a bank of another team, or of none (R198, R261). -/
def State.notBank (s : State) (t : Nat) : MChk := ⟨tget none s.me.accOwn (t / 8) != some s.grp.slot0, .prot, 0, false⟩
/-- The working plane of a tile holds a poisoned granule (R208, R261). -/
def Core.tileBad (k : Core) (t : Nat) : Bool := (List.range 32).any (k.rowBad t)
/-- The check of a tile that is read. -/
def State.tilePoi (s : State) (t : Nat) : MChk := ⟨s.me.tileBad t, .poison, 0, false⟩
/-- Tiles that differ in mode or exponent (R261). -/
def State.unlike (s : State) (t u : Nat) : MChk :=
  ⟨(s.me.tile t).flt != (s.me.tile u).flt || (s.me.tile t).e != (s.me.tile u).e, .matfmt, 0, false⟩

/-- A queued instruction of the acting group as issued now (R262). -/
def State.mItem (s : State) (op : MOp) (x : Lane) (tile : Nat) : MItem :=
  let t := s.me.tile tile
  { id := s.me.nextOp, op := op, slot := s.slot, lid := s.grp.lid, cohort := s.grp.cohort, wick := 0, seq := 0, mask := tmask x.e, tile := tile, x := 0, y := 0
    flt := t.flt, e := t.e, flt0 := t.flt, e0 := t.e, ks := [], addr := 0, stride := 0, spad := false, desc := [], boff := 0, steps := 0
    since := s.now, free := s.now, run := false, resume := 0, fail := none, doneAt := none, taint := false, page := none }

/-- An instruction enters the matrix queue, with its scoreboard entries; issue waits while the queue or the scoreboard is full
(R163, R262, R267). -/
def State.mQueue (s : State) (sw : Bool) (x : Lane) (m : MItem) (sc : List Score) (k : State → State) : State :=
  if 16 ≤ s.me.mq.length || 16 < s.me.score.length + sc.length then s.lStall .other
  else
    let s := (s.drainBuf s.core s.slot).modCore s.core fun c => { c with mq := c.mq ++ [m], score := c.score ++ sc, nextOp := c.nextOp + 1 }
    (k s).lDone sw x
/-- The same for an instruction counted on a wick (R67, R231, R264). -/
def State.mAsync (s : State) (sw : Bool) (x : Lane) (wick : Wick) (m : MItem) (sc : List Score) : State :=
  if s.grp.wick wick = 0xFFFF then s.lStall .other
  else
    let r := s.grp.xs wick
    s.mQueue sw x { m with wick := wick, seq := r.issued } sc fun s =>
      s.modG fun g => (g.setWick wick (g.wick wick + 1)).setXs wick { r with issued := r.issued + 1 }
/-- A matrix instruction with an empty execute mask raises its wick and lowers it at once (R275). -/
def State.mAsyncNone (s : State) (h : LHdr) (wick : Wick) (k : State → Lane → State) : State :=
  s.lane h fun s x =>
    if s.grp.inLan then s.lSuppress h.sw x
    else if x.e.isEmpty then (if s.grp.wick wick = 0xFFFF then s.lStall .other else s.lDone h.sw x)
    else k s x

/-- The descriptor with an index read by a weak load: its dwords, a fault, or a wait (R241). -/
def State.descLoad (s : State) (idx : Nat) : LoadRes := s.gLoad true (s.lch.fmt + BitVec.ofNat 64 (64 * idx)).toNat 64 .rlx .weak
/-- The fault of a descriptor load as a check. -/
def State.descFault (s : State) (idx : Nat) : MChk :=
  match s.descLoad idx with
  | .bad c w _ => ⟨true, c, s.lch.fmt + BitVec.ofNat 64 (64 * idx), w⟩
  | _ => ⟨false, .ill, 0, false⟩

/-- A scratchpad address of a peer, or rows of which some byte lies with a peer or outside the team's scratchpad (R263). -/
def State.outside (s : State) (sa rows stride n : Nat) : Bool :=
  let out := fun (a : Nat) => !(a / 2 ^ 24 % 8 == 7 || a / 2 ^ 24 % 8 == s.core % 6) || (s.spadAt a).isNone
  out sa || (List.range rows).any fun i => out ((sa + i * stride) % 2 ^ 32) || out ((sa + i * stride + n - 1) % 2 ^ 32)
/-- The scoreboard entry of rows of scratchpad (R163, R267). -/
def State.rowScore (s : State) (sa rows stride n : Nat) (dst : Bool) : List Score :=
  let len := (rows - 1) * stride + n
  match s.spadAt sa with
  | some (.pad _ o) => [⟨.spad, o, o + len - 1, s.me.nextOp, s.core, dst⟩]
  | some (.col _ o) => [⟨.spad, 0x800000 + o, 0x800000 + o + len - 1, s.me.nextOp, s.core, dst⟩]
  | none => []

/-- Bytes that one step takes of a row of A (R263). -/
def stepBytes (f : Nat) : Nat := elBytes f 64

/-- `mma` (R260, R261, R263, R264, R267). Which bytes a row of A takes is not known where its descriptor cannot be read or names no format: SPAD is then
judged by those that a row of the narrowest format takes, the model's choice, log entry 66. -/
def execMma (h : LHdr) (tile : BitVec 6) (wick : Wick) (ca cb : BitVec 3) (desc : BitVec 8) (steps : BitVec 12) (s : State) : Out :=
  .next (s.mAsyncNone h wick fun s x =>
    let t := tile.toNat
    let spec := s.grp.cap ca.toNat
    let addr := bits spec 0 32
    let stride := bits spec 32 16
    let off := bits (s.grp.cap cb.toNat) 0 20
    let boff := s.grp.wb.toNat + off
    let ns := steps.toNat + 1
    let fa := BitVec.ofNat 64 addr
    let early := [⟨addr % 16 != 0 || stride % 16 != 0, .align, fa, false⟩, ⟨off % 8 != 0, .align, BitVec.ofNat 64 boff, false⟩,
      s.notBank t, s.tilePoi t]
    -- without a format that is known, the bytes that rows of every format take
    let least : MChk := ⟨s.outside addr 32 stride (stepBytes 7 * ns), .spad, fa, false⟩
    match s.descLoad desc.toNat with
    | .bad _ _ s1 => s1.mChecks x (s.descFault desc.toNat :: least :: early) s1
    | .ok bs _ s1 =>
      let ws := toDws 8 bs
      let tl := s.me.tile t
      let f := sfmtOf ws 0
      let valid := descCheck ws tl.flt tl.e == 0
      let n := stepBytes f * ns
      let sc := narrowFmt f && s.outside (scAddr ws 0) 32 (scStride ws 0) (2 * ns)
      let checks := early ++ [⟨!valid, .matfmt, 0, false⟩,
        ⟨s.outside addr 32 stride n || sc, .spad, fa, false⟩]
      s1.mChecks x checks
        (s1.mAsync h.sw x wick { s1.mItem .mma x t with addr := addr, stride := stride, desc := ws, boff := boff, steps := ns }
          (s1.rowScore addr 32 stride n false ++ [⟨.wbuf, boff, 0xFFFFF, s1.me.nextOp, s1.core, false⟩]))
    | _ => s.mChecks x (least :: early) (s.lStall .other))

/-- `mzero` (R261, R269): mode and exponent are recorded at issue. -/
def execMzero (h : LHdr) (flt : Bool) (tile : BitVec 6) (e : BitVec 16) (s : State) : Out :=
  .next (s.mLane h fun s x =>
    let t := tile.toNat
    s.mChecks x [s.notBank t] (s.mQueue h.sw x { s.mItem .mzero x t with flt := flt, e := e } [] fun s =>
      s.modCore s.core fun k => k.modTile t fun r => { r with flt := flt, e := e }))

/-- `mld` and `mst` (R261, R270). -/
def State.mMove (s : State) (h : LHdr) (op : MOp) (sp : Bool) (tile : Nat) (wick : Wick) (ca : BitVec 3) (stride : BitVec 32) : State :=
  s.mAsyncNone h wick fun s x =>
    let c := s.grp.cap ca.toNat
    let addr := if sp then bits c 0 32 else c.toNat
    let st := stride.toNat
    let fa := BitVec.ofNat 64 addr
    let dst := op == .mst
    let poi := if dst then [s.tilePoi tile] else []
    let sc := if sp then s.rowScore addr 32 st 256 dst else [⟨.global s.prt, addr, addr + 31 * st + 255, s.me.nextOp, s.core, dst⟩]
    s.mChecks x ([⟨addr % 8 != 0 || st % 8 != 0, .align, fa, false⟩, s.notBank tile, ⟨sp && s.outside addr 32 st 256, .spad, fa, false⟩] ++ poi)
      (s.mAsync h.sw x wick { s.mItem op x tile with addr := addr, stride := st, spad := sp } sc)
/-- `mld` (R270). -/
def execMld (h : LHdr) (sp : Bool) (tile : BitVec 6) (wick : Wick) (ca : BitVec 3) (stride : BitVec 32) (s : State) : Out :=
  .next (s.mMove h .mld sp tile.toNat wick ca stride)
/-- `mst` (R270). -/
def execMst (h : LHdr) (sp : Bool) (tile : BitVec 6) (wick : Wick) (ca : BitVec 3) (stride : BitVec 32) (s : State) : Out :=
  .next (s.mMove h .mst sp tile.toNat wick ca stride)

/-- `madd` (R261, R271). -/
def execMadd (h : LHdr) (td tx ty : BitVec 6) (s : State) : Out :=
  .next (s.mLane h fun s x =>
    let d := td.toNat
    let a := tx.toNat
    let b := ty.toNat
    s.mChecks x [s.notBank d, s.notBank a, s.notBank b, s.tilePoi a, s.tilePoi b, s.unlike d a, s.unlike d b]
      (s.mQueue h.sw x { s.mItem .madd x d with x := a, y := b } [] id))
/-- `mcvt` (R261, R271): the new mode and exponent are recorded at issue. -/
def execMcvt (h : LHdr) (flt : Bool) (tile : BitVec 6) (e : BitVec 16) (s : State) : Out :=
  .next (s.mLane h fun s x =>
    let t := tile.toNat
    s.mChecks x [s.notBank t, s.tilePoi t] (s.mQueue h.sw x { s.mItem .mcvt x t with flt := flt, e := e } [] fun s =>
      s.modCore s.core fun k => k.modTile t fun r => { r with flt := flt, e := e }))
/-- `mscl` (R261, R271): each row by its thread's exponent. -/
def execMscl (h : LHdr) (tile : BitVec 6) (a : Sel) (imm : BitVec 32) (s : State) : Out :=
  .next (s.mLane h fun s x =>
    let t := tile.toNat
    let src : MChk := ⟨x.e.any fun t => s.selBad false t a, .poison, 0, false⟩
    s.mChecks x [s.notBank t, s.tilePoi t, src]
      (s.mQueue h.sw x { s.mItem .mscl x t with ks := (List.range 32).map fun t => s.op32 imm t a } [] id))
/-- `mtrans` (R261, R271). -/
def execMtrans (h : LHdr) (td tx : BitVec 6) (s : State) : Out :=
  .next (s.mLane h fun s x =>
    let d := td.toNat
    let a := tx.toNat
    s.mChecks x [s.notBank d, s.notBank a, s.tilePoi a, s.unlike d a] (s.mQueue h.sw x { s.mItem .mtrans x d with x := a } [] id))
/-- `mglow` (R262, R279). -/
def execMglow (h : LHdr) (n : BitVec 20) (s : State) : Out :=
  .next (s.mLane h fun s x => s.mQueue h.sw x { s.mItem .mglow x 0 with steps := n.toNat } [] id)

/-- A result written to every executing thread later; in lantern mode it is dark (R272, R273, R275). -/
def State.mResult (s : State) (sw : Bool) (x : Lane) (ds : List RDest) : State :=
  (s.modG fun g => { g with outs := g.outs ++ [OutRes.of true ds false false] }).lDone sw x
/-- A matrix read: suppressed in lantern mode with its destinations dark (R275). -/
def State.mRead (s : State) (h : LHdr) (out : Nat → List RDest) (k : State → Lane → State) : State :=
  s.lane h fun s x =>
    if s.grp.inLan then (s.lMark ((x.f.filter fun t => x.e.contains t || s.grp.pDark t h.prd.toNat).flatMap out) true).lSuppress h.sw x
    else if x.e.isEmpty then s.lDone h.sw x
    else k s x

/-- `mfmt` (R261, R272): the number of the first condition of R244 met. -/
def execMfmt (h : LHdr) (d : VReg) (tile : BitVec 6) (desc : BitVec 8) (s : State) : Out :=
  .next (s.mRead h (fun t => [.v t d.toNat 0]) fun s x =>
    let own := s.notBank tile.toNat
    match s.descLoad desc.toNat with
    | .bad _ _ s1 => s1.mChecks x [own, s.descFault desc.toNat] s1
    | .ok bs _ s1 =>
      let tl := s.me.tile tile.toNat
      let v := BitVec.ofNat 32 (descCheck (toDws 8 bs) tl.flt tl.e)
      s1.mChecks x [own] ((s1.drainBuf s1.core s1.slot).mResult h.sw x (x.e.map fun t => .v t d.toNat v))
    | _ => s.mChecks x [own] (s.lStall .other))

/-- `mstat` (R261, R273): it takes effect after every matrix instruction issued earlier on the core, whatever the stream does meanwhile. -/
def execMstat (h : LHdr) (flg : Bool) (d : VReg) (n : BitVec 6) (s : State) : Out :=
  .next (s.mRead h (fun t => if flg then [.v t d.toNat 0] else putPair d t 0) fun s x =>
    s.mChecks x (if flg then [s.notBank n.toNat] else [])
      (let ds := x.e.flatMap fun u => if flg then [RDest.v u d.toNat 0] else putPair d u 0
      let s := (s.drainBuf s.core s.slot).modG fun g => { g with
        outs := g.outs ++ [{ OutRes.of true ds false false with op := some (s.me.nextOp, flg, n.toNat, s.now) }] }
      (s.lDone h.sw x).statDue s.core))

/-- `wsel` (R273): a[19:3] × 8. -/
def execWsel (h : LHdr) (a : Sel) (imm : BitVec 32) (s : State) : Out :=
  .next (s.mLane h fun s x =>
    let v := s.op32 imm x.first a
    ((s.drainBuf s.core s.slot).modG fun g => { g with wb := BitVec.ofNat 20 (v.toNat / 8 % 2 ^ 17 * 8) }).lDone h.sw x)

end Sys2Proof.Machine
end

