-- ==== Sys2Proof/Machine/Plane.lean ====
section
/-!
DEFINITION. Sys2Proof/Machine/Plane.lean: plane instructions and their events (R198 to R217): `flip`, `pfree`, `pstat`, the exchange, and the
handshake of a cluster.
-/
namespace Sys2Proof.Machine

/-- An instance of a plane domain on a core (R198). -/
inductive Inst where
  | grp (g : Nat)
  | acc (b : Nat)
  | pane (p : Nat)
  | wbuf
  | col
  deriving DecidableEq, Repr

/-- Every instance of a core (R198). -/
def coreInsts : List Inst :=
  (List.range 128).map .grp ++ (List.range 8).map .acc ++ (List.range 64).map .pane ++ [.wbuf, .col]

/-- The instances that a plane instruction of the group at `c`, `g` names, with their cores (R198, R202). -/
def State.insts (s : State) (c g : Nat) (dom : Dom) (sel : List Nat) : List (Nat × Inst) :=
  match dom with
  | .grp => [(c, .grp g)]
  | .acc => sel.map fun b => (c, .acc b)
  | .pane =>
    let ps := (s.coreAt c).teamPanes (s.grpAt c g).slot0
    (sel.filterMap fun i => ps[i]?).map fun p => (c, .pane p)
  | .wbuf => [(c, .wbuf)]
  | .col => [(c, .col)]
  | .core => coreInsts.map fun i => (c, i)
  | .clus => (List.range 6).flatMap fun r => coreInsts.map fun i => (c / 6 * 6 + r, i)

/-- The holder of an instance's staging plane (R201). -/
def Core.holder (k : Core) (i : Inst) : Option Holder :=
  match i with
  | .grp g => (tget Group.reset k.groups g).held
  | .acc b => k.accHolder b
  | .pane p => k.paneHolder p
  | .wbuf => k.wbufHold
  | .col => k.colHold
/-- The core with the holder of an instance's staging plane set. -/
def Core.setHolder (k : Core) (i : Inst) (h : Option Holder) : Core :=
  match i with
  | .grp g => k.modG g fun q => { q with held := h }
  | .acc b => { k with accHold := tput k.accHold b h }
  | .pane p => { k with paneHold := tput k.paneHold p h }
  | .wbuf => { k with wbufHold := h }
  | .col => { k with colHold := h }

/-- The kind, slot and first and last offset of an instance's staging plane (R199). -/
def Inst.area (i : Inst) : Nat × Nat × Nat × Nat :=
  match i with
  | .grp g => (0, g, 0, 0xFFFFFF)
  | .acc b => (1, 0, 65536 * b, 65536 * b + 65535)
  | .pane p => (2, 0, 8192 * p, 8192 * p + 8191)
  | .wbuf => (3, 0, 0, 0xFFFFF)
  | .col => (4, 0, 0x800000, 0xFFFFFF)
/-- A staging address (R199). -/
def stgAddr (kind core slot off : Nat) : Nat := 0xFF80000000000000 + kind * 2 ^ 52 + core * 2 ^ 44 + slot * 2 ^ 37 + off
/-- A staging range touches an instance of a core. -/
def Inst.hit (i : Inst) (c kind core slot off n : Nat) : Bool :=
  let a := i.area
  kind == a.1 && core == c && slot == a.2.1 && n != 0 && off ≤ a.2.2.2 && a.2.2.1 ≤ off + n - 1
/-- An unfinished item of any core writes or reads a staging range of an instance (R205). -/
def State.itemHits (s : State) (e : Nat × Item) (is : List (Nat × Inst)) : Bool :=
  s.itemOn e.1 e.2 fun k c sl o n => is.any fun i => i.2.hit i.1 k c sl o n
/-- The unfinished items that touch some of the instances. -/
def State.itemsOn (s : State) (is : List (Nat × Inst)) : List (Nat × Item) := s.allItems.filter fun e => s.itemHits e is

/-- A cancel signalled to an item: it retires 6 cycles later with a detail (R207, R233). -/
def State.cancelItem (s : State) (e : Nat × Item) (detail : Nat) : State :=
  s.modCore e.1 fun k => { k with items := k.items.map fun i =>
    if i.id == e.2.id && i.cancel.isNone then { i with cancel := some (s.now + 6, detail) } else i }

/-- Offsets of the poisoned granules of one plane of an instance. -/
def Core.badOffs (k : Core) (i : Inst) (staging : Bool) : List Nat :=
  let cells := fun (t : Tab Bool) (lo n base : Nat) => (t.filter fun e => e.2 && lo ≤ e.1 && e.1 < lo + n).map fun e => base + 32 * e.1
  match i with
  | .grp g =>
    let q := tget Group.reset k.groups g
    let p := if staging then q.stage_ else q.work
    (p.vPoi.filter (·.2)).map (fun e => 4 * e.1) ++ (p.sPoi.filter (·.2)).map (fun e => 0x2000 + 8 * e.1)
      ++ (p.pPoi.filter (·.2)).map fun e => 0x2200 + e.1
  | .acc b => cells (k.plane (k.accSel.getLsbD b != staging)).accPoi (2048 * b) 2048 0
  | .pane p => cells (k.plane (k.paneSel.getLsbD p != staging)).padPoi (256 * p) 256 0
  | .wbuf => cells (k.plane (k.wbufSel != staging)).wbufPoi 0 32768 0
  | .col => cells (k.plane (k.colSel != staging)).colPoi 0 262144 0x800000
/-- The ways of a plane whose cached lines hold a poisoned granule (R208, R376). -/
def CorePlane.badWays (p : CorePlane) : List Nat :=
  p.cache.flatMap fun e => (e.2.filter fun x => x.lines.any fun l => l.valid && l.poi != 0).map (·.way)
/-- The cache ways of some column instance's staging plane hold a poisoned granule. -/
def State.stagedWays (s : State) (is : List (Nat × Inst)) : Bool :=
  is.any fun i => i.2 == .col && !((s.coreAt i.1).plane !(s.coreAt i.1).colSel).badWays.isEmpty
/-- The lowest poisoned staging address of some instances (R208); a granule of a cache way has none (R199): log entry 63. -/
def State.stagedBad (s : State) (is : List (Nat × Inst)) : Option Nat :=
  (is.flatMap fun i => ((s.coreAt i.1).badOffs i.2 true).map fun o => stgAddr i.2.area.1 i.1 i.2.area.2.1 o).foldl
    (fun m a => match m with
      | none => some a
      | some b => some (min a b)) (if s.stagedWays is then some (2 ^ 64 + (Config.freeWord s.fresh 0x2000).toNat) else none)

/-- The right that a domain requires (R198, R203). -/
def Launch.flipRight (l : Launch) (dom : Dom) : Bool :=
  match dom with
  | .col => l.rightC
  | .core => l.rightC
  | .clus => l.rightK
  | _ => true
/-- A core holds a team of another launch. -/
def State.foreign (s : State) (c lid : Nat) : Bool := (s.coreAt c).bound.any fun e => e.2.lid != lid
/-- An instance named is not owned by the acting group: `take` for a `.take`, which names team-owned panes and needs no right (R203, R214). -/
def State.notOwned (s : State) (dom : Dom) (sel : List Nat) (take : Bool) : Bool :=
  let q := s.grp
  let k := s.me
  let l := s.lch
  match dom with
  | .grp => false
  | .acc => sel.any fun b => !(tget none k.accOwn b == some q.slot0 && l.rightT)
  | .pane =>
    let ps := k.teamPanes q.slot0
    sel.any fun i => match ps[i]? with
      | none => true
      | some p => match (k.pane p).bind (·.owner) with
        | none => !(take || l.rightT)
        | some g => take || g != q.gid
  | .wbuf => !(k.wbufOwn == some q.slot0 && l.rightT)
  | .col => s.foreign s.core q.lid
  | .core => s.foreign s.core q.lid
  | .clus => (List.range 6).any fun r => s.foreign (s.core / 6 * 6 + r) q.lid
/-- The instances a register names: a bank mask, or a first pane and a count (R202). -/
def planeSel (dom : Dom) (x : Word) : List Nat :=
  match dom with
  | .acc => bitsOf 8 x.toNat
  | .pane => span (x.toNat % 64) (x.toNat / 256 % 128)
  | _ => []
/-- The domain needs a register, and it names nothing (R202). -/
def planeNone (dom : Dom) (sel : List Nat) : Bool := (dom == .acc || dom == .pane) && sel.isEmpty
/-- The domain reaches the register plane that a handler's trap hold keeps (R317). -/
def domRegs (dom : Dom) : Bool := dom == .grp || dom == .core || dom == .clus

/-- The instruction of a matrix queue reads or writes a tile of a bank (R204). -/
def MItem.onBank (m : MItem) (b : Nat) : Bool :=
  m.op != .mglow && (m.tile / 8 == b || ((m.op == .madd || m.op == .mtrans) && m.x / 8 == b) || (m.op == .madd && m.y / 8 == b))
/-- A matrix instruction of core `c` was issued before a plane instruction of core `by_` (R204). -/
def PFlip.after (f : PFlip) (by_ c : Nat) (m : MItem) : Bool := if c == by_ then m.id < f.op else m.since ≤ f.since
/-- A queued operation has a scoreboard range of the core's scratchpad that meets some offsets (R163). -/
def Core.opOn (k : Core) (c : Nat) (m : MItem) (lo hi : Nat) : Bool :=
  k.score.any fun x => x.core == c && x.op == m.id && x.space == .spad && x.lo ≤ hi && lo ≤ x.hi
/-- The scales of A that a queued `mma` reads lie in some offsets of the core's scratchpad, which no scoreboard range covers (R243, R267). -/
def State.scalesOn (s : State) (c : Nat) (m : MItem) (lo hi : Nat) : Bool :=
  m.op == .mma && narrowFmt (sfmtOf m.desc 0) && (List.range 32).any fun i =>
    match s.spadLoc c (s.grpAt c m.slot) ((scAddr m.desc 0 + i * scStride m.desc 0) % 2 ^ 32) with
    | some (.pad _ o) => o ≤ hi && lo ≤ o + 2 * m.steps - 1
    | some (.col _ o) => 0x800000 + o ≤ hi && lo ≤ 0x800000 + o + 2 * m.steps - 1
    | none => false
/-- The waits of R204 are over for an instance, of a flip by a group of core `by_` in slot `g0`: results written, matrix instructions issued before it
done, no change of %wpr, no other holder; of the weight buffer, every B entry of the core removed, whenever its `mma` was issued (R267). -/
def State.quiet (s : State) (f : PFlip) (by_ g0 : Nat) (e : Nat × Inst) : Bool :=
  let k := s.coreAt e.1
  -- its loads issued before the flip; an `mstat` is none
  let loads := (s.grpAt by_ g0).outs.any fun o => o.flip && o.op.isNone
  let mine := fun (m : MItem) (lo hi : Nat) => f.after by_ e.1 m && e.1 == by_ && m.slot == g0 && (k.opOn e.1 m lo hi || s.scalesOn e.1 m lo hi)
  (match k.holder e.2 with
    | none => true
    | some .items => true
    | _ => false)
  && (match e.2 with
    | .grp g => (tget Group.reset k.groups g).outs.isEmpty && (tget Group.reset k.groups g).lantern.isNone
    | .acc b => !k.mq.any fun m => f.after by_ e.1 m && m.onBank b
    | .pane p => !loads && !k.mq.any fun m => mine m (8192 * p) (8192 * p + 8191)
    | .col => !loads && k.wprChg.isNone && !k.mq.any fun m => mine m 0x800000 0xFFFFFF
        || f.after by_ e.1 m && e.1 == by_ && m.slot == g0 && (m.op == .mld || m.op == .mst) && !m.spad
    | .wbuf => !k.score.any fun x => x.space == .wbuf)

/-- Lantern mode of every group of a core asked to end (R171, R212). -/
def Core.endLanterns (k : Core) (now : Nat) : Core :=
  { k with groups := k.groups.map fun e =>
      let q := e.2.modLan fun l => if l.phase == .leave then l else { l with phase := .leave, until_ := now + 16 }
      (e.1, q) }
/-- The cores that a domain reaches beyond the issuing group's own instances. -/
def wideCores (dom : Dom) (c : Nat) : List Nat :=
  match dom with
  | .core => [c]
  | .clus => span (c / 6 * 6) 6
  | _ => []

/-- The cores whose releases a flip waits for (R197, R204). -/
def relCores (dom : Dom) (c : Nat) : List Nat := if dom == .col then [c] else wideCores dom c
/-- A plane instruction of the acting group is issued past its checks: cancels are signalled; a flip asks lantern mode to end, and the stores that its
group, or the groups of the cores whose columns it turns, have queued are performed (R204, R207, R212). Whether a flip of a column also waits for a release
that another group begins after the flip has issued R197 leaves open: it waits for those begun before its issue alone, the model's choice, log entry 23. -/
def State.planeIssue (s : State) (f : PFlip) : State :=
  let is := s.insts s.core s.slot f.dom f.sel
  let s := if f.mode == .cancel then (s.itemsOn is).foldl (fun s e => s.cancelItem e 2) s else s
  let s := if f.free then s else
    let s := (wideCores f.dom s.core).foldl (fun s c => s.modCore c fun k => k.endLanterns s.now) s
    let s := (relCores f.dom s.core).foldl (fun s c => (s.coreAt c).bound.foldl (fun s g => s.drainBuf c g.1) s) s
    s.drainBuf s.core s.slot
  (s.modCore s.core fun k => { k with nextOp := k.nextOp + 1 }).modG fun g => { g with pflip := some f, outs := g.outs.map fun o => { o with flip := o.flip || !f.free } }

/-- `flip` (R202 to R212, R217, R317): checked and issued; the exchange is an event of its own. -/
def execFlip (sw : Bool) (dom : Dom) (mode : FlipMode) (lazy : Bool) (ra : SReg) (s : State) : Out :=
  .next (
    let rs := if dom == .acc || dom == .pane then [ra] else []
    let sel := planeSel dom (s.rS ra)
    if s.grp.inLan then s.sSuppress sw
    else if s.grp.pflip.isSome then s.sStall .flip
    else s.sChecks sw [((s.grp.handler && domRegs dom) || !s.lch.flipRight dom, .priv), (s.sPoi rs, .poison),
        (s.notOwned dom sel false, .plane)]
      (if planeNone dom sel then s.sDone sw
      else if dom == .clus then
        if (s.clAt (s.core / 6)).flipBy.isSome then s.sStall .flip
        else ((s.planeIssue ⟨dom, mode, lazy, sel, s.now, s.me.nextOp, mode == .cancel, false, sw⟩).modCl (s.core / 6)
          fun k => { k with flipBy := some (s.core, s.slot), acks := [] }).sStall .flip
      else (s.planeIssue ⟨dom, mode, lazy, sel, s.now, s.me.nextOp, mode == .cancel, false, sw⟩).sStall .flip))

/-- An instance's planes exchanged: its select bit changes and a hold of transfer items ends; the incoming column lines are marked stale
(R201, R210, R213). -/
def State.exchange (s : State) (e : Nat × Inst) : State :=
  let s := s.modCore e.1 fun k =>
    let k := match e.2 with
      | .grp g => k.modG g fun q => { q with selB := !q.selB }
      | .acc b => { k with accSel := k.accSel ^^^ BitVec.ofNat 8 (2 ^ b) }
      | .pane p => { k with paneSel := k.paneSel ^^^ BitVec.ofNat 64 (2 ^ p) }
      | .wbuf => { k with wbufSel := !k.wbufSel }
      | .col => { k with colSel := !k.colSel }
    if k.holder e.2 == some .items then k.setHolder e.2 none else k
  if e.2 == .col then s.markStale e.1 fun _ => true else s

/-- A scoreboard entry of an item cut where named panes' staging range lies: the parts that stay staging, and the part that becomes working
scratchpad (R206). -/
def Score.turn (e : Score) (base lo hi : Nat) : List Score × List Score :=
  if e.dst && e.space == .staging && e.lo ≤ hi && lo ≤ e.hi then
    ((if e.lo < lo then [{ e with hi := lo - 1 }] else []) ++ (if hi < e.hi then [{ e with lo := hi + 1 }] else []),
      [{ e with space := .spad, lo := max e.lo lo - base, hi := min e.hi hi - base }])
  else ([e], [])
/-- The scoreboards with the entries of unfinished items turned for a `.flow` flip of `n` panes from one on; none while entries are too few (R206). -/
def State.turnPane (s : State) (c p n : Nat) : Option State :=
  let base := stgAddr 2 c 0 0
  let lo := base + 8192 * p
  let hi := lo + 8192 * n - 1
  let cut_ := s.cores.map fun e => (e.1, (e.2.score.flatMap fun x => (x.turn base lo hi).1, e.2.score.flatMap fun x => (x.turn base lo hi).2))
  let moved := cut_.flatMap fun e => e.2.2
  let s' := cut_.foldl (fun s e => s.modCore e.1 fun k => { k with score := e.2.1 ++ if e.1 == c then moved else [] }) s
  if s'.cores.all fun e => e.2.score.length ≤ 16 || e.2.score.length ≤ (s.coreAt e.1).score.length then some s' else none
/-- Rising numbers as runs: first number and length. -/
def runsOf : List Nat → List (Nat × Nat)
  | [] => []
  | p :: ps => match runsOf ps with
    | (q, n) :: r => if q = p + 1 then (p, n + 1) :: r else (p, 1) :: (q, n) :: r
    | [] => [(p, 1)]
/-- The scoreboards turned for the panes of a `.flow` flip, panes side by side together (R206). -/
def State.turnPanes (s : State) (c : Nat) (is : List (Nat × Inst)) : Option State :=
  let ps := is.filterMap fun e => match e.2 with
    | .pane p => some p
    | _ => none
  (runsOf ps).foldl (fun (o : Option State) r => o.bind fun s => s.turnPane c r.1 r.2) (some s)

/-- The exchange of a flip of the group at `c`, `g` whose waits are over: the poison check, then the planes, and the stream goes on
(R205 to R211). -/
def State.flipNow (s : State) (c g : Nat) (f : PFlip) : State :=
  let is := s.insts c g f.dom f.sel
  match (if f.lazy then none else s.stagedBad is) with
  | some a => (s.modGrp c g fun q => { q with pflip := none, sWait := .none }).asGrp c g fun s => s.sRaiseAt f.sw .staged (BitVec.ofNat 64 a) false
  | none =>
    let s := s.modGrp c g fun q => { q with pflip := none }
    (is.foldl (fun s i => s.exchange i) s).asGrp c g fun s => s.sDone f.sw

/-- The waits of a flip of the group at `c`, `g` on some instances are over (R204, R205, R207). -/
def State.flipReady (s : State) (c g : Nat) (f : PFlip) (is : List (Nat × Inst)) : Bool :=
  is.all (s.quiet f c g) && (f.mode == .flow || (s.itemsOn is).isEmpty)

/-- The exchange of a waiting flip (R204 to R211); one of a cluster goes by its handshake. -/
def execFlipExchange (c g : Nat) (s : State) : Out :=
  .next (match (s.grpAt c g).pflip with
    | none => s
    | some f =>
      let is := s.insts c g f.dom f.sel
      if f.free || f.dom == .clus || !(s.grpAt c g).live || !s.flipReady c g f is then s
      else if f.mode == .flow then match s.turnPanes c is with
        -- a flip that raises STAGED leaves the entries as they were (R208)
        | some s1 => (if f.lazy || (s.stagedBad is).isNone then s1 else s).flipNow c g f
        | none => s
      else s.flipNow c g f)

/-- A core acknowledges a flip of its cluster when it has met the conditions for itself (R212). -/
def execClusterFlipAck (cl c : Nat) (s : State) : Out :=
  .next (match (s.clAt cl).flipBy with
    | none => s
    | some (i, g) => match (s.grpAt i g).pflip with
      | none => s
      | some f =>
        if f.dom == .clus && !f.free && c / 6 == cl && !(s.clAt cl).acks.contains (c % 6) && s.flipReady i g f (coreInsts.map fun x => (c, x)) then
          s.modCl cl fun k => { k with acks := k.acks ++ [c % 6] }
        else s)

/-- The exchange of a cluster after the last acknowledgement (R212). What happens where a condition that a core has acknowledged lapses before the exchange
R212 leaves open: every condition is tested again, and the exchange waits for it, the model's choice, log entry 23. -/
def execClusterFlipExchange (cl : Nat) (s : State) : Out :=
  .next (match (s.clAt cl).flipBy with
    | none => s
    | some (c, g) => match (s.grpAt c g).pflip with
      | none => s.modCl cl fun k => { k with flipBy := none, acks := [] }
      | some f =>
        if f.dom != .clus || f.free then s.modCl cl fun k => { k with flipBy := none, acks := [] }
        else if (s.clAt cl).acks.length = 6 && (s.grpAt c g).live && s.flipReady c g f (s.insts c g .clus []) then
          (s.flipNow c g f).modCl cl fun k => { k with flipBy := none, acks := [] }
        else s)

/-- The pane table with the named panes of the acting group given or taken (R214). -/
def State.movePanes (s : State) (mv : PaneMove) (is : List (Nat × Inst)) : State :=
  match mv with
  | .none => s
  | .give => setTo none
  | .take => setTo (some s.grp.gid)
where
  /-- The owner of each named pane set. -/
  setTo (o : Option Nat) : State := is.foldl (fun s e => match e.2 with
    | .pane p => s.modCore e.1 fun k => { k with panes := tput k.panes p ((k.pane p).map fun x => { x with owner := o }) }
    | _ => s) s

/-- A hold that `pfree` waits for: of any agent but transfer items (R214). -/
def State.heldByOther (s : State) (e : Nat × Inst) : Bool :=
  match (s.coreAt e.1).holder e.2 with
  | none => false
  | some .items => false
  | _ => true

/-- `pfree` (R214, R217, R317): it waits for, or cancels, the items, then releases their holds and moves ownership. -/
def execPfree (sw : Bool) (dom : Dom) (mode : FlipMode) (mv : PaneMove) (ra : SReg) (s : State) : Out :=
  .next (
    let rs := if dom == .acc || dom == .pane then [ra] else []
    let go := fun (s : State) (f : PFlip) =>
      let is := s.insts s.core s.slot f.dom f.sel
      -- a `pfree` of the same panes issued before comes first
      let behind := s.me.bound.any fun e => e.1 != s.slot && e.2.slot0 == s.grp.slot0 && (match e.2.pflip with
        | some o => o.free && o.dom == .pane && f.dom == .pane && o.op < f.op && o.sel.any f.sel.contains
        | none => false)
      if !behind && (s.itemsOn is).isEmpty && !is.any s.heldByOther then
        let s := is.foldl (fun s e => s.modCore e.1 fun k => if k.holder e.2 == some .items then k.setHolder e.2 none else k) s
        ((s.movePanes mv is).modG fun g => { g with pflip := none }).sDone sw
      else s.sStall .flip
    if s.grp.inLan then s.sSuppress sw
    else match s.grp.pflip with
      -- another group's `.take` of a pane may have come first while this one waited
      | some f => if mv == .take && s.notOwned f.dom f.sel true then (s.modG fun g => { g with pflip := none }).sRaise sw .plane else go s f
      | none =>
        let sel := planeSel dom (s.rS ra)
        s.sChecks sw [((s.grp.handler && domRegs dom) || !s.lch.flipRight dom, .priv), (s.sPoi rs, .poison),
            (s.notOwned dom sel (mv == .take), .plane)]
          (let f : PFlip := ⟨dom, mode, false, sel, s.now, s.me.nextOp, mode == .cancel, true, sw⟩
          go (s.planeIssue f) f))

/-- Bits of a mask where a test holds. -/
def maskWhere (n : Nat) (p : Nat → Bool) : Word := BitVec.ofNat 64 (maskOf ((List.range n).filter p))

/-- The mask that `pstat` reads (R215). -/
def State.pstatOf (s : State) (dom : Dom) (what : PWhat) : Word :=
  let q := s.grp
  let k := s.me
  let bad := fun (i : Inst) => k.badOffs i (what == .poi)
  let poi := what == .poi || what == .poiw
  match dom with
  | .grp => maskWhere 32 fun i => match k.bound.find? fun e => e.2.slot0 == q.slot0 && e.2.lid == q.lid && e.2.gid == i with
    | none => false
    | some e => if poi then !(bad (.grp e.1)).isEmpty else if what == .held then e.2.held.isSome else e.2.selB
  | .acc => maskWhere 64 fun n =>
    tget none k.accOwn (n / 8) == some q.slot0 && (if poi then (bad (.acc (n / 8))).any (fun o => o / 8192 == n)
      else if what == .held then (k.accHolder (n / 8)).isSome else k.accSel.getLsbD (n / 8))
  | .pane =>
    let ps := k.teamPanes q.slot0
    maskWhere 64 fun i => match ps[i]? with
      | none => false
      | some p => if poi then !(bad (.pane p)).isEmpty else if what == .held then (k.paneHolder p).isSome else k.paneSel.getLsbD p
  | .wbuf =>
    if k.wbufOwn != some q.slot0 then 0
    else if poi then maskWhere 32 fun i => (bad .wbuf).any fun o => o / 32768 == i
    else b2w 64 (if what == .held then k.wbufHold.isSome else k.wbufSel)
  | .col =>
    if poi then maskWhere 16 fun w => (k.plane (k.colSel != (what == .poi))).badWays.contains w
      || (bad .col).any fun o => 15 - (o - 0x800000) / 2 ^ 20 == w
    else b2w 64 (if what == .held then k.colHold.isSome else k.colSel)
  | _ => 0

/-- `pstat` (R215): fixed latency, no right, never dark (R217). -/
def execPstat (sw : Bool) (dom : Dom) (what : PWhat) (ra : SReg) (s : State) : Out :=
  .next ((s.wS ra (s.pstatOf dom what) false).sDone sw)

end Sys2Proof.Machine
end

