-- ==== Sys2Proof/Machine/Transfer.lean ====
section
/-!
DEFINITION. Sys2Proof/Machine/Transfer.lean: transfer instructions, scalar opcodes 0x45 to 0x4D (R218 to R237): issue, cancel and status.
-/
namespace Sys2Proof.Machine

/-- The instances whose staging plane the destination of an item names (R201). -/
def State.dstInsts (s : State) (i : Item) : List (Nat × Inst) :=
  let rs := i.dsts.filter fun r => isStaging r.1
  match rs with
  | [] => []
  | r :: _ =>
    if i.badDesc || rs.any (fun r => !s.stgOk i.part r.1 r.2) then []
    else
      let c := stgCore r.1
      if stgKind r.1 = 0 then (if stgOff r.1 < 0x4000 then [(c, .grp (stgSlot r.1))] else [])
      else (coreInsts.drop 128).filter (fun x => rs.any fun r => x.hit c (stgKind r.1) (stgCore r.1) (stgSlot r.1) (stgOff r.1) r.2) |>.map fun x => (c, x)

/-- The scoreboard entry for an item's destination, with the core whose scoreboard takes it: the one that holds it (R163, R228). -/
def State.dstScore (s : State) (c : Nat) (i : Item) : Option (Nat × Score) :=
  if i.badDesc then none
  else
    let r := shapeRange i.d1.toNat i.h i.drow i.ds
    if i.dsp = 1 then match s.spadLoc c (s.grpAt c i.slot) (i.d1.toNat % 2 ^ 32) with
      | some (.pad t o) => some (t, ⟨.spad, o, o + (r.2 - r.1), i.id, c, true⟩)
      | some (.col t o) => some (t, ⟨.spad, 0x800000 + o, 0x800000 + o + (r.2 - r.1), i.id, c, true⟩)
      | none => none
    else if isStaging i.d1.toNat then some (if stgCore i.d1.toNat < 144 then stgCore i.d1.toNat else c, ⟨.staging, r.1, r.2, i.id, c, true⟩)
    else some (c, ⟨.global i.part, r.1, r.2, i.id, c, true⟩)

/-- An item waits for a staging plane that another agent holds; its own group's trap hold, and that of a halted group, it joins (R201, R219). -/
def State.dstHeld (s : State) (c : Nat) (i : Item) : Bool :=
  (s.dstInsts i).any fun e => match (s.coreAt e.1).holder e.2 with
    | none => false
    | some .items => false
    | some .trap => e != (c, .grp i.slot) && !(match e.2 with
        | .grp g => (s.grpAt e.1 g).halted
        | _ => false)
    | some _ => true

/-- A collective record as the device reads it: its header and the endpoints that it counts, 64 at most, and the state with its lines read (R235). -/
def State.collRead (s : State) (i : Item) : Option (Word × List Word × State) :=
  let base := (s.partAt i.part).collBase.toNat + 1024 * i.coll
  match s.feRead i.part base 8 with
  | .error _ => none
  | .ok (hb, s) =>
    let n := min 64 (bits (ofBytes64 hb) 0 8)
    match s.feRead i.part (base + 8) (8 * n) with
    | .error _ => none
    | .ok (eb, s) => some (ofBytes64 hb, toDws n eb, s)
/-- The record of a collective item as core `c` reads it at issue: own rank and endpoints, and whether it keeps to R235. What becomes of an item whose record
does not translate, or lies on a page that is not resident, R235 leaves open: it fails with BADDESC as one whose record breaks the table, the model's choice,
log entry 73. -/
def State.collRec (s : State) (c : Nat) (i : Item) : Nat × List (Nat × Nat) × Bool :=
  match s.collRead i with
  | none => (0, [], false)
  | some (h, es, _) =>
    let n := bits h 0 8
    let own := bits h 8 8
    let ends := es.map fun e => (bits e 0 16, bits e 16 8)
    (own, ends, bits h 16 48 == 0 && 2 ≤ n && n ≤ 64 && own < n && es.all (fun e => bits e 24 40 == 0 && bits e 16 8 < 144) && lget (0, 0) ends own == (0xFFFF, c))

/-- A partner of collective item `i` of core `c` has failed before `i` was issued (R235). -/
def State.peerFailed (s : State) (c : Nat) (i : Item) : Bool :=
  i.ends.any fun e => e.1 == 0xFFFF && e.2 != c && (s.coreAt e.2).collFail.any fun x =>
    x.1 == i.part && x.2.2.2 == i.kseq && (if x.2.1.isEmpty then Config.freeBool s.fresh (2 ^ 62 + e.2) else x.2.1 == i.ends)

/-- The lines of an item's global destination that have an owner, each given up to the engine at issue (R228). -/
def State.engineTakes (s : State) (c : Nat) (i : Item) : State :=
  if i.badDesc || i.fail.isSome then s else s.revokeAll ((s.owners.map (·.1)).filter (s.itemTakes c i))

/-- The item that a descriptor command of the acting group issues (R219, R220, R235): a collective item counts on its record whatever it holds. -/
def State.newItem (s : State) (cmd : XCmd) (ra : SReg) (wick : Wick) : Item :=
  let d0 := s.rRun ra 0
  let d1 := s.rRun ra 1
  let i : Item := ⟨s.me.nextOp, cmd, s.slot, s.grp.lid, s.grp.cohort, s.prt, wick, (s.grp.xs wick).issued, d0, d1, s.rRun ra 2, s.rRun ra 3, false, s.wall, none, none,
    none, 0, [], 0, false, none, s.cores.filterMap fun e => if e.2.paneSel = 0 then none else some (e.1, e.2.paneSel), s.fresh, 0⟩
  if !i.isColl then i
  else
    let i := { i with kseq := tget 0 s.me.collSeq i.coll }
    let r := s.collRec s.core i
    let i := { i with own := r.1, ends := r.2.1 }
    if !r.2.2 then { i with fail := some ⟨.xfer, 1, 0⟩ }
    else if s.peerFailed s.core i && !i.badDesc then { i with fail := some ⟨.xfer, 6, i.d1⟩ } else i

/-- The steps of issue (R219, R228): wick and ISSUED rise, the scoreboard, holds and destination lines are claimed, earlier stores are released toward the item. -/
def State.putItem (s : State) (i : Item) : State :=
  let s := (s.drainBuf s.core s.slot).engineTakes s.core i
  let s := match s.dstScore s.core i with
    | none => s
    | some (t, e) => s.modCore t fun k => { k with score := k.score ++ [e] }
  let s := (s.dstInsts i).foldl (fun s e => s.modCore e.1 fun k => if (k.holder e.2).isNone then k.setHolder e.2 (some .items) else k) s
  let s := s.modG fun g =>
    let r := g.xs i.wick
    (g.setWick i.wick (g.wick i.wick + 1)).setXs i.wick { r with issued := r.issued + 1 }
  s.modCore s.core fun k => { k with
    nextOp := k.nextOp + 1, items := k.items ++ [i]
    collSeq := if i.isColl then tput k.collSeq i.coll (tget 0 k.collSeq i.coll + 1) else k.collSeq }

/-- A descriptor command of the acting group (R218, R219, R237). -/
def State.xIssue (s : State) (sw : Bool) (cmd : XCmd) (ra : SReg) (wick : Wick) : State :=
  if s.grp.inLan then s.sSuppress sw
  else s.sRead sw [ra, ra + 1, ra + 2, ra + 3] fun s =>
    let i := s.newItem cmd ra wick
    let full := match s.dstScore s.core i with
      | none => false
      | some (t, _) => 16 ≤ (s.coreAt t).score.length
    -- the read of a collective record waits for a line that a transfer engine owns (R228)
    let reads := i.isColl && (s.collRead i).any fun r => r.2.2.waits
    if reads || s.grp.wick wick = 0xFFFF || 32 ≤ (s.me.items.filter fun j => !j.run).length || full || s.dstHeld s.core i then s.sStall .other
    else (s.putItem i).sDone sw

/-- `xfer` (R226). -/
def execXfer (sw : Bool) (ra : SReg) (wick : Wick) (s : State) : Out := .next (s.xIssue sw .xfer ra wick)
/-- `xcvt` (R226, R227). -/
def execXcvt (sw : Bool) (ra : SReg) (wick : Wick) (s : State) : Out := .next (s.xIssue sw .xcvt ra wick)
/-- `xfill` (R226). -/
def execXfill (sw : Bool) (ra : SReg) (wick : Wick) (s : State) : Out := .next (s.xIssue sw .xfill ra wick)
/-- `xgath` (R226). -/
def execXgath (sw : Bool) (ra : SReg) (wick : Wick) (s : State) : Out := .next (s.xIssue sw .xgath ra wick)
/-- `xred` (R236). -/
def execXred (sw : Bool) (ra : SReg) (wick : Wick) (s : State) : Out := .next (s.xIssue sw .xred ra wick)
/-- `xbcst` (R236). -/
def execXbcst (sw : Bool) (ra : SReg) (wick : Wick) (s : State) : Out := .next (s.xIssue sw .xbcst ra wick)
/-- `xagree` (R236). -/
def execXagree (sw : Bool) (ra : SReg) (wick : Wick) (s : State) : Out := .next (s.xIssue sw .xagree ra wick)

/-- The unfinished items that the acting group counted on a wick (R233). -/
def State.myItems (s : State) (wick : Wick) : List (Nat × Item) :=
  (s.me.items.filter fun i => i.slot == s.slot && i.lid == s.grp.lid && i.cohort == s.grp.cohort && i.wick == wick).map fun i => (s.core, i)

/-- `xcanc` (R233): the stream goes on when the cancelled items have retired. -/
def execXcanc (sw : Bool) (wick : Wick) (s : State) : Out :=
  .next (
    let is := s.myItems wick
    if s.grp.inLan then s.sSuppress sw
    else if is.isEmpty then s.sDone sw
    else (is.foldl (fun s e => s.cancelItem e 2) s).sStall .other)

/-- The first word of a transfer status record (R231). -/
def XStat.word (r : XStat) : Word := r.seq ++ (r.detail ++ (r.cause ++ (r.failed ++ r.issued)))

/-- `xstat` (R234, R237, R315): under `.chk` a failure raises XFER with the wick as its code. Whether a `.chk` that lantern mode suppresses counts where FAILED
is zero R237 leaves open: it counts, the model's choice, log entry 18. -/
def execXstat (sw clr chk : Bool) (ra : SReg) (wick : Wick) (s : State) : Out :=
  .next (
    let r := s.grp.xs wick
    let lan := s.grp.inLan
    if chk && !lan && r.failed != 0 then s.sRaiseX sw .xfer (wick.zeroExtend 32) r.faddr false s.grp.pc
    else
      let s := if chk && lan then s.modG Group.suppress else s
      let s := (s.wS ra r.word false).wS (ra + 1) r.faddr false
      (if clr then s.modG fun g => g.setXs wick ⟨0, 0, 0, 0, 0, 0⟩ else s).sDone sw)

end Sys2Proof.Machine
end

