-- ==== Sys2Proof/Machine/Service.lean ====
section
/-!
DEFINITION. Sys2Proof/Machine/Service.lean: system registers and privileged services, scalar opcodes 0x59 to 0x5F (R331 to R336, R360 to R373).
The writes of the registers are shared with the events of Machine/EvSys.lean.
-/
namespace Sys2Proof.Machine

/-- The supervisor's own partition (R331). -/
def superPart : Nat := 0
/-- A Boolean as a bit at a position. -/
def flagAt (x : Bool) (n : Nat) : Nat := x.toNat * 2 ^ n

/-- VBUS_STAT of a core; `train`: its buses are being trained or retrained (R372). -/
def Vbus.word (v : Vbus) (core : Nat) (train : Bool) : Word :=
  BitVec.ofNat 64 (core + 2 ^ 8 * v.ssp + 2 ^ 10 * v.dsp + flagAt v.fail 12 + flagAt v.woke 14 + flagAt (v.gateS || v.gateD) 15 + flagAt train 13
    + 2 ^ 16 * v.retrain + 2 ^ 32 * v.corr)
/-- A link status register (R379). -/
def Link.word (l : Link) : Word :=
  BitVec.ofNat 64 (flagAt l.up 0 + 2 * l.lanes + 2 ^ 8 * l.downs + 2 ^ 16 * l.retry + 2 ^ 48 * l.peer.toNat)
/-- DBG_CTL of a partition (R327). -/
def Part.dbgWord (p : Part) : Word :=
  BitVec.ofNat 64 (flagAt p.dbgHold 0 + flagAt p.dbgStep 1 + flagAt p.dbgLstp 2 + flagAt p.dbgBrkh 3 + 2 ^ 8 * p.dbgSlot.toNat
    + 2 ^ 16 * p.dbgCore.toNat + flagAt p.dbgHlt 24)
/-- KEY_SLOT_CTL (R365). -/
def State.keyWord (s : State) : Word :=
  let k := s.keyAt s.keySel
  BitVec.ofNat 64 (s.keySel + flagAt k.valid 9 + flagAt k.quar 10 + flagAt k.err 11 + 2 ^ 12 * s.keyBlob)

/-- VBUS_STAT reports a core to a partition: every core to the supervisor's own partition, else those of its own partition (R331). The spec does not say
what a core outside it reports: zeros, and a write at its WOKE is ignored, the model's choice, log entry 46. -/
def State.vbusMine (s : State) (part c : Nat) : Bool := part == superPart || s.partOfCore c == some part

/-- DEV_ID: the VN24 of stepping B0, revision 1.0 (R1). -/
def devId : Word := 0x56240100B0000000

/-- A system register as a group of a supervisor context reads it; none where its number raises ILL (R332, R360). -/
def State.sysRead (s : State) (num : Nat) : Option Word :=
  let p := s.partAt s.prt
  let n := fun (x : Nat) => some (BitVec.ofNat 64 x)
  if 0x20 ≤ num && num ≤ 0x31 then some (tget Link.reset s.brus (num - 0x20)).word
  else if 0x32 ≤ num && num ≤ 0x35 then some (tget Link.reset s.igold (num - 0x32)).word
  else match num with
    | 0x000 => some devId
    | 0x001 => n (s.partMap.toNat % 2 ^ 64)
    | 0x002 =>
      let c := s.grp.vbusSel
      if s.vbusMine s.prt c then
        let v := (s.coreAt c).vbus
        some (v.word c (decide (s.now < v.trainTo) || (s.clAt (c / 6)).training))
      else some (Vbus.reset.word c false)
    | 0x003 => n (p.snufState + 2 ^ 16 * p.snufCores + 2 ^ 24 * p.snufFrames)
    | 0x004 => some s.keyWord
    | 0x005 => some (s.rampOf (s.core / 36))
    | 0x006 => some p.collBase
    | 0x008 => some (p.wdog.zeroExtend 64)
    | 0x009 => some p.dbgWord
    | 0x00A => some (lget 0 p.wp 0)
    | 0x00B => some (lget 0 p.wp 1)
    | 0x00C => some (lget 0 p.wp 2)
    | 0x00D => some (lget 0 p.wp 3)
    | 0x010 => n (s.partMap.toNat / 2 ^ 64)
    | 0x011 => n (p.poolUnits + 2 ^ 32 * min p.poolUsed 0xFFFF + 2 ^ 48 * p.defq)
    | 0x012 => some s.quarBase
    | 0x013 => n (s.quarCores.toNat % 2 ^ 64)
    | 0x014 => n (s.quarCores.toNat / 2 ^ 64 % 2 ^ 64)
    | 0x015 => n (s.quarCores.toNat / 2 ^ 128)
    | 0x016 => some (BitVec.ofNat 64 (maskOf ((List.range 64).filter fun k => (s.keyAt k).quar)))
    | 0x017 => some (p.pwrCap.zeroExtend 64)
    | 0x018 => n (s.vin.toNat + 2 ^ 16 * s.pin.toNat + 2 ^ 32 * s.tmax.toNat + flagAt s.thr 40 + flagAt s.uv 41)
    | 0x019 => n (s.fwRun.toNat + 2 ^ 16 * s.fwStaged.toNat + 2 ^ 32 * s.roleAt 0 + 2 ^ 36 * s.roleAt 9 + flagAt s.fwUpd 40 + flagAt s.fwErr 41)
    | 0x01A => some (s.brusNode.zeroExtend 64)
    | _ => none

/-- How a write of a system register went. -/
inductive SysW where
  | ok (s : State)
  /-- the stream stalls until the write has taken effect -/
  | stall (s : State)
  | prot
  | priv
  deriving DecidableEq, Repr

/-- An entry of a partition map (R361). -/
def mapEnt (m : BitVec 96) (k : Nat) : Nat := m.toNat / 2 ^ (4 * k) % 16
/-- A team is bound in a cluster. -/
def State.clBound (s : State) (k : Nat) : Bool :=
  (span (6 * k) 6).any fun c => !(s.coreAt c).bound.isEmpty || !(s.coreAt c).binds.isEmpty
/-- A cluster leaves a partition, or joins one, between two maps. -/
def leaves (old new : BitVec 96) (k : Nat) : Bool := 8 ≤ mapEnt old k && mapEnt new k != mapEnt old k
def joins (old new : BitVec 96) (k : Nat) : Bool := 8 ≤ mapEnt new k && mapEnt new k != mapEnt old k
/-- A changed entry of the map does not meet R362: of a leaving cluster, where a team is bound or the partition maps an interleaved page on its die. -/
def State.mapBad (s : State) (new : BitVec 96) (k : Nat) : Bool :=
  (leaves s.partMap new k && (s.clBound k || s.mapsDie (mapEnt s.partMap k % 8) (k / 6)))
  || (joins s.partMap new k && (span (6 * k) 6).any fun c => s.quarCores.getLsbD c)
/-- The clusters whose entries one register holds (R361). -/
def mapSpan (hi : Bool) : List Nat := if hi then span 16 8 else List.range 16
/-- The map with one register replaced; the reserved bits of PART_MAP_HI are ignored. -/
def mapPut (old : BitVec 96) (hi : Bool) (v : Word) : BitVec 96 :=
  if hi then BitVec.ofNat 96 (old.toNat % 2 ^ 64 + v.toNat % 2 ^ 32 * 2 ^ 64) else BitVec.ofNat 96 (old.toNat / 2 ^ 64 * 2 ^ 64 + v.toNat)

/-- A changed entry reaches what a supervisor context of partition `p` does not (R331): other than in partition 0, all that is no withdrawal of a cluster of its own. -/
def State.mapForeign (s : State) (p : Nat) (new : BitVec 96) (k : Nat) : Bool :=
  p != superPart && mapEnt new k != mapEnt s.partMap k && !(mapEnt s.partMap k == 8 + p && mapEnt new k < 8)

/-- A write of PART_MAP or PART_MAP_HI by partition `p` (R331, R362): it takes effect at once where a cluster leaves, and when a joining cluster is trained; the counters
of a joining cluster's cores are zeroed (R256). What a context of another partition than 0 gets for entries beyond its own clusters R331 leaves open: PRIV
and no effect, the model's choice, log entry 75. -/
def State.mapWrite (s : State) (p : Nat) (hi : Bool) (v : Word) : SysW :=
  let new := mapPut s.partMap hi v
  let ks := mapSpan hi
  if ks.any (s.mapForeign p new) then .priv
  else if ks.any (s.mapBad new) then .prot
  else if ks.any fun k => joins s.partMap new k && (s.clAt k).wiping then .stall s
  else
    let s1 := ks.foldl (fun s k =>
      let old := s.partMap
      let s := if leaves old new k then
          { (s.modCl k fun c => { c with wiping := true }) with left := s.left ++ [(k, mapEnt old k % 8)] } else s
      if joins old new k then
        let s := (span (6 * k) 6).foldl (fun s c => s.modCore c fun q => { q with counters := [] }) s
        { (s.modCl k fun c => { c with training := true }) with left := s.left.filter fun e => e != (k, mapEnt new k % 8) } else s) s
    let s1 := { s1 with partMap := new, mapCopy := new }
    if ks.any fun k => 8 ≤ mapEnt new k && ((s1.clAt k).training || (s1.clAt k).wiping) then .stall s1 else .ok s1

/-- TLB entries removed from every TLB of the device by a test (R334, R368, R369). -/
def State.dropTlb (s : State) (p : TlbEnt → Bool) : State :=
  let keep := fun (es : List TlbEnt) => es.filter fun e => !p e
  { s with
    cores := s.cores.map fun e => (e.1, { e.2 with tlb := keep e.2.tlb })
    clusters := s.clusters.map fun e => (e.1, { e.2 with tlb := keep e.2.tlb })
    feTlb := keep s.feTlb }

/-- The strong stores that the groups a test names have queued, translated already, are performed. -/
def State.drainWhere (s : State) (p : Group → Bool) : State :=
  (s.cores.flatMap fun e => (e.2.bound.filter fun g => p g.2).map fun g => (e.1, g.1)).foldl (fun s e => s.drainBuf e.1 e.2) s

/-- A key slot zeroised and quarantined; the strong stores in flight under it complete with the old key first (R368). -/
def State.zeroKey (s : State) (n : Nat) : State :=
  let k := (s.keyAt n).key
  let s := s.drainWhere fun g => (g.sbuf ++ g.lsbuf).any fun x => !k.isEmpty && x.key == k
  ({ s with keys := tput s.keys n { s.keyAt n with valid := false, quar := true, key := [] } }).dropTlb fun e => e.leaf.enc && e.leaf.kslot == n
/-- A slot and a blob address selected in KEY_SLOT_CTL (R365). -/
def State.selectKey (s : State) (n blob : Nat) : State := { s with keySel := n % 64, keyBlob := blob % 2 ^ 42 }
/-- A 64 KiB frame lies in a partition's column DRAM: each superblock's column belongs to it. -/
def State.frameIn (s : State) (p f : Nat) : Bool :=
  (List.range 128).all fun i => match locOf (65536 * f + 512 * i) with
    | some (.col c _) => s.partOfCore c == some p
    | _ => false
/-- A LOAD of a key blob into a slot (R365). A context of another partition than 0 reaches only its own column DRAM (R331): that a blob elsewhere is refused is
the model's choice, log entry 75. -/
def State.loadKey (s : State) (part n blob : Nat) : State :=
  let k := s.keyAt n
  let refuse := { s with keys := tput s.keys n { k with err := true } }
  if k.valid || k.quar || (part != superPart && !(s.frameIn part (64 * blob / 65536) && s.frameIn part ((64 * blob + 71) / 65536))) then refuse
  else match s.physRead (64 * blob) 72 with
    | none => refuse
    | some (bs, s1) => match keyUnwrap (Config.kek part) bs with
      | none => refuse
      | some key => { s1 with keys := tput s1.keys n { k with valid := true, err := false, key := key } }
/-- A write of KEY_SLOT_CTL (R365). -/
def State.keyWrite (s : State) (part : Nat) (v : Word) : State :=
  let s := s.selectKey (bits v 0 6) (bits v 12 42)
  match bits v 6 2 with
  | 1 => s.loadKey part (bits v 0 6) (bits v 12 42)
  | 2 => s.zeroKey (bits v 0 6)
  | _ => s

/-- A write of VBUS_STAT by a group: CORE changes, and a 1 at WOKE clears it at the core named (R372). A 1 at FAIL clears it there too, as R5
says of a sticky field, though R372 names CORE and WOKE alone: log entry 46. -/
def State.vbusWrite (s : State) (c g : Nat) (v : Word) : State :=
  let n := bits v 0 8
  let s := s.modGrp c g fun q => { q with vbusSel := n }
  if (v.getLsbD 14 || v.getLsbD 12) && s.vbusMine (s.lchAt (s.grpAt c g).lid).part n then
    s.modCore n fun k => { k with vbus := { k.vbus with
      woke := k.vbus.woke && !v.getLsbD 14, fail := k.vbus.fail && !v.getLsbD 12 } }
  else s

/-- A write of DIM_RAMP, ignored unless the levels are non-decreasing and LVL15 is 0xF (R277). -/
def State.rampWrite (s : State) (die : Nat) (v : Word) : State :=
  let lv := fun (i : Nat) => bits v (4 * i) 4
  if lv 15 == 15 && (List.range 15).all fun i => lv i ≤ lv (i + 1) then { s with dimRamp := tput s.dimRamp die v } else s

/-- A write of BRUS_NODE, ignored for 0xFFFF (R379). -/
def State.nodeWrite (s : State) (v : Word) : State := if bits v 0 16 = 0xFFFF then s else { s with brusNode := v.truncate 16 }

/-- Every halted group of a partition continued (R327, R328): an ASSERT stop never is (R318). -/
def State.continue_ (s : State) (p : Nat) : State :=
  let gs := s.cores.flatMap fun e => (e.2.bound.filter fun g => g.2.halted && !g.2.stopped && (s.lchAt g.2.lid).part == p).map fun g => (e.1, g.1)
  let s := gs.foldl (fun s e => if (s.grpAt e.1 e.2).dbgIn then s.tretAt e.1 e.2 else s.modGrp e.1 e.2 fun q => { q with halted := false }) s
  -- a saved group that had not halted yet goes on when it is back
  let waits := fun (g : Group) => (s.lchAt g.lid).part == p && !g.stopped && !g.halted && (g.pend.any fun t => t.silent && !t.late)
  let on := fun (v : Saved) => { v with groups := v.groups.map fun e => if waits e.2 then (e.1, { e.2 with pend := none }) else e }
  let s := { s with saved := s.saved.map on }
  -- a context that an ASSERT stopped stays halted (R318)
  let dead := fun (lid : Nat) => (s.cores.any fun e => e.2.bound.any fun g => g.2.lid == lid && g.2.stopped)
    || s.saved.any fun v => v.groups.any fun g => g.2.lid == lid && g.2.stopped
  let s := { s with launches := s.launches.map fun (e : Nat × Launch) => if e.2.part == p then (e.1, { e.2 with frozen := e.2.frozen && dead e.1 }) else e }
  let s := s.unhold fun i => s.partOfCore i.core == some p && !(s.grpAt i.core i.slot).halted && (s.grpAt i.core i.slot).pend.isNone
  s.modPart p fun x => { x with dbgHlt := false }
/-- A group of the partition that was continued still waits for its plane, or was saved halted. -/
def State.haltLeft (s : State) (p : Nat) : Bool :=
  let left := fun (g : Group) => g.halted && !g.stopped && (s.lchAt g.lid).part == p
  (s.cores.any fun e => e.2.bound.any fun g => left g.2) || s.saved.any fun v => v.groups.any fun e => left e.2

/-- A write of DBG_CTL (R327). -/
def State.dbgWrite (s : State) (p : Nat) (v : Word) : State :=
  let s := s.modPart p fun x => { x with
    dbgHold := v.getLsbD 0, dbgStep := v.getLsbD 1, dbgLstp := v.getLsbD 2, dbgBrkh := v.getLsbD 3
    dbgSlot := BitVec.ofNat 7 (bits v 8 7), dbgCore := BitVec.ofNat 8 (bits v 16 8) }
  if v.getLsbD 24 then s.continue_ p else s

/-- A register of a partition, or of no behaviour of its own, written by a group of a partition (R332); a write of a read-only register is
ignored (R5). -/
def State.plainWrite (s : State) (p num : Nat) (v : Word) : State :=
  let wp := fun (i : Nat) => s.modPart p fun x => { x with wp := x.wp.set i (v &&& 0x01FFFFFFFFFFFFFB) }
  match num with
  | 0x006 => s.modPart p fun x => { x with collBase := v &&& ~~~0x3F }
  | 0x008 => s.modPart p fun x => { x with wdog := v.truncate 32 }
  | 0x00A => wp 0
  | 0x00B => wp 1
  | 0x00C => wp 2
  | 0x00D => wp 3
  | 0x011 => s.modPart p fun x => { x with poolUnits := max (bits v 0 32) x.poolUsed, defq := max 1 (bits v 48 16) }
  | 0x017 => s.modPart p fun x => { x with pwrCap := v.truncate 16 }
  -- ERR is sticky: a write of 1 clears it (R5, R378)
  | 0x019 => if v.getLsbD 41 then { s with fwErr := false } else s
  | _ => s

/-- A write of a system register by the acting group (R332). -/
def State.sysWrite (s : State) (num : Nat) (v : Word) : SysW :=
  match num with
  | 0x001 => s.mapWrite s.prt false v
  | 0x010 => s.mapWrite s.prt true v
  | 0x002 => .ok (s.vbusWrite s.core s.slot v)
  | 0x004 => .ok (s.keyWrite s.prt v)
  | 0x005 => .ok (s.rampWrite (s.core / 36) v)
  | 0x009 =>
    let s1 := s.dbgWrite s.prt v
    if v.getLsbD 24 && s1.haltLeft s.prt then .stall s1 else .ok s1
  | 0x01A => .ok (s.nodeWrite v)
  | n => .ok (s.plainWrite s.prt n v)

/-- A privileged instruction past its decoding: suppressed in lantern mode; PRIV outside a supervisor context or where `more` says so
(R331, R336, R367). -/
def State.super (s : State) (sw more : Bool) (rs : List SReg) (k : State) : State :=
  if s.grp.inLan then s.sSuppress sw else s.sChecks sw [(!s.lch.priv || more, .priv), (s.sPoi rs, .poison)] k

/-- Lanes of a bus: 0 column SRAM, 1 column DRAM (R371). -/
def busLanes (bus : Nat) : Nat := if bus = 0 then 2304 else 144
/-- Spares in use on a bus. -/
def Vbus.spares (v : Vbus) (bus : Nat) : Nat := if bus = 0 then v.ssp else v.dsp
/-- A lane switched to a spare (R373). -/
def Vbus.spare (v : Vbus) (bus lane : Nat) : Vbus :=
  { v with ssp := if bus = 0 then v.ssp + 1 else v.ssp, dsp := if bus = 0 then v.dsp else v.dsp + 1, spared := v.spared ++ [(bus, lane)] }
/-- A bus of the core failed beyond repair (R373). -/
def Vbus.broken (v : Vbus) : Bool := v.failS || v.failD
/-- A saturating count of 16 bits. -/
def satAdd (x n : Nat) : Nat := min 0xFFFF (x + n)
/-- Background calibration spares each lane whose count of corrected errors passes the threshold, where a spare is free (R371). -/
def Vbus.calibrate (v : Vbus) : Vbus :=
  v.lanes.foldl (fun v e => if e.2 ≤ Config.laneThreshold || v.spared.contains (e.1 / 4096, e.1 % 4096) || 2 ≤ v.spares (e.1 / 4096) then v
    else v.spare (e.1 / 4096) (e.1 % 4096)) v
/-- `n` corrected errors counted, in all and at the lane of each, which a function names (R371, R372). -/
def Vbus.correct (v : Vbus) (n : Nat) (lane : Nat → Nat) : Vbus :=
  { v with corr := satAdd v.corr n, lanes := (List.range n).foldl (fun t i => tput t (lane i) (tget 0 t (lane i) + 1)) v.lanes }.calibrate
/-- A free lane of a bus, as the counts of lanes number it (R371). -/
def State.anyLane (s : State) (bus i : Nat) : Nat := 4096 * bus + (Config.freeWord s.fresh (2 ^ 66 + i)).toNat % busLanes bus
/-- `n` errors on a bus of core `c` corrected by the patrol: on which lanes is free (R371, R372, R376). -/
def State.corrected (s : State) (c bus n : Nat) : State := s.modCore c fun k => { k with vbus := k.vbus.correct n (s.anyLane bus) }
/-- The errors corrected in accesses to core `c` since they were counted last: how many, and on which bus and lane, is free (R371, R372). -/
def State.settleBus (s : State) (c : Nat) : State :=
  if (s.coreAt c).vbus.due = 0 then s
  else
    let lane := fun i => s.anyLane (Config.freeBool s.fresh (2 ^ 66 + i)).toNat i
    s.modCore c fun k => { k with vbus := Vbus.correct { k.vbus with due := 0 } ((Config.freeWord s.fresh (2 ^ 65 + c)).toNat % 65536) lane }
/-- The errors that a read of a system register reports are counted first (R372). -/
def State.sysSettle (s : State) (num : Nat) : State := if num = 0x002 then s.settleBus s.grp.vbusSel else s

/-- `sysr` (R332, R336). -/
def execSysr (sw : Bool) (rd : SReg) (num : BitVec 12) (s : State) : Out :=
  .next (
    if (s.sysRead num.toNat).isNone then s.sRaise sw .ill
    else if s.grp.inLan then s.lanEnd
    else s.sChecks sw [(!s.lch.priv, .priv)] (
      let t := s.sysSettle num.toNat
      t.sLate sw [.s rd.toNat ((t.sysRead num.toNat).getD 0)] false false))

/-- `sysw` (R332, R336). -/
def execSysw (sw : Bool) (ra : SReg) (num : BitVec 12) (s : State) : Out :=
  .next (match s.sysRead num.toNat with
    | none => s.sRaise sw .ill
    | some _ => match s.sysWrite num.toNat (s.rS ra) with
      | .ok s1 => s.super sw false [ra] (s1.sDone sw)
      | .stall s1 => s.super sw false [ra] (s1.sStall .other)
      | .prot => s.super sw false [] (s.sRaise sw .prot)
      | .priv => s.super sw true [] s)

/-- `kzero` (R368). -/
def execKzero (sw : Bool) (ra : SReg) (s : State) : Out :=
  .next (s.super sw false [ra] ((s.zeroKey ((s.rS ra).toNat % 64)).sDone sw))

/-- The 64 KiB frames of a page-list entry, and whether it keeps to R369. -/
def pageFrames (e : Word) : Option (List Nat) :=
  let bitsOfSize := match bits e 0 2 with
    | 0 => some 16
    | 1 => some 21
    | 2 => some 30
    | _ => none
  match bitsOfSize with
  | none => none
  | some n =>
    if e.toNat / 2 ^ 48 != 0 || bits e 2 14 != 0 || e.toNat / 65536 * 65536 % 2 ^ n != 0 then none
    else some (span (e.toNat / 65536) (2 ^ (n - 16)))
/-- A snuffer job as read: named cores, frames, and the key slot; none where it breaks R369. -/
def State.snufJob (s : State) (p : Nat) (job list : List Word) : Option (List Nat × List Nat × Option Nat) :=
  let h := dw job 0
  let cores := (List.range 144).filter fun c => (dw job (1 + c / 64)).getLsbD (c % 64)
  let k := if h.getLsbD 14 then some (bits h 8 6) else none
  match list.mapM pageFrames with
  | none => none
  | some fs =>
    if bits h 0 8 != 1 || h.getLsbD 15 || bits h 48 16 != 0 || bits (dw job 3) 16 48 != 0 || (dw job 4).toNat % 8 != 0
      || dw job 5 != 0 || dw job 6 != 0 || dw job 7 != 0
      || cores.any (fun c => !(s.coreAt c).bound.isEmpty || !(s.coreAt c).binds.isEmpty || (p != superPart && s.partOfCore c != some p))
      || fs.flatten.any (fun f => !s.frameIn p f)
      || (match k with
        | some n => (s.keyAt n).valid
        | none => false)
    then none else some (cores, fs.flatten, k)

/-- A job is handed to the snuffer: the translations that the named cores hold and those of the named frames go (R369 step 1, R384). -/
def State.snufStart (s : State) (p : Nat) (wick : Wick) (cores frames : List Nat) (k : Option Nat) : State :=
  let seq := (s.grp.xs wick).issued
  let s := s.modG fun g => let r := g.xs wick; { (g.setWick wick (g.wick wick + 1)).setXs wick { r with issued := r.issued + 1 } with scrubs := g.scrubs ++ [wick] }
  let s := { frames.foldl (fun s f => s.setFrameQuar f true) s with quarCores := s.quarCores ||| BitVec.ofNat 144 (maskOf cores) }
  let s := s.dropTlb fun e => frames.any fun f => e.leaf.pa / 65536 ≤ f && f < e.leaf.pa / 65536 + 2 ^ (e.leaf.bits - 16)
  let s := { s with cores := s.cores.map fun (e : Nat × Core) => if cores.contains e.1 then (e.1, { e.2 with tlb := [] }) else e }
  s.modPart p fun x => { x with
    snufState := 1, snufCores := 0, snufFrames := 0, snuf := some ⟨k, cores, frames, cores, frames, s.core, s.slot, s.grp.lid, s.grp.cohort, wick, seq⟩ }

/-- A job that fails at issue: BADDESC in the wick's record, STATE 3 (R369, R384). -/
def State.snufBad (s : State) (p : Nat) (wick : Wick) : State :=
  let s := s.modG fun g =>
    let r := g.xs wick
    ((g.setWick wick (g.wick wick + 1)).setXs wick { r with issued := r.issued + 1 }).xRetire wick r.issued (some ⟨.xfer, 1, 0⟩)
  s.modPart p fun x => { x with snufState := 3, snufCores := 0, snufFrames := 0 }

/-- Of two reads that were not made the second is the one that counts: it waits where the first faults, or faults with a lower code (R10). -/
def LoadRes.outranks (r q : LoadRes) : Bool := match r, q with
  | .bad c _ _, .bad d _ _ => d.code < c.code
  | .bad _ _ _, _ => true
  | _, _ => false
/-- The dwords of a list read one after another, all of them; or the address and the fault of the lowest code among those that fail, the lowest address
first (R10, R369). -/
def State.readList (s : State) (base : Word) (n : Nat) : Except (Word × LoadRes) (List Word × State) :=
  (List.range n).foldl (fun (acc : Except (Word × LoadRes) (List Word × State)) i =>
    let a := base + BitVec.ofNat 64 (8 * i)
    match acc with
    | .error e => match s.gLoad false a.toNat 8 .rlx .s with
      | .ok _ _ _ => .error e
      | r => .error (if e.2.outranks r then (a, r) else e)
    | .ok (ws, t) => match t.gLoad false a.toNat 8 .rlx .s with
      | .ok bs _ t1 => .ok (ws ++ [ofBytes64 bs], t1)
      | r => .error (a, r)) (.ok ([], s))

/-- `scrub` (R369, R384). -/
def execScrub (sw : Bool) (ra : SReg) (wick : Wick) (s : State) : Out :=
  .next (
    let ea := s.rS ra
    let p := s.prt
    if s.grp.inLan then s.sSuppress sw
    else s.sChecks sw [(!s.lch.priv, .priv), (ea.toNat % 64 != 0, .align)]
      (let poi := s.sPoi [ra]
      match (if (s.partAt p).snuf.isSome || s.grp.wick wick = 0xFFFF then .stall else s.gLoad false ea.toNat 64 .rlx .s) with
      | .ok jb _ s1 =>
        let job := toDws 8 jb
        match s1.readList (dw job 4) (bits (dw job 0) 16 32) with
        | .error (a, r) => s.sLoaded sw poi a r fun t _ _ => t
        | .ok (ws, s2) =>
          if poi then s.sRaise sw .poison
          else match s2.snufJob p job ws with
          | none => (s2.snufBad p wick).sDone sw
          | some (cores, frames, k) => (s2.snufStart p wick cores frames k).sDone sw
      | r => s.sLoaded sw poi ea r fun t _ _ => t))

/-- The partition a `tlbi` names (R334). -/
def State.tlbiPart (s : State) (kind : TlbKind) (ra : SReg) : Nat :=
  match kind with
  | .va => (s.rRun ra 1).toNat % 8
  | .part => (s.rS ra).toNat % 8
  | .all => s.prt

/-- The strong stores that groups of a partition have queued, translated already, are performed (R334). -/
def State.drainPart (s : State) (p : Nat → Bool) : State := s.drainWhere fun g => p (s.lchAt g.lid).part

/-- `tlbi` (R334): it completes with every access that used an entry performed. -/
def execTlbi (sw : Bool) (kind : TlbKind) (ra : SReg) (s : State) : Out :=
  .next (
    let p := s.tlbiPart kind ra
    let rs := match kind with
      | .va => [ra, ra + 1]
      | .part => [ra]
      | .all => []
    let va := (s.rS ra).toNat
    let drop := fun (e : TlbEnt) => match kind with
      | .va => e.part == p && e.vpn == va / 2 ^ e.leaf.bits
      | .part => e.part == p
      | .all => s.prt == superPart || e.part == p
    s.super sw (s.prt != superPart && p != s.prt) rs
      (((s.drainPart fun q => q == p || (kind == .all && s.prt == superPart)).dropTlb drop).sDone sw))

/-- The clusters a `cctl` reaches (R335). -/
def State.cctlCls (s : State) (mask : Word) : List Nat :=
  (bitsOf 24 mask.toNat).filter fun k => s.prt == superPart || s.partOfCl k == some s.prt
/-- One cache operation on a core (R335). -/
def State.cctlCore (s : State) (op : CctlOp) (c : Nat) : State :=
  match op with
  | .iinv => s.modCore c fun k => { k with icache := [] }
  | .wb => s.cleanAll c true
  | .wbinv =>
    let s := (s.cleanAll c true).modCore c fun k => { k with a := { k.a with cache := [] }, b := { k.b with cache := [] } }
    { s with owners := s.owners.filter fun e => e.2 != c + 1 }

/-- `cctl` (R335). -/
def execCctl (sw : Bool) (op : CctlOp) (ra : SReg) (s : State) : Out :=
  .next (s.super sw false [ra]
    (((s.cctlCls (s.rS ra)).foldl (fun s k =>
      let s := (span (6 * k) 6).foldl (fun s c => s.cctlCore op c) s
      if op == .wbinv then s.winPut k else s) s).sDone sw))

/-- `vbrep` (R373). -/
def execVbrep (sw : Bool) (ra : SReg) (s : State) : Out :=
  .next (
    let x := s.rS ra
    let c := bits x 0 8
    let bus := bits x 8 1
    let lane := bits x 9 12
    let v := (s.coreAt c).vbus
    s.super sw false [ra]
      (if 144 ≤ c || (s.prt != superPart && s.partOfCore c != some s.prt) || busLanes bus ≤ lane then (s.wS ra 2 false).sDone sw
      else if v.spared.contains (bus, lane) then (s.wS ra 3 false).sDone sw
      else if 2 ≤ v.spares bus then (s.wS ra 1 false).sDone sw
      else ((s.modCore c fun k => { k with vbus := k.vbus.spare bus lane }).wS ra 0 false).sDone sw))

end Sys2Proof.Machine
end

