-- ==== Sys2Proof/Machine/EvMatrix.lean ====
section
/-!
DEFINITION. Sys2Proof/Machine/EvMatrix.lean: events of the matrix engines and of the dimmer: queued instructions take effect (R262, R269 to R271),
an `mma` is fetched, computed step by step and retired (R250, R254, R266, R268), tile moves end (R270), and the dimmer ticks (R276 to R283).
An event carries the time at which it falls in the engine's own order, however late its turn comes.
-/
namespace Sys2Proof.Machine

/-- Bytes of scratchpad for the engine of core `c`; detail 0 (R268), VBUS among the causes (R373): log entry 73. -/
def State.engSpad (s : State) (c : Nat) (m : MItem) (sa n : Nat) : Except Fail (List Byte) :=
  match s.spadLoc c (s.grpAt c m.slot) (sa % 2 ^ 32) with
  | none => .error ⟨.spad, 0, BitVec.ofNat 64 (sa % 2 ^ 32)⟩
  | some l =>
    if s.spadBus l then .error ⟨.vbus, 0, BitVec.ofNat 64 (sa % 2 ^ 32)⟩
    else match s.spadWrong l n with
    | some (e, k) => .error ⟨e, 0, BitVec.ofNat 64 (sa % 2 ^ 32 + k)⟩
    | none => .ok (s.rdSpad l n)
/-- The places of scratchpad that a step of an `mma` reads: its rows of A and their scales (R264). -/
def State.stepLocs (s : State) (c : Nat) (m : MItem) (step : Nat) : List SLoc :=
  let f := sfmtOf m.desc 0
  (List.range 32).flatMap fun i =>
    (s.spadLoc c (s.grpAt c m.slot) ((m.addr + i * m.stride + step * stepBytes f) % 2 ^ 32)).toList
    ++ if narrowFmt f then (s.spadLoc c (s.grpAt c m.slot) ((scAddr m.desc 0 + i * scStride m.desc 0 + 2 * step) % 2 ^ 32)).toList else []
/-- The first byte of a range of the weight buffer's working plane that is poisoned, or fails its ECC beyond correction (R268). -/
def Core.wbufBad (k : Core) (o n : Nat) : Option (Cause × Nat) :=
  (span o n).findSome? fun x => (k.failAt (.wbuf k.wbufSel) x).map fun c => (c, x)
/-- One column's chunk of the weight buffer, its elements, size and block scales; detail 1 (R243, R265, R268). -/
def Core.engChunk (k : Core) (ws : List Word) (step j boff : Nat) : Except Fail (List Nat × Nat × List Nat) :=
  let rd := fun o => tget 0 (k.plane k.wbufSel).wbuf o
  let f := sfmtOf ws 1
  let poi := fun (b : Cause × Nat) => Except.error (Fail.mk b.1 1 (BitVec.ofNat 64 b.2))
  let badChunk := fun (o : Nat) => Except.error (Fail.mk .matfmt 0x10 (BitVec.ofNat 64 o))
  match k.wbufBad boff 8 with
  | some o => poi o
  | none => match expand rd f boff with
    | none => badChunk boff
    | some (els, size) => match k.wbufBad boff size with
      | some o => poi o
      | none =>
        if !narrowFmt f then .ok (els, size, [])
        else
          let o := scAddr ws 1 + j * scStride ws 1 + 2 * step
          if 0x100000 < o + 2 then badChunk o
          else match k.wbufBad o 2 with
            | some o => poi o
            | none => .ok (els, size, [(rd o).toNat, (rd (o + 1)).toNat])
/-- The operands of a step, the offset after its chunks, and the cycles its fetch takes (R264 to R266, R268). -/
def State.fetchStep (s : State) (c : Nat) (m : MItem) (step boff : Nat) : Except Fail (StepOps × Nat × Nat) := do
  let k := s.coreAt c
  let f := sfmtOf m.desc 0
  let rb := stepBytes f
  let a ← (List.range 32).mapM fun i => do
    let bs ← s.engSpad c m (m.addr + i * m.stride + step * rb) rb
    let sc ← if narrowFmt f then s.engSpad c m (scAddr m.desc 0 + i * scStride m.desc 0 + 2 * step) 2 else .ok []
    .ok ((List.range 64).map (elAt (fun o => lget 0 bs o) f 0), sc.map (·.toNat))
  let b ← (List.range 32).foldlM (fun (r : List (List Nat × List Nat) × Nat) j => do
    let x ← k.engChunk m.desc step j r.2
    .ok (r.1 ++ [(x.1, x.2.2)], r.2 + x.2.1)) ([], boff)
  if (bitsOf 32 m.mask.toNat).any (k.rowBad m.tile) then .error ⟨.poison, 2, 0⟩
  else if (bitsOf 32 m.mask.toNat).any (k.rowEcc m.tile) then .error ⟨.eccu, 2, 0⟩
  else .ok (⟨a.map (·.1), b.1.map (·.1), a.map (·.2), b.1.map (·.2), boff⟩, b.2, max ((32 * rb + 1023) / 1024) ((b.2 - boff + 2047) / 2048))

/-- The highest level the input allows (R381): below 40 V in proportion to the voltage, and where the input current, which is PIN over VIN, passes 60 A in
proportion to the current, the model's choice, log entry 49. -/
def State.inputLevel (s : State) : Nat :=
  min (if s.uv then max 1 (16 * s.vin.toNat / 4000) else 16)
    (if 60 * s.vin.toNat < 100 * s.pin.toNat then max 1 (16 * (60 * s.vin.toNat) / (100 * s.pin.toNat)) else 16)
/-- The highest level that the engine of a core may reach: the lower of what its partition's cap and what the input allows (R381). -/
def State.ceilingOf (s : State) (c : Nat) : Nat := match s.partOfCore c with
  | some p => min (s.partAt p).ceiling s.inputLevel
  | none => s.inputLevel
/-- The level of a ramp position (R276, R277, R381). -/
def State.levelOf (s : State) (c : Nat) (ramp : Word) (p : Nat) : Nat := min (bits ramp (4 * min p 15) 4 + 1) (s.ceilingOf c)
/-- Work units of one attempt at a rung (R245, R266). -/
def rungUnits (r : Nat) : Nat := 16 * lget 16 [1, 2, 4, 16] r
/-- The step that an engine is about to compute starts at a time, where it is fetched and the engine is granted (R266, R282). -/
def Run.begin_ (r : Run) (ws : List Word) (spare : Nat) : Run :=
  if r.ops.isEmpty then { r with started := false } else { r with started := true, rung := startOf ws, left := rungUnits (startOf ws) - spare }
/-- The next fetch of the `mma` in an engine starts at a time, where it may (R266). -/
def State.kickFetch (s : State) (c x : Nat) : State :=
  match (s.coreAt c).eng.run with
  | none => s
  | some r => match (s.coreAt c).mItem r.id with
    | none => s
    | some m =>
      if r.fetchEnd.isSome || m.steps ≤ r.fetched || !(r.fetched < 3 || r.fetched - 3 < r.step || (r.fetched - 3 == r.step && r.started)) then s
      else
        let cost := match s.fetchStep c m r.fetched r.boff with
          | .ok y => y.2.2
          | .error _ => 0
        s.modEng c fun e => { e with run := some { r with fetchEnd := some (x + cost) } }

/-- The time of the next tick at or after a time (R276). -/
def tickFrom (x : Nat) : Nat := (x + 3) / 4 * 4

/-- An `mma` reaches the engine, and requests a grant where the engine is idle (R266, R276, R278, R279, R282). -/
def execMmaReachEngine (c : Nat) (s : State) : Out :=
  .next (
    let k := s.coreAt c
    match k.nextMma, k.reachAt with
    | some m, some due =>
      let x := max due k.eng.t
      if s.now < x || !k.upTo x then s
      else
        let r : Run := ⟨m.id, m.resume, m.resume, none, m.boff, [], false, 0, 0⟩
        let s := s.modCore c fun k => k.settle x
        (s.modEng c fun e =>
          if e.pos.isSome then { e with run := some r, down := false, holdTo := none }
          else { e with run := some r, t := x, tick := tickFrom x, req := some x }).kickFetch c x
    | _, _ => s)

/-- An `mma` ends in the engine at a time, done or failed (R266, R268, R283). -/
def State.mmaEnd (s : State) (c id x : Nat) (f : Option Fail) : State :=
  let s := match (s.coreAt c).mItem id with
    | some m => s.passMq c m x
    | none => s
  (((s.modMq c id fun m => { m with doneAt := some x, fail := f }).modEng c fun e => { e with run := none, lastEnd := x }).restEng c x).statDue c

/-- A step's operands have been fetched, or the fetch fails (R266, R268). It stalls while a change of %wpr covers some of them (R161), and wakes a gated layer that
holds them (R375). -/
def execMmaStepFetchDone (c : Nat) (s : State) : Out :=
  .next (
    let k := s.coreAt c
    let e := k.eng
    match e.run with
    | none => s
    | some r => match r.fetchEnd, k.mItem r.id with
      | some f, some m =>
        let first := match k.endAt with
          | some b => b ≤ f
          | none => false
        let ls := s.stepLocs c m r.fetched
        if s.now < f || !k.upTo f || first then s
        else if ls.any s.spadMoves then s.modEng c fun e => { e with run := some { r with fetchEnd := some (s.now + 1) } }
        else
          let s1 := (ls.foldl State.touchSpad s).modCore c fun k => k.settle f
          match s.fetchStep c m r.fetched r.boff with
          | .error fl => s1.mmaEnd c m.id f (some fl)
          | .ok (o, boff, _) =>
            let go := fun (r : Run) =>
              let r := { r with fetched := r.fetched + 1, fetchEnd := none, boff := boff, ops := r.ops ++ [o] }
              if e.pos.isSome && !r.started then r.begin_ m.desc 0 else r
            ((s1.modEng c fun e => { e with run := e.run.map go }).kickFetch c f).statDue c
      | _, _ => s)

/-- Rows of a tile replaced; a clamp counts FIXSAT, and the sticky flags are set (R252, R256, R257). -/
def Core.putRows (k : Core) (tile : Nat) (rows : List (Nat × List El)) : Core :=
  let els := rows.flatMap (·.2)
  let k := rows.foldl (fun k r => k.setRow tile r.1 (r.2.map (·.1))) k
  let k := if els.any (·.2.1) then k.count 8 (els.countP (·.2.1)) else k
  k.modTile tile fun t => { t with ovf := t.ovf || els.any (·.2.1), nan := t.nan || els.any (·.2.2) }

/-- Operands whose element codes of A are unspecified (R164). -/
def StepOps.free (o : StepOps) (s : State) : StepOps :=
  { o with a := (List.range 32).map fun i => (List.range 64).map fun j => (Config.freeWord s.fresh (0x10000 + 64 * i + j)).toNat % 2 ^ 32 }

/-- A step commits its sums into the tile (R250 to R254, R256, R257). -/
def Core.commit (k : Core) (m : MItem) (rung : Nat) (a : Attempt) (over_ : Bool) : Core :=
  let k := k.count rung 1
  let k := if over_ then (k.count 7 1).modTile m.tile fun t => { t with exh := true } else k
  k.putRows m.tile (a.outs.map fun r => (r.1, (List.range 32).map fun j => commitEl m.flt m.e.toInt (k.el m.tile r.1 j) (lget .nan r.2 j)))

/-- A step's attempt ends: over budget below MAXR it is squashed and tried one rung wider, otherwise it commits (R250, R255, R283); where its team is being saved the `mma`
is then interrupted (R274). -/
def execMmaAttemptEnd (c : Nat) (s : State) : Out :=
  .next (
    let k := s.coreAt c
    let e := k.eng
    match k.endAt, e.run with
    | some b, some r => match k.mItem r.id with
      | none => s
      | some m =>
        if s.now < b || !k.upTo b then s
        else
          -- work units beyond what the step needs are those of its last cycle
          let spare := if e.attemptAt == some b then (b - e.t) * e.lv - r.left else 0
          let o := (r.ops.head?).getD ⟨[], [], [], [], 0⟩
          let a := attempt m.desc (if m.taint then o.free s else o) m.mask r.rung
          let over_ := overBudget m.desc a.ev
          let s := s.modCore c fun k => k.settle b
          if over_ && r.rung < maxrOf m.desc then
            ((s.modCore c fun k => k.count (4 + r.rung) 1).modEng c fun e =>
              { e with run := some { r with rung := r.rung + 1, left := 32 + rungUnits (r.rung + 1) - spare } }).statDue c
          else
            let s := s.modCore c fun k => k.commit m r.rung a over_
            if m.steps ≤ r.step + 1 then s.mmaEnd c m.id b none
            else if k.stopping m then s.interrupt c m.id { r with step := r.step + 1, ops := r.ops.tail } b
            else
              ((s.modEng c fun e => { e with run := some ({ r with step := r.step + 1, ops := r.ops.tail }.begin_ m.desc spare) }).kickFetch c b).statDue c
    | _, _ => s)

/-- A matrix instruction leaves its queue at a time: its record is updated, then its wick falls, and an `mstat` that waited for it takes effect (R231, R264,
R273). -/
def State.mLeave (s : State) (c : Nat) (m : MItem) (f : Option Fail) (wick : Bool) (x : Nat) : State :=
  let s := if wick then s.modOwner c m.slot m.lid m.cohort fun g => g.xRetire m.wick m.seq f else s
  ((s.modCore c fun k => k.mDrop m.id x).unscore c m.id).statDue c

/-- An `mma` retires 8 cycles after its last commit, or failed (R264, R266, R268). -/
def execMmaRetire (c k : Nat) (s : State) : Out :=
  .next (match (s.coreAt c).mItem k with
    | none => s
    | some m => match m.retireAt with
      | some x => if x ≤ s.now && (s.coreAt c).upTo x then s.mLeave c m m.fail true x else s
      | none => s)

/-- What a queued instruction on tiles does when it takes effect (R269, R271). -/
def Core.tileOp (k : Core) (m : MItem) : Core :=
  let act := bitsOf 32 m.mask.toNat
  let rows := fun (is : List Nat) (f : Nat → Nat → El) => k.putRows m.tile (is.map fun i => (i, (List.range 32).map (f i)))
  match m.op with
  | .mzero =>
    (k.modPlane (k.accB m.tile) fun p => { p with acc := tcut p.acc (1024 * m.tile) 1024, accPoi := tcut p.accPoi (256 * m.tile) 256 }).modTile m.tile
      fun t => { t with exh := false, ovf := false, nan := false }
  | .madd => rows act fun i j => addEl m.flt (k.el m.x i j) (k.el m.y i j)
  | .mcvt => rows (List.range 32) fun i j => cvtEl m.flt0 m.e0.toInt m.flt m.e.toInt (k.el m.tile i j)
  | .mscl => rows act fun i j => sclEl m.flt (lget 0 m.ks i).toInt (k.el m.tile i j)
  | .mtrans => rows (List.range 32) fun i j =>
    let x := k.el m.x j i
    (x, false, if m.flt then (fp64.dec x.toNat).isNan else x == nanCode)
  | _ => k

/-- `mglow` takes effect at a time: it replaces any hold, which starts at once where the engine would ramp down (R279). -/
def State.glow (s : State) (c n x : Nat) : State :=
  (s.modEng c fun e => { e with armed := if n = 0 then none else some n, holdTo := none, down := false }).restAt c x

/-- The instruction of a queue on tiles, or `mglow`, that takes effect first, and the time (R262). -/
def Core.nextOp_ (k : Core) : Option (MItem × Nat) :=
  k.mq.foldl (fun o m => match o, k.opAt m with
    | some p, some x => if x < p.2 then some (m, x) else some p
    | none, some x => some (m, x)
    | o, none => o) none
/-- The first `mld` or `mst` that may start: its tile is free, and so is the tile port, which carries four (R262). -/
def Core.nextMove (k : Core) : Option MItem :=
  if 4 ≤ k.mq.countP (·.run) then none else k.mq.find? fun m => (m.op == .mld || m.op == .mst) && !m.run && !k.mBlocked m
/-- A queued instruction on tiles takes effect at a time (R262, R269, R271). -/
def State.tileDone (s : State) (c : Nat) (m : MItem) (x : Nat) : State :=
  ((((s.modCore c fun k => k.tileOp m).passMq c m x).mLeave c m none false x).restAt c x).statDue c

/-- A queued matrix instruction other than `mma` takes effect at its time, or starts on the tile port (R262). -/
def execMatrixQueueExecute (c : Nat) (s : State) : Out :=
  .next (
    let k := s.coreAt c
    let move := match k.nextMove with
      | some m => if k.upTo s.now then s.modMq c m.id fun m => { m with run := true } else s
      | none => s
    match k.nextOp_ with
    | none => move
    | some (m, x) =>
      if s.now < x || !k.upTo x then move
      else if m.op == .mglow then (((s.passMq c m x).mLeave c m none false x).glow c m.steps x).statDue c
      else s.tileDone c m x)

/-- An `mst` whose destination an earlier operation of a scoreboard touches waits (R164, R270). -/
def State.mvBlocked (s : State) (c : Nat) (m : MItem) : Bool :=
  m.op == .mst && s.cores.any fun e =>
    let before_ := e.2.score.takeWhile fun x => !(x.core == c && x.op == m.id)
    before_.length != e.2.score.length && (e.2.score.any fun y => y.core == c && y.op == m.id && before_.any fun x =>
      x.space == y.space && x.lo / 32 ≤ y.hi / 32 && y.lo / 32 ≤ x.hi / 32)
/-- A tile move leaves its queue; an `mma` that waited for it may reach the engine from now on (R262, R270). -/
def State.mvEnd (s : State) (c : Nat) (m : MItem) (f : Option Fail) : State :=
  let wait := match (s.coreAt c).nextMma with
    | some x => x.tile == m.tile && ((s.coreAt c).ahead x).any fun y => y.id == m.id
    | none => false
  let s := (s.passMq c m s.now).mLeave c m f true s.now
  let s := if wait then s.modEng c fun e => { e with lastEnd := max e.lastEnd s.now } else s
  (s.restAt c s.now).statDue c
/-- A tile move reaches scratchpad that a change of %wpr covers: it stalls (R161). -/
def State.mvMoves (s : State) (c : Nat) (m : MItem) : Bool :=
  m.spad && (bitsOf 32 m.mask.toNat).any fun i => [m.rowAt i, m.rowAt i + 255].any fun a => match s.spadLoc c (s.grpAt c m.slot) a with
    | some l => s.spadMoves l
    | none => false

/-- An `mld` or `mst` completes, fails, or waits for a page (R270), once everything of the engine that falls before has happened. -/
def execTileMoveDone (c k : Nat) (s : State) : Out :=
  .next (match (s.coreAt c).mItem k with
    | none => s
    | some m =>
      if !m.run || s.mvBlocked c m || s.mvMoves c m || !(s.coreAt c).upTo s.now then s
      else
        let rows := bitsOf 32 m.mask.toNat
        match s.mvRows c m rows with
        | .ok s1 => s1.mvEnd c m none
        | .page va => if m.page == some va then s
          else (s.modMq c k fun m => { m with page := some va }).event (s.lchAt m.lid).part 2 (BitVec.ofNat 64 va) m.lid
        | .quota => s.modLch m.lid fun l => { l with quotaWait := true }
        | .bad f =>
          let s1 := (s.mvSome c m rows).mvEnd c m (some f)
          if f.cause != .undecl then s1 else if (s.lchAt m.lid).frozen then s else s1.endLaunch m.lid (.plain 1 f.cause.code 0x21))

/-- The flat cores of a die (R13). -/
def dieCores (die : Nat) : List Nat := span (36 * die) 36
/-- Everything on a core that comes before a tick has happened: what falls at the same time comes before it, but for the end of a fetch and a retirement. -/
def Core.tickReady (k : Core) (x : Nat) : Bool :=
  notAfter (x + 1) k.reachAt && (k.eng.tick != x || !k.eng.active || (k.upTo x && notAfter (x + 1) k.endAt && k.mq.all fun m => notAfter (x + 1) (k.opAt m)))
/-- A tick of the dimmer at one core's engine, a grant apart (R276, R278, R279). -/
def State.tickEng (s : State) (c x : Nat) : State :=
  let s := s.modCore c fun k => k.settle x
  let k := s.coreAt c
  let fly := k.inFlight x
  s.modEng c fun e =>
    let e := { e with t := x, tick := x + 4 }
    match e.pos with
    | none => if e.run.isNone then { e with req := none } else e
    | some p =>
      if fly then let q := if e.run.isSome then min (p + 1) 15 else p
        { e with pos := some q, lv := s.levelOf c e.ramp q }
      else
        -- a launch that ended in the engine left no commit from which to ramp down
        let e := if e.down || e.holdTo.isSome then e else e.beginDown x
        let held : Bool := match e.holdTo with
          | some h => decide (x < h)
          | none => false
        if held then { e with lv := s.levelOf c e.ramp p }
        else if p = 0 then { e with pos := none, down := false, holdTo := none, lv := 0 }
        else { e with pos := some (p - 1), down := true, holdTo := none, lv := s.levelOf c e.ramp (p - 1) }
/-- The grant of a tick to a waiting engine (R273, R276, R277, R282). -/
def State.grant (s : State) (c x : Nat) : State :=
  let k := s.coreAt c
  match k.eng.req with
  | none => s
  | some q =>
    let ramp := s.rampOf (c / 36)
    let s := s.modCore c fun k => k.count 9 (x - q)
    let ws := match k.eng.run.bind fun r => k.mItem r.id with
      | some m => m.desc
      | none => []
    (s.modEng c fun e => { e with
      req := none, pos := some 0, ramp := ramp, lv := s.levelOf c ramp 0, run := e.run.map fun r => r.begin_ ws 0 }).kickFetch c x

/-- The dimmer of a die ticks: ramps step, and the waiting engine of the lowest core is granted (R276). -/
def execDimmerTick (die : Nat) (s : State) : Out :=
  .next (
    let cs := dieCores die
    let act := cs.filter fun c => (s.coreAt c).eng.active
    match act.foldl (fun m c => match m with
      | none => some (s.coreAt c).eng.tick
      | some x => some (min x (s.coreAt c).eng.tick)) (none : Option Nat) with
    | none => s
    | some x =>
      if s.now < x || !cs.all fun c => (s.coreAt c).tickReady x then s
      else
        let s := (act.filter fun c => (s.coreAt c).eng.tick == x).foldl (fun s c => (s.tickEng c x).statDue c) s
        match act.find? fun c => (s.coreAt c).eng.tick == x + 4 && (match (s.coreAt c).eng.req with
          | some q => decide (q ≤ x)
          | none => false) with
        | some c => s.grant c x
        | none => s)

/-- A hold has run out (R279). -/
def execGlowHoldExpiry (c : Nat) (s : State) : Out :=
  .next (match (s.coreAt c).eng.holdTo with
    | some h => if h ≤ s.now && h ≤ (s.coreAt c).eng.tick then s.modEng c fun e => { e with holdTo := none, down := true } else s
    | none => s)

/-- A write of DIM_RAMP (R277). -/
def execDimRampWrite (die v : Nat) (s : State) : Out := .next (s.rampWrite die (BitVec.ofNat 64 v))

end Sys2Proof.Machine
end

