-- ==== Sys2Proof/Machine/EvXfer.lean ====
section
/-!
DEFINITION. Sys2Proof/Machine/EvXfer.lean: events of the transfer engines (R218, R219, R207, R226 to R236): items are taken, retire, are
cancelled, time out, or fail with a peer.
-/
namespace Sys2Proof.Machine

/-- An item of a core by its number. -/
def State.item (s : State) (c id : Nat) : Option Item := (s.coreAt c).items.find? fun i => i.id == id
/-- An item of a core changed. -/
def State.modItem (s : State) (c id : Nat) (f : Item → Item) : State :=
  s.modCore c fun k => { k with items := k.items.map fun i => if i.id == id then f i else i }

/-- A free engine takes the first queued item of a core: four engines (R218). -/
def execItemDispatch (c : Nat) (s : State) : Out :=
  .next (
    let k := s.coreAt c
    match k.items.find? fun i => !i.run with
    | none => s
    | some i => if (k.items.filter fun i => i.run).length < 4 then s.modItem c i.id fun i => { i with run := true } else s)

/-- The first source address of an item whose data is poisoned or uncorrectable, with the cause (R232). -/
def State.firstBad (s : State) (c : Nat) (i : Item) : Option (Cause × Nat) :=
  (srcs.findSome? fun r =>
    match s.rdSide c i i.ssp r.1 r.2 0 with
    | .ok bs _ => (List.range bs.length).findSome? fun j => ((lget (0, none) bs j).2).map fun e => (e, r.1 + j)
    | _ => none)
where
  /-- The source ranges in row order, in either space. -/
  srcs : List (Nat × Nat) := if i.ssp = 1 then (List.range i.h).map fun r => (i.d0.toNat + i.ss * r, i.srow) else s.rowSrcs c i

/-- An item waits for a page, reported to the driver once (R232, R359). -/
def State.itemPage (s : State) (c : Nat) (i : Item) (va : Nat) : State :=
  if i.page == some va then s
  else (s.modItem c i.id fun i => { i with page := some va }).event i.part 2 (BitVec.ofNat 64 va) i.lid

/-- An item has not retired within its time limit (R222). -/
def State.itemLate (s : State) (i : Item) : Bool := i.tmo != 0 && i.since + 1000 * 2 ^ i.tmo ≤ s.wall

/-- An item retires failed; UNDECL aborts the launch too (R232). -/
def State.itemFail (s : State) (c : Nat) (i : Item) (f : Fail) : State :=
  -- a context that halted for a debugger ends only when it is killed (R318)
  if f.cause == .undecl && (s.lchAt i.lid).frozen then s
  else
  let s := s.retireItem c i (some f)
  if f.cause == .undecl then s.endLaunch i.lid (.plain 1 f.cause.code 0x21) else s

/-- The digest that an item's source is compared with: the 32 bytes after its last row (R230). -/
def State.digestAt (s : State) (c : Nat) (i : Item) : Src := s.rdSide c i i.ssp (i.d0.toNat + i.ss * (i.h - 1) + i.w) 32 0

/-- Rows of bytes delivered at an item's destination; none while quota is short. -/
def State.wrRows (s : State) (c : Nat) (i : Item) (rows : List (List RB)) : Option State :=
  (List.range rows.length).foldl (fun (o : Option State) r => o.bind fun s => s.wrSide c i (i.d1.toNat + i.ds * r) (lget [] rows r)) (some s)

/-- A failure that stops an item, or the page it waits for. -/
def State.itemErr (s : State) (c : Nat) (i : Item) : Src → State
  | .bad f => s.itemFail c i f
  | .page va => s.itemPage c i va
  | .ok _ _ => s

/-- Every source address of an item checked before its first write; of a gather, those of its index table (R226, R232). -/
def State.srcChk (s : State) (c : Nat) (i : Item) : Src :=
  if i.cmd == .xgath then s.rdGath c i i.d0.toNat (8 * i.h) 2
  else match s.itemRows c i with
    | .ok (_, s) => .ok [] s
    | .error e => e

/-- The granules of an item's destination that it covers in part and that are poisoned or fail their ECC: number, cause and address (R209, R229). -/
def State.partFails (s : State) (c : Nat) (i : Item) : List (Nat × Cause × Nat) :=
  (List.range i.grans.length).filterMap fun k => match i.grans[k]? with
    | some (_, a, n) =>
      let reg := isStaging a && stgKind a == 0
      let g := if reg then regGran (stgOff a % 0x4000) else (stgOff a / 32 * 32, 32)
      if (stgOff a % (if reg then 0x4000 else 2 ^ 37), n) == g then none else (s.granFail c i a).map fun e => (k, e, a)
    | none => none
/-- The numbers of those granules. -/
def State.partBad (s : State) (c : Nat) (i : Item) : List Nat := (s.partFails c i).map (·.1)
/-- What an item records that has delivered into part of such a granule: detail 1, with the address of the first, the model's choice, log entry 73 (R232). -/
def State.partFail (s : State) (c : Nat) (i : Item) : Option Fail := ((s.partFails c i).head?).map fun x => ⟨x.2.1, 1, BitVec.ofNat 64 x.2.2⟩
/-- The granules of the destination that are delivered poisoned where a link exhausted its retries: at least one, and which is open (R229). -/
def State.cutGrans (s : State) (c : Nat) (i : Item) : List Nat :=
  let n := i.grans.length
  if i.cut_ then (List.range n).filter fun k => k == (Config.freeWord s.fresh (c * 2 ^ 48 + i.id)).toNat % n || Config.freeBool s.fresh (c * 2 ^ 48 + i.id * 2 ^ 20 + k)
  else []
/-- Some granules of an item's destination poisoned: a granule that failed its ECC and was written in part, and those that a link lost (R229). -/
def State.spoil (s : State) (c : Nat) (i : Item) (ks : List Nat) : State :=
  ks.foldl (fun s k => match i.grans[k]? with
    | some g => s.markGran c i g.2.1 true
    | none => s) s

/-- The walk of an item stopped at row `r`: the rows before it are written, the others poisoned; before the first write nothing changes (R232). -/
def State.stopAt (s : State) (c : Nat) (i : Item) (r : Nat) : State :=
  if r = 0 then s
  else s.poisonDst c i ((List.range i.grans.length).filter fun k => match i.grans[k]? with
    | some g => decide (g.1 < r)
    | none => false)

/-- A local item is carried out (R226 to R232): it retires, but for one that verifies a digest, whose granules stay poisoned until the digest is compared. It
reads every granule in this one step, at whatever time between issue and retirement the step comes, where R196 has each granule read at some time of its own:
the model's choice, log entry 68. R232 leaves open what it records where both sides fail: the destination's addresses are checked first, bad source data comes
before a bad granule of the destination, and a link's failure before both; and R230 leaves open a poisoned or uncorrectable digest, which is compared as it
stands, and whether bad data comes before DIGEST: it does, the destination staying poisoned though the digest match. All are the model's choice, log entry 73. -/
def State.runItem (s : State) (c : Nat) (i : Item) : State :=
  match s.itemChk c i with
  | .ok _ s1 => match s1.srcChk c i with
    | .ok _ s2 => match (if i.dig then s2.digestAt c i else .ok [] s2) with
      | .ok dg s3 => match s3.itemWalk c i i.dig with
        | .quota => s.modLch i.lid fun l => { l with quotaWait := true }
        | .stop _ (.page va) _ => s.itemPage c i va
        | .stop r e s4 => (s4.stopAt c i r).itemErr c i e
        | .ok rows s4 =>
          let src := (rows.flatten.findSome? (·.2)).map fun e =>
            let x := (s3.firstBad c i).getD (e, i.d0.toNat)
            (⟨x.1, 0, BitVec.ofNat 64 x.2⟩ : Fail)
          let fail := (i.fail.or src).or (s3.partFail c i)
          let s5 := s4.spoil c i (s3.partBad c i ++ s3.cutGrans c i)
          if i.dig then
            let fail := fail.or (if sha3 (rows.flatten.map (·.1)) == dg.map (·.1) then none else some ⟨.xfer, 4, i.d1⟩)
            s5.modItem c i.id fun i => { i with walked := some (fail, s3.partBad c i) }
          else s5.retireItem c i fail
      | e => s2.itemErr c i e
    | e => s1.itemErr c i e
  | e => s.itemErr c i e

/-- The item that rank `rank`, on core `core`, has issued for the same collective on its own copy of the record, and that has not failed but for a link
(R235). How a copy of the record is told R235 leaves open: by equal endpoints in one partition, whatever the COLL numbers, the model's choice, log entry 25. -/
def State.rankItem (s : State) (i : Item) (rank core : Nat) : Option Item :=
  (s.coreAt core).items.find? fun j =>
    j.isColl && !j.badDesc && j.part == i.part && j.ends == i.ends && j.own == rank && j.kseq == i.kseq && j.run
    && (j.fail.isNone || j.cut_) && j.cancel.isNone && !s.itemLate j
/-- The items of a collective's local ranks with their ranks and cores; none while one has not been issued. An endpoint that names this device by its
BRUS_NODE number and not by 0xFFFF R235 leaves open: it is a remote rank, the model's choice, log entry 73. -/
def State.rankItems (s : State) (i : Item) : Option (List (Nat × Nat × Item)) :=
  ((List.range i.ends.length).filter fun r => (lget (0, 0) i.ends r).1 == 0xFFFF).mapM fun r =>
    let core := (lget (0, 0) i.ends r).2
    (s.rankItem i r core).map fun j => (r, core, j)
/-- Matched items agree (R235). -/
def Item.agrees (i j : Item) : Bool :=
  i.cmd == j.cmd && i.w == j.w && i.h == j.h && i.sfmt == j.sfmt && i.dfmt == j.dfmt && i.op == j.op && i.f 12 2 == j.f 12 2 && i.root == j.root
/-- A row of a rank's source: of a remote rank it is not known here (R235). A broadcast whose ROOT is no rank of the record R236 does not describe: its bytes
are free, the model's choice, log entry 67. -/
def State.rankRow (s : State) (i : Item) (rs : List (Nat × Nat × Item)) (rank r : Nat) : Except (Nat × Nat × Item × Src) (List RB) :=
  match rs.find? fun e => e.1 == rank with
  | none => .ok ((List.range i.srow).map fun j => (Config.freeByte s.fresh ((rank * 65536 + r) * 65536 * 4 + j), none))
  | some e => match s.rdSide e.2.1 e.2.2 e.2.2.ssp (e.2.2.d0.toNat + e.2.2.ss * r) e.2.2.srow 0 with
    | .ok bs _ => .ok bs
    | x => .error (e.1, e.2.1, e.2.2, x)
/-- The bytes that every rank receives for a row (R236). -/
def State.collRow (s : State) (i : Item) (rs : List (Nat × Nat × Item)) (r : Nat) : Except (Nat × Nat × Item × Src) (List RB) :=
  if i.cmd == .xbcst then s.rankRow i rs i.root r
  else match (List.range i.ends.length).mapM fun k => s.rankRow i rs k r with
    | .error e => .error e
    | .ok rows =>
      let bs := rows.map fun x => x.map (·.1)
      let body := if i.sfmt = 6 then i.w else i.w / 2
      let bad := rows.map fun x => if i.cmd == .xagree then (x.drop body).map (·.2) else rowBad i.sfmt i.dfmt i.w x
      let out := if i.cmd == .xagree then agreeRow i bs else redRow i bs
      .ok ((List.range out.length).map fun j => (lget 0 out j, bad.findSome? fun b => lget none b j))

/-- The first local rank whose destination or source cannot be reached, and why. -/
def State.collBad (s : State) (rs : List (Nat × Nat × Item)) : Option (Nat × Item × Src) :=
  rs.findSome? fun e => match s.itemChk e.2.1 e.2.2 with
    | .ok _ _ => none
    | x => some (e.2.1, e.2.2, x)

/-- A collective completes for its local ranks: every one receives the result, and the retiring one retires (R235, R236). A rank whose link exhausted its
retries fails with LINKCRC, and its partners with PEER (R229, R232). -/
def State.runColl (s : State) (c : Nat) (i : Item) : State :=
  match s.rankItems i with
  | none => s
  | some rs =>
    let remote := rs.length != i.ends.length
    let setFail := fun (s : State) (k : Nat) (j : Item) (f : Fail) =>
      if j.id == i.id && k == c then s.itemFail c i f else s.modItem k j.id fun j => { j with fail := some f }
    let note := fun (k : Nat) (j : Item) (x : Src) => match x with
      | .bad f => setFail s k j f
      | .page va => s.itemPage k j va
      | .ok _ _ => s
    if rs.any (fun e => s.blocked e.2.1 e.2.2) then s
    else if rs.any (fun e => !i.agrees e.2.2) || (remote && Config.freeBool s.fresh 0) then
      let s := rs.foldl (fun s e => s.modItem e.2.1 e.2.2.id fun j => { j with fail := some ⟨.xfer, 7, j.d1⟩, got := true }) s
      s.retireItem c { i with got := true, fail := some ⟨.xfer, 7, i.d1⟩ } (some ⟨.xfer, 7, i.d1⟩)
    else match s.collBad rs with
      | some (k, j, x) => note k j x
      | none => match (List.range i.h).mapM fun r => s.collRow i rs r with
        | .error (_, k, j, x) => note k j x
        | .ok rows =>
          let fail := (rows.flatten.findSome? (·.2)).map fun e => (⟨e, 0, (((rs.filter fun x => i.cmd != .xbcst || x.1 == i.root).findSome? fun x => s.firstBad x.2.1 x.2.2).map fun y => BitVec.ofNat 64 y.2).getD 0⟩ : Fail)
          let lost := rs.any fun e => e.2.2.cut_
          let ends := fun (k : Nat) (j : Item) => if j.cut_ then j.fail else if lost then some ⟨.xfer, 6, j.d1⟩ else fail.or (s.partFail k j)
          match rs.foldl (fun (o : Option State) e => o.bind fun t =>
              (t.wrRows e.2.1 e.2.2 rows).map fun t => t.spoil e.2.1 e.2.2 (s.partBad e.2.1 e.2.2 ++ s.cutGrans e.2.1 e.2.2)) (some s) with
          | none => s.modLch i.lid fun l => { l with quotaWait := true }
          | some s1 =>
            let s1 := rs.foldl (fun s e => s.modItem e.2.1 e.2.2.id fun j => { j with got := true, fail := ends e.2.1 e.2.2 }) s1
            s1.retireItem c { i with got := true, fail := ends c i } (ends c i)

/-- An item ends before its walk does: what it wrote whole is kept, in rows as far as a mask says, the rest is poisoned (R207, R232). -/
def State.endItem (s : State) (c : Nat) (i : Item) (done : Nat → Bool) (detail : Nat) : State :=
  (if i.got then s else s.partWrite c i done).retireItem c i (some ⟨.xfer, detail, i.d1⟩)

/-- An item is carried out as far as it may be now: a collective with its partners, a local one where it waits for nothing. -/
def State.carry (s : State) (c : Nat) (i : Item) : State :=
  if i.isColl then s.runColl c i else if s.blocked c i then s else s.runItem c i
/-- An item retires (R219): carried out whole, or failed; after its time limit with TIMEOUT. One whose link exhausted its retries is carried out first, the
granules concerned poisoned (R229). A page it waits for is tried again. -/
def execItemRetire (c k : Nat) (s : State) : Out :=
  .next (match s.item c k with
    | none => s
    | some i =>
      let some_ := fun k => Config.freeBool s.fresh (c * 2 ^ 48 + i.id * 2 ^ 20 + k)
      if i.cancel.isSome || !i.run then s
      else match i.fail with
        | some f =>
          if i.got || i.walked.isSome then s.itemFail c i f
          else if f.cause == .xfer && f.detail == 6 then s
          else if i.cut_ then (if s.itemLate i then s.endItem c i some_ 5 else s.carry c i)
          else s.itemFail c i f
        | none =>
          if s.itemLate i then s.endItem c i some_ 5
          else if i.got then s.retireItem c i none
          else if i.badDesc then s.itemFail c i ⟨.xfer, 1, 0⟩
          else match i.walked with
            | some (none, keep) => (s.markDst c i keep false).retireItem c i none
            | some f => s.retireItem c i f.1
            | none => s.carry c i)

/-- An item's time limit passes (R222, R232). -/
def execItemTimeout (c k done : Nat) (s : State) : Out :=
  .next (match s.item c k with
    | none => s
    | some i => if !s.itemLate i || i.cancel.isSome || (i.fail.isSome && !i.cut_) then s else s.endItem c i (done.testBit ·) 5)

/-- A cancelled item retires 6 cycles after its cancel (R207, R233). -/
def execCancelRetire (c k done : Nat) (s : State) : Out :=
  .next (match s.item c k with
    | none => s
    | some i => match i.cancel with
      | none => s
      | some (t, det) =>
        if s.now < t then s
        else s.endItem c i (done.testBit ·) det)

/-- A rank's failure reaches a partner, which fails with PEER; a remote rank may fail at any time (R235). -/
def execCollectivePeerFail (c k done : Nat) (s : State) : Out :=
  .next (match s.item c k with
    | none => s
    | some i =>
      let told := i.fail == some ⟨.xfer, 6, i.d1⟩
      let remote := i.ends.any fun e => e.1 != 0xFFFF
      if i.isColl && !i.badDesc && !i.got && i.cancel.isNone && (told || (i.fail.isNone && remote)) then
        s.endItem c i (done.testBit ·) 6
      else s)

end Sys2Proof.Machine
end

