-- ==== Sys2Proof/Machine/Lamp.lean ====
section
/-!
DEFINITION. Sys2Proof/Machine/Lamp.lean: the Lx instructions of the Lamplighter cores (R354 to R356), the start of packets that a scheduler
dispatches (R347, R355, R359), and the checks of bind records (R353, R356).
-/
namespace Sys2Proof.Machine

/-- A register of the acting Lamplighter core; x0 reads zero (R355). -/
def State.xr (s : State) (r : BitVec 5) : Word := if r = 0 then 0 else tget 0 (s.hartAt s.hart).x r.toNat
/-- A Lamplighter core with a register written; a write to x0 is discarded (R355). -/
def Hart.put (h : Hart) (r : BitVec 5) (v : Word) : Hart := if r = 0 then h else { h with x := tput h.x r.toNat v }
/-- An Lx instruction of the acting core completes: its result, and the next PC. -/
def State.lxDone (s : State) (rd : BitVec 5) (v : Word) : State :=
  s.modHart s.hart fun h => { h.put rd v with pc := h.pc + 4, swait := none }
/-- An Lx fault: mcause 24, the code in mtval (R356). -/
def State.lxFault (s : State) (code : Nat) : State := s.rvTrap s.hart 24 (BitVec.ofNat 64 code)
/-- The first Lx check that fails faults with its code; the checks stand in the order of the codes. -/
def State.lxChecks (s : State) (cs : List (Bool × Nat)) (k : State) : State :=
  match cs.find? (·.1) with
  | some c => s.lxFault c.2
  | none => k
/-- The acting core's role reaches a partition: the supervisor every one, a scheduler its own, the spare none (R25, R341). -/
def State.lxMay (s : State) (p : Nat) : Bool := s.hart == 0 || (s.hart == schedOf p && p < 8)
/-- A private address of a record of `n` bytes is bad (R356). -/
def badPriv (a : Word) (n : Nat) : Bool := a.toNat % n != 0 || 0x40000 < a.toNat + n
/-- A queue an Lx instruction names is above 1,023, disabled, or of another partition (R356). -/
def State.badQueue (s : State) (q : Nat) : Bool := 1024 ≤ q || !(s.qAt q).en || (s.qAt q).state == 0 || !s.lxMay (s.qAt q).part
/-- The dwords at a private address of the acting core. -/
def State.privDws (s : State) (a : Word) (n : Nat) : List Word := toDws n (tbytes (s.hartAt s.hart).sram a.toNat (8 * n))

/-- `lx.rfetch` (R355): one fetch under R346. -/
def execLxRfetch (rd rs1 rs2 : BitVec 5) (s : State) : Out :=
  .next (
    let q := (s.xr rs1).toNat
    let a := s.xr rs2
    s.lxChecks [(s.badQueue q, 0x01), (badPriv a 64, 0x02)] (
      let r := s.fetch q fun _ => true
      let s := if r.pkt.isEmpty then r.s else r.s.modHart s.hart fun h => { h with sram := twrite h.sram a.toNat r.pkt }
      s.lxDone rd (BitVec.ofNat 64 r.code)))

/-- `lx.bfx` (R355): as `bext` (R60). -/
def execLxBfx (sx : Bool) (rd rs1 rs2 : BitVec 5) (s : State) : Out := .next (s.lxDone rd (bextOf sx (s.xr rs1) (s.xr rs2)))

/-- A wait ends: the signals it saw are written and cleared in the same step (R355). -/
def State.swaitEnd (s : State) (rd : BitVec 5) (mask : BitVec 7) : State :=
  let sig := (s.hartAt s.hart).sig
  (s.modHart s.hart fun h => { h with sig := sig &&& ~~~mask }).lxDone rd ((sig &&& mask).zeroExtend 64)

/-- `lx.swait` (R355): it ends with a signal, or when its limit of Lamplighter cycles, of 3/2 core cycles each (R4), has passed; until then the
core stays at it. -/
def execLxSwait (rd rs1 rs2 : BitVec 5) (s : State) : Out :=
  .next (
    let x := s.xr rs1
    let mask : BitVec 7 := x.truncate 7
    let n := (s.xr rs2).toNat
    s.lxChecks [(x.toNat / 128 != 0, 0x30)]
      (if (s.hartAt s.hart).sig &&& mask != 0 then s.swaitEnd rd mask
      else match (s.hartAt s.hart).swait with
        | some w => match w.until_ with
          | some t => if t ≤ s.now then s.swaitEnd rd mask else s
          | none => s
        | none => s.modHart s.hart fun h => { h with swait := some ⟨if n = 0 then none else some (s.now + (3 * n + 1) / 2), rd, mask⟩ }))

/-- The cycle limit of an `lx.swait` passes with no signal: it writes what of SIG it waits for (R355). -/
def execLxSwaitTimeout (hart : Nat) (s : State) : Out :=
  .next (match (s.hartAt hart).swait with
    | none => s
    | some w => match w.until_ with
      | none => s
      | some t => if s.now < t then s else { ({ s with hart := hart }).swaitEnd w.rd w.mask with hart := s.hart })

/-- The faulting page of an access and the page a RESUME names are one (R359). -/
def samePage (va : Nat) (a : Word) : Bool := va / 65536 == a.toNat / 65536

/-- The side of an item on which it waits for a page: 1 destination, 2 index table, 0 source (R232). -/
def Item.pageSide (i : Item) (va : Nat) : Nat :=
  if i.dsts.any fun r => r.1 ≤ va && va < r.1 + r.2 then 1
  else if i.cmd == .xgath && i.d0.toNat ≤ va && va < i.d0.toNat + 8 * i.h then 2 else 0

/-- An item that waits for a page goes on, or fails with XLATE (R232, R359). -/
def State.resumeItem (s : State) (c : Nat) (i : Item) (va : Nat) (ok : Bool) : State :=
  if ok then s.modItem c i.id fun i => { i with page := none }
  else
    -- a gather has written the rows before it (R232)
    let s := if i.cmd == .xgath && i.pageSide va == 0 then (match s.itemWalk c i false with
        | .stop r _ s1 => s1.stopAt c i r
        | _ => s) else s
    s.itemFail c i ⟨.xlate, i.pageSide va, BitVec.ofNat 64 va⟩

/-- An `mld` or `mst` that waits for a page goes on, or fails with XLATE, once everything of the engine that falls before has happened (R270, R359). -/
def State.resumeMove (s : State) (c : Nat) (m : MItem) (va : Nat) (ok : Bool) : State :=
  if ok then s.modMq c m.id fun m => { m with page := none }
  else if !(s.coreAt c).upTo s.now then { s with waits := true }
  else (s.mvSome c m (bitsOf 32 m.mask.toNat)).mvEnd c m (some ⟨.xlate, if m.op == .mst then 1 else 0, BitVec.ofNat 64 va⟩)

/-- The report of a RESUME packet reaches what waits for the page in a launch: items, tile moves, and swapped teams (R326, R359). -/
def State.resumePage (s : State) (lid : Nat) (a : Word) (ok : Bool) : State :=
  let s := s.allItems.foldl (fun s e => match e.2.page with
    | some va => if e.2.lid == lid && samePage va a then s.resumeItem e.1 e.2 va ok else s
    | none => s) s
  let s := s.cores.foldl (fun s k => k.2.mq.foldl (fun s m => match m.page with
    | some va => if m.lid == lid && samePage va a then s.resumeMove k.1 m va ok else s
    | none => s) s) s
  { s with saved := s.saved.map fun v => match v.page with
      | some va => if v.groups.any (fun e => e.2.lid == lid) && samePage va a then { v with answer := some ok } else v
      | none => v }

/-- A RESUME packet starts and completes (R359). -/
def State.startResume (s : State) (q : Nat) (p : Pkt) : State :=
  let s := s.resumePage (bits (dw p.dw 3) 32 9) (dw p.dw 2) ((dw p.dw 3).getLsbD 0)
  ((s.startPkt q p).pktDone q p.n 0 false (.plain 0 0 0)).runAll q

/-- A taken LAUNCH, GRAPH or RESUME packet starts: what `lx.disp` answers; none while no LID is free (R355). -/
def State.startTaken (s : State) (q : Nat) (p : Pkt) : Option (Nat × State) :=
  let iss := (s.qAt q).issuer p.n
  match ptype p.dw with
  | 1 => s.startLaunch q p iss
  | 2 => some (0x3FF, (s.startGraph q p iss).runAll q)
  | _ => some (0x3FF, s.startResume q p)

/-- The first packet of a queue that has been taken and not started. -/
def Queue.waiting (x : Queue) : Option Pkt := x.pkts.find? fun p => !p.started
/-- The scheduler of a partition exchanges its role: nothing is bound or dispatched (R377). -/
def State.roleMoves (s : State) (p : Nat) : Bool := (s.partAt p).held

/-- `lx.disp` (R355, R356): the packet at a private address must be the first of its queue that is taken and not started. -/
def execLxDisp (rd rs1 rs2 : BitVec 5) (s : State) : Out :=
  .next (
    let a := s.xr rs1
    let q := (s.xr rs2).toNat
    if s.roleMoves (s.qAt q).part then s
    else s.lxChecks [(s.badQueue q, 0x01), (badPriv a 64, 0x02)] (
      match (s.qAt q).waiting with
      | none => s.lxFault 0x03
      | some p =>
        if p.dw != s.privDws a 8 then s.lxFault 0x03
        else match s.startTaken q p with
          | none => s.lxFault 0x04
          | some (l, s1) => s1.lxDone rd (BitVec.ofNat 64 l)))

/-- A bind record as written (R353): V, LS and the fields. -/
def bindOf (ws : List Word) (wall : Nat) : Bind :=
  let w := dw ws 0
  let x := dw ws 1
  ⟨bits w 8 9, bits w 17 7, bits w 24 5 + 1, bits w 29 3, bits w 32 3, bits w 40 24, w.getLsbD 1, bits x 0 6, BitVec.ofNat 8 (bits x 8 8),
    x.getLsbD 16, wall, false⟩
/-- Reserved bits of a bind record (R353). -/
def bindReserved (ws : List Word) : Bool :=
  bits (dw ws 0) 2 6 != 0 || bits (dw ws 0) 35 5 != 0 || bits (dw ws 1) 6 2 != 0 || bits (dw ws 1) 17 47 != 0 || dw ws 2 != 0 || dw ws 3 != 0

/-- The slots of a bind record. -/
def Bind.slots (b : Bind) : List Nat := span b.slot0 b.ngrp
/-- Records of a launch not yet released, with their cores. -/
def State.bindsOf (s : State) (lid : Nat) : List (Nat × Bind) :=
  s.cores.flatMap fun e => (e.2.binds.filter fun b => b.lid == lid && !b.started).map fun b => (e.1, b)
/-- A slot of a record is held by a team or another record (R356). -/
def Core.slotBusy (k : Core) (b : Bind) : Bool :=
  b.slots.any fun g => (tget Group.reset k.groups g).bound || k.binds.any fun x => x.slots.contains g
/-- A pane, bank or the weight buffer of a record is taken (R356). -/
def State.resBusy (s : State) (c : Nat) (b : Bind) (panes : Nat) : Bool :=
  let k := s.coreAt c
  let mine := span b.pane0 panes
  let others := k.binds.filter fun x => !x.started
  mine.any (fun p => (k.pane p).isSome || others.any fun x => (span x.pane0 (s.lchAt x.lid).panes).contains p)
  || (bitsOf 8 b.banks.toNat).any (fun i => (tget none k.accOwn i).isSome || others.any fun x => x.banks.getLsbD i)
  || (b.wbuf && (k.wbufOwn.isSome || others.any fun x => x.wbuf))
/-- A record breaks R353, or does not fit the launch's other records (R356). -/
def State.badBind (s : State) (c : Nat) (l : Launch) (b : Bind) : Bool :=
  let recs := s.bindsOf b.lid
  b.ngrp != l.ngrp || l.nteam ≤ b.team || l.ncoh ≤ b.cohort || b.stage != l.stagemap / 2 ^ (3 * b.team) % 8
  || (l.pfix != 0x7F && b.pane0 != l.pfix) || 64 < b.pane0 + l.panes || 128 < b.slot0 + b.ngrp
  || (bitsOf 8 b.banks.toNat).length != l.accb || b.wbuf != l.wbuf
  || l.released.contains b.cohort || recs.any (fun r => r.2.cohort == b.cohort && (r.2.team == b.team || r.1 == c || r.1 / 6 != c / 6))
  || (b.last && recs.length + 1 + l.released.length * l.nteam != l.ncoh * l.nteam)

/-- A bind record written into a core's slot table (R353). -/
def State.bind (s : State) (c : Nat) (b : Bind) : State :=
  (s.modCore c fun k => { k with binds := k.binds ++ [b] }).modLch b.lid fun l =>
    { l with lastRec := l.lastRec || b.last, st := if b.last && l.st == .ready then .bound else l.st }
/-- The record at a slot removed, where its launch unit has not been released (R355). -/
def State.unbind (s : State) (c slot0 : Nat) : State :=
  match (s.coreAt c).binds.find? fun b => b.slot0 == slot0 && !b.started with
  | none => s
  | some b => (s.modCore c fun k => { k with binds := k.binds.filter fun x => !(x.slot0 == slot0 && !x.started) }).modLch b.lid fun l =>
      if b.last then { l with lastRec := false, st := if l.st == .bound then .ready else l.st } else l

/-- `lx.bind` (R355, R356, R366); no value is stated for rd, which stays as it is, log entry 11. -/
def execLxBind (_rd rs1 rs2 : BitVec 5) (s : State) : Out :=
  .next (
    let a := s.xr rs1
    let c := (s.xr rs2).toNat % 256
    let ws := s.privDws a 4
    let b := bindOf ws s.wall
    let l := s.lchAt b.lid
    let v := (dw ws 0).getLsbD 0
    let own := match s.partOfCore c with
      | some p => s.lxMay p && (!v || l.st == .free || p == l.part)
      | none => false
    let open_ := (l.st == .ready || l.st == .bound || l.st == .running) && s.lxMay l.part
    if s.roleMoves ((s.partOfCore c).getD l.part) then s
    else s.lxChecks [(badPriv a 32, 0x02), (144 ≤ c || !own || s.quarCores.getLsbD c, 0x10), (v && !open_, 0x11), (v && (s.coreAt c).slotBusy b, 0x12),
        (v && s.resBusy c b l.panes, 0x13), (bindReserved ws || (v && s.badBind c l b), 0x14)]
      ((if v then s.bind c b else s.unbind c b.slot0).lxDone 0 0))

end Sys2Proof.Machine
end

