-- ==== Sys2Proof/Machine/EvQueue.lean ====
section
/-!
DEFINITION. Sys2Proof/Machine/EvQueue.lean: events of the queue front end: packets (R345 to R347, R349, R359), doorbells and the writes of queue
contexts (R343, R344, R349, R359), bound fields (R290), and the release of launch units (R353, R357).
-/
namespace Sys2Proof.Machine

/-- A packet of a type that the scheduler of a queue's partition dispatches: the first that is taken and not started, or the one in slot RD, is
started (R346, R347, R355). -/
def State.dispatch (s : State) (q t : Nat) : State :=
  let go := fun (s : State) => match (s.qAt q).waiting with
    | none => s
    | some p => if ptype p.dw = t then (match s.startTaken q p with
        | some r => r.2
        | none => s) else s
  if s.roleMoves (s.qAt q).part then s
  else if (s.qAt q).waiting.isSome then go s
  else
    let x := s.qAt q
    go (s.fetch q fun ws => ptype ws == t && !frontPkt ws x.priv).s

/-- A packet in slot RD that the front end completes by itself is fetched and completed (R346, R347). -/
def State.frontFetch (s : State) (q t : Nat) : State :=
  let x := s.qAt q
  (s.fetch q fun ws => ptype ws == t && frontPkt ws x.priv).s

/-- A LAUNCH packet starts: its launch is dequeued (R289, R345, R347). -/
def execLaunchPacket (q : Nat) (s : State) : Out := .next (s.dispatch q 1)
/-- A GRAPH packet starts: its table is read, and its first nodes are dequeued (R350, R351). -/
def execGraphPacket (q : Nat) (s : State) : Out := .next (s.dispatch q 2)
/-- A RESUME packet starts and completes (R359). -/
def execResumePacket (q : Nat) (s : State) : Out := .next (s.dispatch q 6)
/-- A SIGNAL packet adds ARG at ADDR (R345). -/
def execSignalPacket (q : Nat) (s : State) : Out := .next (s.frontFetch q 3)
/-- A NOP packet completes (R345). -/
def execNopPacket (q : Nat) (s : State) : Out := .next (s.frontFetch q 4)
/-- A LINK packet switches the fetcher to a new segment (R349). -/
def execLinkPacket (q : Nat) (s : State) : Out := .next (s.frontFetch q 5)

/-- Slot RD fetched by the front end itself: what it finds is judged; a packet that the scheduler dispatches is left to it. -/
def State.refetch (s : State) (q : Nat) : State := (s.fetch q fun ws => frontPkt ws (s.qAt q).priv).s

/-- The fetch of slot RD is tried again, 1 µs after one that found it not yet valid or torn (R346). -/
def execPacketFetchRetry (q : Nat) (s : State) : Out :=
  .next (match (s.qAt q).retry with
    | some t => if t ≤ s.now then s.refetch q else s
    | none => s)

/-- The consumer of an E queue moves RD; beyond WR it is ignored (R344, R359). Events that waited for room are written. -/
def State.rdWrite (s : State) (q : Nat) (i : BitVec 32) : State :=
  let x := s.qAt q
  if x.evq && (i - x.rd).toNat ≤ x.fill then (s.modQ q fun x => x.advance i).flush x.part else s

/-- A function of the PCI Express links reaches the page of a queue: virtual function k + 1 those of partition k; the physical function, 0, which serves the
supervisor, every one, log entry 71 (R344). -/
def State.barMine (s : State) (fn q : Nat) : Bool := q < 1024 && (fn == 0 || (fn ≤ 8 && (s.qAt q).part == fn - 1))
/-- What a function reads in BAR0 (R344): CDONE at offset 8 of a page it reaches, elsewhere 0. -/
def State.barRead (s : State) (fn q off : Nat) : Word := if s.barMine fn q && off == 8 then (s.qAt q).cdone else 0

/-- A write of a queue's doorbell through a function, `page` being 1,024 times the function plus the queue (R344): WR is set and DOORBELL raised, and an
overrun, or any write to a D queue, faults the queue, a disabled one too; one that is faulted already is not reported again, the model's choice, log entry 38. A
slot found not yet valid is fetched again (R346). -/
def execDoorbellWrite (page wr : Nat) (s : State) : Out :=
  .next (
    let fn := page / 1024
    let q := page % 1024
    let x := s.qAt q
    let w := BitVec.ofNat 32 wr
    if !s.barMine fn q then s
    else if x.evq then s.rdWrite q w
    else
      let s := (s.modQ q fun x => { x with wr := w }).signal (schedOf x.part) 0
      if x.dev || x.n < (w - x.rd).toNat then (if x.state == 2 then s else s.queueFault q)
      else if x.torn == 0 && x.retry.isSome then s.refetch q else s)

/-- RD of an E queue written by its consumer (R343, R359). -/
def execEventQueueRdWrite (q rd : Nat) (s : State) : Out := .next (if 1024 ≤ q then s else s.rdWrite q (BitVec.ofNat 32 rd))

/-- Dwords 0 and 1 of a queue context written (R343): N set restarts the queue, N clear disables it. Packets that were taken and not started are
dropped; those started complete normally (R359). -/
def State.queueSet (s : State) (q dword0 : Nat) (w : Word) : State :=
  let n := bits w 0 5
  let on := w.getLsbD 8
  let s := s.modQ q fun x =>
    let y := { x with
      base := BitVec.ofNat 52 (dword0 / 4096), log2n := n, part := bits w 5 3, en := on, priv := w.getLsbD 9, wgt := bits w 10 4
      dev := w.getLsbD 20, evq := w.getLsbD 21, vec := bits w 22 2, pkts := x.pkts.filter fun p => p.started }
    if on then { y with
        state := if 6 ≤ n && n ≤ 16 then 1 else 0, rd := 0, wr := 0, cdone := 0, pass := 1, torn := 0, link := false, linkWait := false
        wseg := none, pushed := x.taken, issuers := [] }
    else { y with state := 0 }
  s.flush (bits w 5 3)
/-- The fields of dword 1 beside N written, N and the fields of its byte not: an enabled queue whose LOG2N leaves its range is disabled (R343). -/
def State.queueFields (s : State) (q : Nat) (w : Word) : State :=
  let n := bits w 0 5
  (s.modQ q fun x => { x with
    log2n := n, part := bits w 5 3, dev := w.getLsbD 20, evq := w.getLsbD 21, vec := bits w 22 2
    state := if x.state != 0 && !(6 ≤ n && n ≤ 16) then 0 else x.state }).flush (bits w 5 3)
/-- Firmware writes dwords 0 and 1 of a queue context (R343). -/
def execQueueEnable (q dword0 dword1 : Nat) (s : State) : Out :=
  .next (if 1024 ≤ q then s else s.queueSet q dword0 (BitVec.ofNat 64 dword1))

/-- NEXT and NLOG2N of a queue context written, or L cleared (R349). -/
def State.queueNext (s : State) (q : Nat) (w : Word) (clearL : Bool) : State :=
  let nx := BitVec.ofNat 52 (w.toNat / 4096)
  let l := bits w 0 5
  let x := s.qAt q
  if x.link && nx != 0 && 6 ≤ l && l ≤ 16 && x.wseg.isNone then s.linkIn q nx l
  else
    let s := s.modQ q fun x => { x with next := nx, nlog2n := l }
    if clearL && x.link && nx == 0 then s.modQ q fun x => { x with link := false, linkWait := true } else s
/-- Firmware writes NEXT and NLOG2N, or clears L (R349). -/
def execQueueNextWrite (q next : Nat) (clearL : Bool) (s : State) : Out :=
  .next (if 1024 ≤ q then s else s.queueNext q (BitVec.ofNat 64 next) clearL)

/-- A launch that waits for its bound semaphore is taken on (R289, R290). -/
def execBoundFieldResolve (lid : Nat) (s : State) : Out := .next ((s.resolve lid 8).reap 512)

/-- The records of a launch unit that have been written and not released: all of a `.coresident` launch, or of one cohort (R357). -/
def State.unitBinds (s : State) (lid unit : Nat) : List (Nat × Bind) :=
  let l := s.lchAt lid
  (s.bindsOf lid).filter fun r => l.cores || r.2.cohort == unit
/-- Every record of a unit has been written (R357). -/
def State.unitFull (s : State) (lid unit : Nat) : Bool :=
  let l := s.lchAt lid
  let n := (s.unitBinds lid unit).length
  if l.cores then l.lastRec && n == l.ncoh * l.nteam && unit == 0 else n == l.nteam && n != 0

/-- A group as bind sets it in a slot (R73, R353): both register planes zero, everything else at its reset value; the select bit stays (R198),
and so does a hold of transfer items (R201). -/
def Group.bindTo (g : Group) (l : Launch) (c : Nat) (b : Bind) (j : Nat) : Group :=
  { Group.reset with
    bound := true, released := true, lid := b.lid, slot0 := b.slot0, ngrp := b.ngrp, gid := j, team := b.team, cohort := b.cohort, stage := b.stage
    pc := l.entry, selB := g.selB, held := if g.held == some .items then some .items else none, vbusSel := c }

/-- A team bound on its core (R200, R286, R353). -/
def Core.bindTeam (k : Core) (l : Launch) (c : Nat) (b : Bind) : Core :=
  let own := fun (i : Nat) => if i < l.pgrp * l.ngrp then some (i / l.pgrp) else none
  { k with
    panes := (List.range l.panes).foldl (fun t i => tput t (b.pane0 + i) (some ⟨b.slot0, own i⟩)) k.panes
    accOwn := (bitsOf 8 b.banks.toNat).foldl (fun t i => tput t i (some b.slot0)) k.accOwn
    wbufOwn := if b.wbuf then some b.slot0 else k.wbufOwn
    binds := k.binds.map fun x => if x.slot0 == b.slot0 then { x with started := true } else x
    groups := (List.range b.ngrp).foldl (fun t j => tput t (b.slot0 + j) ((tget Group.reset k.groups (b.slot0 + j)).bindTo l c b j)) k.groups }

/-- A physical address lies in a virtual region, page by page of 64 KiB. -/
def State.inVa (s : State) (part : Nat) (r : Region) (pa : Nat) : Bool :=
  (span (r.lo / 65536) (r.hi / 65536 + 1 - r.lo / 65536)).any fun pg =>
    let lo := max r.lo (65536 * pg)
    let hi := min r.hi (65536 * pg + 65535)
    match (s.xlate none part lo false).1 with
    | .ok a _ => a / 128 ≤ pa / 128 && pa / 128 ≤ (a + (hi - lo)) / 128
    | .bad _ _ => false
/-- The regions that the edges into a graph node carry, and whether it has any edge (R297, R350). -/
def State.edgeRegions (s : State) (l : Launch) : Option (List Region) :=
  match l.node with
  | none => none
  | some (gi, n) => match s.graphAt gi with
    | none => none
    | some g =>
      let ins := g.nodes.flatMap fun x => ((g.edges.drop x.first).take x.nout).filterMap fun e => if e.1 == n then some (x.regions, e.2) else none
      if ins.isEmpty then none else some (ins.flatMap fun x => x.1.filter fun r => x.2.testBit r.idx)
/-- A core's acquire before a launch's groups issue there (R289 step 7); for a graph node started by its edges, of the regions they carry
(R297). -/
def State.startAcquire (s : State) (lid c : Nat) : State :=
  let l := s.lchAt lid
  match s.edgeRegions l with
  | none => s.acquire c .s
  | some rs => s.markStale c fun pa => rs.any fun r => s.inVa l.part r pa

/-- A launch unit is released once its records are written and walltime has reached NBF (R353, R357); not of a context that is halted (R318). -/
def execLaunchUnitRelease (lid unit : Nat) (s : State) : Out :=
  .next (
    let l := s.lchAt lid
    let live := l.st == .ready || l.st == .bound || l.st == .running
    let rs := s.unitBinds lid unit
    -- a core left without a team is bound again once it has lowered %wpr (R162)
    let wpr := rs.any fun r => (s.coreAt r.1).bound.isEmpty && (s.coreAt r.1).wprChg.isSome
    if !live || l.frozen || !s.unitFull lid unit || s.wall < l.nbf || s.roleMoves l.part || wpr then s
    else
      let written := rs.foldl (fun m r => max m r.2.since) 0
      let s := rs.foldl (fun s r => (s.modCore r.1 fun k => k.bindTeam l r.1 r.2).startAcquire lid r.1) s
      s.modLch lid fun l => { l with
        st := .running, late := l.late || (l.timed && l.nbf < written + 2000)
        released := l.released ++ if l.cores then List.range l.ncoh else [unit] })

end Sys2Proof.Machine
end

