-- ==== Sys2Proof/Machine/EvStream.lean ====
section
/-!
DEFINITION. Sys2Proof/Machine/EvStream.lean: events of a group's streams: lane blocks start (R63, R121), variable-latency results return (R41),
sleeps end (R70), homes revoke and acknowledge (R180, R181, R184), the way partition changes (R158 to R162), and lantern mode begins and ends
(R167 to R171).
-/
namespace Sys2Proof.Machine

/-- A block starts: every thread that is not killed runs from its entry; with none, the block ends at once (R63, R121). -/
def Group.startBlock (g : Group) : Group :=
  match g.lq with
  | [] => g
  | b :: rest =>
    let ts := (List.range 32).filter fun t => (g.thrAt t).st != .killed
    if ts.isEmpty then { g with lq := rest }
    else { ts.foldl (fun g t => g.modThr t fun _ => ⟨b.entry, [], .running⟩) g with lrun := true }

/-- The next queued lane block starts when the one before it has ended (R63). -/
def execLaneBlockStart (c g : Nat) (s : State) : Out :=
  .next (
    let q := s.grpAt c g
    if !q.bound || q.lrun || q.handler || q.halted || q.lantern.isSome then s else s.modGrp c g Group.startBlock)

/-- A stream whose results have all returned is parked no longer (R41). -/
def Group.unpark (g : Group) : Group :=
  { g with sPark := if g.awaits false then g.sPark else none, lPark := if g.awaits true then g.lPark else none }
/-- The trap of a load whose bad data has returned is delivered where the stream now stands; it comes before a precise trap that waits, whose instruction
issues again later; a second one of its kind stops the context, as a trap in the handler would: the model's choice, log entry 16 (R312, R315). A group that is
about to halt halts with it. -/
def State.lateTrap (s : State) (c g : Nat) (o : Option TrapRec) : State :=
  let q := s.grpAt c g
  match o, q.pend with
  | none, _ => s
  | some t, none => s.deliver c g { t with resume := q.pc, spc := q.pc }
  | some t, some p =>
    if p.silent then s.haltIn c g { t with resume := q.pc, spc := q.pc, silent := true }
    else if p.late then s.stopCtx c g { t with resume := q.pc, spc := q.pc }
    else s.deliver c g { t with resume := q.pc, spc := q.pc }
/-- A variable-latency result returns and is written (R41), with the trap of a load's bad data (R315); one outstanding at the entry of lantern mode is written
when the restore ends, and the last of them ends the mode (R171). That of an `mstat` returns once the matrix instructions before it are done (R273). -/
def execVariableResultReturn (c g k : Nat) (s : State) : Out :=
  .next (
    let s := match (s.grpAt c g).outs[k]? with
      | some o => if o.op.isSome then s.statDue c else s
      | none => s
    let q := s.grpAt c g
    match q.outs[k]? with
    | none => s
    | some o =>
      if o.op.isSome then s
      else if q.lantern.isSome && o.entry then s.modGrp c g fun q =>
        let q := { q with outs := q.outs.set k { o with come := true } }
        if q.outs.all fun o => !o.entry || o.come then q.lanLeave s.now else q
      else (s.modGrp c g fun q => ({ q with outs := q.outs.eraseIdx k }.modWork fun p => o.ds.foldl RegPlane.putDest p).unpark).lateTrap c g o.pend)

/-- A sleep ends (R70). -/
def execSleepExpiry (c g : Nat) (s : State) : Out :=
  .next (
    let q := s.grpAt c g
    if q.sWait == .sleep && q.sleepTo ≤ s.now then s.modGrp c g fun q => { q with sWait := .none } else s)

/-- A `semwait` tests again (R193). -/
def execSemwaitRecheck (c g : Nat) (s : State) : Out :=
  .next (if (s.grpAt c g).sWait == .semwait then s.modGrp c g fun q => { q with sWait := .none } else s)

/-- A home revokes the owner of a line, which writes its dirty words home (R180). -/
def execHomeRevoke (c line : Nat) (s : State) : Out := .next (if s.owner line == some c then s.revoke none line else s)

/-- A home acknowledges the oldest store that a stream has queued: it is performed there (R181, R183, R184). -/
def execHomeAcknowledgement (c g : Nat) (lane : Bool) (s : State) : Out :=
  .next (
    let q := s.grpAt c g
    match (if lane then q.lsbuf else q.sbuf) with
    | [] => s
    | e :: es => ((s.awaitEngine anyItem e.pa e.bytes.length).modGrp c g fun q => if lane then { q with lsbuf := es } else { q with sbuf := es }).wrStrong c e.pa e.key e.bytes)

/-- A write of %wpr by a group begins a change (R158); nothing changes where the count already stands so. -/
def execWprWrite (c g v : Nat) (s : State) : Out :=
  .next (
    let q := s.grpAt c g
    if !q.live || !(s.lchAt q.lid).rightW || !s.wprFree c || !(s.wprLine c).isEmpty || (s.coreAt c).wpr == min v 8 then s
    else (s.wprBegin c g v).modGrp c g fun q => { q with sWait := .wpr })

/-- A write of %trapvec by a group; a misaligned value raises ALIGN (R73). -/
def execTrapvecWrite (c g v : Nat) (s : State) : Out :=
  .next (
    if !(s.grpAt c g).live then s
    else if v % 4 != 0 then s.asGrp c g fun s => s.sRaise false .align
    else s.modGrp c g fun q => { q with trapvec := BitVec.ofNat 64 v })

/-- The superblocks of the ways from `lo` on written home and invalidated in one plane of a core (R159). -/
def State.flushWays (s : State) (c lo : Nat) (b : Bool) : State :=
  let s := ((s.coreAt c).plane b).cache.foldl (fun s e => (e.2.filter fun x => lo ≤ x.way).foldl (fun s x => s.evict c e.1 x) s) s
  s.modCore c fun k => k.modPlane b fun p => { p with cache := p.cache.map fun e => (e.1, e.2.filter fun x => x.way < lo) }
/-- Column scratchpad offsets of a plane from one to another emptied: zero, no poison, and valid ECC (R159, R160). -/
def CorePlane.clearCol (p : CorePlane) (lo hi : Nat) : CorePlane :=
  { p with
    col := tcut p.col lo (hi - lo), colPoi := tcut p.colPoi (lo / 32) ((hi - lo) / 32)
    ecc := p.ecc.filter fun e => !(e.1 % 4 == 1 && lo / 32 ≤ e.1 / 4 && e.1 / 4 < hi / 32) }

/-- An unfinished item reads or writes column scratchpad of a core from an offset on (R160). -/
def State.colItems (s : State) (c lo : Nat) : Bool :=
  s.allItems.any fun e =>
    let spad := fun (r : Nat × Nat) => match s.spadLoc e.1 (s.grpAt e.1 e.2.slot) ((r.1 + r.2 - 1) % 2 ^ 32) with
      | some (.col t o) => t == c && lo ≤ o
      | _ => false
    s.itemOn e.1 e.2 (fun kind c' _ off n => kind == 4 && c' == c && 0x800000 + lo < off + n)
    || (e.2.ssp == 1 && (List.range e.2.h).any fun r => spad (e.2.d0.toNat + e.2.ss * r, e.2.srow))
    || (e.2.dsp == 1 && (List.range e.2.h).any fun r => spad (e.2.d1.toNat + e.2.ds * r, e.2.drow))

/-- The count of a finished change of %wpr, and the writer's stream goes on (R158). -/
def State.wprSet (s : State) (c : Nat) (w : WprChg) : State :=
  let s := s.modCore c fun k => { k with wpr := w.goal, wprChg := none }
  if (s.grpAt c w.slot).sWait == .wpr then s.modGrp c w.slot fun q => { q with wprGo := true } else s

/-- A change of %wpr ends (R159, R160). -/
def execWprChangeComplete (c : Nat) (s : State) : Out :=
  .next (match (s.coreAt c).wprChg with
    | none => s
    | some w =>
      let k := (s.coreAt c).wpr
      if s.now < w.until_ then s
      else
        let lo := 2 ^ 20 * min k w.goal
        let hi := 2 ^ 20 * max k w.goal
        let clear := fun (s : State) => s.modCore c fun q => { q with a := q.a.clearCol lo hi, b := q.b.clearCol lo hi }
        if k < w.goal then (clear ((s.flushWays c (16 - w.goal) false).flushWays c (16 - w.goal) true)).wprSet c w
        else if s.colItems c lo then s
        else (clear s).wprSet c w)

/-- A stream of a group has been parked for the threshold on a load that missed (R167). -/
def Group.lanDue (g : Group) (lane : Bool) (now : Nat) : Bool :=
  (match (if lane then g.lPark else g.sPark) with
    | some p => p + g.lanT.toNat ≤ now
    | none => false) && g.outs.any fun o => o.lane == lane && o.missed
/-- A stream of a group stands still as R167 asks of the other one. -/
def Group.lanStill (g : Group) (lane : Bool) : Bool :=
  if lane then g.idle || g.lPark.isSome || g.lWait == .lpush
  else g.sPark.isSome || g.sWait == .lpop || g.sWait == .ljoin || g.sWait == .wait || (match g.sWait with
    | .bar _ _ => true
    | _ => false)
/-- A result register in every thread. -/
def RDest.everywhere : RDest → List RDest
  | .s n x => [.s n x]
  | .v _ n x => (List.range 32).map fun t => .v t n x
  | .p _ n x => (List.range 32).map fun t => .p t n x
/-- The registers that outstanding results will write become dark in every thread (R168). -/
def Group.darkOuts (g : Group) : Group := g.outs.foldl (fun g o => (o.ds.flatMap RDest.everywhere).foldl (fun g d => g.markDest true d) g) g

/-- A group enters lantern mode: the copy of its registers and frontier begins (R167, R168, R172). -/
def execLanternEntry (c g : Nat) (s : State) : Out :=
  .next (
    let q := s.grpAt c g
    let due := (q.lanDue false s.now && q.lanStill true) || (q.lanDue true s.now && q.lanStill false)
    if !q.live || q.lantern.isSome || q.preempt.isSome || q.lanT == 0 || q.held.isSome || q.handler || !due then s
    else s.modGrp c g fun q => { q.modStage (fun _ => q.work) with
      held := some .lantern, lan1 := q.lan1 + 1, outs := q.outs.map fun o => { o with entry := true }
      lantern := some ⟨.enter, s.now + 16, 0, [], [], [], q.thr, q.pc, q.lq, q.lrun, q.sPark, q.lPark, q.sWait, q.lWait⟩ })

/-- The copy is complete: parked streams issue onward, with what is outstanding dark (R168). -/
def execLanternCheckpointDone (c g : Nat) (s : State) : Out :=
  .next (match (s.grpAt c g).lantern with
    | none => s
    | some l =>
      if l.phase == .enter && l.until_ ≤ s.now then
        s.modGrp c g fun q => ({ q.modLan fun l => { l with phase := .run } with sPark := none, lPark := none }).darkOuts
      else s)

/-- The 2,048th instruction ends lantern mode (R171). -/
def execLanternInstrLimit (c g : Nat) (s : State) : Out :=
  .next (match (s.grpAt c g).lantern with
    | none => s
    | some l => if l.phase == .run && 2048 ≤ l.count then s.modGrp c g fun q => q.lanLeave s.now else s)

/-- A group's registers, frontier and waits restored, its dark marks gone and its staging plane free; results that have come are written (R171). -/
def Group.lanRestore (g : Group) (l : Lantern) : Group :=
  let mine := g.outs.filter fun o => o.entry
  let left := (mine.filter fun o => !o.come).map fun o => { o with entry := false }
  let come := mine.filter fun o => o.come
  let g := { g.modWork (fun _ => g.stage_) with
    held := none, lantern := none, thr := l.thr, pc := l.pc, lq := l.lq, lrun := l.lrun, sPark := l.sPark, lPark := l.lPark
    sWait := l.sWait, lWait := l.lWait, outs := left }
  (g.modWork fun p => come.foldl (fun p o => o.ds.foldl RegPlane.putDest p) p).unpark

/-- The restore of lantern mode ends (R171). -/
def execLanternRestoreDone (c g : Nat) (s : State) : Out :=
  .next (match (s.grpAt c g).lantern with
    | none => s
    | some l =>
      let late := (s.grpAt c g).outs.findSome? fun o => if o.entry && o.come then o.pend else none
      if l.phase == .leave && l.until_ ≤ s.now then (s.modGrp c g fun q => q.lanRestore l).lateTrap c g late else s)

end Sys2Proof.Machine
end

