-- ==== Sys2Proof/Machine/EvTrap.lean ====
section
/-!
DEFINITION. Sys2Proof/Machine/EvTrap.lean: events of traps and debugging (R312, R314, R327, R328), kills and watchdogs (R318 to R320),
pre-emption, saves and restores (R216, R274, R321 to R325), and page-fault swaps (R326).
-/
namespace Sys2Proof.Machine

/-- A pending trap of a group halts it for a debugger, in any of the ways of R312 and R318. -/
def State.haltPend (s : State) (c g : Nat) (t : TrapRec) : Bool :=
  let q := s.grpAt c g
  let p := (s.lchAt q.lid).part
  s.haltsFor p t.cause || ((s.partAt p).dbgHold && (q.handler || q.trapvec == 0))
/-- A group whose trap waited for its results and its plane enters its handler (R314). -/
def execTrapEntry (c g : Nat) (s : State) : Out :=
  .next (match (s.grpAt c g).pend with
    | none => s
    | some t => if !(s.grpAt c g).bound || t.swap || s.haltPend c g t then s else s.deliver c g t)
/-- A group whose halt waited for its results and its plane performs trap entry and freezes (R328). -/
def execDebugHalt (c g : Nat) (s : State) : Out :=
  .next (match (s.grpAt c g).pend with
    | none => s
    | some t => if !(s.grpAt c g).bound || t.swap || !s.haltPend c g t then s else s.deliver c g t)
/-- Every halted group of a partition is continued (R327, R328). -/
def execDbgContinue (p : Nat) (s : State) : Out := .next (s.continue_ p)

/-- The supervisor kills a context (R319). -/
def execSupervisorKill (lid : Nat) (s : State) : Out := .next (s.endLaunch lid (.plain 1 0 0x23))
/-- A partition reset ends every context of the partition (R319). -/
def execPartitionReset (p : Nat) (s : State) : Out :=
  .next ((s.launches.filter fun e => e.2.part == p).foldl (fun s e => if (s.lchAt e.1).part == p then s.endLaunch e.1 (.plain 1 0 0x23) else s) s)
/-- A launch has run for the watchdog's limit (R320). -/
def execWatchdogExpiry (lid : Nat) (s : State) : Out :=
  .next (
    let l := s.lchAt lid
    let n := (s.partAt l.part).wdog.toNat
    match l.first with
    | none => s
    | some f => if l.st == .running && n != 0 && f + 1000 * n ≤ s.wall then s.endLaunch lid (.plain 1 0 0x24) else s)

/-- The bound groups of the team whose first slot is `slot0`. -/
def State.teamSlots (s : State) (c slot0 : Nat) : List Nat := ((s.coreAt c).bound.filter fun e => e.2.slot0 == slot0).map (·.1)
/-- What a stream waits in, in lantern mode what it waited in before (R323). -/
def Group.waits (g : Group) (lane : Bool) : Wait :=
  match g.lantern with
  | some l => if lane then l.lWait else l.sWait
  | none => if lane then g.lWait else g.sWait
/-- A group parked where R323 saves it at once. -/
def Group.parked (g : Group) : Bool :=
  g.waits true == .lpush || (match g.waits false with
    | .sleep => true
    | .wait => true
    | .semwait => true
    | .bar _ _ => true
    | .lpop => true
    | .ljoin => true
    | _ => false)
/-- A pre-emption request reaches a group: lantern mode ends (R323, R325). -/
def Group.request (g : Group) (now : Nat) : Group :=
  if g.preempt.isSome then g
  else { g with preempt := some ⟨now, g.parked && !g.handler, none⟩ }.lanLeave now
/-- The scheduler requests pre-emption of the team of a group (R321). -/
def execPreemptionRequest (c g : Nat) (s : State) : Out :=
  .next (if !(s.grpAt c g).bound then s
    else (s.teamSlots c (s.grpAt c g).slot0).foldl (fun s j => s.modGrp c j fun q => q.request s.now) s)
/-- A group has reached no `phint` within 65,536 cycles: it is saved whole (R323). -/
def execPreemptDeadline (c g : Nat) (s : State) : Out :=
  .next (match (s.grpAt c g).preempt with
    | none => s
    | some p => if !p.ready && p.since + 65536 ≤ s.now then s.modGrp c g fun q => { q with preempt := some { p with ready := true } } else s)

/-- What a save keeps of a group besides its slot state: registers, tiles, and team-relative ranges of scratchpad (R322). -/
structure Live where
  keep : Keep
  tiles : Word
  ranges : List (Nat × Nat)
  deriving DecidableEq, Repr

/-- Bits 0 to n of a mask. -/
def lowMask (n : Nat) : Word := BitVec.ofNat 64 (2 ^ n - 1)
/-- The registers of a whole save: those within `.regs` and all predicates; of a group in a handler, every one (R323, R325). -/
def Keep.whole (l : Launch) (handler : Bool) : Keep :=
  if handler then ⟨BitVec.allOnes 64, BitVec.allOnes 64, 0xFF⟩ else ⟨lowMask l.nv, lowMask l.ns, 0xFF⟩
/-- The liveness record under which a group is ready; none asks for a whole save (R322). -/
def State.liveRec (s : State) (c g : Nat) : Option Live :=
  let q := s.grpAt c g
  let l := s.lchAt q.lid
  match q.preempt.bind fun p => p.record with
  | none => none
  | some n => match s.feRead l.part (l.live.toNat + 64 * n) 64 with
    | .error _ => none
    | .ok (bs, _) =>
      let ws := toDws 8 bs
      let rs := ((span 4 4).map fun i => (bits (dw ws i) 0 32, bits (dw ws i) 32 32)).filter fun r => r.2 != 0
      let banks := (s.coreAt c).teamBanks q.slot0
      if dw ws 0 &&& ~~~lowMask l.nv != 0 || dw ws 1 &&& ~~~lowMask l.ns != 0 || bits (dw ws 2) 8 56 != 0
        || (bitsOf 64 (dw ws 3).toNat).any (fun t => !banks.contains (t / 8))
        || rs.any (fun r => r.1 % 32 != 0 || r.2 % 32 != 0 || 8192 * l.panes < r.1 + r.2) then none
      else some ⟨⟨dw ws 0, dw ws 1, (dw ws 2).truncate 8⟩, dw ws 3, rs⟩

/-- The liveness record of a group lies in a line that a transfer engine owns: the save waits (R228, R322). -/
def State.liveBusy (s : State) (c g : Nat) : Bool :=
  let q := s.grpAt c g
  let l := s.lchAt q.lid
  match q.preempt.bind fun p => p.record with
  | none => false
  | some n => s.feBusy l.part (l.live.toNat + 64 * n) 64

/-- A matrix instruction of core `c` belongs to a team. -/
def State.mOfTeam (s : State) (c slot0 : Nat) (m : MItem) : Bool := (s.coreAt c).ofTeam slot0 m
/-- The engine of a core computes a step of an `mma` of a team: that step is to be finished, with all replays, before the team leaves (R274). -/
def Core.stepOpen (k : Core) (slot0 : Nat) : Bool := match k.eng.run with
  | some r => r.started && (match k.mItem r.id with
    | some m => k.ofTeam slot0 m
    | none => false)
  | none => false
/-- A team is to leave its core as soon as the step under way is done (R274). -/
def Core.stopAfter (k : Core) (slot0 : Nat) : Core := { k with eng := { k.eng with stop := (k.eng.stop ++ [slot0]).eraseDups } }
/-- A team stays on its core. -/
def Core.stayOn (k : Core) (slot0 : Nat) : Core := { k with eng := { k.eng with stop := k.eng.stop.filter (· != slot0) } }
/-- The `mma` of a team in the engine of a core, no step of which is being computed, is interrupted: the step that is to come is recorded (R274). -/
def State.stopMma (s : State) (c slot0 : Nat) : State :=
  match (s.coreAt c).eng.run with
  | none => s
  | some r => match (s.coreAt c).mItem r.id with
    | none => s
    | some m => if s.mOfTeam c slot0 m then (s.modCore c fun k => k.settle s.now).interrupt c m.id r s.now else s
/-- The instances that a save or restore of a team needs: the registers of its slots, its banks, its panes, and its weight buffer (R324). -/
def teamInsts (slots banks panes : List Nat) (wbuf : Bool) : List Inst :=
  slots.map .grp ++ banks.map .acc ++ panes.map .pane ++ if wbuf then [.wbuf] else []
/-- No other agent holds a staging plane that a save needs; the trap hold of a saved group is saved with it (R201, R325). -/
def State.saveHold (s : State) (c : Nat) (i : Inst) : Bool :=
  match (s.coreAt c).holder i with
  | none => true
  | some .items => true
  | some .trap => true
  | _ => false
/-- Ranges of absolute scratchpad offsets of a whole pane list. -/
def paneRanges (ps : List Nat) : List (Nat × Nat) := ps.map fun p => (8192 * p, 8192)
/-- An offset lies in some range. -/
def inRanges (rs : List (Nat × Nat)) (o : Nat) : Bool := rs.any fun r => r.1 ≤ o && o < r.1 + r.2

/-- An `mma` that was interrupted: it resumes at a recorded step (R274). -/
def MItem.cutShort (m : MItem) : Bool := m.op == .mma && m.resume != 0
/-- A team as a save captures it: whole, or the union of what its groups name live (R323, R324, R326). -/
def State.capture (s : State) (c slot0 : Nat) (whole : Bool) (page ctx : Option Nat) : Saved :=
  let k := s.coreAt c
  let slots := s.teamSlots c slot0
  let l := s.lchAt (s.grpAt c ((slots.head?).getD 0)).lid
  let banks := k.teamBanks slot0
  let panes := k.teamPanes slot0
  let lives := slots.map fun j => (j, if whole || (s.grpAt c j).handler then none else s.liveRec c j)
  let all := lives.any fun e => e.2.isNone
  let live := if all then banks.flatMap fun b => span (8 * b) 8
    else (List.range 64).filter fun t => lives.any fun e => match e.2 with
      | some x => x.tiles.getLsbD t
      | none => false
  let base := 8192 * (panes.head?).getD 0
  let ranges := if all then paneRanges panes else lives.flatMap fun e => match e.2 with
    | some x => x.ranges.map fun r => (base + r.1, r.2)
    | none => []
  let accs := banks.map fun b => ((k.plane (k.accSel.getLsbD b)), b)
  let mine := k.mq.filter fun m => s.mOfTeam c slot0 m && !m.settled
  let later := mine.filter fun m => !m.cutShort
  let q := (k.binds.find? fun b => b.slot0 == slot0).getD ⟨0, 0, 0, 0, 0, 0, false, 0, 0, false, 0, false⟩
  { core := c, slot0 := slot0
    groups := slots.map fun j => (j, s.grpAt c j)
    keeps := lives.map fun e => (e.1, match e.2 with
      | some x => x.keep
      | none => Keep.whole l (s.grpAt c e.1).handler)
    ranges := ranges
    acc := accs.flatMap fun p => p.1.acc.filter fun e => e.1 / 8192 == p.2 && live.contains (e.1 / 1024)
    accPoi := accs.flatMap fun p => p.1.accPoi.filter fun e => e.1 / 2048 == p.2 && live.contains (e.1 / 256)
    live := live
    tiles := live.map fun t => (t, k.tile t)
    wbuf := if k.wbufOwn == some slot0 then (k.plane k.wbufSel).wbuf else []
    wbufPoi := if k.wbufOwn == some slot0 then (k.plane k.wbufSel).wbufPoi else []
    bind := q
    paneTab := panes.filterMap fun p => (k.pane p).map fun x => (p, x)
    banks := banks
    hasWbuf := k.wbufOwn == some slot0
    mqs := mine.map fun m => { m with run := false, page := none }
    scores := s.cores.flatMap fun (e : Nat × Core) => (e.2.score.filter fun x => x.core == c && later.any fun m => m.id == x.op).map fun x => (e.1, x)
    page := page, answer := none, ctx := ctx, col := [], colPoi := [] }

/-- The instances that the save or restore of a team needs: its register planes, the banks and panes of what is named live, and its weight buffer (R201,
R216). -/
def Saved.insts (v : Saved) : List (Nat × Inst) :=
  (teamInsts (v.groups.map (·.1)) (v.banks.filter fun b => v.live.any fun t => t / 8 == b)
    ((v.paneTab.map (·.1)).filter fun p => v.ranges.any fun r => r.1 < 8192 * p + 8192 && 8192 * p < r.1 + r.2) v.hasWbuf).map fun i => (v.core, i)
/-- The team may leave its core, the engine apart: its results have been written, lantern mode has ended, its tile moves are done, and no item reaches the
planes that are needed (R274, R324). -/
def State.canSave (s : State) (c slot0 : Nat) (whole : Bool) : Bool :=
  let k := s.coreAt c
  let slots := s.teamSlots c slot0
  let is := (s.capture c slot0 whole none none).insts
  slots.all (fun j => (s.grpAt c j).outs.isEmpty && (s.grpAt c j).lantern.isNone && (whole || !s.liveBusy c j)) && is.all (fun i => s.saveHold c i.2)
  && (s.itemsOn is).isEmpty
  && !k.mq.any (fun m => s.mOfTeam c slot0 m && m.run && m.page.isNone)
/-- Everything that the engine of a team's core does before now has happened, where the team has matrix work. -/
def State.engNow (s : State) (c slot0 : Nat) : Bool := !(s.coreAt c).mq.any (s.mOfTeam c slot0) || (s.coreAt c).upTo s.now

/-- The scratchpad of a team put away with its core, where its items still reach it: saved ranges as they stand, the other bytes unspecified (R237,
R324). -/
def Saved.keepPads (v : Saved) (k : Core) (fresh : Nat) : Core :=
  v.paneTab.foldl (fun k e =>
    let lo := 8192 * e.1
    let p := k.plane (k.paneB e.1)
    let pad := (p.pad.filter fun x => lo ≤ x.1 && x.1 < lo + 8192 && inRanges v.ranges x.1).foldl (fun t x => tset 0 t (v.at_ + x.1) x.2) k.keptPad
    let poi := (p.padPoi.filter fun x => lo ≤ 32 * x.1 && 32 * x.1 < lo + 8192 && inRanges v.ranges (32 * x.1)).foldl
      (fun t x => tset false t (v.at_ / 32 + x.1) x.2) k.keptPoi
    let other := (span lo 8192).filter fun o => !inRanges v.ranges o
    { k with keptPad := other.foldl (fun t o => tset 0 t (v.at_ + o) (Config.freeByte fresh (0x100000 + o))) pad, keptPoi := poi }) (k.dropKept v)
/-- A captured team leaves its core: its slots, panes, banks and weight buffer are free, its scratchpad is put away, its matrix instructions leave the queue, an
interrupted `mma` being still to complete, and the scoreboard entries of those to be issued again are removed (R262, R273, R274, R326). -/
def State.depart (s : State) (v : Saved) : State :=
  let c := v.core
  let cores := s.cores.map fun e => (e.1, { e.2 with score := e.2.score.filter fun x => !v.scores.contains (e.1, x) })
  let s := { s with saved := s.saved ++ [v], cores := cores }
  let s := s.takeAll c v.mqs s.now
  let s := s.modCore c fun k => { v.keepPads k s.fresh with away := k.away ++ ((v.mqs.filter MItem.cutShort).map (·.id)) }
  let s := v.groups.foldl (fun s e => s.modGrp c e.1 Group.vacate) s
  (s.modCore c fun k => { k.freeTeam v.slot0 with idleSince := s.now }).statDue c

/-- The planes of a team exchanged by the save engine, which then lets its hold go (R201, R216). -/
def State.swapPlanes (s : State) (is : List (Nat × Inst)) : State :=
  is.foldl (fun s i => (s.exchange i).modCore i.1 fun k => k.setHolder i.2 none) s

/-- Some register of a plane would be poisoned once a saved group's are filled in: one kept that is, or one not kept that is in the plane as it
stands (R216). -/
def fillBad (p st : RegPlane) (k : Keep) : Bool :=
  (List.range 64).any (fun n => if k.s.getLsbD n then p.sBad n else st.sBad n)
  || (List.range 64).any (fun n => (List.range 32).any fun t => if k.v.getLsbD n then p.vBad t n else st.vBad t n)
  || (List.range 32).any (fun t => p.pBad t || (k.p != 0xFF && st.pBad t))
/-- The staging plane of an instance holds poison once the teams that come in have been filled into it (R208, R216). -/
def State.inBad (s : State) (vs : List Saved) (i : Nat × Inst) : Bool :=
  let old := (s.coreAt i.1).badOffs i.2 true
  match i.2 with
  | .col => (s.stagedBad [i]).isSome && (vs.isEmpty || s.stagedWays [i]) || vs.any fun v => v.colPoi.any (·.2)
  | .grp g => match vs.findSome? fun v => (v.groups.find? fun e => e.1 == g).map fun e => fillBad e.2.work (s.grpAt i.1 g).stage_ (tget ⟨0, 0, 0⟩ v.keeps g) with
    | some x => x
    | none => !old.isEmpty
  | .acc b => match vs.find? fun v => v.banks.contains b with
    | some v => v.accPoi.any (fun e => e.2 && e.1 / 2048 == b) || old.any fun o => !v.live.contains (o / 8192)
    | none => !old.isEmpty
  | .pane p => match vs.find? fun v => v.paneTab.any fun e => e.1 == p with
    | some v => tany (s.coreAt i.1).keptPoi (v.at_ / 32 + 256 * p) 256 || old.any fun o => !inRanges v.ranges o
    | none => !old.isEmpty
  | .wbuf => match vs.find? fun v => v.hasWbuf with
    | some v => v.wbufPoi.any (·.2)
    | none => !old.isEmpty
/-- The exchange of a save raises STAGED: poison stands in a staging plane it needs, that of a group in a handler apart, which is saved itself (R216, R325). -/
def State.outBad (s : State) (v : Saved) : Bool :=
  v.insts.any fun i => match i.2 with
    | .grp g => !(s.grpAt i.1 g).handler && s.inBad [] i
    | _ => s.inBad [] i

/-- A team leaves its core, no step of its `mma` being computed: its store queues drained, captured, and gone; `fin` completes what is captured (R216, R274,
R324). -/
def State.leave (s : State) (c slot0 : Nat) (whole : Bool) (page ctx : Option Nat) (fin : Saved → Saved) : Saved × State :=
  let s := ((s.teamSlots c slot0).foldl (fun s j => s.drainBuf c j) s).stopMma c slot0
  let v := fin (s.capture c slot0 whole page ctx)
  (v, s.depart v)
/-- A team saved: gone from its core, and its planes exchanged (R216, R324). -/
def State.saveTeam (s : State) (c slot0 : Nat) (whole : Bool) (page : Option Nat) : State :=
  let r := s.leave c slot0 whole page none id
  r.2.swapPlanes r.1.insts

/-- The save engine saves a team every group of which is ready (R324). Where its exchange raises STAGED, to the engine, the team runs on (R216).
A step of its `mma` under way is finished first (R274). -/
def execTeamSave (c g : Nat) (s : State) : Out :=
  .next (
    let slot0 := (s.grpAt c g).slot0
    let slots := s.teamSlots c slot0
    let ready := slots.all fun j => match (s.grpAt c j).preempt with
      | some p => p.ready
      | none => false
    if !((s.grpAt c g).bound && ready && s.canSave c slot0 false && !s.outBad (s.capture c slot0 false none none)) then s.modCore c fun k => k.stayOn slot0
    else if !s.engNow c slot0 then s
    else if (s.coreAt c).stepOpen slot0 then s.modCore c fun k => k.stopAfter slot0
    else s.saveTeam c slot0 false none)

/-- A register plane as a restore leaves it: registers not kept hold unspecified values (R324). -/
def RegPlane.restored (p : RegPlane) (k : Keep) (fresh base : Nat) : RegPlane :=
  let p := (List.range 64).foldl (fun p n => if k.s.getLsbD n then p else p.ws n (Config.freeWord fresh (base + n))) p
  let p := (List.range 64).foldl (fun p n => if k.v.getLsbD n then p
    else (List.range 32).foldl (fun p t => p.wv t n ((Config.freeWord fresh (base + 64 + 64 * t + n)).truncate 32)) p) p
  if k.p = 0xFF then p
  else (List.range 32).foldl (fun p t =>
    let m := k.p ||| 1
    { p with p := tput p.p t ((tget 0 p.p t &&& m) ||| ((Config.freeWord fresh (base + 2112 + t)).truncate 8 &&& ~~~m)) }) p

/-- A saved group back in its slot, `cur`: its stalled instruction issues again, a sleep has ended, and a group in a handler brings both planes
and its trap hold (R323 to R325). -/
def Group.comeBack (cur g : Group) (k : Keep) (fresh base : Nat) : Group :=
  let n := { g with
    selB := cur.selB, a := cur.a, b := cur.b, held := if g.handler then some .trap else none, sWait := .none, lWait := .none, sPark := none
    lPark := none, preempt := none, pflip := none, yielded := [] }
  let n := n.modWork fun _ => g.work.restored k fresh base
  if g.handler then n.modStage fun _ => g.stage_ else n

/-- Bytes of scratchpad panes as a restore leaves them: saved ranges as they have been kept, the others unspecified (R237, R324). -/
def Saved.putPads (v : Saved) (k : Core) (fresh : Nat) : Core :=
  let pad := k.keptPad.filter fun x => v.at_ ≤ x.1 && x.1 < v.at_ + 2 ^ 20 && inRanges v.ranges (x.1 - v.at_)
  let poi := k.keptPoi.filter fun x => v.at_ ≤ 32 * x.1 && 32 * x.1 < v.at_ + 2 ^ 20 && inRanges v.ranges (32 * x.1 - v.at_)
  (v.paneTab.foldl (fun k e => k.modPlane (k.paneB e.1) fun p =>
    let lo := 8192 * e.1
    let other := (span lo 8192).filter fun o => !inRanges v.ranges o
    let pad := pad.foldl (fun t x => if v.at_ + lo ≤ x.1 && x.1 < v.at_ + lo + 8192 then tset 0 t (x.1 - v.at_) x.2 else t) (tcut p.pad lo 8192)
    let poi := poi.foldl (fun t x => if v.at_ + lo ≤ 32 * x.1 && 32 * x.1 < v.at_ + lo + 8192 then tset false t (x.1 - v.at_ / 32) x.2 else t)
      (tcut p.padPoi (lo / 32) 256)
    { p with pad := other.foldl (fun t o => tset 0 t o (Config.freeByte fresh (0x100000 + o))) pad, padPoi := poi }) k).dropKept v
/-- Tiles of the banks as a restore leaves them, with their records (R274, R324). -/
def Saved.putTiles (v : Saved) (k : Core) (fresh : Nat) : Core :=
  let k := v.banks.foldl (fun k b => k.modPlane (k.accSel.getLsbD b) fun p =>
    let acc := v.acc.foldl (fun t x => if x.1 / 8192 == b then tset 0 t x.1 x.2 else t) (tcut p.acc (8192 * b) 8192)
    let poi := v.accPoi.foldl (fun t x => if x.1 / 2048 == b then tset false t x.1 x.2 else t) (tcut p.accPoi (2048 * b) 2048)
    let other := (span (8192 * b) 8192).filter fun i => !v.live.contains (i / 1024)
    { p with acc := other.foldl (fun t i => tset 0 t i (Config.freeWord fresh (0x200000 + i))) acc, accPoi := poi }) k
  let k := v.tiles.foldl (fun k e => k.modTile e.1 fun _ => e.2) k
  ((v.banks.flatMap fun b => span (8 * b) 8).filter fun t => !v.live.contains t).foldl (fun k t => k.modTile t fun _ =>
    let x := Config.freeWord fresh (0x300000 + t)
    ⟨x.getLsbD 0, x.extractLsb' 16 16, x.getLsbD 1, x.getLsbD 2, x.getLsbD 3⟩) k

/-- The matrix instructions of a saved team issued again, in queue order: those that record a mode record it, where the restore has brought the tile's record
not back (R271, R274). -/
def Core.reissue (live : List Nat) (now : Nat) : List MItem → Core → Core
  | [], k => k
  | m :: ms, k =>
    let t := k.tile m.tile
    let again := (m.op == .mzero || m.op == .mcvt) && !live.contains m.tile
    let k := { k with mq := k.mq ++ [{ m with since := now, free := now, flt0 := if again then t.flt else m.flt0, e0 := if again then t.e else m.e0 }] }
    Core.reissue live now ms (if again then k.modTile m.tile fun r => { r with flt := m.flt, e := m.e } else k)

/-- A saved team whose matrix instructions that issue again have numbers from `n` on, as though they issued now (R273, R274). -/
def Saved.renumber (v : Saved) (n : Nat) : Saved :=
  let ids := ((v.mqs.filter fun m => !m.cutShort).map (·.id)).zipIdx
  let new := fun (id : Nat) => match ids.find? fun e => e.1 == id with
    | some e => n + e.2
    | none => id
  { v with mqs := v.mqs.map (fun m => { m with id := new m.id }), scores := v.scores.map fun x => (x.1, { x.2 with op := new x.2.op }) }
/-- A group that a context stop or a debug halt reached while it was saved is halted now that it is back: HLT is set (R318, R327). -/
def State.backHalted (s : State) (c g : Nat) : State := if (s.grpAt c g).halted then s.hltSet c g else s

/-- A saved team put back: its registers, tiles, scratchpad and weight buffer into the working planes, its tables and queues (R274, R324). -/
def State.place_ (s : State) (v : Saved) : State :=
  let c := v.core
  let f := s.fresh
  let s := { s with saved := s.saved.filter fun x => x != v }
  let v := v.renumber (s.coreAt c).nextOp
  let s := s.modCore c fun k =>
    let k := { k with nextOp := k.nextOp + v.mqs.length, away := k.away.filter fun i => !v.mqs.any fun m => m.id == i }
    let k := v.putTiles (v.putPads k f) f
    let k := if v.hasWbuf then k.modPlane k.wbufSel fun p => { p with wbuf := v.wbuf, wbufPoi := v.wbufPoi } else k
    Core.reissue v.live s.now v.mqs { k with
      panes := v.paneTab.foldl (fun t e => tput t e.1 (some e.2)) k.panes
      accOwn := v.banks.foldl (fun t b => tput t b (some v.slot0)) k.accOwn
      wbufOwn := if v.hasWbuf then some v.slot0 else k.wbufOwn
      binds := k.binds ++ [v.bind] }
  let cores := s.cores.map fun e => (e.1, { e.2 with score := e.2.score ++ (v.scores.filter fun x => x.1 == e.1).map fun x => x.2 })
  let s := { s with cores := cores }
  v.groups.foldl (fun s e => (s.modGrp c e.1 fun cur => Group.comeBack cur e.2 (tget ⟨0, 0, 0⟩ v.keeps e.1) f (4096 * e.1)).backHalted c e.1) s

/-- What a group that waited for a page does when its team is back: it tries again, the faulting threads first, or its XLATE is delivered
(R326). -/
def State.answerGrp (s : State) (c g : Nat) (ok : Bool) : State :=
  match (s.grpAt c g).pend with
  | none => s
  | some t =>
    if !t.swap then s
    else if ok then s.modGrp c g fun q => { q with pend := none, redo := if t.lane then some (t.lpc, t.fmask, t.late) else q.redo }
    else s.deliver c g { t with swap := false }

/-- Room for a saved team in its own place: slots, panes, banks, weight buffer, matrix queue and scoreboards; the core is not quarantined (R324, R366). -/
def State.roomFor (s : State) (v : Saved) : Bool :=
  let k := s.coreAt v.core
  !k.slotBusy v.bind && v.paneTab.all (fun e => (k.pane e.1).isNone) && v.banks.all (fun b => (tget none k.accOwn b).isNone)
  && !(v.hasWbuf && k.wbufOwn.isSome) && k.mq.length + v.mqs.length ≤ 16
  && s.cores.all (fun e => e.2.score.length + (v.scores.filter fun x => x.1 == e.1).length ≤ max 16 e.2.score.length)
  && s.partOfCore v.core == some (s.lchAt v.bind.lid).part && !s.quarCores.getLsbD v.core

/-- The groups whose page the driver has answered for take up their access, or their trap. -/
def State.answered (s : State) (v : Saved) : State :=
  match v.page, v.answer with
  | some va, some ok => v.groups.foldl (fun s e => match (s.grpAt v.core e.1).pend with
    | some t => if t.swap && t.faddr.toNat == va then s.answerGrp v.core e.1 ok else s
    | none => s) s
  | _, _ => s

/-- A saved team is restored; one that waits for a page, after the driver's answer (R324, R326). Where what it brings is poisoned, the exchange raises STAGED
to the save engine, and it stays saved (R216). -/
def execTeamRestore (c g : Nat) (s : State) : Out :=
  .next (match s.saved.find? fun v => v.core == c && v.slot0 == g && v.ctx.isNone with
    | none => s
    | some v =>
      let is := v.insts
      if (v.page.isSome && v.answer.isNone) || !s.roomFor v || !is.all (fun i => s.saveHold c i.2) || !(s.itemsOn is).isEmpty || is.any (s.inBad [v]) then s
      else ((s.swapPlanes is).place_ v).answered v)

/-- A team swapped out for a page that is valid but not resident, and the page reported (R326, R359). Lantern mode of its groups ends first. -/
def execPageFaultSwap (c g : Nat) (s : State) : Out :=
  .next (match (s.grpAt c g).pend with
    | none => s
    | some t =>
      let q := s.grpAt c g
      if !q.bound || !t.swap then s
      else
        let slots := s.teamSlots c q.slot0
        if slots.any fun j => (s.grpAt c j).lantern.isSome then slots.foldl (fun s j => s.modGrp c j fun q => q.lanLeave s.now) s
        else if !s.canSave c q.slot0 true || s.outBad (s.capture c q.slot0 true none none) then s.modCore c fun k => k.stayOn q.slot0
        else if !s.engNow c q.slot0 then s
        else if (s.coreAt c).stepOpen q.slot0 then s.modCore c fun k => k.stopAfter q.slot0
        else (s.saveTeam c q.slot0 true (some t.faddr.toNat)).event (s.lchAt q.lid).part 1 t.faddr q.lid)

/-- An item of core `e.1` names the column scratchpad of a core. -/
def State.itemCol (s : State) (c : Nat) (e : Nat × Item) : Bool :=
  let lead := fun (sa : Nat) => match s.spadLoc e.1 (s.itemGrp e.1 e.2) (sa % 2 ^ 32) with
    | some (.col t _) => t == c
    | _ => false
  (List.range e.2.h).any fun r => (e.2.ssp == 1 && lead (e.2.d0.toNat + e.2.ss * r)) || (e.2.dsp == 1 && lead (e.2.d1.toNat + e.2.ds * r))

/-- A core's contexts are swapped through its staging planes (R216): every team leaves whole, the planes exchange as by `flip.core.wait`, and the
teams of an image of an earlier swap, none when there is no such image, take their place. Where poison stands in a staging plane once they are filled in, STAGED
is raised to the swapping agent, and the outgoing ones keep running. Steps under way are finished first (R274), and items that name the core's column scratchpad, the
model's choice, log entry 78. -/
def execContextSwap (c image : Nat) (s : State) : Out :=
  .next (
    let k := s.coreAt c
    let inn := s.saved.filter fun v => v.core == c && v.ctx == some image
    let teams := (k.bound.map fun e => e.2.slot0).eraseDups
    let is := coreInsts.map fun i => (c, i)
    let stay := s.modCore c fun k => teams.foldl Core.stayOn k
    if 144 ≤ c || !k.wprChg.isNone || !is.all (fun i => s.saveHold c i.2) || !(s.itemsOn is).isEmpty || s.allItems.any (s.itemCol c)
      || !teams.all (fun t => s.canSave c t true) || is.any (s.inBad inn) then stay
    else if !teams.all (s.engNow c) then s
    else if teams.any k.stepOpen then s.modCore c fun k => teams.foldl Core.stopAfter k
    else
      let num := s.fresh + 1
      let s := teams.foldl (fun s t => (s.leave c t true none (some num) fun v => { v with col := k.colWork.col, colPoi := k.colWork.colPoi }).2) s
      let s := s.swapPlanes is
      let s := match inn.head? with
        | some v => s.modCore c fun k => k.modPlane k.colSel fun p => { p with col := v.col, colPoi := v.colPoi }
        | none => s
      inn.foldl (fun s v => if s.roomFor v then s.place_ v else s) s)

end Sys2Proof.Machine
end

