-- ==== Sys2Proof/Machine/EvTxn.lean ====
section
/-!
DEFINITION. Sys2Proof/Machine/EvTxn.lean: the events of transactions: commit, merge and freeing of shadow lines, and quota (R292 to R298).
-/
namespace Sys2Proof.Machine

/-- A launch commits where R294 lets it, in one step, and what follows the commit is done. -/
def execLaunchCommit (lid : Nat) (s : State) : Out := .next (s.commit lid)

/-- The merge engine writes one shadow line of a COMMITTED version home, whose layer it reaches (R375); with the last the version is FREE (R292, R294). `ver` is 256 times
the partition plus the tag. -/
def execShadowMerge (ver line : Nat) (s : State) : Out :=
  .next (
    let v := s.verAt (ver / 256) (ver % 256)
    if v.st != .committed then s
    else (if v.lines.any fun e => e.1 == line then (s.touchLine line).mergeLine line else s).freeVer (ver / 256) (ver % 256))

/-- One shadow line of an ABORTED version is freed; with the last the version is FREE (R292, R295). -/
def execShadowFree (ver line : Nat) (s : State) : Out :=
  .next (
    let v := s.verAt (ver / 256) (ver % 256)
    if v.st != .aborted then s
    else (s.modVer (ver / 256) (ver % 256) fun v => { v with lines := tdel v.lines line }).freeVer (ver / 256) (ver % 256))

/-- The scheduler grants a waiting launch a unit of the pool; with none free the launch aborts (R298). One that is halted waits on: it ends only when it is
killed (R318). -/
def execQuotaGrant (lid : Nat) (s : State) : Out :=
  .next (
    let l := s.lchAt lid
    let p := s.partAt l.part
    if !l.quotaWait || l.frozen || l.direct || l.st == .ended || l.st == .free then s
    else if p.poolUsed < p.poolUnits then
      let s := s.modVer l.part l.ver fun v => { v with units := v.units + 1 }
      let s := s.modPart l.part fun p => { p with poolUsed := p.poolUsed + 1 }
      s.modLch lid fun l => { l with quotaWait := false }
    else s.endLaunch lid (.plain 1 0x0D 0x21))

end Sys2Proof.Machine
end

