-- ==== Sys2Proof/Machine/EvSys.lean ====
section
/-!
DEFINITION. Sys2Proof/Machine/EvSys.lean: the events of partitions, keys, the snuffer, buses, power, links, firmware and resets
(R26, R229, R341, R342, R360 to R385).
-/
namespace Sys2Proof.Machine

/-- The group at a slot is bound in a supervisor context (R331). -/
def State.superAt (s : State) (c g : Nat) : Bool := (s.grpAt c g).bound && (s.lchAt (s.grpAt c g).lid).priv

/-- A write of PART_MAP or PART_MAP_HI by the supervisor's own partition (R331, R362); one that is refused changes nothing. -/
def execPartMapWrite (hi : Bool) (v : Nat) (s : State) : Out :=
  .next (match s.mapWrite superPart hi (BitVec.ofNat 64 v) with
    | .ok s1 => s1
    | .stall s1 => s1
    | .prot => s
    | .priv => s)

/-- Storage zeroed, its poison and errors gone, and what was owned there or stands in a shadow of any version dropped, so that nothing older reaches home later
(R362, R369). -/
def State.zeroStor (s : State) (a n : Nat) : State :=
  let inside := fun (x unit : Nat) => a ≤ unit * x && unit * x < a + n && !s.inQuarMap (unit * x)
  { s with
    mem := s.mem.filter fun e => !inside e.1 1
    poison := s.poison.filter fun e => !inside e.1 32
    eccu := s.eccu.filter fun e => !inside e.1 32
    encTags := s.encTags.filter fun e => !inside e.1 128
    owners := s.owners.filter fun e => !inside e.1 128
    wins := s.wins.filter fun e => !inside e.1 512
    versions := s.versions.map fun v => (v.1, { v.2 with lines := v.2.lines.filter fun e => !inside e.1 128 }) }
/-- Both planes of every doubled store of a core wiped, with the column SRAM's tags, and its ownership released (R18, R362, R369). -/
def State.wipeCore (s : State) (c : Nat) : State :=
  let s := s.modCore c fun k => { k with
    a := CorePlane.reset
    b := CorePlane.reset
    groups := k.groups.map fun e => (e.1, { e.2 with a := RegPlane.reset, b := RegPlane.reset }) }
  { s with owners := s.owners.filter fun e => e.2 != c + 1 }

/-- The wipe of a cluster that left its partition ends (R362); it reaches every layer of the cluster (R375). -/
def execClusterWipeDone (cl : Nat) (s : State) : Out :=
  .next (
    if !(s.clAt cl).wiping || 24 ≤ cl then s
    else
      let cs := span (6 * cl) 6
      -- dirty words homed outside the cluster go home first
      let away := fun (pa : Nat) => match locOf pa with
        | some (.col h _) => !cs.contains h
        | _ => true
      let s := cs.foldl (fun s c => ((s.coreAt c).a.lines ++ (s.coreAt c).b.lines).foldl (fun s e => if away e.1 then s.cleanHome c e.1 e.2 else s) s) s
      let s := cs.foldl (fun s c => ((((s.touchS c).touchD c).wipeCore c).zeroStor (c * 2 ^ 40) (2 ^ 31)).modCore c fun k => { k with tlb := [], wpr := 0, wprChg := none }) s
      s.modCl cl fun x => { x with tlb := [], wiping := false, powered := decide (8 ≤ mapEnt s.partMap cl) && x.powered })

/-- A joining cluster is powered, and its buses are trained (R362). -/
def execClusterPowerUpDone (cl : Nat) (s : State) : Out :=
  .next (if (s.clAt cl).training && !(s.clAt cl).wiping then s.modCl cl fun x => { x with training := false, powered := true } else s)

/-- KEY_SLOT_CTL written with OP 0 (R365). -/
def execKeySlotSelect (n blob : Nat) (s : State) : Out := .next (s.selectKey n blob)
/-- KEY_SLOT_CTL written with OP 1 by a context of a partition (R365). -/
def execKeySlotLoad (p n blob : Nat) (s : State) : Out := .next ((s.selectKey n blob).loadKey p (n % 64) (blob % 2 ^ 42))
/-- KEY_SLOT_CTL written with OP 2 (R365, R368). -/
def execKeySlotZero (n : Nat) (s : State) : Out := .next (s.zeroKey (n % 64))

/-- The snuffer's job is over: STATE is set, and the record and the wick of its group follow (R369, R384). -/
def State.snufEnd (s : State) (p : Nat) (j : Snuf) (f : Option Fail) : State :=
  let s := s.modPart p fun x => { x with snufState := if f.isSome then 3 else 2, snuf := none }
  s.modOwner j.core j.gslot j.lid j.cohort fun g => g.xRetire j.wick j.seq f
/-- A job whose cores and frames are all done: quarantine is cleared in one step, the key slot is then neither VAL nor QUA, and STATE turns 2 (R369 steps 4 and 5); the record and the wick follow
later, so that a poll can see 2 before (R384). -/
def State.snufDone (s : State) (p : Nat) (j : Snuf) : State :=
  if !(j.coresLeft.isEmpty && j.framesLeft.isEmpty) then s
  else
    let s := { j.frames.foldl (fun s f => s.setFrameQuar f false) s with
      quarCores := s.quarCores &&& ~~~BitVec.ofNat 144 (maskOf j.cores)
      keys := match j.slot with
        | some k => tput s.keys k { s.keyAt k with valid := false, quar := false, key := [] }
        | none => s.keys }
    s.modPart p fun x => { x with snufState := 2 }

/-- Storage address of each 512-byte superblock of a frame (R386). -/
def frameStor (f : Nat) : List Nat := (List.range 128).map fun i => storOf (65536 * f + 512 * i)
/-- A column that holds part of a frame has failed beyond repair (R373). -/
def State.frameFailed (s : State) (f : Nat) : Bool :=
  (List.range 128).any fun i => match locOf (65536 * f + 512 * i) with
    | some (.col c _) => (s.coreAt c).vbus.broken
    | _ => false
/-- A layer that a job names has failed beyond repair (R369, R373). -/
def State.snufFailed (s : State) (j : Snuf) : Bool := (j.cores.any fun c => (s.coreAt c).vbus.broken) || j.frames.any s.frameFailed

/-- The snuffer wiped its next core, whose layers it reaches, and whose translations go; a layer that failed beyond repair ends the job (R369 steps 1 and 2,
R373, R375). -/
def execSnufferCoreWipeDone (p : Nat) (s : State) : Out :=
  .next (match (s.partAt p).snuf with
    | none => s
    | some j => match j.coresLeft with
      | [] => s
      | c :: cs =>
        if s.snufFailed j then s.snufEnd p j (some ⟨.vbus, 0, 0⟩)
        else
          let j := { j with coresLeft := cs }
          ((((s.touchS c).wipeCore c).modCore c fun k => { k with wpr := 0, wprChg := none, tlb := [] }).modPart p fun x => { x with snuf := some j, snufCores := x.snufCores + 1 }).snufDone p j)

/-- Every copy of a frame's lines discarded in every column SRAM (R369 step 3). -/
def State.dropCopies (s : State) (f : Nat) : State :=
  let hit := fun (pa : Nat) => (frameStor f).contains (storOf pa / 512 * 512)
  let drop := fun (p : CorePlane) => p.mapLines fun pa l => if hit pa then Line.none_ else l
  { s with cores := s.cores.map fun e => (e.1, { e.2 with a := drop e.2.a, b := drop e.2.b }) }
/-- Strong stores that were translated before and lie queued are performed before the zeros where they touch a frame, so that nothing older reaches home after
them (R369 step 3). -/
def State.drainFrame (s : State) (f : Nat) : State :=
  s.drainWhere fun g => (g.sbuf ++ g.lsbuf).any fun e => (storLines e.pa e.bytes.length).any fun l => (frameStor f).contains (128 * l / 512 * 512)
/-- A write of the snuffer reaches the column DRAM that holds a storage address (R375). -/
def State.touchCol (s : State) (a : Nat) : State := match homeOf (a / 128) with
  | some h => s.touchD h
  | none => s
/-- The snuffer wrote zero to its next frame (R369 step 3). A job with nothing left to do ends here: its STATE first where it has not turned 2 yet, then its
record and its wick (R384). -/
def execSnufferFrameDone (p : Nat) (s : State) : Out :=
  .next (match (s.partAt p).snuf with
    | none => s
    | some j =>
      if !j.coresLeft.isEmpty then s
      else match j.framesLeft with
      | [] => if (s.partAt p).snufState = 2 then s.snufEnd p j none else s.snufDone p j
      | f :: fs =>
        if s.snufFailed j then s.snufEnd p j (some ⟨.vbus, 0, 0⟩)
        else
          let j := { j with framesLeft := fs }
          let s := (frameStor f).foldl (fun s a => (s.touchCol a).zeroStor a 512) ((s.drainFrame f).dropCopies f)
          (s.modPart p fun x => { x with snuf := some j, snufFrames := x.snufFrames + 1 }).snufDone p j)

/-- VBUS_STAT written by a group of a supervisor context (R372). -/
def execVbusStatWrite (c g v : Nat) (s : State) : Out := .next (if s.superAt c g then s.vbusWrite c g (BitVec.ofNat 64 v) else s)
/-- BRUS_NODE written (R379). -/
def execBrusNodeWrite (v : Nat) (s : State) : Out := .next (s.nodeWrite (BitVec.ofNat 64 v))
/-- A system register of no behaviour of its own written by a group of a supervisor context (R332). -/
def execSysregWrite (c g num v : Nat) (s : State) : Out :=
  .next (if s.superAt c g then s.plainWrite (s.lchAt (s.grpAt c g).lid).part num (BitVec.ofNat 64 v) else s)

/-- A lane of a bus spared, where it is not and a spare is free (R371, R373). -/
def State.spareLane (s : State) (c bus lane : Nat) : State :=
  let v := (s.coreAt c).vbus
  if v.spared.contains (bus, lane) || 2 ≤ v.spares bus then s else s.modCore c fun k => { k with vbus := k.vbus.spare bus lane }

/-- A lane of a bus fails: a free spare takes it; with none free the layer fails (R373). -/
def execVbusLaneFailure (c bus lane : Nat) (s : State) : Out :=
  .next (
    let v := (s.coreAt c).vbus
    if 144 ≤ c || 2 ≤ bus || busLanes bus ≤ lane || v.spared.contains (bus, lane) then s
    else if v.spares bus < 2 then s.spareLane c bus lane
    else s.modCore c fun k => { k with vbus := { k.vbus with fail := true, failS := k.vbus.failS || bus == 0, failD := k.vbus.failD || bus == 1 } })

/-- A bus is retrained for drift, for at most 2 µs, which are 4,500 cycles; the errors corrected so far are counted (R371, R372). -/
def execDriftRetrain (c bus : Nat) (s : State) : Out :=
  .next (
    if 144 ≤ c || 2 ≤ bus then s
    else (s.settleBus c).modCore c fun k => { k with vbus := { k.vbus with
      retrain := satAdd k.vbus.retrain 1, trainTo := s.now + (Config.freeWord s.fresh 0x202).toNat % 4501 } })

/-- The patrol reads a line of column DRAM: `corr` single errors are corrected and counted; granules that cannot be corrected, those of the mask
`bad` and those already in error, are poisoned (R376). -/
def execDramPatrol (line corr bad : Nat) (s : State) : Out :=
  .next (match locOf (128 * line) with
    | some (.col c o) =>
      let ln := (c * 2 ^ 40 + o) / 128
      let gs := (List.range 4).filter fun i => bad.testBit i || tget false s.eccu (4 * ln + i)
      let s := { s with
        poison := gs.foldl (fun p i => tset false p (4 * ln + i) true) s.poison
        eccu := s.eccu.filter fun e => e.1 / 4 != ln }
      (s.touchD c).corrected c 1 corr
    | _ => s)

/-- A granule of a line of one plane of a core's column SRAM poisoned: `g` is its physical address ÷ 32. -/
def CorePlane.poisonLine (p : CorePlane) (g : Nat) : CorePlane :=
  p.mapLines fun pa l => if pa / 128 == g / 4 && l.valid then { l with poi := l.poi ||| BitVec.ofNat 4 (2 ^ (g % 4)) } else l

/-- The patrol reads a granule of one plane of a core's stores: registers (16,384 × slot + offset), accumulators, panes, weight buffer, column
scratchpad (granule number), or a cached line (physical address ÷ 32). One that cannot be corrected is poisoned; nothing traps (R376). -/
def execSramPatrol (c store : Nat) (planeB : Bool) (granule corr : Nat) (bad : Bool) (s : State) : Out :=
  .next (
    if 144 ≤ c then s
    else
      let s := (s.touchS c).corrected c 0 corr
      let mark := fun (t : Store) (o limit : Nat) => if o < limit then s.modCore c fun k => (k.setBad t o true).eccClear t o else s
      let failed := fun (t : Store) (o : Nat) => (s.coreAt c).eccBad t o
      let bad := bad || (match store with
        | 1 => failed (.acc planeB) (32 * granule)
        | 2 => failed (.pad planeB) (32 * granule)
        | 3 => failed (.wbuf planeB) (32 * granule)
        | 4 => failed (.col planeB) (32 * granule)
        | _ => false)
      if !bad then s
      else match store with
      | 0 => mark (.grp (granule / 16384 % 128) planeB) (granule % 16384) 0x2220
      | 1 => mark (.acc planeB) (32 * granule) 0x80000
      | 2 => mark (.pad planeB) (32 * granule) 0x80000
      | 3 => mark (.wbuf planeB) (32 * granule) 0x100000
      | 4 => mark (.col planeB) (32 * granule) 0x800000
      | 5 => s.modCore c fun k => k.modPlane planeB fun p => p.poisonLine granule
      | _ => s)

/-- THR follows whether some cap of R381 is in force (R380). -/
def State.setThr (s : State) : State := { s with thr := decide (s.inputLevel < 16) || s.parts.any fun e => e.2.ceiling < 16 }
/-- The input voltage in units of 10 mV: below 40 V UV is set and lowers what every engine may reach, and below 36 V the time of the undervoltage runs
(R380, R381). -/
def State.input (s : State) (vin : Nat) : State :=
  ({ s with
    vin := BitVec.ofNat 16 vin, uv := decide (vin < 4000)
    lowSince := if vin < 3600 then some (s.lowSince.getD s.now) else none }).setThr

/-- PWR_STAT is refreshed: input voltage in units of 10 mV, power in watts, the hottest die (R376, R380). -/
def execTelemetryRefresh (vin pin tmax : Nat) (s : State) : Out :=
  .next ({ s with pin := BitVec.ofNat 16 pin, tmax := BitVec.ofNat 8 tmax }.input (vin % 65536))

/-- Firmware gates the layers of a core that is halted, or has had no team bound for 1 ms, which is 2,250,000 cycles (R4, R374). -/
def execLayerGate (c : Nat) (s : State) : Out :=
  .next (
    let k := s.coreAt c
    if 144 ≤ c || (if k.bound.isEmpty then decide (s.now < k.idleSince + 2250000) else k.bound.any fun e => !(e.2.halted || e.2.stopped)) then s
    else s.modCore c fun k => { k with vbus := { k.vbus with gateS := true, gateD := true, wakeS := false, wakeD := false } })
/-- A gated layer that an access reached has woken; others stay as they are (R375). Of the layers of the column SRAM and of the column DRAM, where both wake,
either may be the first. -/
def execLayerWakeDone (c : Nat) (s : State) : Out :=
  .next (
    let v := (s.coreAt c).vbus
    if v.wakeS && (!v.wakeD || Config.freeBool s.fresh 0x203) then s.modCore c fun k => { k with vbus := { k.vbus with gateS := false, wakeS := false } }
    else if v.wakeD then s.modCore c fun k => { k with vbus := { k.vbus with gateD := false, wakeD := false } }
    else s)

/-- A partition's level ceiling steps, at most once in a millisecond of 2,250,000 cycles: down while its average exceeds CAP, ending its holds, and up
again below it (R4, R381). -/
def execPowerCapStep (p : Nat) (high : Bool) (s : State) : Out :=
  .next (
    if 8 ≤ p || s.now < (s.partAt p).capAt then s
    else if high && (s.partAt p).pwrCap != 0 then
      let s := s.modPart p fun x => { x with ceiling := max 1 (x.ceiling - 1), capAt := s.now + 2250000 }
      ((s.coresOf p).foldl (fun s c =>
        if (s.coreAt c).eng.holdTo.isSome then s.modEng c fun e => { e with holdTo := none, down := true } else s) s).setThr
    else (s.modPart p fun x => { x with ceiling := min 16 (x.ceiling + 1), capAt := s.now + 2250000 }).setThr)

/-- The input is below 40 V: UV is set and what every partition's engines may reach is lowered in proportion (R381). -/
def execInputUndervoltage (vin : Nat) (s : State) : Out := .next (if 4000 ≤ vin then s else s.input vin)
/-- The input is at 40 V or above again: UV clears (R380). -/
def execInputVoltageRestored (vin : Nat) (s : State) : Out := .next (if vin < 4000 || 6300 < vin then s else s.input vin)
/-- The input has been below 36 V for 10 ms, which are 22,500,000 cycles: the module powers down (R4, R381). -/
def execUndervoltagePowerDown (s : State) : Out :=
  .next (match s.lowSince with
    | some t => if t + 22500000 ≤ s.now then { s with powered := false } else s
    | none => s)
/-- The input is above 63 V: protection disconnects the module (R381). -/
def execOvervoltageDisconnect (s : State) : Out := .next (if 6300 < s.vin.toNat then { s with connected := false } else s)

/-- Where bytes of global memory lie, as an item of core `c` names them: `w` for its destination, which is translated for writing (R155, R386). -/
def State.itemLocs (s : State) (c : Nat) (i : Item) (w : Bool) (a n : Nat) : List Loc :=
  (cut a n).filterMap fun p => (s.physFor (some c) i.part p.1 w).bind locOf
/-- The places in memory that an item of core `c` reads or writes: a staging address lies in a core's stores (R135). -/
def State.itemPlaces (s : State) (c : Nat) (i : Item) : List Loc :=
  let at_ := fun (w : Bool) (r : Nat × Nat) => if isStaging r.1 then [Loc.col (stgCore r.1) 0] else s.itemLocs c i w r.1 r.2
  (s.itemSrcs c i).flatMap (at_ false) ++ i.dsts.flatMap (at_ true)
/-- An item that moves data to or from memory of a peer, or works with a peer's core (R232, R386). -/
def State.itemRemote (s : State) (c : Nat) (i : Item) : Bool :=
  i.ends.any (fun e => e.1 != 0xFFFF) || (s.itemPlaces c i).any fun l => match l with
    | .peer _ => true
    | _ => false
/-- An item that moves data to or from host memory (R386). -/
def State.itemHost (s : State) (c : Nat) (i : Item) : Bool := (s.itemPlaces c i).any fun l => match l with
  | .host _ => true
  | _ => false
/-- The die on which a Bruslink port stands (R26). -/
def portDie (p : Nat) : Nat := if p < 4 then 0 else if p < 8 then 1 else if p < 13 then 2 else 3
/-- The dies on which the two host links stand (R26). -/
def hostDies : List Nat := [0, 1]
/-- The bridges that traffic between two dies crosses, one way and the other: bridge i joins dies i and i + 1; between diagonal dies it passes through the die
numbered one higher than its source (R12). -/
def routes (x y : Nat) : List Nat :=
  let one := fun (x y : Nat) => if (y + 4 - x) % 4 = 0 then [] else if (y + 4 - x) % 4 = 3 then [y] else if (y + 4 - x) % 4 = 1 then [x] else [x, (x + 1) % 4]
  (one x y ++ one y x).eraseDups
/-- The cores whose columns and stores an item of core `c` reaches. -/
def State.itemCores (s : State) (c : Nat) (i : Item) : List Nat :=
  let spad := fun (a n : Nat) => (List.range i.h).filterMap fun r => (s.spadLoc c (s.itemGrp c i) ((a + n * r) % 2 ^ 32)).map fun l => match l with
    | .pad t _ => t
    | .col t _ => t
  (i.ends.filter fun e => e.1 == 0xFFFF).map (·.2)
  ++ (if i.ssp = 1 then spad i.d0.toNat i.ss else []) ++ (if i.dsp = 1 then spad i.d1.toNat i.ds else [])
  ++ (s.itemPlaces c i).filterMap fun l => match l with
    | .col k _ => some k
    | _ => none
/-- The dies that traffic of an item of core `c` may reach: those of the cores it reaches, those of the host links for host memory, and those of the Bruslink
ports for a peer (R12, R26). Which link leads to host memory firmware's mapping decides, and which port to a peer the fabric map, neither of which the spec
gives: any of them may, log entry 50. -/
def State.itemDies (s : State) (c : Nat) (i : Item) : List Nat :=
  (s.itemCores c i).map (· / 36) ++ (if s.itemHost c i then hostDies else []) ++ if s.itemRemote c i then (List.range 18).map portDie else []
/-- Traffic of an item may cross a link: a Bruslink port, 0 to 17, where it reaches a peer; a bridge, 18 to 21, on the route to a die it reaches; a host link,
22 and 23, where it reaches host memory (R12, R26). -/
def State.itemCrosses (s : State) (c : Nat) (i : Item) (port : Nat) : Bool :=
  if port < 18 then s.itemRemote c i
  else if port < 22 then (s.itemDies c i).any fun d => (routes (c / 36) d).contains (port - 18)
  else s.itemHost c i

/-- The dies that traffic of a partition surely joins: those of its clusters, and die 0, from which Lamplighter reaches them (R12, R25). -/
def State.diesOf (s : State) (p : Nat) : List Nat := 0 :: ((List.range 24).filter fun k => s.partOfCl k == some p).map (· / 6)
/-- A shared unit touches a partition: a bridge one with a cluster on a die it joins, or between two of whose dies R12's route crosses it; and, for traffic to
host or peer memory, perhaps another; any other unit every partition with a cluster (R24). -/
def State.touches (s : State) (port p : Nat) : Bool :=
  (List.range 24).any fun k => s.partOfCl k == some p && (port < 18 || 22 ≤ port || k / 6 == port - 18 || k / 6 == (port - 18 + 1) % 4
    || (s.diesOf p).any (fun d => (routes (k / 6) d).contains (port - 18))
    || ((List.range 4).any (fun d => (routes (k / 6) d).contains (port - 18)) && Config.freeBool s.fresh (0x518 + p)))
/-- A unit that partitions share has failed: reported through the queues of those it touches (R24). The KIND of the event is open: log entry 50. -/
def State.sharedFail (s : State) (port : Nat) : State :=
  (List.range 8).foldl (fun s p =>
    if s.touches port p then s.event p ((Config.freeWord s.fresh (0x500 + p)).toNat % 256) (Config.freeWord s.fresh (0x508 + p)) ((Config.freeWord s.fresh (0x510 + p)).toNat % 512)
    else s) s

/-- An item may fail with a link that its traffic crosses: it is carried by an engine, keeps to its tables, and has neither delivered nor failed (R224, R232). -/
def Item.inFlight (i : Item) : Bool := i.run && i.fail.isNone && !i.badDesc && !i.got && i.walked.isNone
/-- A link goes down, or retrains on fewer lanes (R379): ports 0 to 17 are Bruslink, 18 to 21 the bridges, 22 and 23 the host links on dies 0 and 1, and a number
above stands for another shared unit (R24, R26). Items in flight to a peer fail where their traffic took that port, which the fabric map decides. -/
def execLinkDown (port lanes : Nat) (s : State) : Out :=
  .next (
    let down := fun (l : Link) => if l.up then { l with up := false, lanes := 0, downs := min 255 (l.downs + 1) } else l
    if lanes = 0 then
      let s1 := if port < 18 then { s with brus := tput s.brus port (down (tget Link.reset s.brus port)) }
        else if port < 22 then { s with igold := tput s.igold (port - 18) (down (tget Link.reset s.igold (port - 18))) } else s
      let s1 := if port < 18 then s.cores.foldl (fun t e => e.2.items.foldl (fun t i =>
          if i.inFlight && s.itemCrosses e.1 i port && Config.freeBool s.fresh (i.id * 256 + e.1) then
            let f : Fail := ⟨.xfer, if i.isColl then 6 else 3, i.d1⟩
            t.modItem e.1 i.id fun j => { j with fail := some f }
          else t) t) s1 else s1
      s1.sharedFail port
    else if port < 18 then
      let l := tget Link.reset s.brus port
      { s with brus := tput s.brus port { l with lanes := min l.lanes lanes } }
    else s)
/-- A link has trained and carries traffic (R379). A bridge reads 8 lanes and the far die. -/
def execLinkTrained (port lanes peer : Nat) (s : State) : Out :=
  .next (
    if lanes = 0 || 8 < lanes then s
    else if port < 18 then
      let l := { tget Link.reset s.brus port with up := true, lanes := lanes, peer := BitVec.ofNat 16 peer }
      { s with brus := tput s.brus port l }
    else if port < 22 then
      let l := { tget Link.reset s.igold (port - 18) with up := true, lanes := 8, peer := BitVec.ofNat 16 ((port - 18 + 1) % 4) }
      { s with igold := tput s.igold (port - 18) l }
    else s)

/-- A link retries after a CRC failure of what it carries; the third failure of one packet ends the item whose packet it is, the granules concerned arriving
poisoned (R229, R232). Whether the packet is one of the item named, and whether it is the one that failed before, is open: log entry 50. -/
def execLinkCrcRetry (port c k : Nat) (s : State) : Out :=
  .next (
    let up := fun (l : Link) => { l with retry := min 0xFFFFFFFF (l.retry + 1) }
    let s1 := if port < 18 then { s with brus := tput s.brus port (up (tget Link.reset s.brus port)) }
      else if port < 22 then { s with igold := tput s.igold (port - 18) (up (tget Link.reset s.igold (port - 18))) } else s
    match s1.item c k with
    | some i => if i.inFlight && s1.itemCrosses c i port && Config.freeBool s.fresh 0x300 then
        let n := if Config.freeBool s.fresh 0x301 then i.tries + 1 else 1
        s1.modItem c k fun j => { j with tries := if n < 3 then n else 0, fail := if n < 3 then j.fail else some ⟨.xfer, 3, j.d1⟩ } else s1
    | none => s1)

/-- A 1PPS edge or a time-of-day message sets %walltime (R26, R73). -/
def execWalltime1pps (t : Nat) (s : State) : Out := .next { s with wall := t }
/-- A management message arrives: MGMT is raised at the supervisor, and its request is answered with a report of the measurement log, `DEV_ID` and the
nonce, signed by the device identity key (R355, R377). -/
def execMctpMessage (nonce : Nat) (s : State) : Out :=
  .next { s.signal 0 6 with attest := s.attest ++ [(s.measLog, devId, nonce, Config.attestSig s.measLog devId nonce)] }

/-- The digest of an image (R377). -/
def imageDigest (version : Nat) (real : Bool) : List Byte := sha3 (Config.image version real)
/-- An image verifies: its signature over its SHA3-256 digest, under ML-DSA-44 (R27, R377). -/
def imageOk (version : Nat) (real : Bool) : Bool := Config.mldsaOk (imageDigest version real) (Config.imageSig version real)

/-- The role whose exchange holds its partition. -/
def State.heldRole (s : State) : Option Nat := ((List.range 8).find? fun p => (s.partAt p).held).map (· + 1)
/-- A new image, the genuine one of its version or another, is verified and its digest logged; then each occurrence moves the update one step: a role is
exchanged with the spare, its partition resumes, and at the end the image runs (R25, R377, R378). A failed verification leaves the running image in place. -/
def execFirmwareLiveUpdate (version : Nat) (real : Bool) (s : State) : Out :=
  .next (
    if !s.fwUpd then
      let s := { s with measLog := s.measLog ++ [imageDigest (version % 65536) real] }
      if imageOk (version % 65536) real then { s with fwStaged := BitVec.ofNat 16 version, fwUpd := true, fwDone := [] }
      else { s with fwErr := true }
    else match s.heldRole with
    | some r => s.modPart (r - 1) fun x => { x with held := false }
    | none => match (List.range 9).find? fun r => !s.fwDone.contains r with
      | some r =>
        let s := { s with roleCore := tput (tput s.roleCore r (s.roleAt 9)) 9 (s.roleAt r), fwDone := s.fwDone ++ [r] }
        if r = 0 then s else s.modPart (r - 1) fun x => { x with held := true }
      | none => { s with fwRun := s.fwStaged, fwStaged := 0, fwUpd := false, fwDone := [] })

/-- Memory outside the device (R386). -/
def outside (a : Nat) : Bool := 0xE0 * 2 ^ 40 ≤ a
/-- The boot ROM verifies the image and logs its digest; where the verification fails, boot halts and the host links do not enumerate (R377). Whether the
image it finds is the genuine one of its version is open. -/
def State.boot (s : State) : State :=
  let real := Config.freeBool s.fresh 0x400
  { s with measLog := [imageDigest s.fwRun.toNat real], connected := imageOk s.fwRun.toNat real }
/-- Cold reset: every state at its reset value; memory outside the device stands (R18), and firmware boots (R377). The count that numbers free values goes
on. -/
def execColdReset (s : State) : Out :=
  .next { State.reset with fresh := s.fresh, mem := s.mem.filter fun e => outside e.1, fwRun := s.fwRun }.boot

/-- Warm reset (R370, R385): column DRAM, quarantine and QUA bits are kept, the partition map is restored from its copy, key slots are zeroised,
and everything else is at its reset value. Of a COMMITTED version, the lines already merged stand. -/
def execWarmReset (s : State) : Out :=
  .next (
    let ls := s.versions.flatMap fun v => if v.2.st == .committed then v.2.lines.map (·.1) else []
    let s := ls.foldl (fun t l => if Config.freeBool s.fresh (0x1000 + l) then t.mergeLine l else t) s
    let ks := (s.keys.filter fun e => e.2.quar).map fun e => (e.1, KeySlot.mk false true false [])
    State.boot { State.reset with
      fresh := s.fresh, now := s.now
      -- column DRAM as it stands, the quarantine bitmap in it
      mem := s.mem, poison := s.poison, eccu := s.eccu, encTags := s.encTags, wins := s.wins
      quarBase := s.quarBase, quarCores := s.quarCores
      -- sticky bits stay until a cold reset (R5)
      cores := (s.cores.filter fun e => e.2.vbus.fail || e.2.vbus.broken).map fun e =>
        (e.1, { Core.reset with vbus := { Vbus.reset with fail := e.2.vbus.fail, failS := e.2.vbus.failS, failD := e.2.vbus.failD } })
      fwErr := s.fwErr
      keys := ks
      partMap := s.mapCopy, mapCopy := s.mapCopy, left := s.left
      clusters := ((List.range 24).filter fun k => 8 ≤ mapEnt s.mapCopy k).map fun k => (k, { Cluster.reset with powered := true })
      vin := s.vin, pin := s.pin, tmax := s.tmax
      fwRun := s.fwRun })

/-- The host or a peer writes device memory (R209): a whole granule loses its poison, a part is merged and stays poisoned. -/
def execInboundPeerOrHostWrite (pa : Nat) (bytes : List (BitVec 8)) (s : State) : Out := .next ((s.physWrite pa bytes true).getD s)

/-- A dword of a queue context as its readers see it (R343). -/
def Queue.dword (q : Queue) (i : Nat) : Word :=
  match i with
  | 0 => BitVec.ofNat 64 (4096 * q.base.toNat)
  | 1 => BitVec.ofNat 64 (q.log2n + 2 ^ 5 * q.part + flagAt q.en 8 + flagAt q.priv 9 + 2 ^ 10 * q.wgt + 2 ^ 16 * q.state + flagAt q.link 19
      + flagAt q.dev 20 + flagAt q.evq 21 + 2 ^ 22 * q.vec + 2 ^ 24 * q.pass + 2 ^ 32 * q.torn)
  | 2 => BitVec.ofNat 64 (q.rd.toNat + 2 ^ 32 * q.wr.toNat)
  | 3 => BitVec.ofNat 64 (4096 * q.next.toNat + q.nlog2n)
  | 4 => q.cdone
  | _ => 0
/-- STATE of a launch-table entry (R352). -/
def LState.code : LState → Nat
  | .free => 0
  | .resolving => 1
  | .ready => 2
  | .bound => 3
  | .running => 4
  | .ended => 5
/-- A dword of a launch-table entry (R352). -/
def Launch.dword (l : Launch) (i : Nat) : Word :=
  if i = 0 then BitVec.ofNat 64 (l.st.code + 2 ^ 8 * l.ver + flagAt l.direct 16 + 2 ^ 24 * l.prio) else BitVec.ofNat 64 l.lrec

/-- Eight bytes of the front end's tables at a device address; none where a role reaches nothing there (R341). -/
def State.tableDw (s : State) (h a : Nat) : Option Word :=
  let mine := fun (p : Nat) => h == 0 || (h != 9 && p == h - 1)
  if 0x01000000 ≤ a && a < 0x01010000 then
    let q := s.qAt ((a - 0x01000000) / 64)
    if mine q.part then some (q.dword (a % 64 / 8)) else none
  else if 0x01010000 ≤ a && a < 0x01012000 then
    let l := s.lchAt ((a - 0x01010000) / 16)
    if mine l.part then some (l.dword (a % 16 / 8)) else none
  else none
/-- Bytes at an address of a Lamplighter core, read by a role (R341, R342). -/
def State.devRead (s : State) (h a n : Nat) : Option (List Byte × State) :=
  if a + n ≤ 0x40000 then some (tbytes (s.hartAt h).sram a n, s)
  else if 2 ^ 63 ≤ a && a + n ≤ 2 ^ 63 + 2 ^ 48 then
    if (span (a - 2 ^ 63) n).all (s.lampMay h) then s.physRead (a - 2 ^ 63) n else none
  else if n = 0 || 8 < a % 8 + n then none
  else (s.tableDw h (a / 8 * 8)).map fun w => ((leBytes 8 w.toNat).drop (a % 8) |>.take n, s)
/-- A dword of a queue context written by firmware: a write of N in dword 1, which `n` says this is, restarts or disables the queue (R343, R349). -/
def State.ctxWrite (s : State) (q i : Nat) (n : Bool) (w : Word) : State :=
  match i with
  | 0 => s.modQ q fun x => { x with base := BitVec.ofNat 52 (w.toNat / 4096) }
  | 1 => if n then s.queueSet q (4096 * (s.qAt q).base.toNat) w else s.queueFields q w
  | 2 =>
    let s := s.modQ q fun x => { (if x.evq then x.setRd (BitVec.ofNat 32 (bits w 0 32)) else x) with wr := BitVec.ofNat 32 (bits w 32 32) }
    s.flush (s.qAt q).part
  | 3 => s.queueNext q w false
  | _ => s
/-- Bytes at an address of a Lamplighter core, written by a role (R341, R342). -/
def State.devWrite (s : State) (h a : Nat) (bs : List Byte) : Option State :=
  let n := bs.length
  if a + n ≤ 0x40000 then some (s.modHart h fun x => { x with sram := twrite x.sram a bs })
  else if 2 ^ 63 ≤ a && a + n ≤ 2 ^ 63 + 2 ^ 48 then
    if (span (a - 2 ^ 63) n).all (s.lampMay h) then s.physWrite (a - 2 ^ 63) bs false else none
  else if n = 0 || 8 < a % 8 + n then none
  else (s.tableDw h (a / 8 * 8)).map fun w =>
    -- entries of the launch table are read-only (R352)
    if 0x01010000 ≤ a then s
    else
      let old := leBytes 8 w.toNat
      s.ctxWrite ((a - 0x01000000) / 64) (a % 64 / 8) (a % 8 ≤ 1 && 1 < a % 8 + n) (ofBytes64 (old.take (a % 8) ++ bs ++ old.drop (a % 8 + n)))

/-- A value loaded into a register of a Lamplighter core. -/
def State.rvPut (s : State) (h : Nat) (rd : BitVec 5) (v : Word) : State := s.modHart h fun x => x.put rd v

/-- A load, store, `amoadd.d` or fence of a Lamplighter core reaches the device (R341, R342): performed at the home of its line, as a strong
access at `.s`; where its role reaches nothing, a RISC-V access fault. -/
def execLamplighterDeviceAccess (hart : Nat) (acc : DevAcc) (s : State) : Out :=
  .next (
    if 10 ≤ hart then s
    else match acc with
    | .load a n sx rd =>
      if n != 1 && n != 2 && n != 4 && n != 8 then s
      else match s.devRead hart a n with
      | none => s.rvTrap hart 5 (BitVec.ofNat 64 a)
      | some (bs, s1) =>
        let v := leNat bs
        s1.rvPut hart rd (BitVec.ofNat 64 (if sx && v.testBit (8 * n - 1) then v + 2 ^ 64 - 2 ^ (8 * n) else v))
    | .store a bs => match s.devWrite hart a bs with
      | none => s.rvTrap hart 7 (BitVec.ofNat 64 a)
      | some s1 => s1
    | .amoadd a x rd => match s.devRead hart a 8 with
      | none => s.rvTrap hart 7 (BitVec.ofNat 64 a)
      | some (bs, s1) => match s1.devWrite hart a (leBytes 8 (ofBytes64 bs + x).toNat) with
        | none => s.rvTrap hart 7 (BitVec.ofNat 64 a)
        | some s2 => s2.rvPut hart rd (ofBytes64 bs)
    | .fence => s)

/-- The timer of a Lamplighter core: TIMER is raised (R355). -/
def execLxTimerSignal (hart : Nat) (s : State) : Out := .next (if hart < 10 then s.signal hart 5 else s)

end Sys2Proof.Machine
end

