-- ==== Sys2Proof/Machine/LaneCtl.lean ====
section
/-!
DEFINITION. Sys2Proof/Machine/LaneCtl.lean: lane control, lane opcodes 0x48 to 0x4F (R125 to R134).
-/
namespace Sys2Proof.Machine

/-- A failure of the acting group's lane stream: an assertion, or an implicit one (R126, R129). In lantern mode it is suppressed and counted. -/
def State.lFail (s : State) (x : Lane) (t : Nat) (msg : Word) : State :=
  s.deliver s.core s.slot { s.lTrap .assert 0 false x.pc x.e x.e t with msg := msg }
/-- An implicit failure (R126): in lantern mode it is suppressed, and the mode ends (R133). -/
def State.lFault (s : State) (x : Lane) (t : Nat) : State := if s.grp.inLan then (s.modG Group.suppress).lanEnd else s.lFail x t 0

/-- Threads of a group changed. -/
def Group.modThrs (g : Group) (ts : List Nat) (f : Thread → Thread) : Group := ts.foldl (fun g t => g.modThr t f) g

/-- A block in which no thread runs has ended and leaves the lane queue (R121). -/
def Group.blockEnd (g : Group) : Group := if g.running.isEmpty then { g with lq := g.lq.tail, lrun := false, lPark := none } else g

/-- A control instruction completes: the executing threads change, the other active ones fall through (R126, R128). -/
def State.lMove (s : State) (sw : Bool) (x : Lane) (f : Thread → Thread) : State :=
  (s.modG fun g => (g.moveTo (x.f.filter fun t => !x.e.contains t) (lnext x.pc)).modThrs x.e f |>.blockEnd).lGo sw

/-- A control instruction under a guard; a dark guard ends lantern mode, and an empty execute mask has no effect (R126, R132, R133). -/
def State.lCtl (s : State) (h : LHdr) (k : State → Lane → State) : State :=
  s.lane h fun s x => if s.guardDark h x.f then s.lanEnd else if x.e.isEmpty then s.lDone h.sw x else k s x

/-- `lbr` (R126). -/
def execLbr (h : LHdr) (off : BitVec 32) (s : State) : Out :=
  .next (s.lCtl h fun s x =>
    let p := x.pc + off.signExtend 64
    if !lvalid p then s.lRaise x .align 0 false x.e else s.lMove h.sw x fun th => { th with pc := p })

/-- `ljmp` (R126): one target for every executing thread. -/
def execLjmp (h : LHdr) (a : Sel) (imm : BitVec 32) (s : State) : Out :=
  .next (s.lCtl h fun s x =>
    let v := fun (t : Nat) => s.op32 imm t a
    let p := s.lch.lcb + (v x.first).zeroExtend 64
    if x.e.any fun t => s.selDark false t a then s.lanEnd
    else if !lvalid p then s.lRaise x .align 0 false x.e
    else if x.e.any fun t => s.selBad false t a then s.lRaise x .poison 0 false x.e
    else match x.e.find? fun t => v t != v x.first with
      | some t => s.lFault x t
      | none => s.lMove h.sw x fun th => { th with pc := p })

/-- `lcall` (R126): a ninth level fails. -/
def execLcall (h : LHdr) (off : BitVec 32) (s : State) : Out :=
  .next (s.lCtl h fun s x =>
    let p := x.pc + off.signExtend 64
    if !lvalid p then s.lRaise x .align 0 false x.e
    else match x.e.find? fun t => 8 ≤ (s.grp.thrAt t).rs.length with
      | some t => s.lFault x t
      | none => s.lMove h.sw x fun th => { th with pc := p, rs := lnext x.pc :: th.rs })

/-- `lret` (R126): an empty return stack fails. -/
def execLret (h : LHdr) (s : State) : Out :=
  .next (s.lCtl h fun s x =>
    match x.e.find? fun t => (s.grp.thrAt t).rs.isEmpty with
    | some t => s.lFault x t
    | none => s.lMove h.sw x fun th => { th with pc := (th.rs.head?).getD 0, rs := th.rs.tail })

/-- `lend` (R128); in lantern mode it ends the mode (R133). -/
def execLend (h : LHdr) (s : State) : Out :=
  .next (s.lane h fun s x =>
    if x.e.isEmpty then s.lDone h.sw x
    else if s.grp.inLan then s.lanEnd
    else s.lMove h.sw x fun th => { th with st := .finished, rs := [] })

/-- `lkill` (R128); suppressed in lantern mode (R133). -/
def execLkill (h : LHdr) (s : State) : Out :=
  .next (s.lane h fun s x =>
    if x.e.isEmpty then s.lDone h.sw x
    else if s.grp.inLan then s.lSuppress h.sw x
    else s.lMove h.sw x fun th => { th with st := .killed, rs := [] })

/-- The bit of `lmask` for a thread: `g` its guard as a source, `m` its bit of the mask (R130). -/
def MaskMode.bit (mode : MaskMode) (g m : Bool) : Bool :=
  match mode with
  | .set => m
  | .and => g && m
  | .or => g || m
  | .andn => g && !m

/-- `lmask` (R130): the guard is a source, and every active thread is written. R130 names the thread that supplies m for a vector register only; where a selects
a predicate, it is the one of t_1 too, the lowest thread of F: the model's choice, log entry 76. -/
def execLmask (h : LHdr) (mode : MaskMode) (d : BitVec 3) (a : Sel) (imm : BitVec 32) (s : State) : Out :=
  .next (match s.grp.active with
    | none => s
    | some (pc, f) =>
      let x : Lane := ⟨pc, f, f, h.sw, s.grp.stays⟩
      let t1 := x.first
      let m := s.op32 imm t1 a
      let gd := fun (t : Nat) => s.rP t h.prd.toNat != h.neg
      let lan := s.grp.inLan
      let dark := fun (t : Nat) => s.selDark false t1 a || (mode != .set && s.grp.pDark t h.prd.toNat)
      if s.selBad false t1 a then
        if lan then (s.modG fun g => f.foldl (fun g t => g.setPDark t d.toNat true) g).lSuppress h.sw x else s.lRaise x .poison 0 false f
      else
        let good := f.filter fun t => !(s.pBadR t h.prd.toNat || d != 0 && s.grp.work.pBad t)
        let s := s.modG fun g =>
          let g := good.foldl (fun g t => (g.modWork fun p => p.wp t d.toNat (MaskMode.bit mode (gd t) (m.getLsbD t)))) g
          if lan then f.foldl (fun g t => g.setPDark t d.toNat (dark t || !good.contains t)) g else g
        s.lEnd h.sw x ((f.filter fun t => !good.contains t).map fun t => ⟨t, .poison, 0, false⟩))

/-- `lassert` (R129): the context stops at the lowest thread whose condition is zero; a poisoned source in another thread raises POISON, the lower code,
for every thread that did not pass (R152). -/
def execLassert (h : LHdr) (a b : Sel) (imm : BitVec 32) (s : State) : Out :=
  .next (s.lane h fun s x =>
    if x.e.isEmpty then s.lDone h.sw x
    else if s.grp.inLan then s.lSuppress h.sw x
    else
      let bad := x.e.filter fun t => s.anyBad [(a, false), (b, true)] t
      let zero := x.e.filter fun t => !bad.contains t && s.op32 imm t a == 0
      match bad, zero with
      | [], t :: _ => s.lFail x t (s.op64 imm t b)
      | _, _ => s.lEnd h.sw x (bad.map (fun t => ⟨t, .poison, 0, false⟩) ++ zero.map fun t => ⟨t, .assert, 0, false⟩))

end Sys2Proof.Machine
end

