-- ==== Sys2Proof/Machine/LaneFloat.lean ====
section
/-!
DEFINITION. Sys2Proof/Machine/LaneFloat.lean: lane float instructions, packed halves, eight-bit floats and block quantisation, lane opcodes 0x28 to
0x47 (R104 to R118).
-/
namespace Sys2Proof.Machine

/-- An FP32 instruction, per thread: its sources as codes, read and its result written under `.ftz` (R98, R106). -/
def State.lF32 (s : State) (h : LHdr) (slow ftz : Bool) (imm : BitVec 32) (srcs : List Sel) (d : VReg) (f : (Sel → Nat) → Nat) : State :=
  let xs := srcs.map fun x => (x, false)
  s.lMap h slow (s.anyBad xs) (s.anyDark xs) fun t =>
    [.v t d.toNat (BitVec.ofNat 32 (ftzOut ftz (f fun x => ftzIn ftz (s.opF fp32 imm t x))))]

/-- `fadd` (R106). -/
def execFadd (h : LHdr) (ftz : Bool) (rm : Rm) (d : VReg) (a b : Sel) (imm : BitVec 32) (s : State) : Out :=
  .next (s.lF32 h false ftz imm [a, b] d fun v => fp32.addC rm (v a) (v b))
/-- `fsub` (R106). -/
def execFsub (h : LHdr) (ftz : Bool) (rm : Rm) (d : VReg) (a b : Sel) (imm : BitVec 32) (s : State) : Out :=
  .next (s.lF32 h false ftz imm [a, b] d fun v => fp32.subC rm (v a) (v b))
/-- `fmul` (R106). -/
def execFmul (h : LHdr) (ftz : Bool) (rm : Rm) (d : VReg) (a b : Sel) (imm : BitVec 32) (s : State) : Out :=
  .next (s.lF32 h false ftz imm [a, b] d fun v => fp32.mulC rm (v a) (v b))
/-- `ffma` (R106): rounded once. -/
def execFfma (h : LHdr) (ftz : Bool) (rm : Rm) (d : VReg) (a b c : Sel) (imm : BitVec 32) (s : State) : Out :=
  .next (s.lF32 h false ftz imm [a, b, c] d fun v => fp32.fmaC rm (v a) (v b) (v c))
/-- `fmin` (R107). -/
def execFmin (h : LHdr) (ftz : Bool) (d : VReg) (a b : Sel) (imm : BitVec 32) (s : State) : Out :=
  .next (s.lF32 h false ftz imm [a, b] d fun v => fp32.minmaxC false (v a) (v b))
/-- `fmax` (R107). -/
def execFmax (h : LHdr) (ftz : Bool) (d : VReg) (a b : Sel) (imm : BitVec 32) (s : State) : Out :=
  .next (s.lF32 h false ftz imm [a, b] d fun v => fp32.minmaxC true (v a) (v b))
/-- `fabs` (R106). -/
def execFabs (h : LHdr) (d : VReg) (a : Sel) (imm : BitVec 32) (s : State) : Out :=
  .next (s.lF32 h false false imm [a] d fun v => fp32.absC (v a))
/-- `fneg` (R106). -/
def execFneg (h : LHdr) (d : VReg) (a : Sel) (imm : BitVec 32) (s : State) : Out :=
  .next (s.lF32 h false false imm [a] d fun v => fp32.negC (v a))
/-- `fcmp` (R107). -/
def execFcmp (h : LHdr) (fc : FCond) (ftz : Bool) (d : Dst) (a b : Sel) (imm : BitVec 32) (s : State) : Out :=
  .next (
    let xs := [(a, false), (b, false)]
    s.lMap h false (s.anyBad xs) (s.anyDark xs) fun t =>
      Dst.put d t (b2w 32 (fp32.cmpC fc (ftzIn ftz (s.opF fp32 imm t a)) (ftzIn ftz (s.opF fp32 imm t b)))))
/-- A source of a float format: a pair for FP64 (R36, R107, R111). -/
def State.opFmt (s : State) (fmt : FFmt) (imm : BitVec 32) (t : Nat) (a : Sel) : Nat :=
  match fmt with
  | .d => s.opD imm t a
  | f => s.opF (fpOf f) imm t a
/-- `fclass` (R107). -/
def execFclass (h : LHdr) (fmt : FFmt) (d : VReg) (a : Sel) (imm : BitVec 32) (s : State) : Out :=
  .next (
    let xs := [(a, fmt == .d)]
    s.lMap h false (s.anyBad xs) (s.anyDark xs) fun t => [.v t d.toNat (BitVec.ofNat 32 ((fpOf fmt).cls (s.opFmt fmt imm t a)))])
/-- `frcp` (R106, R108): variable-latency. -/
def execFrcp (h : LHdr) (ftz : Bool) (rm : Rm) (d : VReg) (a : Sel) (imm : BitVec 32) (s : State) : Out :=
  .next (s.lF32 h true ftz imm [a] d fun v => fp32.rcpC rm (v a))
/-- `frsq` (R106, R108): variable-latency. -/
def execFrsq (h : LHdr) (ftz : Bool) (rm : Rm) (d : VReg) (a : Sel) (imm : BitVec 32) (s : State) : Out :=
  .next (s.lF32 h true ftz imm [a] d fun v => fp32.rsqrt rm (fp32.dec (v a)))
/-- `fsqrt` (R106, R108): variable-latency. -/
def execFsqrt (h : LHdr) (ftz : Bool) (rm : Rm) (d : VReg) (a : Sel) (imm : BitVec 32) (s : State) : Out :=
  .next (s.lF32 h true ftz imm [a] d fun v => fp32.sqrt rm (fp32.dec (v a)))
/-- `fdiv` (R106, R108): variable-latency. -/
def execFdiv (h : LHdr) (ftz : Bool) (rm : Rm) (d : VReg) (a b : Sel) (imm : BitVec 32) (s : State) : Out :=
  .next (s.lF32 h true ftz imm [a, b] d fun v => fp32.div rm (fp32.dec (v a)) (fp32.dec (v b)))
/-- `fexp2` (R106, R108): variable-latency; log entry 7. -/
def execFexp2 (h : LHdr) (ftz : Bool) (rm : Rm) (d : VReg) (a : Sel) (imm : BitVec 32) (s : State) : Out :=
  .next (s.lF32 h true ftz imm [a] d fun v => fp32.exp2 rm (fp32.dec (v a)))
/-- `flog2` (R106, R108): variable-latency; log entry 7. -/
def execFlog2 (h : LHdr) (ftz : Bool) (rm : Rm) (d : VReg) (a : Sel) (imm : BitVec 32) (s : State) : Out :=
  .next (s.lF32 h true ftz imm [a] d fun v => fp32.log2 rm (fp32.dec (v a)))
/-- `fround` (R109). -/
def execFround (h : LHdr) (ftz : Bool) (rm : Rm) (d : VReg) (a : Sel) (imm : BitVec 32) (s : State) : Out :=
  .next (s.lF32 h false ftz imm [a] d fun v => fp32.enc rm (FV.round rm (fp32.dec (v a))))
/-- `fscale` (R109): b is a signed integer. -/
def execFscale (h : LHdr) (ftz : Bool) (rm : Rm) (d : VReg) (a b : Sel) (imm : BitVec 32) (s : State) : Out :=
  .next (
    let xs := [(a, false), (b, false)]
    s.lMap h false (s.anyBad xs) (s.anyDark xs) fun t =>
      [.v t d.toNat (BitVec.ofNat 32 (ftzOut ftz (fp32.enc rm ((fp32.dec (ftzIn ftz (s.opF fp32 imm t a))).scale (s.op32 imm t b).toInt))))])
/-- `fgetexp` (R109): an integer result. -/
def execFgetexp (h : LHdr) (ftz : Bool) (d : VReg) (a : Sel) (imm : BitVec 32) (s : State) : Out :=
  .next (
    let xs := [(a, false)]
    s.lMap h false (s.anyBad xs) (s.anyDark xs) fun t => [.v t d.toNat (BitVec.ofInt 32 (getexp (ftzIn ftz (s.opF fp32 imm t a))))])
/-- `f2i` (R110). -/
def execF2i (h : LHdr) (u : Bool) (rm : Rm) (d : VReg) (a : Sel) (imm : BitVec 32) (s : State) : Out :=
  .next (
    let xs := [(a, false)]
    s.lMap h false (s.anyBad xs) (s.anyDark xs) fun t =>
      [.v t d.toNat (BitVec.ofInt 32 ((fp32.dec (s.opF fp32 imm t a)).toInt rm (if u then 0 else -(2 ^ 31))
        (if u then 2 ^ 32 - 1 else 2 ^ 31 - 1)))])
/-- `i2f` (R110). -/
def execI2f (h : LHdr) (u : Bool) (rm : Rm) (d : VReg) (a : Sel) (imm : BitVec 32) (s : State) : Out :=
  .next (s.lInt h imm [a] fun t v =>
    [.v t d.toNat (BitVec.ofNat 32 (fp32.enc rm (FV.ofInt (if u then ((v a).toNat : Int) else (v a).toInt))))])
/-- `fcvt` (R111). -/
def execFcvt (h : LHdr) (tgt frm : FFmt) (rm : Rm) (d : VReg) (a : Sel) (imm : BitVec 32) (s : State) : Out :=
  .next (
    let xs := [(a, frm == .d)]
    s.lMap h false (s.anyBad xs) (s.anyDark xs) fun t =>
      let c := cvtCode (fpOf tgt) (fpOf frm) rm (s.opFmt frm imm t a)
      if tgt == .d then putPair d t (BitVec.ofNat 64 c) else [.v t d.toNat (BitVec.ofNat 32 c)])

/-- The half format (R112). -/
def halfFmt (bf : Bool) : Fp := if bf then bf16 else fp16
/-- Two halves as a packed word. -/
def pack2 (lo hi : Nat) : BitVec 32 := BitVec.ofNat 32 (hi * 65536 + lo)
/-- Half `i` of a packed word as a code. -/
def half (x : BitVec 32) (i : Nat) : Nat := x.toNat / 65536 ^ i % 65536
/-- `fpack2` (R112). -/
def execFpack2 (h : LHdr) (bf : Bool) (rm : Rm) (d : VReg) (a b : Sel) (imm : BitVec 32) (s : State) : Out :=
  .next (
    let xs := [(a, false), (b, false)]
    s.lMap h false (s.anyBad xs) (s.anyDark xs) fun t =>
      let c := fun x => cvtCode (halfFmt bf) fp32 rm (s.opF fp32 imm t x)
      [.v t d.toNat (pack2 (c a) (c b))])
/-- A packed-half instruction: each half on its own (R112). -/
def State.lHalf (s : State) (h : LHdr) (bf : Bool) (imm : BitVec 32) (srcs : List Sel) (d : VReg) (f : (Sel → Nat) → Nat) : State :=
  let xs := srcs.map fun x => (x, false)
  s.lMap h false (s.anyBad xs) (s.anyDark xs) fun t =>
    let v := fun (i : Nat) (x : Sel) => half (s.opH (halfFmt bf) imm t x) i
    [.v t d.toNat (pack2 (f (v 0)) (f (v 1)))]
/-- `hadd2` (R112). -/
def execHadd2 (h : LHdr) (bf : Bool) (rm : Rm) (d : VReg) (a b : Sel) (imm : BitVec 32) (s : State) : Out :=
  .next (s.lHalf h bf imm [a, b] d fun v => (halfFmt bf).addC rm (v a) (v b))
/-- `hmul2` (R112). -/
def execHmul2 (h : LHdr) (bf : Bool) (rm : Rm) (d : VReg) (a b : Sel) (imm : BitVec 32) (s : State) : Out :=
  .next (s.lHalf h bf imm [a, b] d fun v => (halfFmt bf).mulC rm (v a) (v b))
/-- `hfma2` (R112). -/
def execHfma2 (h : LHdr) (bf : Bool) (rm : Rm) (d : VReg) (a b c : Sel) (imm : BitVec 32) (s : State) : Out :=
  .next (s.lHalf h bf imm [a, b, c] d fun v => (halfFmt bf).fmaC rm (v a) (v b) (v c))

/-- `qpack` (R114): the block of one element per thread; variable-latency. -/
def execQpack (h : LHdr) (i8 fix : Bool) (d : VReg) (a b : Sel) (imm : BitVec 32) (s : State) : Out :=
  .next (
    let blk := fun (x : Lane) =>
      let es := (List.range 32).map fun t => if x.e.contains t then fp32.dec (s.opF fp32 imm t a) else .fin false 0 0
      let q := if fix then quantFix i8 ((s.op32 imm x.first b).toNat % 256) es else quantise i8 es
      (q.1, packCodes i8 q.2)
    let dark := fun (x : Lane) (_ : Nat) => (x.e.any fun t => s.selDark false t a) || (fix && s.selDark false x.first b)
    s.lXchg h true (if fix then [(a, false), (b, false)] else [(a, false)]) dark fun x =>
      let q := blk x
      fun t =>
        let w := t % (if i8 then 8 else 4)
        [.v t d.toNat (ofBytes32 ((q.2.drop (4 * w)).take 4)), .v t (d.toNat + 1) (BitVec.ofNat 32 q.1)])
/-- `qunpack` (R115). -/
def execQunpack (h : LHdr) (i8 : Bool) (d : VReg) (a b c : Sel) (imm : BitVec 32) (s : State) : Out :=
  .next (s.lInt h imm [a, b, c] fun t v =>
    let bs := leBytes 4 (v a).toNat
    let g := (v c).toNat % 256
    let es := blockVals i8 g (if i8 then bs.map (·.toNat) else nibsOf bs)
    [.v t d.toNat (BitVec.ofNat 32 (fp32.enc .rn (lget .nan es ((v b).toNat % (if i8 then 4 else 8)))))])
/-- `f8pack` (R113). -/
def execF8pack (h : LHdr) (e5 sat hi : Bool) (rm : Rm) (d : VReg) (a b c : Sel) (imm : BitVec 32) (s : State) : Out :=
  .next (
    let xs := [(a, false), (b, false), (c, false)]
    s.lMap h false (s.anyBad xs) (s.anyDark xs) fun t =>
      let cv := fun x => f8enc e5 sat rm (fp32.dec (s.opF fp32 imm t x))
      let new := cv a + 256 * cv b
      let old := (s.op32 imm t c).toNat
      [.v t d.toNat (BitVec.ofNat 32 (if hi then old % 65536 + 65536 * new else old / 65536 * 65536 + new))])
/-- `f8unpack` (R113). -/
def execF8unpack (h : LHdr) (e5 : Bool) (d : VReg) (a b : Sel) (imm : BitVec 32) (s : State) : Out :=
  .next (s.lInt h imm [a, b] fun t v =>
    [.v t d.toNat (BitVec.ofNat 32 (fp32.enc .rn (f8dec e5 (byteOf (v a) ((v b).toNat % 4)).toNat)))])
/-- `dadd` (R116). -/
def execDadd (h : LHdr) (rm : Rm) (d : VReg) (a b : Sel) (imm : BitVec 32) (s : State) : Out :=
  .next (
    let xs := [(a, true), (b, true)]
    s.lMap h false (s.anyBad xs) (s.anyDark xs) fun t => putPair d t (BitVec.ofNat 64 (fp64.addC rm (s.opD imm t a) (s.opD imm t b))))
/-- `dfma` (R116): rounded once. -/
def execDfma (h : LHdr) (rm : Rm) (d : VReg) (a b c : Sel) (imm : BitVec 32) (s : State) : Out :=
  .next (
    let xs := [(a, true), (b, true), (c, true)]
    s.lMap h false (s.anyBad xs) (s.anyDark xs) fun t =>
      putPair d t (BitVec.ofNat 64 (fp64.fmaC rm (s.opD imm t a) (s.opD imm t b) (s.opD imm t c))))

end Sys2Proof.Machine
end

