-- ==== Sys2Proof/Machine/LaunchIns.lean ====
section
/-!
DEFINITION. Sys2Proof/Machine/LaunchIns.lean: launch and transaction instructions, scalar opcodes 0x4E to 0x51 (R299 to R305).
-/
namespace Sys2Proof.Machine

/-- ISSUED of a launch outcome record counts (R301). -/
def State.launchIssued (s : State) (wick : Wick) : State :=
  s.modG fun g => let r := g.ls wick; g.setLs wick { r with issued := r.issued + 1 }
/-- A launch packet may be written into a queue for a partition (R300). -/
def State.dqOk (s : State) (q part : Nat) : Bool :=
  let x := s.qAt q
  q < 1024 && x.part == part && x.en && x.state == 1 && x.dev

/-- `launch` past its checks (R300, R329, R388): a deferred child under a transactional launch, otherwise a packet in the ring; the child of a stepped `launch` is
kept queued. -/
def State.launchGo (s : State) (sw done : Bool) (wick : Wick) (lrec : Word) (q : Nat) : State :=
  let l := s.lch
  let by_ : Issuer := ⟨l.order, s.core, s.slot, s.grp.cohort, wick, done, s.stepped s.core s.slot false⟩
  let bad := fun (s : State) => ((s.launchIssued wick).retireChild by_ (.plain 2 0 0x26) 0 false).sDone sw
  let s := (s.drainBuf s.core s.slot).release s.core .s
  if !s.dqOk q l.part then bad s
  else if !l.direct then
    if s.quotaUsed s.grp.lid < s.quotaMax s.grp.lid then
      ((s.modLch s.grp.lid fun l => { l with deferred := l.deferred ++ [⟨by_, lrec, q⟩] }).launchIssued wick).sDone sw
    else s.quotaNote.sStall .launch
  else match s.push l.part q lrec by_ with
    | .badq s => bad s
    | .wait s => s.sStall .launch
    | .ok s =>
      let s := s.launchIssued wick
      (if done then s.modG fun g => g.setWick wick (g.wick wick + 1) else s).sDone sw

/-- `launch` (R300, R305). -/
def execLaunch (sw done : Bool) (ra : SReg) (wick : Wick) (s : State) : Out :=
  .next (
    let lrec := s.rS ra
    if s.grp.inLan then s.sSuppress sw
    else s.sChecks sw [(lrec.toNat % 64 != 0, .align), (done && !s.lch.direct, .prot), (s.sPoi [ra, ra + 1], .poison)]
      (if s.grp.wick wick = 0xFFFF then s.sStall .launch
      else s.launchGo sw done wick lrec ((s.rRun ra 1).toNat % 1024)))

/-- `gsig` (R303, R305). -/
def execGsig (sw : Bool) (ra : SReg) (s : State) : Out :=
  .next (
    let ea := s.rS ra
    let poi := s.sPoi [ra, ra + 1]
    if s.grp.inLan then s.sSuppress sw
    else if s.inHold ea.toNat then s.sRaiseAt sw .priv ea false
    else if ea.toNat % 8 != 0 then s.sRaiseAt sw .align ea false
    else if s.walkWaits (some s.core) s.prt ea.toNat then (if poi then s.sRaise sw .poison else s.sStall .other)
    else match s.xlate (some s.core) s.prt ea.toNat true with
      | (.bad c w, s1) => (if poi && 7 < c.code then s else s1).sRaiseAt sw (worst poi c) ea w
      | (.ok pa key, s1) =>
        if poi then s.sRaise sw .poison
        else if !s.lch.direct && s.quotaMax s.grp.lid ≤ s.quotaUsed s.grp.lid then s.quotaNote.sStall .other
        else (s1.modLch s.grp.lid fun l => { l with gsigs := l.gsigs ++ [⟨s.core, s.slot, pa, s.rRun ra 1, key⟩] }).sDone sw)

/-- The two words of a launch outcome record (R301). -/
def LStat.words (r : LStat) : Word × Word :=
  (BitVec.ofNat 64 (r.issued.toNat + 2 ^ 16 * r.failed.toNat + 2 ^ 32 * r.cause.toNat + 2 ^ 40 * r.detail.toNat + 2 ^ 48 * r.ver.toNat),
    BitVec.ofNat 64 (r.code.toNat + 2 ^ 16 * r.committed.toNat))
/-- The code of a version's state (R292). -/
def VState.code : VState → Nat
  | .free => 0
  | .running => 1
  | .complete => 2
  | .committed => 3
  | .aborted => 4
/-- The two words of the issuing launch's state (R302). -/
def State.selfWords (s : State) : Word × Word :=
  let l := s.lch
  if l.direct then (BitVec.ofNat 64 (2 ^ 8 + 2 ^ 11), 0)
  else
    let v := s.verAt l.part l.ver
    (BitVec.ofNat 64 (l.ver + 2 ^ 8 * v.st.code + 2 ^ 32 * s.quotaUsed s.grp.lid), BitVec.ofNat 64 v.units)

/-- `tstat` (R302, R305): it executes in lantern mode as outside it. -/
def execTstat (sw self clr : Bool) (ra : SReg) (wick : Wick) (s : State) : Out :=
  .next (
    let w := if self then s.selfWords else (s.grp.ls wick).words
    let s := (s.wS ra w.1 false).wS (ra + 1) w.2 false
    (if clr && !self then s.modG fun g => g.setLs wick ⟨0, 0, 0, 0, 0, 0, 0⟩ else s).sDone sw)

/-- `tabort` (R304, R305). -/
def execTabort (sw : Bool) (ra : SReg) (s : State) : Out :=
  .next (if s.grp.inLan then s.sSuppress sw
    else s.sRead sw [ra] fun s => s.endLaunch s.grp.lid { Ending.plain 1 0 0x22 with code := (s.rS ra).truncate 16 })

end Sys2Proof.Machine
end

