-- ==== Sys2Proof/Machine/ScalarFloat.lean ====
section
/-!
DEFINITION. Sys2Proof/Machine/ScalarFloat.lean: scalar float instructions, opcodes 0x60 to 0x6F (R74 to R76).
-/
namespace Sys2Proof.Machine

/-- The format of a scalar float word (R74). -/
def sfFmt (d : Bool) : Fp := if d then fp64 else fp32
/-- A register's low bits as a code of a format (R74). -/
def Fp.low (p : Fp) (x : Word) : Nat := x.toNat % 2 ^ (p.f + p.eb + 1)
/-- A code as a register value. -/
def fWord (c : Nat) : Word := BitVec.ofNat 64 c
/-- A scalar float instruction whose result is variable-latency (R41, R56). -/
def State.sSlow (s : State) (sw : Bool) (rd : SReg) (rs : List SReg) (x : Word) : State :=
  if s.sPoi rs then s.sCalc sw rd rs x else s.sLate sw [.s rd.toNat x] (s.sDrk rs && rd != 0) (s.grp.inLan && s.sDrk rs)
/-- A two-source float operation on the values of its sources. -/
def State.sf2 (s : State) (d : Bool) (ra rb : SReg) (f : Fp → Nat → Nat → Nat) : Word :=
  fWord (f (sfFmt d) ((sfFmt d).low (s.rS ra)) ((sfFmt d).low (s.rS rb)))
/-- A one-source float operation. -/
def State.sf1 (s : State) (d : Bool) (ra : SReg) (f : Fp → Nat → Nat) : Word := fWord (f (sfFmt d) ((sfFmt d).low (s.rS ra)))

/-- `sfadd` (R74). -/
def execSfadd (sw d : Bool) (rm : Rm) (rd ra rb : SReg) (s : State) : Out :=
  .next (s.sCalc sw rd [ra, rb] (s.sf2 d ra rb fun p => p.addC rm))
/-- `sfsub` (R74). -/
def execSfsub (sw d : Bool) (rm : Rm) (rd ra rb : SReg) (s : State) : Out :=
  .next (s.sCalc sw rd [ra, rb] (s.sf2 d ra rb fun p => p.subC rm))
/-- `sfmul` (R74). -/
def execSfmul (sw d : Bool) (rm : Rm) (rd ra rb : SReg) (s : State) : Out :=
  .next (s.sCalc sw rd [ra, rb] (s.sf2 d ra rb fun p => p.mulC rm))
/-- `sffma` (R74): rd is read too. -/
def execSffma (sw d : Bool) (rm : Rm) (rd ra rb : SReg) (s : State) : Out :=
  .next (s.sCalc sw rd [ra, rb, rd] (s.sf2 d ra rb fun p a b => p.fmaC rm a b (p.low (s.rS rd))))
/-- `sfmin` (R74). -/
def execSfmin (sw d : Bool) (rd ra rb : SReg) (s : State) : Out :=
  .next (s.sCalc sw rd [ra, rb] (s.sf2 d ra rb fun p => p.minmaxC false))
/-- `sfmax` (R74). -/
def execSfmax (sw d : Bool) (rd ra rb : SReg) (s : State) : Out :=
  .next (s.sCalc sw rd [ra, rb] (s.sf2 d ra rb fun p => p.minmaxC true))
/-- `sfcmp` (R75). -/
def execSfcmp (sw : Bool) (fc : FCond) (d : Bool) (rd ra rb : SReg) (s : State) : Out :=
  .next (s.sCalc sw rd [ra, rb] (s.sf2 d ra rb fun p a b => (p.cmpC fc a b).toNat))
/-- `sfcvt` (R74). -/
def execSfcvt (sw : Bool) (tgt frm : FFmt) (rm : Rm) (rd ra : SReg) (s : State) : Out :=
  .next (s.sCalc sw rd [ra] (fWord (cvtCode (fpOf tgt) (fpOf frm) rm ((fpOf frm).low (s.rS ra)))))
/-- `sf2i` (R76). -/
def execSf2i (sw u d : Bool) (rm : Rm) (rd ra : SReg) (s : State) : Out :=
  .next (s.sCalc sw rd [ra] (BitVec.ofInt 64 (((sfFmt d).dec ((sfFmt d).low (s.rS ra))).toInt rm
    (if u then 0 else -(2 ^ 63)) (if u then 2 ^ 64 - 1 else 2 ^ 63 - 1))))
/-- `si2f` (R76). -/
def execSi2f (sw u d : Bool) (rm : Rm) (rd ra : SReg) (s : State) : Out :=
  .next (s.sCalc sw rd [ra] (fWord ((sfFmt d).enc rm (FV.ofInt (if u then ((s.rS ra).toNat : Int) else (s.rS ra).toInt)))))
/-- `sfabs` (R74, R76): a NaN result is canonical. -/
def execSfabs (sw d : Bool) (rd ra : SReg) (s : State) : Out :=
  .next (s.sCalc sw rd [ra] (s.sf1 d ra fun p => p.absC))
/-- `sfneg` (R74, R76): a NaN result is canonical. -/
def execSfneg (sw d : Bool) (rd ra : SReg) (s : State) : Out :=
  .next (s.sCalc sw rd [ra] (s.sf1 d ra fun p => p.negC))
/-- `sfrcp` (R74): 1 ÷ a. -/
def execSfrcp (sw d : Bool) (rm : Rm) (rd ra : SReg) (s : State) : Out :=
  .next (s.sSlow sw rd [ra] (s.sf1 d ra fun p => p.rcpC rm))
/-- `sfsqrt` (R74). -/
def execSfsqrt (sw d : Bool) (rm : Rm) (rd ra : SReg) (s : State) : Out :=
  .next (s.sSlow sw rd [ra] (s.sf1 d ra fun p a => p.sqrt rm (p.dec a)))
/-- `sfdiv` (R74). -/
def execSfdiv (sw d : Bool) (rm : Rm) (rd ra rb : SReg) (s : State) : Out :=
  .next (s.sSlow sw rd [ra, rb] (s.sf2 d ra rb fun p a b => p.div rm (p.dec a) (p.dec b)))
/-- `sfround` (R74): an integral value in the same format. -/
def execSfround (sw d : Bool) (rm : Rm) (rd ra : SReg) (s : State) : Out :=
  .next (s.sCalc sw rd [ra] (s.sf1 d ra fun p a => p.enc rm (FV.round rm (p.dec a))))

end Sys2Proof.Machine
end

