-- ==== Sys2Proof/Machine/ScalarInt.lean ====
section
/-!
DEFINITION. Sys2Proof/Machine/ScalarInt.lean: the integer and address class, scalar opcodes 0x00 to 0x27 (R57 to R60).
-/
namespace Sys2Proof.Machine

/-- `nop` (R59). -/
def execNop (sw : Bool) (s : State) : Out := .next (s.sDone sw)

/-- `add` (R59): sum modulo 2^64. -/
def execAdd (sw : Bool) (rd ra rb : SReg) (s : State) : Out :=
  .next (s.sCalc sw rd [ra, rb] (s.rS ra + s.rS rb))

/-- `sub` (R59): difference modulo 2^64. -/
def execSub (sw : Bool) (rd ra rb : SReg) (s : State) : Out :=
  .next (s.sCalc sw rd [ra, rb] (s.rS ra - s.rS rb))

/-- `mul` (R59): low half of the product. -/
def execMul (sw : Bool) (rd ra rb : SReg) (s : State) : Out :=
  .next (s.sCalc sw rd [ra, rb] (s.rS ra * s.rS rb))

/-- `mulhu` (R59): high half of the unsigned product. -/
def execMulhu (sw : Bool) (rd ra rb : SReg) (s : State) : Out :=
  .next (s.sCalc sw rd [ra, rb] (Machine.mulhu (s.rS ra) (s.rS rb)))

/-- `mulhs` (R59): high half of the signed product. -/
def execMulhs (sw : Bool) (rd ra rb : SReg) (s : State) : Out :=
  .next (s.sCalc sw rd [ra, rb] (Machine.mulhs (s.rS ra) (s.rS rb)))

/-- `divu` (R59): unsigned quotient. -/
def execDivu (sw : Bool) (rd ra rb : SReg) (s : State) : Out :=
  .next (s.sCalc sw rd [ra, rb] (Machine.divu (s.rS ra) (s.rS rb)))

/-- `divs` (R59): signed quotient. -/
def execDivs (sw : Bool) (rd ra rb : SReg) (s : State) : Out :=
  .next (s.sCalc sw rd [ra, rb] (Machine.divs (s.rS ra) (s.rS rb)))

/-- `remu` (R59): unsigned remainder. -/
def execRemu (sw : Bool) (rd ra rb : SReg) (s : State) : Out :=
  .next (s.sCalc sw rd [ra, rb] (Machine.remu (s.rS ra) (s.rS rb)))

/-- `rems` (R59): signed remainder. -/
def execRems (sw : Bool) (rd ra rb : SReg) (s : State) : Out :=
  .next (s.sCalc sw rd [ra, rb] (Machine.rems (s.rS ra) (s.rS rb)))

/-- `and` (R59): bitwise AND. -/
def execAnd (sw : Bool) (rd ra rb : SReg) (s : State) : Out :=
  .next (s.sCalc sw rd [ra, rb] (s.rS ra &&& s.rS rb))

/-- `or` (R59): bitwise OR. -/
def execOr (sw : Bool) (rd ra rb : SReg) (s : State) : Out :=
  .next (s.sCalc sw rd [ra, rb] (s.rS ra ||| s.rS rb))

/-- `xor` (R59): bitwise XOR. -/
def execXor (sw : Bool) (rd ra rb : SReg) (s : State) : Out :=
  .next (s.sCalc sw rd [ra, rb] (s.rS ra ^^^ s.rS rb))

/-- `andn` (R59): AND with the complement. -/
def execAndn (sw : Bool) (rd ra rb : SReg) (s : State) : Out :=
  .next (s.sCalc sw rd [ra, rb] (s.rS ra &&& ~~~(s.rS rb)))

/-- `shl` (R59): left shift by S[rb][5:0]. -/
def execShl (sw : Bool) (rd ra rb : SReg) (s : State) : Out :=
  .next (s.sCalc sw rd [ra, rb] (s.rS ra <<< ((s.rS rb).toNat % 64)))

/-- `shr` (R59): logical right shift by S[rb][5:0]. -/
def execShr (sw : Bool) (rd ra rb : SReg) (s : State) : Out :=
  .next (s.sCalc sw rd [ra, rb] (s.rS ra >>> ((s.rS rb).toNat % 64)))

/-- `sar` (R59): arithmetic right shift by S[rb][5:0]. -/
def execSar (sw : Bool) (rd ra rb : SReg) (s : State) : Out :=
  .next (s.sCalc sw rd [ra, rb] ((s.rS ra).sshiftRight ((s.rS rb).toNat % 64)))

/-- `minu` (R59): unsigned minimum. -/
def execMinu (sw : Bool) (rd ra rb : SReg) (s : State) : Out :=
  .next (s.sCalc sw rd [ra, rb] (Machine.minu (s.rS ra) (s.rS rb)))

/-- `mins` (R59): signed minimum. -/
def execMins (sw : Bool) (rd ra rb : SReg) (s : State) : Out :=
  .next (s.sCalc sw rd [ra, rb] (Machine.mins (s.rS ra) (s.rS rb)))

/-- `maxu` (R59): unsigned maximum. -/
def execMaxu (sw : Bool) (rd ra rb : SReg) (s : State) : Out :=
  .next (s.sCalc sw rd [ra, rb] (Machine.maxu (s.rS ra) (s.rS rb)))

/-- `maxs` (R59): signed maximum. -/
def execMaxs (sw : Bool) (rd ra rb : SReg) (s : State) : Out :=
  .next (s.sCalc sw rd [ra, rb] (Machine.maxs (s.rS ra) (s.rS rb)))

/-- `clz` (R59): leading zeros. -/
def execClz (sw : Bool) (rd ra : SReg) (s : State) : Out :=
  .next (s.sCalc sw rd [ra] (Machine.clz (s.rS ra)))

/-- `ctz` (R59): trailing zeros. -/
def execCtz (sw : Bool) (rd ra : SReg) (s : State) : Out :=
  .next (s.sCalc sw rd [ra] (Machine.ctz (s.rS ra)))

/-- `popc` (R59): set bits. -/
def execPopc (sw : Bool) (rd ra : SReg) (s : State) : Out :=
  .next (s.sCalc sw rd [ra] (Machine.popc (s.rS ra)))

/-- `bext` (R60). -/
def execBext (sw sx : Bool) (rd ra rb : SReg) (s : State) : Out :=
  .next (s.sCalc sw rd [ra, rb] (bextOf sx (s.rS ra) (s.rS rb)))

/-- `bins` (R60): rd is read too. -/
def execBins (sw : Bool) (rd ra rb : SReg) (s : State) : Out :=
  .next (s.sCalc sw rd [ra, rb, rd] (binsOf (s.rS rd) (s.rS ra) (s.rS rb)))

/-- `cmp` (R58, R59). -/
def execCmp (sw : Bool) (cc : Cond) (rd ra rb : SReg) (s : State) : Out :=
  .next (s.sCalc sw rd [ra, rb] (b2w 64 (Cond.holds cc (s.rS ra) (s.rS rb))))

/-- `csel` (R59). -/
def execCsel (sw : Bool) (rd ra rb sc : SReg) (s : State) : Out :=
  .next (s.sCalc sw rd [ra, rb, sc] (if s.rS sc != 0 then s.rS ra else s.rS rb))

/-- `addi` (R59): sext(imm12). -/
def execAddi (sw : Bool) (rd ra : SReg) (imm : BitVec 12) (s : State) : Out :=
  .next (s.sCalc sw rd [ra] (s.rS ra + imm.signExtend 64))

/-- `andi` (R59): sext(imm12). -/
def execAndi (sw : Bool) (rd ra : SReg) (imm : BitVec 12) (s : State) : Out :=
  .next (s.sCalc sw rd [ra] (s.rS ra &&& imm.signExtend 64))

/-- `ori` (R59): zext(imm12). -/
def execOri (sw : Bool) (rd ra : SReg) (imm : BitVec 12) (s : State) : Out :=
  .next (s.sCalc sw rd [ra] (s.rS ra ||| imm.zeroExtend 64))

/-- `xori` (R59): zext(imm12). -/
def execXori (sw : Bool) (rd ra : SReg) (imm : BitVec 12) (s : State) : Out :=
  .next (s.sCalc sw rd [ra] (s.rS ra ^^^ imm.zeroExtend 64))

/-- `shli` (R59). -/
def execShli (sw : Bool) (rd ra : SReg) (n : BitVec 6) (s : State) : Out :=
  .next (s.sCalc sw rd [ra] (s.rS ra <<< n.toNat))

/-- `shri` (R59). -/
def execShri (sw : Bool) (rd ra : SReg) (n : BitVec 6) (s : State) : Out :=
  .next (s.sCalc sw rd [ra] (s.rS ra >>> n.toNat))

/-- `sari` (R59). -/
def execSari (sw : Bool) (rd ra : SReg) (n : BitVec 6) (s : State) : Out :=
  .next (s.sCalc sw rd [ra] ((s.rS ra).sshiftRight n.toNat))

/-- `cmpi` (R58, R59): sext(imm8). -/
def execCmpi (sw : Bool) (cc : Cond) (rd ra : SReg) (imm : BitVec 8) (s : State) : Out :=
  .next (s.sCalc sw rd [ra] (b2w 64 (Cond.holds cc (s.rS ra) (imm.signExtend 64))))

/-- `li` (R59): sext(imm18). -/
def execLi (sw : Bool) (rd : SReg) (imm : BitVec 18) (s : State) : Out :=
  .next (s.sCalc sw rd [] (imm.signExtend 64))

/-- `lih` (R59): rd is read too. -/
def execLih (sw : Bool) (rd : SReg) (imm : BitVec 18) (s : State) : Out :=
  .next (s.sCalc sw rd [rd] ((s.rS rd <<< 18) ||| imm.zeroExtend 64))

/-- `lea` (R59). -/
def execLea (sw : Bool) (rd ra rb : SReg) (sh : BitVec 3) (s : State) : Out :=
  .next (s.sCalc sw rd [ra, rb] (s.rS ra + (s.rS rb <<< sh.toNat)))

/-- `addpc` (R59): PC + 4 × sext(imm18). -/
def execAddpc (sw : Bool) (rd : SReg) (imm : BitVec 18) (s : State) : Out :=
  .next (s.sCalc sw rd [] (s.grp.pc + (imm.signExtend 64 <<< 2)))

end Sys2Proof.Machine
end

