-- ==== Sys2Proof/Machine/Trap.lean ====
section
/-!
DEFINITION. Sys2Proof/Machine/Trap.lean: trap instructions, scalar opcodes 0x54 to 0x58 (R311, R317, R321, R336). Taking a trap and returning
from one stand in Machine/Ops.lean.
-/
namespace Sys2Proof.Machine

/-- `trap` (R311): USER with its code; the stream resumes after it (R315). -/
def execTrap (sw : Bool) (code : BitVec 18) (s : State) : Out :=
  .next (if s.grp.inLan then s.sSuppress sw else s.sRaiseX sw .user (code.zeroExtend 32) 0 false (s.grp.pc + 4))

/-- `assert` (R311): stops the context when S[ra] is 0, with the message pointer S[rm]. -/
def execAssert (sw : Bool) (ra rm : SReg) (s : State) : Out :=
  .next (if s.grp.inLan then s.sSuppress sw
    else s.sRead sw [ra, rm] fun s =>
      if s.rS ra != 0 then s.sDone sw
      else s.deliver s.core s.slot { s.sTrap .assert 0 0 false s.grp.pc with msg := s.rS rm })

/-- `phint` (R44, R317, R321): one out of range raises ILL, which in lantern mode ends the mode; with a request pending the group becomes ready for a save under its liveness record. -/
def execPhint (sw : Bool) (n : BitVec 6) (s : State) : Out :=
  .next (if s.lch.livecnt ≤ n.toNat then s.sRaise sw .ill
    else if s.grp.inLan then s.sSuppress sw
    else match s.grp.preempt with
      | none => s.sDone sw
      | some _ =>
        if s.grp.handler then s.sDone sw
        else (s.sDone sw).modG fun g => { g with preempt := g.preempt.map fun p => { p with ready := true, record := some n.toNat } })

/-- `tret` (R317): ILL outside a handler. A stepped `tret` that has returned halts (R329). -/
def execTret (sw : Bool) (s : State) : Out :=
  .next (if !s.grp.handler then s.sRaise sw .ill
    else
      let t := s.tretAt s.core s.slot
      if t.grp.handler then t.issued else t.issued.stepHalt false)

/-- `brk` (R311, R312): BRK with its code; the stream resumes after it (R315). -/
def execBrk (sw : Bool) (code : BitVec 18) (s : State) : Out :=
  .next (if s.grp.inLan then s.sSuppress sw else s.sRaiseX sw .brk (code.zeroExtend 32) 0 false (s.grp.pc + 4))

end Sys2Proof.Machine
end

