-- ==== Sys2Proof/Machine/Dispatch.lean ====
section
/-!
DEFINITION. Sys2Proof/Machine/Dispatch.lean: the meaning of every instruction, one arm each.
-/
namespace Sys2Proof.Machine

/-- The meaning of an instruction in a state. -/
def exec (i : Instr) (s : State) : Host.Outcome State Fault Refusal :=
  match i with
  | .nop sw => Sys2Proof.Machine.execNop sw s
  | .add sw rd ra rb => Sys2Proof.Machine.execAdd sw rd ra rb s
  | .sub sw rd ra rb => Sys2Proof.Machine.execSub sw rd ra rb s
  | .mul sw rd ra rb => Sys2Proof.Machine.execMul sw rd ra rb s
  | .mulhu sw rd ra rb => Sys2Proof.Machine.execMulhu sw rd ra rb s
  | .mulhs sw rd ra rb => Sys2Proof.Machine.execMulhs sw rd ra rb s
  | .divu sw rd ra rb => Sys2Proof.Machine.execDivu sw rd ra rb s
  | .divs sw rd ra rb => Sys2Proof.Machine.execDivs sw rd ra rb s
  | .remu sw rd ra rb => Sys2Proof.Machine.execRemu sw rd ra rb s
  | .rems sw rd ra rb => Sys2Proof.Machine.execRems sw rd ra rb s
  | .and sw rd ra rb => Sys2Proof.Machine.execAnd sw rd ra rb s
  | .or sw rd ra rb => Sys2Proof.Machine.execOr sw rd ra rb s
  | .xor sw rd ra rb => Sys2Proof.Machine.execXor sw rd ra rb s
  | .andn sw rd ra rb => Sys2Proof.Machine.execAndn sw rd ra rb s
  | .shl sw rd ra rb => Sys2Proof.Machine.execShl sw rd ra rb s
  | .shr sw rd ra rb => Sys2Proof.Machine.execShr sw rd ra rb s
  | .sar sw rd ra rb => Sys2Proof.Machine.execSar sw rd ra rb s
  | .minu sw rd ra rb => Sys2Proof.Machine.execMinu sw rd ra rb s
  | .mins sw rd ra rb => Sys2Proof.Machine.execMins sw rd ra rb s
  | .maxu sw rd ra rb => Sys2Proof.Machine.execMaxu sw rd ra rb s
  | .maxs sw rd ra rb => Sys2Proof.Machine.execMaxs sw rd ra rb s
  | .clz sw rd ra => Sys2Proof.Machine.execClz sw rd ra s
  | .ctz sw rd ra => Sys2Proof.Machine.execCtz sw rd ra s
  | .popc sw rd ra => Sys2Proof.Machine.execPopc sw rd ra s
  | .bext sw sx rd ra rb => Sys2Proof.Machine.execBext sw sx rd ra rb s
  | .bins sw rd ra rb => Sys2Proof.Machine.execBins sw rd ra rb s
  | .cmp sw cc rd ra rb => Sys2Proof.Machine.execCmp sw cc rd ra rb s
  | .csel sw rd ra rb sc => Sys2Proof.Machine.execCsel sw rd ra rb sc s
  | .addi sw rd ra imm => Sys2Proof.Machine.execAddi sw rd ra imm s
  | .andi sw rd ra imm => Sys2Proof.Machine.execAndi sw rd ra imm s
  | .ori sw rd ra imm => Sys2Proof.Machine.execOri sw rd ra imm s
  | .xori sw rd ra imm => Sys2Proof.Machine.execXori sw rd ra imm s
  | .shli sw rd ra n => Sys2Proof.Machine.execShli sw rd ra n s
  | .shri sw rd ra n => Sys2Proof.Machine.execShri sw rd ra n s
  | .sari sw rd ra n => Sys2Proof.Machine.execSari sw rd ra n s
  | .cmpi sw cc rd ra imm => Sys2Proof.Machine.execCmpi sw cc rd ra imm s
  | .li sw rd imm => Sys2Proof.Machine.execLi sw rd imm s
  | .lih sw rd imm => Sys2Proof.Machine.execLih sw rd imm s
  | .lea sw rd ra rb sh => Sys2Proof.Machine.execLea sw rd ra rb sh s
  | .addpc sw rd imm => Sys2Proof.Machine.execAddpc sw rd imm s
  | .b sw off => Sys2Proof.Machine.execB sw off s
  | .bc sw cc ra off => Sys2Proof.Machine.execBc sw cc ra off s
  | .loop sw ra off => Sys2Proof.Machine.execLoop sw ra off s
  | .call sw off => Sys2Proof.Machine.execCall sw off s
  | .ret sw ra => Sys2Proof.Machine.execRet sw ra s
  | .jr sw ra => Sys2Proof.Machine.execJr sw ra s
  | .lgo sw entry cbase count => Sys2Proof.Machine.execLgo sw entry cbase count s
  | .ljoin sw => Sys2Proof.Machine.execLjoin sw s
  | .lpop sw rd => Sys2Proof.Machine.execLpop sw rd s
  | .wait sw wick k => Sys2Proof.Machine.execWait sw wick k s
  | .yield sw => Sys2Proof.Machine.execYield sw s
  | .exit sw => Sys2Proof.Machine.execExit sw s
  | .bar sw cohort => Sys2Proof.Machine.execBar sw cohort s
  | .srd sw rd num elem => Sys2Proof.Machine.execSrd sw rd num elem s
  | .swr sw ra num elem => Sys2Proof.Machine.execSwr sw ra num elem s
  | .sleep sw ra imm => Sys2Proof.Machine.execSleep sw ra imm s
  | .sld sw rd ra size ord scope imm => Sys2Proof.Machine.execSld sw rd ra size ord scope imm s
  | .sst sw rd ra size ord scope imm => Sys2Proof.Machine.execSst sw rd ra size ord scope imm s
  | .sldp sw rd ra size imm => Sys2Proof.Machine.execSldp sw rd ra size imm s
  | .sstp sw rd ra size imm => Sys2Proof.Machine.execSstp sw rd ra size imm s
  | .satom sw rd ra dw op ord scope => Sys2Proof.Machine.execSatom sw rd ra dw op ord scope s
  | .scas sw rd ra dw ord scope => Sys2Proof.Machine.execScas sw rd ra dw ord scope s
  | .fence sw ord scope => Sys2Proof.Machine.execFence sw ord scope s
  | .cinv sw ra size scope imm => Sys2Proof.Machine.execCinv sw ra size scope imm s
  | .ccln sw ra size scope imm => Sys2Proof.Machine.execCcln sw ra size scope imm s
  | .pref sw x ra size imm => Sys2Proof.Machine.execPref sw x ra size imm s
  | .flip sw dom mode lazy ra => Sys2Proof.Machine.execFlip sw dom mode lazy ra s
  | .pfree sw dom mode mv ra => Sys2Proof.Machine.execPfree sw dom mode mv ra s
  | .pstat sw dom what ra => Sys2Proof.Machine.execPstat sw dom what ra s
  | .xfer sw ra wick => Sys2Proof.Machine.execXfer sw ra wick s
  | .xcvt sw ra wick => Sys2Proof.Machine.execXcvt sw ra wick s
  | .xfill sw ra wick => Sys2Proof.Machine.execXfill sw ra wick s
  | .xgath sw ra wick => Sys2Proof.Machine.execXgath sw ra wick s
  | .xred sw ra wick => Sys2Proof.Machine.execXred sw ra wick s
  | .xbcst sw ra wick => Sys2Proof.Machine.execXbcst sw ra wick s
  | .xagree sw ra wick => Sys2Proof.Machine.execXagree sw ra wick s
  | .xcanc sw wick => Sys2Proof.Machine.execXcanc sw wick s
  | .xstat sw clr chk ra wick => Sys2Proof.Machine.execXstat sw clr chk ra wick s
  | .launch sw done ra wick => Sys2Proof.Machine.execLaunch sw done ra wick s
  | .gsig sw ra => Sys2Proof.Machine.execGsig sw ra s
  | .tstat sw self clr ra wick => Sys2Proof.Machine.execTstat sw self clr ra wick s
  | .tabort sw ra => Sys2Proof.Machine.execTabort sw ra s
  | .semsig sw scope ra => Sys2Proof.Machine.execSemsig sw scope ra s
  | .semwait sw take scope ra => Sys2Proof.Machine.execSemwait sw take scope ra s
  | .trap sw code => Sys2Proof.Machine.execTrap sw code s
  | .assert sw ra rm => Sys2Proof.Machine.execAssert sw ra rm s
  | .phint sw n => Sys2Proof.Machine.execPhint sw n s
  | .tret sw => Sys2Proof.Machine.execTret sw s
  | .brk sw code => Sys2Proof.Machine.execBrk sw code s
  | .sysr sw rd num => Sys2Proof.Machine.execSysr sw rd num s
  | .sysw sw ra num => Sys2Proof.Machine.execSysw sw ra num s
  | .kzero sw ra => Sys2Proof.Machine.execKzero sw ra s
  | .scrub sw ra wick => Sys2Proof.Machine.execScrub sw ra wick s
  | .tlbi sw kind ra => Sys2Proof.Machine.execTlbi sw kind ra s
  | .cctl sw op ra => Sys2Proof.Machine.execCctl sw op ra s
  | .vbrep sw ra => Sys2Proof.Machine.execVbrep sw ra s
  | .sfadd sw d rm rd ra rb => Sys2Proof.Machine.execSfadd sw d rm rd ra rb s
  | .sfsub sw d rm rd ra rb => Sys2Proof.Machine.execSfsub sw d rm rd ra rb s
  | .sfmul sw d rm rd ra rb => Sys2Proof.Machine.execSfmul sw d rm rd ra rb s
  | .sffma sw d rm rd ra rb => Sys2Proof.Machine.execSffma sw d rm rd ra rb s
  | .sfmin sw d rd ra rb => Sys2Proof.Machine.execSfmin sw d rd ra rb s
  | .sfmax sw d rd ra rb => Sys2Proof.Machine.execSfmax sw d rd ra rb s
  | .sfcmp sw fc d rd ra rb => Sys2Proof.Machine.execSfcmp sw fc d rd ra rb s
  | .sfcvt sw tgt frm rm rd ra => Sys2Proof.Machine.execSfcvt sw tgt frm rm rd ra s
  | .sf2i sw u d rm rd ra => Sys2Proof.Machine.execSf2i sw u d rm rd ra s
  | .si2f sw u d rm rd ra => Sys2Proof.Machine.execSi2f sw u d rm rd ra s
  | .sfabs sw d rd ra => Sys2Proof.Machine.execSfabs sw d rd ra s
  | .sfneg sw d rd ra => Sys2Proof.Machine.execSfneg sw d rd ra s
  | .sfrcp sw d rm rd ra => Sys2Proof.Machine.execSfrcp sw d rm rd ra s
  | .sfsqrt sw d rm rd ra => Sys2Proof.Machine.execSfsqrt sw d rm rd ra s
  | .sfdiv sw d rm rd ra rb => Sys2Proof.Machine.execSfdiv sw d rm rd ra rb s
  | .sfround sw d rm rd ra => Sys2Proof.Machine.execSfround sw d rm rd ra s
  | .lnop sw => Sys2Proof.Machine.execLnop sw s
  | .iadd h d a b imm => Sys2Proof.Machine.execIadd h d a b imm s
  | .isub h d a b imm => Sys2Proof.Machine.execIsub h d a b imm s
  | .imul h d a b imm => Sys2Proof.Machine.execImul h d a b imm s
  | .imad h d a b c imm => Sys2Proof.Machine.execImad h d a b c imm s
  | .imulh h u d a b imm => Sys2Proof.Machine.execImulh h u d a b imm s
  | .iabs h d a imm => Sys2Proof.Machine.execIabs h d a imm s
  | .imin h u d a b imm => Sys2Proof.Machine.execImin h u d a b imm s
  | .imax h u d a b imm => Sys2Proof.Machine.execImax h u d a b imm s
  | .laneAnd h d a b imm => Sys2Proof.Machine.execLaneAnd h d a b imm s
  | .laneOr h d a b imm => Sys2Proof.Machine.execLaneOr h d a b imm s
  | .laneXor h d a b imm => Sys2Proof.Machine.execLaneXor h d a b imm s
  | .not h d a imm => Sys2Proof.Machine.execNot h d a imm s
  | .laneShl h d a b imm => Sys2Proof.Machine.execLaneShl h d a b imm s
  | .laneShr h d a b imm => Sys2Proof.Machine.execLaneShr h d a b imm s
  | .laneSar h d a b imm => Sys2Proof.Machine.execLaneSar h d a b imm s
  | .dsh h l d a b c imm => Sys2Proof.Machine.execDsh h l d a b c imm s
  | .bfe h sx d a b imm => Sys2Proof.Machine.execBfe h sx d a b imm s
  | .bfi h d a b c imm => Sys2Proof.Machine.execBfi h d a b c imm s
  | .lanePopc h d a imm => Sys2Proof.Machine.execLanePopc h d a imm s
  | .laneClz h d a imm => Sys2Proof.Machine.execLaneClz h d a imm s
  | .brev h d a imm => Sys2Proof.Machine.execBrev h d a imm s
  | .perm h d a b c imm => Sys2Proof.Machine.execPerm h d a b c imm s
  | .plut h form d a b c imm => Sys2Proof.Machine.execPlut h form d a b c imm s
  | .icmp h cc d a b imm => Sys2Proof.Machine.execIcmp h cc d a b imm s
  | .sel h d a b c imm => Sys2Proof.Machine.execSel h d a b c imm s
  | .mov h d a imm => Sys2Proof.Machine.execMov h d a imm s
  | .idot4 h u d a b c imm => Sys2Proof.Machine.execIdot4 h u d a b c imm s
  | .prev h d a b imm => Sys2Proof.Machine.execPrev h d a b imm s
  | .next h d a b imm => Sys2Proof.Machine.execNext h d a b imm s
  | .pick h mode d a b c imm => Sys2Proof.Machine.execPick h mode d a b c imm s
  | .rdfl h d a imm => Sys2Proof.Machine.execRdfl h d a imm s
  | .vote h mode d a imm => Sys2Proof.Machine.execVote h mode d a imm s
  | .gred h op d a imm => Sys2Proof.Machine.execGred h op d a imm s
  | .gscan h op excl d a imm => Sys2Proof.Machine.execGscan h op excl d a imm s
  | .plog h tt d a b c imm => Sys2Proof.Machine.execPlog h tt d a b c imm s
  | .lsrd h hi num elem d => Sys2Proof.Machine.execLsrd h hi num elem d s
  | .lpush h dw a imm => Sys2Proof.Machine.execLpush h dw a imm s
  | .ipack h byt u sat d a b imm => Sys2Proof.Machine.execIpack h byt u sat d a b imm s
  | .iext h byt u d a b imm => Sys2Proof.Machine.execIext h byt u d a b imm s
  | .fadd h ftz rm d a b imm => Sys2Proof.Machine.execFadd h ftz rm d a b imm s
  | .fsub h ftz rm d a b imm => Sys2Proof.Machine.execFsub h ftz rm d a b imm s
  | .fmul h ftz rm d a b imm => Sys2Proof.Machine.execFmul h ftz rm d a b imm s
  | .ffma h ftz rm d a b c imm => Sys2Proof.Machine.execFfma h ftz rm d a b c imm s
  | .fmin h ftz d a b imm => Sys2Proof.Machine.execFmin h ftz d a b imm s
  | .fmax h ftz d a b imm => Sys2Proof.Machine.execFmax h ftz d a b imm s
  | .fabs h d a imm => Sys2Proof.Machine.execFabs h d a imm s
  | .fneg h d a imm => Sys2Proof.Machine.execFneg h d a imm s
  | .fcmp h fc ftz d a b imm => Sys2Proof.Machine.execFcmp h fc ftz d a b imm s
  | .fclass h fmt d a imm => Sys2Proof.Machine.execFclass h fmt d a imm s
  | .frcp h ftz rm d a imm => Sys2Proof.Machine.execFrcp h ftz rm d a imm s
  | .frsq h ftz rm d a imm => Sys2Proof.Machine.execFrsq h ftz rm d a imm s
  | .fsqrt h ftz rm d a imm => Sys2Proof.Machine.execFsqrt h ftz rm d a imm s
  | .fdiv h ftz rm d a b imm => Sys2Proof.Machine.execFdiv h ftz rm d a b imm s
  | .fexp2 h ftz rm d a imm => Sys2Proof.Machine.execFexp2 h ftz rm d a imm s
  | .flog2 h ftz rm d a imm => Sys2Proof.Machine.execFlog2 h ftz rm d a imm s
  | .fround h ftz rm d a imm => Sys2Proof.Machine.execFround h ftz rm d a imm s
  | .fscale h ftz rm d a b imm => Sys2Proof.Machine.execFscale h ftz rm d a b imm s
  | .fgetexp h ftz d a imm => Sys2Proof.Machine.execFgetexp h ftz d a imm s
  | .f2i h u rm d a imm => Sys2Proof.Machine.execF2i h u rm d a imm s
  | .i2f h u rm d a imm => Sys2Proof.Machine.execI2f h u rm d a imm s
  | .fcvt h tgt frm rm d a imm => Sys2Proof.Machine.execFcvt h tgt frm rm d a imm s
  | .fpack2 h bf rm d a b imm => Sys2Proof.Machine.execFpack2 h bf rm d a b imm s
  | .hadd2 h bf rm d a b imm => Sys2Proof.Machine.execHadd2 h bf rm d a b imm s
  | .hmul2 h bf rm d a b imm => Sys2Proof.Machine.execHmul2 h bf rm d a b imm s
  | .hfma2 h bf rm d a b c imm => Sys2Proof.Machine.execHfma2 h bf rm d a b c imm s
  | .qpack h i8 fix d a b imm => Sys2Proof.Machine.execQpack h i8 fix d a b imm s
  | .qunpack h i8 d a b c imm => Sys2Proof.Machine.execQunpack h i8 d a b c imm s
  | .f8pack h e5 sat hi rm d a b c imm => Sys2Proof.Machine.execF8pack h e5 sat hi rm d a b c imm s
  | .f8unpack h e5 d a b imm => Sys2Proof.Machine.execF8unpack h e5 d a b imm s
  | .dadd h rm d a b imm => Sys2Proof.Machine.execDadd h rm d a b imm s
  | .dfma h rm d a b c imm => Sys2Proof.Machine.execDfma h rm d a b c imm s
  | .lbr h off => Sys2Proof.Machine.execLbr h off s
  | .ljmp h a imm => Sys2Proof.Machine.execLjmp h a imm s
  | .lcall h off => Sys2Proof.Machine.execLcall h off s
  | .lret h => Sys2Proof.Machine.execLret h s
  | .lend h => Sys2Proof.Machine.execLend h s
  | .lkill h => Sys2Proof.Machine.execLkill h s
  | .lmask h mode d a imm => Sys2Proof.Machine.execLmask h mode d a imm s
  | .lassert h a b imm => Sys2Proof.Machine.execLassert h a b imm s
  | .ldg h size sx ord scope d ca x off => Sys2Proof.Machine.execLdg h size sx ord scope d ca x off s
  | .stg h size ord scope ca x c off => Sys2Proof.Machine.execStg h size ord scope ca x c off s
  | .ldgx h size sx ord scope d a off => Sys2Proof.Machine.execLdgx h size sx ord scope d a off s
  | .stgx h size ord scope a c off => Sys2Proof.Machine.execStgx h size ord scope a c off s
  | .ldgv h cnt d ca x off => Sys2Proof.Machine.execLdgv h cnt d ca x off s
  | .stgv h cnt ca x c off => Sys2Proof.Machine.execStgv h cnt ca x c off s
  | .lds h size sx ord scope d a off => Sys2Proof.Machine.execLds h size sx ord scope d a off s
  | .sts h size ord scope a c off => Sys2Proof.Machine.execSts h size ord scope a c off s
  | .ldsb h cnt d a off => Sys2Proof.Machine.execLdsb h cnt d a off s
  | .stsb h cnt a c off => Sys2Proof.Machine.execStsb h cnt a c off s
  | .atomg h dw op ord scope d ca x c off => Sys2Proof.Machine.execAtomg h dw op ord scope d ca x c off s
  | .casg h dw ord scope d ca x c off => Sys2Proof.Machine.execCasg h dw ord scope d ca x c off s
  | .atomgx h dw op ord scope d a c off => Sys2Proof.Machine.execAtomgx h dw op ord scope d a c off s
  | .redg h dw op ord scope ca x c off => Sys2Proof.Machine.execRedg h dw op ord scope ca x c off s
  | .atoms h dw op ord scope d a c off => Sys2Proof.Machine.execAtoms h dw op ord scope d a c off s
  | .cass h dw ord scope d a c off => Sys2Proof.Machine.execCass h dw ord scope d a c off s
  | .prefg h size tlb ca x off => Sys2Proof.Machine.execPrefg h size tlb ca x off s
  | .ldbc h size sx ord scope d ca off => Sys2Proof.Machine.execLdbc h size sx ord scope d ca off s
  | .stgm h dw a b c off => Sys2Proof.Machine.execStgm h dw a b c off s
  | .pchk h wr d a off => Sys2Proof.Machine.execPchk h wr d a off s
  | .mma h tile wick ca cb desc steps => Sys2Proof.Machine.execMma h tile wick ca cb desc steps s
  | .mzero h flt tile e => Sys2Proof.Machine.execMzero h flt tile e s
  | .mld h sp tile wick ca stride => Sys2Proof.Machine.execMld h sp tile wick ca stride s
  | .mst h sp tile wick ca stride => Sys2Proof.Machine.execMst h sp tile wick ca stride s
  | .madd h td tx ty => Sys2Proof.Machine.execMadd h td tx ty s
  | .mcvt h flt tile e => Sys2Proof.Machine.execMcvt h flt tile e s
  | .mscl h tile a imm => Sys2Proof.Machine.execMscl h tile a imm s
  | .mfmt h d tile desc => Sys2Proof.Machine.execMfmt h d tile desc s
  | .mstat h flg d n => Sys2Proof.Machine.execMstat h flg d n s
  | .wsel h a imm => Sys2Proof.Machine.execWsel h a imm s
  | .mtrans h td tx => Sys2Proof.Machine.execMtrans h td tx s
  | .mglow h n => Sys2Proof.Machine.execMglow h n s
  | .lxRfetch rd rs1 rs2 => Sys2Proof.Machine.execLxRfetch rd rs1 rs2 s
  | .lxBfx sx rd rs1 rs2 => Sys2Proof.Machine.execLxBfx sx rd rs1 rs2 s
  | .lxSwait rd rs1 rs2 => Sys2Proof.Machine.execLxSwait rd rs1 rs2 s
  | .lxDisp rd rs1 rs2 => Sys2Proof.Machine.execLxDisp rd rs1 rs2 s
  | .lxBind rd rs1 rs2 => Sys2Proof.Machine.execLxBind rd rs1 rs2 s
  | .lxSwaitTimeout hart => Sys2Proof.Machine.execLxSwaitTimeout hart s
  | .launchPacket q => Sys2Proof.Machine.execLaunchPacket q s
  | .graphPacket q => Sys2Proof.Machine.execGraphPacket q s
  | .signalPacket q => Sys2Proof.Machine.execSignalPacket q s
  | .nopPacket q => Sys2Proof.Machine.execNopPacket q s
  | .linkPacket q => Sys2Proof.Machine.execLinkPacket q s
  | .resumePacket q => Sys2Proof.Machine.execResumePacket q s
  | .packetFetchRetry q => Sys2Proof.Machine.execPacketFetchRetry q s
  | .doorbellWrite page wr => Sys2Proof.Machine.execDoorbellWrite page wr s
  | .eventQueueRdWrite q rd => Sys2Proof.Machine.execEventQueueRdWrite q rd s
  | .queueEnable q dword0 dword1 => Sys2Proof.Machine.execQueueEnable q dword0 dword1 s
  | .queueNextWrite q next clearL => Sys2Proof.Machine.execQueueNextWrite q next clearL s
  | .boundFieldResolve lid => Sys2Proof.Machine.execBoundFieldResolve lid s
  | .launchUnitRelease lid unit => Sys2Proof.Machine.execLaunchUnitRelease lid unit s
  | .laneBlockStart c g => Sys2Proof.Machine.execLaneBlockStart c g s
  | .variableResultReturn c g k => Sys2Proof.Machine.execVariableResultReturn c g k s
  | .sleepExpiry c g => Sys2Proof.Machine.execSleepExpiry c g s
  | .semwaitRecheck c g => Sys2Proof.Machine.execSemwaitRecheck c g s
  | .homeRevoke c line => Sys2Proof.Machine.execHomeRevoke c line s
  | .wprWrite c g v => Sys2Proof.Machine.execWprWrite c g v s
  | .wprChangeComplete c => Sys2Proof.Machine.execWprChangeComplete c s
  | .trapvecWrite c g v => Sys2Proof.Machine.execTrapvecWrite c g v s
  | .lanternEntry c g => Sys2Proof.Machine.execLanternEntry c g s
  | .lanternCheckpointDone c g => Sys2Proof.Machine.execLanternCheckpointDone c g s
  | .lanternInstrLimit c g => Sys2Proof.Machine.execLanternInstrLimit c g s
  | .lanternRestoreDone c g => Sys2Proof.Machine.execLanternRestoreDone c g s
  | .itemDispatch c => Sys2Proof.Machine.execItemDispatch c s
  | .itemRetire c k => Sys2Proof.Machine.execItemRetire c k s
  | .itemTimeout c k done => Sys2Proof.Machine.execItemTimeout c k done s
  | .cancelRetire c k done => Sys2Proof.Machine.execCancelRetire c k done s
  | .collectivePeerFail c k done => Sys2Proof.Machine.execCollectivePeerFail c k done s
  | .flipExchange c g => Sys2Proof.Machine.execFlipExchange c g s
  | .clusterFlipAck cl c => Sys2Proof.Machine.execClusterFlipAck cl c s
  | .clusterFlipExchange cl => Sys2Proof.Machine.execClusterFlipExchange cl s
  | .matrixQueueExecute c => Sys2Proof.Machine.execMatrixQueueExecute c s
  | .mmaReachEngine c => Sys2Proof.Machine.execMmaReachEngine c s
  | .mmaStepFetchDone c => Sys2Proof.Machine.execMmaStepFetchDone c s
  | .mmaAttemptEnd c => Sys2Proof.Machine.execMmaAttemptEnd c s
  | .mmaRetire c k => Sys2Proof.Machine.execMmaRetire c k s
  | .tileMoveDone c k => Sys2Proof.Machine.execTileMoveDone c k s
  | .dimmerTick die => Sys2Proof.Machine.execDimmerTick die s
  | .glowHoldExpiry c => Sys2Proof.Machine.execGlowHoldExpiry c s
  | .dimRampWrite die v => Sys2Proof.Machine.execDimRampWrite die v s
  | .trapEntry c g => Sys2Proof.Machine.execTrapEntry c g s
  | .debugHalt c g => Sys2Proof.Machine.execDebugHalt c g s
  | .dbgContinue p => Sys2Proof.Machine.execDbgContinue p s
  | .supervisorKill lid => Sys2Proof.Machine.execSupervisorKill lid s
  | .partitionReset p => Sys2Proof.Machine.execPartitionReset p s
  | .watchdogExpiry lid => Sys2Proof.Machine.execWatchdogExpiry lid s
  | .preemptionRequest c g => Sys2Proof.Machine.execPreemptionRequest c g s
  | .preemptDeadline c g => Sys2Proof.Machine.execPreemptDeadline c g s
  | .teamSave c g => Sys2Proof.Machine.execTeamSave c g s
  | .teamRestore c g => Sys2Proof.Machine.execTeamRestore c g s
  | .contextSwap c image => Sys2Proof.Machine.execContextSwap c image s
  | .pageFaultSwap c g => Sys2Proof.Machine.execPageFaultSwap c g s
  | .launchCommit lid => Sys2Proof.Machine.execLaunchCommit lid s
  | .shadowMerge ver line => Sys2Proof.Machine.execShadowMerge ver line s
  | .shadowFree ver line => Sys2Proof.Machine.execShadowFree ver line s
  | .quotaGrant lid => Sys2Proof.Machine.execQuotaGrant lid s
  | .partMapWrite hi v => Sys2Proof.Machine.execPartMapWrite hi v s
  | .clusterWipeDone cl => Sys2Proof.Machine.execClusterWipeDone cl s
  | .clusterPowerUpDone cl => Sys2Proof.Machine.execClusterPowerUpDone cl s
  | .keySlotSelect n blob => Sys2Proof.Machine.execKeySlotSelect n blob s
  | .keySlotLoad p n blob => Sys2Proof.Machine.execKeySlotLoad p n blob s
  | .keySlotZero n => Sys2Proof.Machine.execKeySlotZero n s
  | .snufferCoreWipeDone p => Sys2Proof.Machine.execSnufferCoreWipeDone p s
  | .snufferFrameDone p => Sys2Proof.Machine.execSnufferFrameDone p s
  | .vbusStatWrite c g v => Sys2Proof.Machine.execVbusStatWrite c g v s
  | .brusNodeWrite v => Sys2Proof.Machine.execBrusNodeWrite v s
  | .sysregWrite c g num v => Sys2Proof.Machine.execSysregWrite c g num v s
  | .vbusLaneFailure c bus lane => Sys2Proof.Machine.execVbusLaneFailure c bus lane s
  | .driftRetrain c bus => Sys2Proof.Machine.execDriftRetrain c bus s
  | .dramPatrol line corr bad => Sys2Proof.Machine.execDramPatrol line corr bad s
  | .sramPatrol c store planeB granule corr bad => Sys2Proof.Machine.execSramPatrol c store planeB granule corr bad s
  | .telemetryRefresh vin pin tmax => Sys2Proof.Machine.execTelemetryRefresh vin pin tmax s
  | .layerGate c => Sys2Proof.Machine.execLayerGate c s
  | .layerWakeDone c => Sys2Proof.Machine.execLayerWakeDone c s
  | .powerCapStep p high => Sys2Proof.Machine.execPowerCapStep p high s
  | .inputUndervoltage vin => Sys2Proof.Machine.execInputUndervoltage vin s
  | .undervoltagePowerDown => Sys2Proof.Machine.execUndervoltagePowerDown s
  | .overvoltageDisconnect => Sys2Proof.Machine.execOvervoltageDisconnect s
  | .linkDown port lanes => Sys2Proof.Machine.execLinkDown port lanes s
  | .linkCrcRetry port c k => Sys2Proof.Machine.execLinkCrcRetry port c k s
  | .walltime1pps t => Sys2Proof.Machine.execWalltime1pps t s
  | .mctpMessage nonce => Sys2Proof.Machine.execMctpMessage nonce s
  | .firmwareLiveUpdate version ok => Sys2Proof.Machine.execFirmwareLiveUpdate version ok s
  | .coldReset => Sys2Proof.Machine.execColdReset s
  | .warmReset => Sys2Proof.Machine.execWarmReset s
  | .lamplighterDeviceAccess hart acc => Sys2Proof.Machine.execLamplighterDeviceAccess hart acc s
  | .inboundPeerOrHostWrite pa bytes => Sys2Proof.Machine.execInboundPeerOrHostWrite pa bytes s
  | .homeAcknowledgement c g lane => Sys2Proof.Machine.execHomeAcknowledgement c g lane s
  | .lxTimerSignal hart => Sys2Proof.Machine.execLxTimerSignal hart s
  | .linkTrained port lanes peer => Sys2Proof.Machine.execLinkTrained port lanes peer s
  | .inputVoltageRestored vin => Sys2Proof.Machine.execInputVoltageRestored vin s

end Sys2Proof.Machine
end

