-- ==== Sys2Proof/Machine/Riscv.lean ====
section
/-!
DEFINITION. Sys2Proof/Machine/Riscv.lean: the words of a Lamplighter core that are no Lx word: RV64IMAC in machine mode (R25, R341, R342). The spec names the
instruction set and does not define it: the RISC-V unprivileged and privileged specifications, PRESUMED, log entry 53.
-/
namespace Sys2Proof.Machine

/-- Bits lo to lo + n - 1 of a word. -/
def fld (w lo n : Nat) : Nat := w / 2 ^ lo % 2 ^ n
/-- The low n bits of a number, sign-extended. -/
def sext (n x : Nat) : Word := (BitVec.ofNat n x).signExtend 64

/-- The immediate of an I-type word. -/
def immI (w : Nat) : Word := sext 12 (fld w 20 12)
/-- The immediate of an S-type word. -/
def immS (w : Nat) : Word := sext 12 (fld w 25 7 * 32 + fld w 7 5)
/-- The immediate of a B-type word. -/
def immB (w : Nat) : Word := sext 13 (fld w 31 1 * 4096 + fld w 7 1 * 2048 + fld w 25 6 * 32 + fld w 8 4 * 2)
/-- The immediate of a U-type word. -/
def immU (w : Nat) : Word := sext 32 (fld w 12 20 * 4096)
/-- The immediate of a J-type word. -/
def immJ (w : Nat) : Word := sext 21 (fld w 31 1 * 2 ^ 20 + fld w 12 8 * 4096 + fld w 20 1 * 2048 + fld w 21 10 * 2)

/-- An R-type word. -/
def asmR (op f3 f7 rd rs1 rs2 : Nat) : Nat := f7 * 2 ^ 25 + rs2 * 2 ^ 20 + rs1 * 2 ^ 15 + f3 * 2 ^ 12 + rd * 2 ^ 7 + op
/-- An I-type word. -/
def asmI (op f3 rd rs1 imm : Nat) : Nat := imm % 4096 * 2 ^ 20 + rs1 * 2 ^ 15 + f3 * 2 ^ 12 + rd * 2 ^ 7 + op
/-- A store word. -/
def asmS (f3 rs1 rs2 imm : Nat) : Nat := fld imm 5 7 * 2 ^ 25 + rs2 * 2 ^ 20 + rs1 * 2 ^ 15 + f3 * 2 ^ 12 + fld imm 0 5 * 2 ^ 7 + 0x23
/-- A branch on a register and x0. -/
def asmB (f3 rs1 imm : Nat) : Nat :=
  fld imm 12 1 * 2 ^ 31 + fld imm 5 6 * 2 ^ 25 + rs1 * 2 ^ 15 + f3 * 2 ^ 12 + fld imm 1 4 * 2 ^ 8 + fld imm 11 1 * 2 ^ 7 + 0x63
/-- A `jal` word. -/
def asmJ (rd imm : Nat) : Nat :=
  fld imm 20 1 * 2 ^ 31 + fld imm 1 10 * 2 ^ 21 + fld imm 11 1 * 2 ^ 20 + fld imm 12 8 * 2 ^ 12 + rd * 2 ^ 7 + 0x6F
/-- The low n bits of a number whose bit m - 1 is its sign. -/
def widen (m n x : Nat) : Nat := ((BitVec.ofNat m x).signExtend n).toNat

/-- The 32-bit word that a compressed word stands for; none where it is illegal. -/
def expandC (w : Nat) : Option Nat :=
  let rd := fld w 7 5
  let rs2 := fld w 2 5
  let p := fld w 2 3 + 8
  let q := fld w 7 3 + 8
  let imm := widen 6 12 (fld w 12 1 * 32 + rs2)
  let sh := fld w 12 1 * 32 + rs2
  let lw := fld w 10 3 * 8 + fld w 6 1 * 4 + fld w 5 1 * 64
  let ld := fld w 10 3 * 8 + fld w 5 2 * 64
  let b := widen 9 13 (fld w 12 1 * 256 + fld w 10 2 * 8 + fld w 5 2 * 64 + fld w 3 2 * 2 + fld w 2 1 * 32)
  match fld w 0 2, fld w 13 3 with
  | 0, 0 =>
    let n := fld w 11 2 * 16 + fld w 7 4 * 64 + fld w 6 1 * 4 + fld w 5 1 * 8
    if n = 0 then none else some (asmI 0x13 0 p 2 n)
  | 0, 2 => some (asmI 0x03 2 p q lw)
  | 0, 3 => some (asmI 0x03 3 p q ld)
  | 0, 6 => some (asmS 2 q p lw)
  | 0, 7 => some (asmS 3 q p ld)
  | 1, 0 => some (asmI 0x13 0 rd rd imm)
  | 1, 1 => if rd = 0 then none else some (asmI 0x1B 0 rd rd imm)
  | 1, 2 => some (asmI 0x13 0 rd 0 imm)
  | 1, 3 =>
    if rd = 2 then
      let n := widen 10 12 (fld w 12 1 * 512 + fld w 6 1 * 16 + fld w 5 1 * 64 + fld w 3 2 * 128 + fld w 2 1 * 32)
      if n = 0 then none else some (asmI 0x13 0 2 2 n)
    else if sh = 0 then none else some (widen 6 20 sh * 4096 + rd * 128 + 0x37)
  | 1, 4 => match fld w 10 2 with
    | 0 => some (asmI 0x13 5 q q sh)
    | 1 => some (asmI 0x13 5 q q (1024 + sh))
    | 2 => some (asmI 0x13 7 q q imm)
    | _ => match fld w 12 1, fld w 5 2 with
      | 0, 0 => some (asmR 0x33 0 32 q q p)
      | 0, 1 => some (asmR 0x33 4 0 q q p)
      | 0, 2 => some (asmR 0x33 6 0 q q p)
      | 0, _ => some (asmR 0x33 7 0 q q p)
      | _, 0 => some (asmR 0x3B 0 32 q q p)
      | _, 1 => some (asmR 0x3B 0 0 q q p)
      | _, _ => none
  | 1, 5 => some (asmJ 0 (widen 12 21 (fld w 12 1 * 2048 + fld w 11 1 * 16 + fld w 9 2 * 256 + fld w 8 1 * 1024 + fld w 7 1 * 64 + fld w 6 1 * 128
      + fld w 3 3 * 2 + fld w 2 1 * 32)))
  | 1, 6 => some (asmB 0 q b)
  | 1, _ => some (asmB 1 q b)
  | 2, 0 => some (asmI 0x13 1 rd rd sh)
  | 2, 2 => if rd = 0 then none else some (asmI 0x03 2 rd 2 (fld w 12 1 * 32 + fld w 4 3 * 4 + fld w 2 2 * 64))
  | 2, 3 => if rd = 0 then none else some (asmI 0x03 3 rd 2 (fld w 12 1 * 32 + fld w 5 2 * 8 + fld w 2 3 * 64))
  | 2, 4 =>
    if fld w 12 1 = 0 then
      if rs2 = 0 then (if rd = 0 then none else some (asmI 0x67 0 0 rd 0)) else some (asmR 0x33 0 0 rd 0 rs2)
    else if rs2 = 0 then (if rd = 0 then some 0x00100073 else some (asmI 0x67 0 1 rd 0))
    else some (asmR 0x33 0 0 rd rd rs2)
  | 2, 6 => some (asmS 2 2 rs2 (fld w 9 4 * 4 + fld w 7 2 * 64))
  | 2, 7 => some (asmS 3 2 rs2 (fld w 10 3 * 8 + fld w 7 3 * 64))
  | _, _ => none

/-- A Lamplighter core's integer register. -/
def Hart.reg (h : Hart) (n : Nat) : Word := if n = 0 then 0 else tget 0 h.x n
/-- The low half of a result, sign-extended. -/
def low32 (x : Word) : Word := (x.truncate 32).signExtend 64
/-- An integer operation by its funct3; `alt` for `sub` and `sra`. -/
def rvAlu (f3 : Nat) (alt : Bool) (x y : Word) : Word :=
  let n := y.toNat % 64
  match f3 with
  | 0 => if alt then x - y else x + y
  | 1 => x <<< n
  | 2 => if x.slt y then 1 else 0
  | 3 => if x.ult y then 1 else 0
  | 4 => x ^^^ y
  | 5 => if alt then x.sshiftRight n else x >>> n
  | 6 => x ||| y
  | _ => x &&& y
/-- The same on 32-bit words; none where there is no such operation. -/
def rvAluW (f3 : Nat) (alt : Bool) (x y : Word) : Option Word :=
  let a : BitVec 32 := x.truncate 32
  let n := y.toNat % 32
  match f3 with
  | 0 => some (low32 (if alt then x - y else x + y))
  | 1 => some ((a <<< n).signExtend 64)
  | 5 => some ((if alt then a.sshiftRight n else a >>> n).signExtend 64)
  | _ => none
/-- Quotient and remainder toward zero; a division by zero gives all ones and the dividend, and the quotient wraps. -/
def rvDiv (n : Nat) (sg : Bool) (x y : BitVec n) : BitVec n × BitVec n :=
  if y = 0 then (BitVec.allOnes n, x)
  else if sg then (BitVec.ofInt n (Int.tdiv x.toInt y.toInt), BitVec.ofInt n (Int.tmod x.toInt y.toInt))
  else (BitVec.ofNat n (x.toNat / y.toNat), BitVec.ofNat n (x.toNat % y.toNat))
/-- Multiplication and division by funct3. -/
def rvMul (f3 : Nat) (x y : Word) : Word :=
  let high := fun (p : Int) => BitVec.ofInt 64 (p / 2 ^ 64)
  match f3 with
  | 0 => x * y
  | 1 => high (x.toInt * y.toInt)
  | 2 => high (x.toInt * (y.toNat : Int))
  | 3 => high ((x.toNat : Int) * (y.toNat : Int))
  | 4 => (rvDiv 64 true x y).1
  | 5 => (rvDiv 64 false x y).1
  | 6 => (rvDiv 64 true x y).2
  | _ => (rvDiv 64 false x y).2
/-- The same on 32-bit words; none where there is no such operation. -/
def rvMulW (f3 : Nat) (x y : Word) : Option Word :=
  let a : BitVec 32 := x.truncate 32
  let b : BitVec 32 := y.truncate 32
  match f3 with
  | 0 => some (low32 (x * y))
  | 4 => some ((rvDiv 32 true a b).1.signExtend 64)
  | 5 => some ((rvDiv 32 false a b).1.signExtend 64)
  | 6 => some ((rvDiv 32 true a b).2.signExtend 64)
  | 7 => some ((rvDiv 32 false a b).2.signExtend 64)
  | _ => none
/-- A branch condition by funct3; none where there is none. -/
def rvCond (f3 : Nat) (x y : Word) : Option Bool :=
  match f3 with
  | 0 => some (x == y)
  | 1 => some (x != y)
  | 4 => some (x.slt y)
  | 5 => some (!x.slt y)
  | 6 => some (x.ult y)
  | 7 => some (!x.ult y)
  | _ => none
/-- The new value of an atomic memory operation on n-byte values by its funct5; none where there is none. -/
def rvAmo (f5 : Nat) (x y : Word) : Option Word :=
  match f5 with
  | 0 => some (x + y)
  | 1 => some y
  | 4 => some (x ^^^ y)
  | 8 => some (x ||| y)
  | 12 => some (x &&& y)
  | 16 => some (if x.slt y then x else y)
  | 20 => some (if x.slt y then y else x)
  | 24 => some (if x.ult y then x else y)
  | 28 => some (if x.ult y then y else x)
  | _ => none

/-- A machine-mode register of core `h`; none where the model has no such register. -/
def State.csr (s : State) (h n : Nat) : Option Word :=
  let x := s.hartAt h
  match n with
  | 0x300 => some (BitVec.ofNat 64 (0x1800 + 8 * x.mie.toNat + 128 * x.mpie.toNat))
  | 0x301 => some 0x8000000000001105
  | 0x304 => some x.ie
  | 0x305 => some x.mtvec
  | 0x340 => some x.mscratch
  | 0x341 => some x.mepc
  | 0x342 => some x.mcause
  | 0x343 => some x.mtval
  | 0x344 => some (BitVec.ofNat 64 (2 ^ 24 * x.irq.toNat))
  | 0xF11 => some 0
  | 0xF12 => some 0
  | 0xF13 => some 0
  | 0xF14 => some (BitVec.ofNat 64 (s.roleAt h))
  | _ => none
/-- A core with a machine-mode register written. -/
def Hart.csrPut (x : Hart) (n : Nat) (v : Word) : Hart :=
  match n with
  | 0x300 => { x with mie := v.getLsbD 3, mpie := v.getLsbD 7 }
  | 0x304 => { x with ie := v }
  | 0x305 => { x with mtvec := v &&& ~~~2#64 }
  | 0x340 => { x with mscratch := v }
  | 0x341 => { x with mepc := v &&& ~~~1#64 }
  | 0x342 => { x with mcause := v }
  | 0x343 => { x with mtval := v }
  | _ => x

/-- Core `h` reads `n` aligned bytes and goes on with them, or takes the exception of its kind: `6` and `7` of an atomic operation, else `4` and `5`. -/
def State.rvLoad (s : State) (h : Nat) (amo : Bool) (a : Word) (n : Nat) (k : State → List Byte → State) : State :=
  let up := if amo then 2 else 0
  if a.toNat % n != 0 then s.rvTrap h (4 + up) a
  else match s.devRead h a.toNat n with
    | none => s.rvTrap h (5 + up) a
    | some (bs, s1) => k s1 bs
/-- Core `h` writes aligned bytes and goes on, or takes the exception of its kind. -/
def State.rvStore (s : State) (h : Nat) (a : Word) (bs : List Byte) (k : State → State) : State :=
  if a.toNat % bs.length != 0 then s.rvTrap h 6 a
  else match s.devWrite h a.toNat bs with
    | none => s.rvTrap h 7 a
    | some s1 => k s1

/-- A 32-bit word, or the one that a compressed word stands for, executed by core `h`: `raw` and `len` are the word as it stands and its bytes. -/
def State.rvWord (s : State) (h w raw len : Nat) : State :=
  let x := s.hartAt h
  let rd : BitVec 5 := BitVec.ofNat 5 (fld w 7 5)
  let f3 := fld w 12 3
  let f7 := fld w 25 7
  let r1 := x.reg (fld w 15 5)
  let r2 := x.reg (fld w 20 5)
  let next := x.pc + BitVec.ofNat 64 len
  let ill := s.rvTrap h 2 (BitVec.ofNat 64 raw)
  let put := fun (s : State) (v : Word) => s.modHart h fun y => { y.put rd v with pc := next }
  let jump := fun (t : Word) => s.modHart h fun y => { y.put rd next with pc := t &&& ~~~1#64 }
  let opt := fun (o : Option Word) => match o with
    | some v => put s v
    | none => ill
  let on := fun (s : State) => s.modHart h fun y => { y with pc := next }
  match fld w 0 7 with
  | 0x37 => put s (immU w)
  | 0x17 => put s (x.pc + immU w)
  | 0x6F => jump (x.pc + immJ w)
  | 0x67 => if f3 = 0 then jump (r1 + immI w) else ill
  | 0x63 => match rvCond f3 r1 r2 with
    | some true => s.modHart h fun y => { y with pc := x.pc + immB w }
    | some false => on s
    | none => ill
  | 0x03 =>
    let n := 2 ^ (f3 % 4)
    if f3 = 7 then ill
    else s.rvLoad h false (r1 + immI w) n fun s bs => put s (if f3 < 4 then sext (8 * n) (leNat bs) else BitVec.ofNat 64 (leNat bs))
  | 0x23 => if 4 ≤ f3 then ill else s.rvStore h (r1 + immS w) (leBytes (2 ^ f3) r2.toNat) on
  | 0x13 =>
    if f3 = 1 && fld w 26 6 != 0 then ill
    else if f3 = 5 && fld w 26 6 != 0 && fld w 26 6 != 16 then ill
    else put s (rvAlu f3 (f3 == 5 && fld w 26 6 == 16) r1 (immI w))
  | 0x1B =>
    if (f3 = 1 && f7 != 0) || (f3 = 5 && f7 != 0 && f7 != 32) then ill
    else opt (rvAluW f3 (f3 == 5 && f7 == 32) r1 (immI w))
  | 0x33 =>
    if f7 = 1 then put s (rvMul f3 r1 r2)
    else if f7 = 0 || (f7 = 32 && (f3 = 0 || f3 = 5)) then put s (rvAlu f3 (f7 == 32) r1 r2) else ill
  | 0x3B =>
    if f7 = 1 then opt (rvMulW f3 r1 r2)
    else if f7 = 0 || (f7 = 32 && (f3 = 0 || f3 = 5)) then opt (rvAluW f3 (f7 == 32) r1 r2) else ill
  -- strong accesses are performed at once: a fence finds them done (R342)
  | 0x0F => if f3 = 0 then on s else ill
  | 0x2F =>
    let n := 2 ^ f3
    let f5 := fld w 27 5
    if f3 != 2 && f3 != 3 then ill
    else if f5 = 2 then
      if fld w 20 5 != 0 then ill
      else s.rvLoad h false r1 n fun s bs => (put s (sext (8 * n) (leNat bs))).modHart h fun y => { y with resv := some (r1.toNat, bs) }
    else if f5 = 3 then
      let s1 := s.modHart h fun y => { y with resv := none }
      match x.resv with
      | some (a, old) =>
        if a = r1.toNat && old.length = n then s1.rvLoad h true r1 n fun s2 bs =>
          if bs = old then s2.rvStore h r1 (leBytes n r2.toNat) fun s3 => put s3 0 else put s2 1
        else put s1 1
      | none => put s1 1
    else s.rvLoad h true r1 n fun s1 bs =>
      let old := sext (8 * n) (leNat bs)
      match rvAmo f5 old (if f3 = 2 then low32 r2 else r2) with
      | some v => s1.rvStore h r1 (leBytes n v.toNat) fun s2 => put s2 old
      | none => ill
  | 0x73 =>
    let num := fld w 20 12
    if f3 = 0 then
      if w = 0x00000073 then s.rvTrap h 11 0
      else if w = 0x00100073 then s.rvTrap h 3 x.pc
      else if w = 0x30200073 then s.modHart h fun y => { y with pc := y.mepc, mie := y.mpie, mpie := true }
      else if w = 0x10500073 then on s
      else ill
    else match s.csr h num with
      | none => ill
      | some old =>
        let v : Word := if 4 ≤ f3 then BitVec.ofNat 64 (fld w 15 5) else r1
        let writes := f3 % 4 = 1 || fld w 15 5 != 0
        if f3 = 4 || (writes && 0xC00 ≤ num) then ill
        else
          let new := match f3 % 4 with
            | 1 => v
            | 2 => old ||| v
            | _ => old &&& ~~~v
          (if writes then s.modHart h fun y => y.csrPut num new else s).modHart h fun y => { y.put rd old with pc := next }
  | _ => ill

/-- A word of core `h` that is no Lx word, of 16 or 32 bits, executed. -/
def State.rvExec (s : State) (h w : Nat) : State :=
  if w % 4 = 3 then s.rvWord h w w 4
  else match expandC w with
    | some w32 => s.rvWord h w32 w 2
    | none => s.rvTrap h 2 (BitVec.ofNat 64 w)

end Sys2Proof.Machine
end

