-- ==== Sys2Proof/Machine/Step.lean ====
section
/-!
DEFINITION. Sys2Proof/Machine/Step.lean: one step of the device: the agent whose turn it is moves, then the clocks move on.
-/
namespace Sys2Proof.Machine

/-- An outcome, its next state followed by the clocks and the next turn. -/
def ticked : Out → Out
  | .next s => .next s.tick
  | .fault r => .fault r
  | .refused r => .refused r

/-- What an agent did in a state: nothing yet where it met a line that a transfer engine owns, so that it tries again (R228). -/
def settled (s : State) : Out → Out
  | .next t => .next (if t.waits then s else t)
  | .fault r => .fault r
  | .refused r => .refused r

/-- The instruction a fetch found is executed; where there is none, the state stands. -/
def ran : Instr × State ⊕ State → Out
  | .inl p => settled p.2 (exec p.1 p.2)
  | .inr s => .next s

/-- What the agent whose turn it is does. -/
def act (s : State) : Out :=
  match s.turn with
  | .scalar => ran s.sFetch
  | .lane => ran s.lFetch
  | .lx => match s.lxFetch with
    | .run i t => settled t (exec i t)
    | .done t => .next t
    | .rv w t => settled t (.next (t.rvExec t.hart w))
  | .event i => if s.eventOn i then settled s (exec i s) else .next s

/-- One step. -/
def step (s : State) : Out := ticked (settled s (act s))

/-- The state with an instruction of the opcode table's numbering where the next step fetches it. -/
def State.withFetchWord (s : State) (nbits w : Nat) : State := s.placeWord nbits w

end Sys2Proof.Machine
end

