-- ==== Sys2Proof/Safety.lean ====
section
/-!
DEFINITION. Sys2Proof/Safety.lean: what a safe run is, and the terms that statements use: what an instruction leaves as it was, and the
completion of an instruction of either stream.
-/
namespace Sys2Proof.Machine

/-- A step answers a next state. -/
def Goes (s : State) : Prop := ∃ t, step s = .next t

/-- Every one of the first `n` steps answers a next state. -/
def Safe : Nat → State → Prop
  | 0, _ => True
  | n + 1, s => ∃ t, step s = .next t ∧ Safe n t

/-- Memory is in its canonical form, and the tables of cores and of their groups list each once, rising. -/
structure State.Inv (s : State) : Prop where
  mem : memWf s.mem = true
  cores : rising s.cores
  groups : ∀ e ∈ s.cores, rising e.2.groups

/-- A stream of the acting group runs as usual: no lantern mode (R168), and no debugger steps it (R329). -/
def State.plain (s : State) (lane : Bool) : Prop := s.grp.lantern = none ∧ s.stepped s.core s.slot lane = false

/-- Two states differ at most in the memory system: memory with its poison, errors, keys, owners, windows and shadows, cache ways, translations and instruction
caches, the wake of a gated layer and the count of accesses whose errors are still to be counted, and the mark of a step that waits for a transfer engine's
line (R156, R180, R228, R293, R364, R372, R375, R386); what Inv says stays so. -/
structure State.MemOnly (s t : State) : Prop where
  wf : s.Inv → t.Inv
  device : { t with mem := s.mem, poison := s.poison, eccu := s.eccu, encTags := s.encTags, owners := s.owners, wins := s.wins, versions := s.versions, cores := s.cores,
                    clusters := s.clusters, feTlb := s.feTlb, waits := s.waits } = s
  cluster : ∀ k, { t.clAt k with tlb := (s.clAt k).tlb } = s.clAt k
  core : ∀ c, { t.coreAt c with a := (s.coreAt c).a, b := (s.coreAt c).b, tlb := (s.coreAt c).tlb, icache := (s.coreAt c).icache,
                                vbus := (s.coreAt c).vbus } = s.coreAt c
  planeA : ∀ c, { (t.coreAt c).a with cache := (s.coreAt c).a.cache } = (s.coreAt c).a
  planeB : ∀ c, { (t.coreAt c).b with cache := (s.coreAt c).b.cache } = (s.coreAt c).b
  bus : ∀ c, { (t.coreAt c).vbus with wakeS := (s.coreAt c).vbus.wakeS, wakeD := (s.coreAt c).vbus.wakeD, woke := (s.coreAt c).vbus.woke,
                                       due := (s.coreAt c).vbus.due } = (s.coreAt c).vbus

/-- Two states differ at most in the memory system and in the strong stores that the group at `c`, `g` has not yet performed (R184). -/
structure State.MemAcc (s t : State) (c g : Nat) : Prop where
  wf : s.Inv → t.Inv
  device : { t with mem := s.mem, poison := s.poison, eccu := s.eccu, encTags := s.encTags, owners := s.owners, wins := s.wins, versions := s.versions, cores := s.cores,
                    clusters := s.clusters, feTlb := s.feTlb, waits := s.waits } = s
  cluster : ∀ k, { t.clAt k with tlb := (s.clAt k).tlb } = s.clAt k
  core : ∀ c, { t.coreAt c with a := (s.coreAt c).a, b := (s.coreAt c).b, tlb := (s.coreAt c).tlb, icache := (s.coreAt c).icache,
                                vbus := (s.coreAt c).vbus, groups := (s.coreAt c).groups } = s.coreAt c
  planeA : ∀ c, { (t.coreAt c).a with cache := (s.coreAt c).a.cache } = (s.coreAt c).a
  planeB : ∀ c, { (t.coreAt c).b with cache := (s.coreAt c).b.cache } = (s.coreAt c).b
  bus : ∀ c, { (t.coreAt c).vbus with wakeS := (s.coreAt c).vbus.wakeS, wakeD := (s.coreAt c).vbus.wakeD, woke := (s.coreAt c).vbus.woke,
                                       due := (s.coreAt c).vbus.due } = (s.coreAt c).vbus
  group : { t.grpAt c g with sbuf := (s.grpAt c g).sbuf, lsbuf := (s.grpAt c g).lsbuf } = s.grpAt c g
  groups : ∀ d h, (d, h) ≠ (c, g) → t.grpAt d h = s.grpAt d h

/-- Two states differ at most in the acting group of the first, but for which groups a yield still waits for (R69). -/
structure State.OnlyGroup (s t : State) : Prop where
  device : { t with cores := s.cores } = s
  core : ∀ c, { t.coreAt c with groups := (s.coreAt c).groups } = s.coreAt c
  group : ∀ c g, (c, g) ≠ (s.core, s.slot) → { t.grpAt c g with yielded := [] } = { s.grpAt c g with yielded := [] }

/-- A scalar instruction has completed from `s` to `t`: it wrote `v` to `rd` and nothing else, gave the results `late` to return later, and
the stream goes on at `pc`, parked under S while a result of it is outstanding (R41, R57). -/
structure State.ScalarDone (s t : State) (sw : Bool) (rd : SReg) (v : Word) (late : List OutRes) (pc : Word) : Prop where
  only : s.OnlyGroup t
  reg : ∀ r : SReg, t.grp.work.rs r.toNat = if r = rd ∧ r ≠ 0 then v else s.grp.work.rs r.toNat
  poison : ∀ r : SReg, t.grp.work.sBad r.toNat = if r = rd then false else s.grp.work.sBad r.toNat
  plane : { t.grp.work with s := s.grp.work.s, sPoi := s.grp.work.sPoi, ecc := s.grp.work.ecc } = s.grp.work
  staging : t.grp.stage_ = s.grp.stage_
  pc : t.grp.pc = pc
  outs : t.grp.outs = s.grp.outs ++ late
  park : t.grp.sPark = if sw && t.grp.awaits false then some s.now else s.grp.sPark
  wait : t.grp.sWait = .none
  rest : { t.grp with a := s.grp.a, b := s.grp.b, pc := s.grp.pc, outs := s.grp.outs, sPark := s.grp.sPark, sWait := s.grp.sWait,
                      yielded := s.grp.yielded } = s.grp

/-- What a list of results leaves in vector register `n` of thread `th`, the last of them; none where none writes it. -/
def vOf : List RDest → Nat → Nat → Option (BitVec 32)
  | [], _, _ => none
  | .v t k x :: ds, th, n => (vOf ds th n).or (if t = th ∧ k = n then some x else none)
  | _ :: ds, th, n => vOf ds th n
/-- What a list of results leaves in predicate `n` of thread `th`; p0 discards it (R35). -/
def pOf : List RDest → Nat → Nat → Option Bool
  | [], _, _ => none
  | .p t k x :: ds, th, n => (pOf ds th n).or (if t = th ∧ k = n ∧ n ≠ 0 then some x else none)
  | _ :: ds, th, n => pOf ds th n
/-- Every result is for a register that exists. -/
def fits (ds : List RDest) : Prop := ∀ d ∈ ds, match d with
  | .s _ _ => False
  | .v _ k _ => k < 64
  | .p _ k _ => k < 8

/-- No active thread's guard predicate is poisoned (R208); one whose result is outstanding does not count (R42). -/
def State.guardOk (s : State) (h : LHdr) (f : List Nat) : Prop := ∀ t ∈ f, s.pBadR t h.prd.toNat = false
/-- The active threads that go on when an instruction completes: every one, but none where it is a load done again after a LATE trap (R120, R315). -/
def State.movers (s : State) (f : List Nat) : List Nat := if s.grp.stays then [] else f

/-- A lane instruction has completed from `s` to `t` for the active threads `f`: it wrote the results `ds` and nothing else, gave the results
`late` to return later, after which earlier loads' bad data is LATE, and the threads that go on stand at `pc`, the stream parked under S while a result of it is
outstanding (R41, R120, R315). -/
structure State.LaneDone (s t : State) (sw : Bool) (f : List Nat) (ds : List RDest) (late : List OutRes) (pc : Word) : Prop where
  only : s.OnlyGroup t
  vec : ∀ (th : Nat) (n : VReg), t.grp.work.rv th n.toNat = (vOf ds th n.toNat).getD (s.grp.work.rv th n.toNat)
  vecPoison : ∀ (th : Nat) (n : VReg), t.grp.work.vBad th n.toNat = ((vOf ds th n.toNat).isNone && s.grp.work.vBad th n.toNat)
  pred : ∀ (th : Nat) (n : BitVec 3), t.grp.work.rp th n.toNat = (pOf ds th n.toNat).getD (s.grp.work.rp th n.toNat)
  plane : { t.grp.work with v := s.grp.work.v, vPoi := s.grp.work.vPoi, p := s.grp.work.p, ecc := s.grp.work.ecc } = s.grp.work
  staging : t.grp.stage_ = s.grp.stage_
  threads : ∀ th, t.grp.thrAt th = if th ∈ s.movers f then { s.grp.thrAt th with pc := pc } else s.grp.thrAt th
  outs : t.grp.outs = s.grp.outs.map OutRes.onward ++ late
  park : t.grp.lPark = if sw && t.grp.awaits true then some s.now else s.grp.lPark
  wait : t.grp.lWait = .none
  redo : t.grp.redo = none
  rest : { t.grp with a := s.grp.a, b := s.grp.b, thr := s.grp.thr, outs := s.grp.outs, lPark := s.grp.lPark, lWait := s.grp.lWait,
                      redo := s.grp.redo } = s.grp

end Sys2Proof.Machine
end

