-- ==== Sys2Proof/Certificates/Slice0/Obligations.lean ====
section
/-!
DEFINITION. Sys2Proof/Certificates/Slice0/Obligations.lean: the statements for the provers, each after the terms it is stated in.
-/
open Sys2Proof Sys2Proof.Machine

namespace Sys2Proof.Spec

/-! Scalar instructions. -/

/-- A number as what a 64-bit register holds of it. -/
def word (x : Int) : Word := BitVec.ofInt 64 x
/-- A comparison of R58 on the signed and the unsigned reading of two values. -/
def cond : Cond → Int → Int → Nat → Nat → Bool
  | .eq, _, _, a, b => a = b
  | .ne, _, _, a, b => a ≠ b
  | .lt, x, y, _, _ => x < y
  | .ge, x, y, _, _ => x ≥ y
  | .ltu, _, _, a, b => a < b
  | .geu, _, _, a, b => a ≥ b
  | .le, x, y, _, _ => x ≤ y
  | .gt, x, y, _, _ => x > y
  | .leu, _, _, a, b => a ≤ b
  | .gtu, _, _, a, b => a > b
/-- The comparison of two registers' values. -/
def cmp (cc : Cond) (a b : Word) : Bool := cond cc a.toInt b.toInt a.toNat b.toNat

/-- A scalar instruction that only computes: its switch marker, the register it writes, those it reads, and the value. -/
structure Calc where
  sw : Bool
  rd : SReg
  srcs : List SReg
  val : Word

/-- The integer and address instructions of R59, their values as numbers from the signed (`z`) and unsigned (`u`) readings of the sources. -/
def intCalc (i : Instr) (s : State) : Option Calc :=
  let u := fun (r : SReg) => ((s.rS r).toNat : Int)
  let n := fun (r : SReg) => (s.rS r).toNat
  let z := fun (r : SReg) => (s.rS r).toInt
  let out := fun (sw : Bool) (rd : SReg) (srcs : List SReg) (x : Int) => some (Calc.mk sw rd srcs (word x))
  let b01 := fun (b : Bool) => if b then (1 : Int) else 0
  match i with
  | .add sw rd ra rb => out sw rd [ra, rb] (u ra + u rb)
  | .sub sw rd ra rb => out sw rd [ra, rb] (u ra - u rb)
  | .mul sw rd ra rb => out sw rd [ra, rb] (u ra * u rb)
  | .mulhu sw rd ra rb => out sw rd [ra, rb] (u ra * u rb / 2 ^ 64)
  | .mulhs sw rd ra rb => out sw rd [ra, rb] (z ra * z rb / 2 ^ 64)
  | .divu sw rd ra rb => out sw rd [ra, rb] (if u rb = 0 then 2 ^ 64 - 1 else u ra / u rb)
  | .divs sw rd ra rb => out sw rd [ra, rb] (if z rb = 0 then -1 else (z ra).tdiv (z rb))
  | .remu sw rd ra rb => out sw rd [ra, rb] (if u rb = 0 then u ra else u ra % u rb)
  | .rems sw rd ra rb => out sw rd [ra, rb] (if z rb = 0 then z ra else (z ra).tmod (z rb))
  | .and sw rd ra rb => out sw rd [ra, rb] (n ra &&& n rb : Nat)
  | .or sw rd ra rb => out sw rd [ra, rb] (n ra ||| n rb : Nat)
  | .xor sw rd ra rb => out sw rd [ra, rb] (n ra ^^^ n rb : Nat)
  | .andn sw rd ra rb => out sw rd [ra, rb] (n ra &&& (2 ^ 64 - 1 - n rb) : Nat)
  | .shl sw rd ra rb => out sw rd [ra, rb] (u ra * 2 ^ (n rb % 64))
  | .shr sw rd ra rb => out sw rd [ra, rb] (u ra / 2 ^ (n rb % 64))
  | .sar sw rd ra rb => out sw rd [ra, rb] (z ra / 2 ^ (n rb % 64))
  | .minu sw rd ra rb => out sw rd [ra, rb] (min (u ra) (u rb))
  | .mins sw rd ra rb => out sw rd [ra, rb] (min (z ra) (z rb))
  | .maxu sw rd ra rb => out sw rd [ra, rb] (max (u ra) (u rb))
  | .maxs sw rd ra rb => out sw rd [ra, rb] (max (z ra) (z rb))
  | .clz sw rd ra => out sw rd [ra] (if n ra = 0 then 64 else 63 - (n ra).log2)
  | .ctz sw rd ra => out sw rd [ra] (((List.range 64).find? fun k => (n ra).testBit k).getD 64 : Nat)
  | .popc sw rd ra => out sw rd [ra] (((List.range 64).filter fun k => (n ra).testBit k).length : Nat)
  | .cmp sw cc rd ra rb => out sw rd [ra, rb] (b01 (cmp cc (s.rS ra) (s.rS rb)))
  | .csel sw rd ra rb sc => out sw rd [ra, rb, sc] (if u sc ≠ 0 then u ra else u rb)
  | .addi sw rd ra imm => out sw rd [ra] (u ra + imm.toInt)
  | .andi sw rd ra imm => out sw rd [ra] (n ra &&& (imm.toInt % 2 ^ 64).toNat : Nat)
  | .ori sw rd ra imm => out sw rd [ra] (n ra ||| imm.toNat : Nat)
  | .xori sw rd ra imm => out sw rd [ra] (n ra ^^^ imm.toNat : Nat)
  | .shli sw rd ra k => out sw rd [ra] (u ra * 2 ^ k.toNat)
  | .shri sw rd ra k => out sw rd [ra] (u ra / 2 ^ k.toNat)
  | .sari sw rd ra k => out sw rd [ra] (z ra / 2 ^ k.toNat)
  | .cmpi sw cc rd ra imm => out sw rd [ra] (b01 (cond cc (z ra) imm.toInt (n ra) (imm.toInt % 2 ^ 64).toNat))
  | .li sw rd imm => out sw rd [] imm.toInt
  | .lih sw rd imm => out sw rd [rd] (u rd * 2 ^ 18 + imm.toNat)
  | .lea sw rd ra rb sh => out sw rd [ra, rb] (u ra + u rb * 2 ^ sh.toNat)
  | .addpc sw rd imm => out sw rd [] (s.grp.pc.toNat + 4 * imm.toInt)
  | _ => none

/-- The registers that `bext` and `bins` read. -/
def fieldSrcs : Instr → Option (Bool × SReg × List SReg)
  | .bext sw _ rd ra rb => some (sw, rd, [ra, rb])
  | .bins sw rd ra rb => some (sw, rd, [ra, rb, rd])
  | _ => none

/-- Bit `k` of the result of `bext` from `a` (R60): inside the field the bit of `a`, a bit above its top as the fill, above the field zero or the
field's own top bit. -/
def bextBit {n : Nat} (sx : Bool) (a : BitVec n) (pos len k : Nat) : Bool :=
  let at_ := fun (j : Nat) => if pos + j < n then a.getLsbD (pos + j) else sx && a.getLsbD (n - 1)
  if len = 0 then false else if k < len then at_ k else sx && at_ (len - 1)
/-- Bit `k` of the result of `bins` into `old` from `a` (R60). -/
def binsBit {n : Nat} (old a : BitVec n) (pos len k : Nat) : Bool := if pos ≤ k ∧ k < pos + len then a.getLsbD (k - pos) else old.getLsbD k
/-- The position and the length that a register describes (R60). -/
def fieldPos (d : Word) : Nat := (d.extractLsb' 0 6).toNat
def fieldLen (d : Word) : Nat := min (d.extractLsb' 8 7).toNat 64

/-- The scalar float instructions of fixed latency (R74 to R76): the code of the result in its format from the codes of the sources. -/
def floatCalc (i : Instr) (s : State) : Option Calc :=
  let p := fun (d : Bool) => if d then fp64 else fp32
  let v := fun (d : Bool) (r : SReg) => if d then (s.rS r).toNat else (s.rS r).toNat % 2 ^ 32
  let out := fun (sw : Bool) (rd : SReg) (srcs : List SReg) (c : Nat) => some (Calc.mk sw rd srcs (word c))
  match i with
  | .sfadd sw d rm rd ra rb => out sw rd [ra, rb] ((p d).addC rm (v d ra) (v d rb))
  | .sfsub sw d rm rd ra rb => out sw rd [ra, rb] ((p d).subC rm (v d ra) (v d rb))
  | .sfmul sw d rm rd ra rb => out sw rd [ra, rb] ((p d).mulC rm (v d ra) (v d rb))
  | .sffma sw d rm rd ra rb => out sw rd [ra, rb, rd] ((p d).fmaC rm (v d ra) (v d rb) (v d rd))
  | .sfmin sw d rd ra rb => out sw rd [ra, rb] ((p d).minmaxC false (v d ra) (v d rb))
  | .sfmax sw d rd ra rb => out sw rd [ra, rb] ((p d).minmaxC true (v d ra) (v d rb))
  | .sfcmp sw fc d rd ra rb => out sw rd [ra, rb] ((p d).cmpC fc (v d ra) (v d rb)).toNat
  | .sfcvt sw tgt frm rm rd ra => out sw rd [ra] (cvtCode (fpOf tgt) (fpOf frm) rm ((s.rS ra).toNat % 2 ^ (match frm with
      | .s => 32
      | .d => 64
      | .h => 16
      | .bf => 16)))
  | .sfabs sw d rd ra => out sw rd [ra] ((p d).absC (v d ra))
  | .sfneg sw d rd ra => out sw rd [ra] ((p d).negC (v d ra))
  | .sfround sw d rm rd ra => out sw rd [ra] ((p d).enc rm (FV.round rm ((p d).dec (v d ra))))
  | .sf2i sw u d rm rd ra => some ⟨sw, rd, [ra], word (((p d).dec (v d ra)).toInt rm
      (if u then 0 else -2 ^ 63) (if u then 2 ^ 64 - 1 else 2 ^ 63 - 1))⟩
  | .si2f sw u d rm rd ra => out sw rd [ra] ((p d).enc rm (FV.ofInt (if u then ((s.rS ra).toNat : Int) else (s.rS ra).toInt)))
  | _ => none

/-- The scalar float instructions of variable latency (R56, R74). -/
def slowCalc (i : Instr) (s : State) : Option Calc :=
  let p := fun (d : Bool) => if d then fp64 else fp32
  let v := fun (d : Bool) (r : SReg) => if d then (s.rS r).toNat else (s.rS r).toNat % 2 ^ 32
  match i with
  | .sfrcp sw d rm rd ra => some ⟨sw, rd, [ra], word ((p d).div rm (FV.ofInt 1) ((p d).dec (v d ra)) : Nat)⟩
  | .sfsqrt sw d rm rd ra => some ⟨sw, rd, [ra], word ((p d).sqrt rm ((p d).dec (v d ra)) : Nat)⟩
  | .sfdiv sw d rm rd ra rb => some ⟨sw, rd, [ra, rb], word ((p d).div rm ((p d).dec (v d ra)) ((p d).dec (v d rb)) : Nat)⟩
  | _ => none

end Sys2Proof.Spec

/-- R57, R58, R59: each integer and address instruction whose sources are not poisoned completes, its register takes the value the rule's
table gives, and nothing else of the device changes but the PC and the park of S; `nop` changes only those. -/
def Obligations.ScalarIntegerResults : Prop :=
  (∀ (i : Instr) (s : State) (c : Spec.Calc), Spec.intCalc i s = some c → s.plain false → s.sPoi c.srcs = false →
    ∃ t, exec i s = .next t ∧ s.ScalarDone t c.sw c.rd c.val [] (s.grp.pc + 4)) ∧
  (∀ (sw : Bool) (s : State), s.plain false → ∃ t, exec (.nop sw) s = .next t ∧ s.ScalarDone t sw 0 0 [] (s.grp.pc + 4))

/-- R60: `bext` and `bins`, bit by bit, for every position and length a register can describe; and any 64-bit constant takes four words, `li` and
three `lih`. -/
def Obligations.BitFieldResults : Prop :=
  ∀ (s : State), s.plain false →
    (∀ (sw sx : Bool) (rd ra rb : SReg), s.sPoi [ra, rb] = false →
      ∃ t v, exec (.bext sw sx rd ra rb) s = .next t ∧ s.ScalarDone t sw rd v [] (s.grp.pc + 4) ∧
        ∀ k < 64, v.getLsbD k = Spec.bextBit sx (s.rS ra) (Spec.fieldPos (s.rS rb)) (Spec.fieldLen (s.rS rb)) k) ∧
    (∀ (sw : Bool) (rd ra rb : SReg), s.sPoi [ra, rb, rd] = false →
      ∃ t v, exec (.bins sw rd ra rb) s = .next t ∧ s.ScalarDone t sw rd v [] (s.grp.pc + 4) ∧
        ∀ k < 64, v.getLsbD k = Spec.binsBit (s.rS rd) (s.rS ra) (Spec.fieldPos (s.rS rb)) (Spec.fieldLen (s.rS rb)) k) ∧
    (∀ (rd : SReg) (x : Word), rd ≠ 0 → ∃ (i a b c : BitVec 18) (t u v w : State), exec (.li false rd i) s = .next t ∧
      exec (.lih false rd a) t = .next u ∧ exec (.lih false rd b) u = .next v ∧ exec (.lih false rd c) v = .next w ∧ w.rS rd = x)

/-- R74, R75, R76: each scalar float instruction of fixed latency completes, its register takes the code of the exact result rounded once, and
nothing else of the device changes but the PC and the park of S. R41, R56: `sfrcp`, `sfsqrt` and `sfdiv` leave their result outstanding: no
register changes yet, and S parks the stream. -/
def Obligations.ScalarFloatResults : Prop :=
  (∀ (i : Instr) (s : State) (c : Spec.Calc), Spec.floatCalc i s = some c → s.plain false → s.sPoi c.srcs = false →
    ∃ t, exec i s = .next t ∧ s.ScalarDone t c.sw c.rd c.val [] (s.grp.pc + 4)) ∧
  (∀ (i : Instr) (s : State) (c : Spec.Calc), Spec.slowCalc i s = some c → s.plain false → s.sPoi c.srcs = false →
    ∃ t, exec i s = .next t ∧
      s.ScalarDone t c.sw 0 0 [OutRes.of false [.s c.rd.toNat c.val] false false] (s.grp.pc + 4) ∧
      (c.sw = true → t.grp.sPark = some s.now))


/-- R94, R95, R97: a magnitude of `m` × 2^e rounded to a multiple of 2^q is exact where q ≤ e, and otherwise the multiple the mode names: toward
zero the greatest not above it, away from zero the least not below it, and to nearest the one within half a unit, the even one of two; in each
format the value of every code that is not a NaN rounds to that code in every mode. -/
def Obligations.RoundingIsDirected : Prop :=
  (∀ (rm : Rm) (neg : Bool) (m : Nat) (e q : Int),
    (q ≤ e → roundQ rm neg m false e q = m * 2 ^ (e - q).toNat) ∧
    (e < q →
      let u := 2 ^ (q - e).toNat
      let n := roundQ rm neg m false e q
      ((rm = .rz ∨ rm = .ru ∧ neg = true ∨ rm = .rd ∧ neg = false) → n * u ≤ m ∧ m < (n + 1) * u) ∧
      ((rm = .ru ∧ neg = false ∨ rm = .rd ∧ neg = true) → m ≤ n * u ∧ n * u < m + u) ∧
      (rm = .rn → 2 * m ≤ (2 * n + 1) * u ∧ (2 * n * u ≤ 2 * m + u) ∧
        (2 * m = (2 * n + 1) * u ∨ 2 * n * u = 2 * m + u → n % 2 = 0)))) ∧
  (∀ (p : Fp), p ∈ [fp16, bf16, fp32, fp64] → ∀ (rm : Rm) (c : Nat), c < 2 ^ (p.f + p.eb + 1) → p.dec c ≠ .nan → p.enc rm (p.dec c) = c)
namespace Sys2Proof.Spec

/-! Control flow, coupling and traps. -/

/-- A branch target: `n` words from an address (R31). -/
def target (pc : Word) (n : Int) : Word := word (pc.toNat + 4 * n)

/-- A trap of the group at `c`, `g` is delivered to its handler, and may be entered now (R312, R314): the group is in no handler and has one,
the cause is not one that R312 delivers elsewhere, and no result, item or other hold keeps its planes. -/
structure Handles (s : State) (c g : Nat) (r : TrapRec) : Prop where
  cause : r.cause ∉ [.undecl, .txovf, .assert, .step, .watch]
  brkh : r.cause = .brk → (s.partAt (s.lchAt (s.grpAt c g).lid).part).dbgBrkh = false
  swap : r.swap = false
  loud : r.silent = false
  out : (s.grpAt c g).handler = false
  vec : (s.grpAt c g).trapvec ≠ 0
  ready : s.canEnter c g = true

/-- What the entry of R314 leaves of the group at `c`, `g`, with the frame of R315. -/
structure Entered (s t : State) (c g : Nat) (r : TrapRec) : Prop where
  planes : (t.grpAt c g).selB = !(s.grpAt c g).selB
  staging : (t.grpAt c g).stage_ = (s.grpAt c g).work
  hold : (t.grpAt c g).held = some .trap
  mode : (t.grpAt c g).handler = true
  pc : (t.grpAt c g).pc = (s.grpAt c g).trapvec
  cause : ((t.grpAt c g).work.rs 1).extractLsb' 0 8 = BitVec.ofNat 8 r.cause.code
  strm : ((t.grpAt c g).work.rs 1).getLsbD 16 = r.lane
  late : ((t.grpAt c g).work.rs 1).getLsbD 17 = r.late
  reex : ((t.grpAt c g).work.rs 1).getLsbD 18 = r.reex
  zero : ((t.grpAt c g).work.rs 1).extractLsb' 8 8 = 0 ∧ ((t.grpAt c g).work.rs 1).extractLsb' 19 13 = 0
  code : ((t.grpAt c g).work.rs 1).extractLsb' 32 32 = r.code
  resume : (t.grpAt c g).work.rs 2 = r.resume
  lpc : (t.grpAt c g).work.rs 3 = r.lpc
  faddr : (t.grpAt c g).work.rs 4 = r.faddr
  exec : ((t.grpAt c g).work.rs 5).extractLsb' 0 32 = r.exec
  fmask : ((t.grpAt c g).work.rs 5).extractLsb' 32 32 = r.fmask
  frame : ∀ n, n ∈ [1, 2, 3, 4, 5] ∨ 32 ≤ n ∧ n < 64 → (t.grpAt c g).work.sBad n = false
  other : ∀ n, n ∉ [1, 2, 3, 4, 5] → (n < 32 ∨ 64 ≤ n) → (t.grpAt c g).work.rs n = (s.grpAt c g).stage_.rs n
  vectors : (t.grpAt c g).work.v = (s.grpAt c g).stage_.v ∧ (t.grpAt c g).work.p = (s.grpAt c g).stage_.p
  kept : (t.grpAt c g).trapvec = (s.grpAt c g).trapvec ∧ (t.grpAt c g).wicks = (s.grpAt c g).wicks ∧ (t.grpAt c g).lq = (s.grpAt c g).lq
  groups : ∀ d h, (d, h) ≠ (c, g) → t.grpAt d h = s.grpAt d h
  device : { t with cores := s.cores, fronts := s.fronts } = s

end Sys2Proof.Spec

/-- R31, R57, R58, R61: the branches and calls go to their targets, `loop` and `call` write their register, and nothing else changes; `ret` and
`jr` to an address that is not a multiple of 4 raise ALIGN, before the POISON of their register (R10). -/
def Obligations.BranchResults : Prop :=
  (∀ (s : State), s.plain false →
    (∀ sw off, ∃ t, exec (.b sw off) s = .next t ∧ s.ScalarDone t sw 0 0 [] (Spec.target s.grp.pc off.toInt)) ∧
    (∀ sw off, ∃ t, exec (.call sw off) s = .next t ∧ s.ScalarDone t sw 63 (Spec.word (s.grp.pc.toNat + 4)) [] (Spec.target s.grp.pc off.toInt)) ∧
    (∀ sw cc ra off, s.sPoi [ra] = false → ∃ t, exec (.bc sw cc ra off) s = .next t ∧
      s.ScalarDone t sw 0 0 [] (if Spec.cmp cc (s.rS ra) 0 then Spec.target s.grp.pc off.toInt else Spec.target s.grp.pc 1)) ∧
    (∀ sw ra off, s.sPoi [ra] = false → ∃ t, exec (.loop sw ra off) s = .next t ∧
      s.ScalarDone t sw ra (Spec.word ((s.rS ra).toNat - 1)) []
        (if s.rS ra ≠ 1 then Spec.target s.grp.pc off.toInt else Spec.target s.grp.pc 1)) ∧
    (∀ sw ra, s.sPoi [ra] = false → (s.rS ra).toNat % 4 = 0 →
      (∃ t, exec (.ret sw ra) s = .next t ∧ s.ScalarDone t sw 0 0 [] (s.rS ra)) ∧
      (∃ t, exec (.jr sw ra) s = .next t ∧ s.ScalarDone t sw 0 0 [] (s.rS ra)))) ∧
  (∀ (s : State) (sw : Bool) (ra : SReg), s.grp.lantern = none → (s.rS ra).toNat % 4 ≠ 0 →
    exec (.ret sw ra) s = .next (s.sRaise sw .align) ∧ exec (.jr sw ra) s = .next (s.sRaise sw .align))

/-- R311, R312, R314, R315: a trap delivered to the handler exchanges the register planes, writes the frame, keeps every other register, and goes
to %trapvec in handler mode; `trap` and `brk` enter the handler so with their code, to resume at the next word.
R317: `tret` in a handler, not stepped by a debugger, nothing outstanding and the frame in order, exchanges the planes back, leaves the handler and resumes at S[2];
outside a handler it raises ILL. With S[32] = 0 the lane stream is idle. -/
def Obligations.TrapEntryAndReturn : Prop :=
  (∀ (s : State) (c g : Nat) (r : TrapRec), Spec.Handles s c g r → Spec.Entered s (s.deliver c g r) c g r) ∧
  (∀ (s : State) (sw : Bool) (code : BitVec 18), s.grp.lantern = none →
    (∀ r : TrapRec, r = ⟨.user, false, code.zeroExtend 32, false, false, s.grp.pc + 4, s.grp.lpcNow, 0, 0, 0, 0xFF, 0, s.grp.pc, false, false⟩ →
      Spec.Handles s s.core s.slot r → ∃ t, exec (.trap sw code) s = .next t ∧ Spec.Entered s t s.core s.slot r) ∧
    (∀ r : TrapRec, r = ⟨.brk, false, code.zeroExtend 32, false, false, s.grp.pc + 4, s.grp.lpcNow, 0, 0, 0, 0xFF, 0, s.grp.pc, false, false⟩ →
      Spec.Handles s s.core s.slot r → ∃ t, exec (.brk sw code) s = .next t ∧ Spec.Entered s t s.core s.slot r)) ∧
  (∀ (s : State) (sw : Bool),
    (s.grp.handler = false → exec (.tret sw) s = .next (s.sRaise sw .ill)) ∧
    (s.grp.handler = true → s.stepped s.core s.slot false = false → s.grp.outs = [] → s.grpItems s.core s.slot = false → s.grp.stage_.anyBad = false →
      (s.grp.work.rs 2).toNat % 4 = 0 → s.grp.work.rs 32 = 0 → (s.grp.work.rs 1).getLsbD 16 = false →
      ∃ t, exec (.tret sw) s = .next t ∧ s.OnlyGroup t ∧ t.grp.selB = (!s.grp.selB) ∧ t.grp.work = s.grp.stage_ ∧ t.grp.stage_ = s.grp.work ∧
        t.grp.held = none ∧ t.grp.handler = false ∧ t.grp.pc = s.grp.work.rs 2 ∧ t.grp.idle = true ∧ t.grp.running = [] ∧
        t.grp.trapvec = s.grp.trapvec ∧ t.grp.wicks = s.grp.wicks))

/-- R311: `assert` of a register that is not 0 has no effect; of 0 it stops the context with ASSERT and the message pointer. R321: `phint` with
no request pending has no effect; with one the group is ready for a save under that record; n out of range raises ILL. -/
def Obligations.AssertAndPhint : Prop :=
  ∀ (s : State) (sw : Bool), s.plain false →
    (∀ ra rm, s.sPoi [ra, rm] = false → s.rS ra ≠ 0 → ∃ t, exec (.assert sw ra rm) s = .next t ∧ s.ScalarDone t sw 0 0 [] (s.grp.pc + 4)) ∧
    (∀ ra rm, s.sPoi [ra, rm] = false → s.rS ra = 0 → (s.partAt s.prt).dbgHold = false →
      ∃ t, exec (.assert sw ra rm) s = .next t ∧
        t = ((s.modG fun g => { g with pend := none }).endLaunch s.grp.lid
          { status := 1, cause := Cause.code .assert, detail := 0x21, thread := 0xFF, strm := false, hnd := s.grp.handler, spc := s.grp.pc,
            lpc := s.grp.lpcNow, msg := s.rS rm, faddr := 0, code := 0, at_ := none })) ∧
    (∀ n : BitVec 6, n.toNat < s.lch.livecnt → s.grp.preempt = none →
      ∃ t, exec (.phint sw n) s = .next t ∧ s.ScalarDone t sw 0 0 [] (s.grp.pc + 4)) ∧
    (∀ (n : BitVec 6) (p : Preempt), n.toNat < s.lch.livecnt → s.grp.preempt = some p → s.grp.handler = false →
      ∃ t, exec (.phint sw n) s = .next t ∧ t.grp.preempt = some { p with ready := true, record := some n.toNat } ∧
        t.grp.pc = s.grp.pc + 4 ∧ t.grp.a = s.grp.a ∧ t.grp.b = s.grp.b ∧ s.OnlyGroup t) ∧
    (∀ n : BitVec 6, s.lch.livecnt ≤ n.toNat → exec (.phint sw n) s = .next (s.sRaise sw .ill))

namespace Sys2Proof.Spec

/-! Lane coupling, waiting and special registers. -/

/-- The value of special register `num`, element `elem`, as the table of R73 gives it; none where `srd` raises ILL. -/
def special (s : State) (num elem : Nat) : Option Word :=
  match num, elem with
  | 0x01, 0 => some (word s.grp.gid)
  | 0x02, 0 => some (word s.grp.team)
  | 0x03, 0 => some (word s.grp.cohort)
  | 0x04, 0 => some (word s.grp.stage)
  | 0x05, 0 => some (word (s.core % 6 : Nat))
  | 0x06, 0 => some (word (s.core / 6 % 6 : Nat))
  | 0x07, 0 => some (word (s.core / 36 : Nat))
  | 0x08, 0 => some (word s.now)
  | 0x09, 0 => some (word s.wall)
  | 0x0A, 0 => some (word (if s.lch.direct then 256 else s.lch.ver : Nat))
  | 0x0B, 0 => some s.lch.lcb
  | 0x0C, 0 => some s.lch.args
  | 0x0D, 0 => some s.lch.fmt
  | 0x0E, 0 => some (word s.me.wpr)
  | 0x0F, 0 => some (word s.grp.lanT.toNat)
  | 0x0F, 1 => some s.grp.lan1
  | 0x0F, 2 => some s.grp.lan2
  | 0x0F, 3 => some s.grp.lan3
  | 0x0F, 4 => some s.grp.lan4
  | 0x10, 0 => some s.grp.trapvec
  | _, _ => none
/-- The launch constants of R56, read at fixed latency. -/
def constant (num : Nat) : Bool := [0x01, 0x02, 0x03, 0x04, 0x05, 0x06, 0x07, 0x0A, 0x0B, 0x0C, 0x0D].contains num

/-- The other groups that a `bar` waits for have all reached one of its scope (R72). -/
def barOpen (s : State) (cohort : Bool) : Prop :=
  ∀ e ∈ s.barPeers cohort, (s.grpAt e.1 e.2).live = true ∧ (s.grpAt e.1 e.2).lantern = none ∧ ∃ sw, (s.grpAt e.1 e.2).sWait = .bar cohort sw

end Sys2Proof.Spec

/-- R63, R66: `lgo` performs the stream's queued strong stores, captures its registers, and appends the block at %lcb + S[entry]. R64: `ljoin`
completes when the lane stream is idle, the strong stores queued in the group performed, and stalls otherwise. R65: `lpop` removes the oldest
entry, which will be written to rd, raises LQDEAD when the queue is empty and the lane stream idle, and waits otherwise. -/
def Obligations.LaneStreamCoupling : Prop :=
  (∀ (s : State) (sw : Bool) (entry cbase : SReg) (count : BitVec 4), s.plain false → s.grp.handler = false →
    let p := s.lch.lcb + s.rS entry
    let regs := (List.range count.toNat).map fun i => cbase + BitVec.ofNat 6 i
    (lvalid p = true → s.sPoi (entry :: regs) = false → s.grp.lq.length < 4 →
      ∃ t, exec (.lgo sw entry cbase count) s = .next t ∧
        ((s.drainBuf s.core s.slot).modG fun g => { g with lq := g.lq ++ [⟨p, regs.map s.rS⟩] }).ScalarDone t sw 0 0 [] (s.grp.pc + 4)) ∧
    (lvalid p = true → s.sPoi (entry :: regs) = false → 4 ≤ s.grp.lq.length →
      exec (.lgo sw entry cbase count) s = .next (s.modG fun g => { g with sWait := .lgo })) ∧
    (lvalid p = false → exec (.lgo sw entry cbase count) s = .next (s.sRaise sw .align))) ∧
  (∀ (s : State) (sw : Bool), s.plain false → s.grp.handler = false →
    (s.grp.lq = [] → ∃ t, exec (.ljoin sw) s = .next t ∧ (s.drainBuf s.core s.slot).ScalarDone t sw 0 0 [] (s.grp.pc + 4)) ∧
    (s.grp.lq ≠ [] → exec (.ljoin sw) s = .next (s.modG fun g => { g with sWait := .ljoin })) ∧
    (∀ rd x r, s.grp.resq = x :: r → ∃ t, exec (.lpop sw rd) s = .next t ∧
      (s.modG fun g => { g with resq := r }).ScalarDone t sw 0 0 [OutRes.of false [.s rd.toNat x] false false] (s.grp.pc + 4)) ∧
    (∀ rd, s.grp.resq = [] → s.grp.lq = [] → exec (.lpop sw rd) s = .next (s.sRaise sw .lqdead)) ∧
    (∀ rd, s.grp.resq = [] → s.grp.lq ≠ [] → exec (.lpop sw rd) s = .next (s.modG fun g => { g with sWait := .lpop })))

/-- R68, R69, R70: `wait` completes when W[n] ≤ k and parks otherwise, and to zero on a wick of a `scrub` is an acquire at .s (R384); `yield` gives way to every other ready group of its pipe; `sleep` parks
for n cycles, n = 0 for none. -/
def Obligations.WaitYieldSleep : Prop :=
  ∀ (s : State) (sw : Bool), s.plain false →
    (∀ w k, (s.grp.wick w).toNat ≤ k.toNat → (k ≠ 0 ∨ w ∉ s.grp.scrubs) →
      ∃ t, exec (.wait sw w k) s = .next t ∧ s.ScalarDone t sw 0 0 [] (s.grp.pc + 4)) ∧
    (∀ w, s.grp.wick w = 0 → w ∈ s.grp.scrubs → ∃ t, exec (.wait sw w 0) s = .next t ∧
      ((s.acquire s.core .s).modG fun g => { g with scrubs := g.scrubs.filter (· != w) }).ScalarDone t sw 0 0 [] (s.grp.pc + 4)) ∧
    (∀ w k, k.toNat < (s.grp.wick w).toNat → exec (.wait sw w k) s = .next (s.modG fun g => { g with sWait := .wait })) ∧
    (∃ t, exec (.yield sw) s = .next t ∧ s.ScalarDone t sw 0 0 [] (s.grp.pc + 4) ∧
      t.grp.yielded = (s.me.bound.map (·.1)).filter fun j => j != s.slot && j % 4 == s.slot % 4 && s.sAble s.core j) ∧
    (∀ ra imm, s.sPoi [ra] = false → s.grp.halted = false → s.grp.pend = none →
      let n := ((s.rS ra).toNat + imm.toNat) % 2 ^ 64
      ∃ t, exec (.sleep sw ra imm) s = .next t ∧ s.OnlyGroup t ∧ t.grp.a = s.grp.a ∧ t.grp.b = s.grp.b ∧ t.grp.pc = s.grp.pc + 4 ∧
        (n = 0 → t.grp.sWait = .none) ∧ (n ≠ 0 → t.grp.sWait = .sleep ∧ t.grp.sleepTo = s.now + n))

/-- R71: `exit` waits for an idle lane stream and wicks at zero; then the slot is released, its lane result queue discarded and its hold ended.
R292: with the last group of its launch the launch is complete, a transactional one's version with it. -/
def Obligations.ExitReleasesSlot : Prop :=
  ∀ (s : State) (sw : Bool), s.plain false →
    ((s.grp.lq ≠ [] ∨ ∃ e ∈ s.grp.wicks, e.2 ≠ 0) → exec (.exit sw) s = .next (s.modG fun g => { g with sWait := .other })) ∧
    (s.grp.lq = [] → (∀ e ∈ s.grp.wicks, e.2 = 0) → s.lch.exited + 1 ≠ s.lch.ngrp * s.lch.nteam * s.lch.ncoh →
      ∃ t, exec (.exit sw) s = .next t ∧ t.grp.bound = false ∧ t.grp.resq = [] ∧ t.grp.held = none ∧ t.grp.wicks = [] ∧
        (t.lchAt s.grp.lid).exited = s.lch.exited + 1 ∧ t.grp.a = s.grp.a ∧ t.grp.b = s.grp.b ∧
        ∀ c g, (c, g) ≠ (s.core, s.slot) → t.grpAt c g = s.grpAt c g) ∧
    (s.grp.lq = [] → (∀ e ∈ s.grp.wicks, e.2 = 0) → s.lch.exited + 1 = s.lch.ngrp * s.lch.nteam * s.lch.ncoh →
      ∃ t, ∃ u : State, exec (.exit sw) s = .next t ∧ t = u.launchDone s.grp.lid ∧ u.grp.bound = false ∧ u.grp.resq = [] ∧ u.grp.held = none ∧ u.grp.wicks = [] ∧
        (u.lchAt s.grp.lid).exited = s.lch.exited + 1 ∧ (∀ c g, (c, g) ≠ (s.core, s.slot) → u.grpAt c g = s.grpAt c g) ∧
        (s.lch.direct = false → t.grp = u.grp ∧ (t.lchAt s.grp.lid).complete = true ∧ (t.verAt s.lch.part s.lch.ver).st = .complete))

/-- R72: the last group to arrive at a `bar` lets every group of its team or cohort leave in that step; until then a group waits at it. Stated
while no debugger steps a group. -/
def Obligations.BarrierReleasesTogether : Prop :=
  ∀ (s : State) (sw cohort : Bool), s.Inv → s.grp.lantern = none → (∀ p, (s.partAt p).dbgStep = false) →
    let b := s.barRel cohort
    (Spec.barOpen b cohort → (cohort = true → b.barSaved = false) →
      ∃ t, exec (.bar sw cohort) s = .next t ∧ t.grp.pc = s.grp.pc + 4 ∧ t.grp.sWait = .none ∧
        (∀ e ∈ b.barPeers cohort, (t.grpAt e.1 e.2).pc = (s.grpAt e.1 e.2).pc + 4 ∧ (t.grpAt e.1 e.2).sWait = .none) ∧
        (∀ c g, (t.grpAt c g).a = (s.grpAt c g).a ∧ (t.grpAt c g).b = (s.grpAt c g).b)) ∧
    (¬ (Spec.barOpen b cohort ∧ (cohort = true → b.barSaved = false)) →
      exec (.bar sw cohort) s = .next (b.modG fun g => { g with sWait := .bar cohort sw }))

/-- R56, R73: `srd` gives every special register, the launch constants at once and the others later, and raises ILL for a number or element the
table does not list. -/
def Obligations.SpecialRegisterReads : Prop :=
  ∀ (s : State) (sw : Bool) (rd : SReg) (num : BitVec 8) (elem : BitVec 4), s.plain false →
    (∀ x, Spec.special s num.toNat elem.toNat = some x → Spec.constant num.toNat = true →
      ∃ t, exec (.srd sw rd num elem) s = .next t ∧ s.ScalarDone t sw rd x [] (s.grp.pc + 4)) ∧
    (∀ x, Spec.special s num.toNat elem.toNat = some x → Spec.constant num.toNat = false → (num = 0x0E → s.me.wprChg = none) →
      ∃ t, exec (.srd sw rd num elem) s = .next t ∧
        s.ScalarDone t sw 0 0 [OutRes.of false [.s rd.toNat x] false false] (s.grp.pc + 4)) ∧
    (Spec.special s num.toNat elem.toNat = none → exec (.srd sw rd num elem) s = .next (s.sRaise sw .ill))

/-- R73, R158: `swr` writes the entry threshold, %trapvec under its alignment, and %wpr under its right: where its value stands already or its
change has completed it goes on, otherwise it begins the change and waits, behind the writes of the core that were issued before it and wait too;
every other register raises ILL. -/
def Obligations.SpecialRegisterWrites : Prop :=
  ∀ (s : State) (sw : Bool) (ra : SReg), s.plain false → s.sPoi [ra] = false →
    (∃ t, exec (.swr sw ra 0x0F 0) s = .next t ∧
      (s.modG fun g => { g with lanT := (s.rS ra).extractLsb' 0 16 }).ScalarDone t sw 0 0 [] (s.grp.pc + 4)) ∧
    ((s.rS ra).toNat % 4 = 0 → ∃ t, exec (.swr sw ra 0x10 0) s = .next t ∧
      (s.modG fun g => { g with trapvec := s.rS ra }).ScalarDone t sw 0 0 [] (s.grp.pc + 4)) ∧
    ((s.rS ra).toNat % 4 ≠ 0 → exec (.swr sw ra 0x10 0) s = .next (s.sRaise sw .align)) ∧
    (s.lch.rightW = false → exec (.swr sw ra 0x0E 0) s = .next (s.sRaise sw .priv)) ∧
    (s.lch.rightW = true → s.grp.wprGo = true → ∃ t, exec (.swr sw ra 0x0E 0) s = .next t ∧
      (s.modG fun g => { g with wprGo := false }).ScalarDone t sw 0 0 [] (s.grp.pc + 4)) ∧
    (s.lch.rightW = true → s.grp.wprGo = false → s.wprFree s.core = true → (s.wprLine s.core).head?.getD s.slot = s.slot →
      s.me.wpr = min (s.rS ra).toNat 8 →
      ∃ t, exec (.swr sw ra 0x0E 0) s = .next t ∧
        (s.modCore s.core fun k => { k with wprQ := (s.wprLine s.core).filter (· != s.slot) }).ScalarDone t sw 0 0 [] (s.grp.pc + 4)) ∧
    (s.lch.rightW = true → s.grp.wprGo = false → s.wprFree s.core = true → (s.wprLine s.core).head?.getD s.slot = s.slot →
      s.me.wpr ≠ min (s.rS ra).toNat 8 →
      ∃ t, exec (.swr sw ra 0x0E 0) s = .next t ∧ t.grp.sWait = .wpr ∧ t.me.wprChg = some ⟨min (s.rS ra).toNat 8,
        s.now + 2048 * (min (s.rS ra).toNat 8 - s.me.wpr), s.slot⟩ ∧ t.grp.pc = s.grp.pc) ∧
    (s.lch.rightW = true → s.grp.wprGo = false → (s.wprFree s.core = false ∨ (s.wprLine s.core).head?.getD s.slot ≠ s.slot) →
      ∃ t, exec (.swr sw ra 0x0E 0) s = .next t ∧ t.grp.sWait = .wpr ∧ t.grp.pc = s.grp.pc ∧ t.me.wpr = s.me.wpr ∧ t.me.wprChg = s.me.wprChg ∧
        (s.grp.bound = true → s.slot ∈ t.wprLine s.core ∨ ∃ w, s.me.wprChg = some w ∧ w.slot = s.slot) ∧
        (s.slot ∉ s.wprLine s.core → ∃ l, t.wprLine s.core = s.wprLine s.core ++ l)) ∧
    (∀ num elem, (num ∉ [0x0E, 0x0F, 0x10] ∨ elem ≠ 0) → exec (.swr sw ra num elem) s = .next (s.sRaise sw .ill))

namespace Sys2Proof.Spec

/-! Memory. -/

/-- The address of the SM word: S[ra] + zext(imm5) × the access size (R32). -/
def smAddr (s : State) (ra : SReg) (z : MemSize) (imm : BitVec 5) : Word := word ((s.rS ra).toNat + imm.toNat * MemSize.bytes z)

/-- The `n` bytes at an address have not been accessed through the other window of their superblock (R386). -/
def oneWindow (s : State) (pa n : Nat) : Prop :=
  let o := tget (0, 0, []) s.wins (storOf pa / 512)
  spanMask (pa % 512) n &&& (if winOf pa = 1 then o.2.1 else o.1) = 0
/-- An access of `n` bytes lies in one line of column DRAM, its translation found in a TLB, nothing of the line in a committed shadow, and none of it in the
bitmap of quarantined frames. -/
structure OnLine (s : State) (c part va pa n : Nat) (key : List Byte) (w : Bool) : Prop where
  hit : s.xlate (some c) part va w = (.ok pa key, s)
  col : ∃ h off, locOf pa = some (.col h off)
  line : pa % 128 + n ≤ 128
  once : oneWindow s pa n
  clear : s.redirect (storOf pa / 128) = none
  plain : s.inQuarMap (storOf pa) = false
/-- An address of memory beyond a link port, host or peer (R386). -/
def atPort (pa : Nat) : Prop := (∃ a, locOf pa = some (.host a)) ∨ (∃ a, locOf pa = some (.peer a))

/-- The 32-bit or 64-bit number an atomic operation leaves (R186), from the old value and its operand, each below 2^w. -/
def atom (w : Nat) (op : AtomOp) (old v : Nat) : Nat :=
  let z := fun (x : Nat) => if x < 2 ^ (w - 1) then (x : Int) else (x : Int) - 2 ^ w
  match op with
  | .add => (old + v) % 2 ^ w
  | .min => if z old < z v then old else v
  | .max => if z old < z v then v else old
  | .minu => min old v
  | .maxu => max old v
  | .and => old &&& v
  | .or => old ||| v
  | .xor => old ^^^ v
  | .xchg => v
  | .fadd => if w = 64 then fp64.addC .rn old v else fp32.addC .rn old v
  | .incw => if v ≤ old then 0 else old + 1
  | .decw => if old = 0 ∨ v < old then v else old - 1

/-- Some byte of an access of a transactional launch lies in no declared write or open region (R166). -/
def outOfRegions (s : State) (ea n : Nat) : Prop :=
  s.lch.direct = false ∧ ∃ k < n, ∀ r ∈ s.lch.regions, (r.cls = 2 ∨ r.cls = 3) → ¬ (r.lo ≤ ea + k ∧ ea + k ≤ r.hi)

/-- A state as an access leaves it, but for a useful hit counted and its line's mark (R172). -/
def Useful (v u : State) : Prop := v.MemOnly u ∨ (v.modG fun g => { g with lan3 := g.lan3 + 1 }).MemOnly u

end Sys2Proof.Spec

/-- R32, R41, R141: `sld` and `sldp` of readable, aligned bytes leave their registers outstanding with the bytes' values, and change nothing else
but the memory system; `sst` and `sstp` of writable, aligned bytes store the low bytes of their registers, and change nothing else but the memory
system and the group's queue of strong stores. -/
def Obligations.ScalarAccessesComplete : Prop :=
  (∀ (s : State) (sw : Bool) (rd ra : SReg) (z : MemSize) (imm : BitVec 5), s.plain false → s.sPoi [ra] = false →
    let ea := Spec.smAddr s ra z imm
    let n := MemSize.bytes z
    (∀ ord scope bs m u, ea.toNat % n = 0 → s.gLoad false ea.toNat n ord scope = .ok bs m u →
      ∃ t, exec (.sld sw rd ra z ord scope imm) s = .next t ∧ (∃ v, s.MemOnly v ∧ Spec.Useful v u) ∧
        u.ScalarDone t sw 0 0 [OutRes.of false [.s rd.toNat (Spec.word (leNat (bs.take n)))] m false] (s.grp.pc + 4)) ∧
    (∀ bs m u, ea.toNat % (2 * n) = 0 → s.gLoad false ea.toNat (2 * n) .rlx .weak = .ok bs m u →
      ∃ t, exec (.sldp sw rd ra z imm) s = .next t ∧ (∃ v, s.MemOnly v ∧ Spec.Useful v u) ∧
        u.ScalarDone t sw 0 0 [OutRes.of false [.s rd.toNat (Spec.word (leNat (bs.take n))),
          .s (rd + 1).toNat (Spec.word (leNat ((bs.drop n).take n)))] m false] (s.grp.pc + 4))) ∧
  (∀ (s : State) (sw : Bool) (rd ra : SReg) (z : MemSize) (imm : BitVec 5), s.plain false →
    let ea := Spec.smAddr s ra z imm
    let n := MemSize.bytes z
    (∀ ord scope u, s.sPoi [ra, rd] = false → ea.toNat % n = 0 → s.lch.undeclared ea.toNat n = false →
      s.gStore false ea.toNat (leBytes n (s.rS rd).toNat) ord scope = .ok u →
      ∃ t, exec (.sst sw rd ra z ord scope imm) s = .next t ∧ (∃ v, s.MemAcc v s.core s.slot ∧ Spec.Useful v u) ∧
        u.ScalarDone t sw 0 0 [] (s.grp.pc + 4)) ∧
    (∀ u, s.sPoi [ra, rd, rd + 1] = false → ea.toNat % (2 * n) = 0 → s.lch.undeclared ea.toNat (2 * n) = false →
      s.gStore false ea.toNat (leBytes n (s.rS rd).toNat ++ leBytes n (s.rS (rd + 1)).toNat) .rlx .weak = .ok u →
      ∃ t, exec (.sstp sw rd ra z imm) s = .next t ∧ (∃ v, s.MemAcc v s.core s.slot ∧ Spec.Useful v u) ∧
        u.ScalarDone t sw 0 0 [] (s.grp.pc + 4)))

/-- R136, R141, R185, R191, R192, R193: `sld`, `sst`, `sldp`, `sstp`, `satom`, `scas`, `semsig`, `semwait`, `cinv` and `ccln` at an address that is not a
multiple of the size of their access raise ALIGN and have no other effect; that its fault address is the effective address, which R141 and R315 do not give, is
the model's choice, log entry 17. R166, R189: a store, an atomic or a semaphore instruction of a transactional launch of which some byte lies in no declared
write or open region raises UNDECL in place of its access. R10, R317: in a handler each of them that names the group's own trap hold raises PRIV, the lowest code,
whatever else is wrong with it. -/
def Obligations.ScalarAccessChecksRaise : Prop :=
  (∀ (s : State) (sw : Bool) (rd ra : SReg) (z : MemSize) (ord : Order) (scope : Scope) (imm : BitVec 5), s.grp.lantern = none →
    let ea := Spec.smAddr s ra z imm
    let n := MemSize.bytes z
    let raises := fun (c : Cause) (i : Instr) => exec i s = .next (s.sRaiseAt sw c ea false)
    (s.inHold ea.toNat = false →
      (ea.toNat % n ≠ 0 → ∀ i ∈ [Instr.sld sw rd ra z ord scope imm, .sst sw rd ra z ord scope imm, .cinv sw ra z scope imm, .ccln sw ra z scope imm], raises .align i) ∧
      (ea.toNat % (2 * n) ≠ 0 → ∀ i ∈ [Instr.sldp sw rd ra z imm, .sstp sw rd ra z imm], raises .align i) ∧
      (ea.toNat % n = 0 → s.sPoi [ra, rd] = false → Spec.outOfRegions s ea.toNat n → raises .undecl (.sst sw rd ra z ord scope imm)) ∧
      (ea.toNat % (2 * n) = 0 → s.sPoi [ra, rd, rd + 1] = false → Spec.outOfRegions s ea.toNat (2 * n) → raises .undecl (.sstp sw rd ra z imm))) ∧
    (s.inHold ea.toNat = true → ∀ i ∈ [Instr.sld sw rd ra z ord scope imm, .sst sw rd ra z ord scope imm, .sldp sw rd ra z imm, .sstp sw rd ra z imm,
      .cinv sw ra z scope imm, .ccln sw ra z scope imm], raises .priv i)) ∧
  (∀ (s : State) (sw : Bool) (rd ra : SReg) (dw take : Bool) (op : AtomOp) (ord : Order) (scope : Scope), s.grp.lantern = none →
    let ea := s.rS ra
    let n := if dw then 8 else 4
    let raises := fun (c : Cause) (i : Instr) => exec i s = .next (s.sRaiseAt sw c ea false)
    (s.inHold ea.toNat = false →
      (ea.toNat % n ≠ 0 → ∀ i ∈ [Instr.satom sw rd ra dw op ord scope, .scas sw rd ra dw ord scope], raises .align i) ∧
      (ea.toNat % 8 ≠ 0 → ∀ i ∈ [Instr.semsig sw scope ra, .semwait sw take scope ra], raises .align i) ∧
      (ea.toNat % n = 0 → s.sPoi [ra, rd, rd + 1] = false → Spec.outOfRegions s ea.toNat n →
        ∀ i ∈ [Instr.satom sw rd ra dw op ord scope, .scas sw rd ra dw ord scope], raises .undecl i) ∧
      (ea.toNat % 8 = 0 → s.sPoi [ra, ra + 1] = false → Spec.outOfRegions s ea.toNat 8 →
        ∀ i ∈ [Instr.semsig sw scope ra, .semwait sw take scope ra], raises .undecl i)) ∧
    (s.inHold ea.toNat = true → ∀ i ∈ [Instr.satom sw rd ra dw op ord scope, .scas sw rd ra dw ord scope, .semsig sw scope ra, .semwait sw take scope ra],
      raises .priv i))

/-- R185, R186, R189, R192: `satom`, `scas` and `semsig` at an accessible, aligned address perform one read and write of memory; the first two leave
rd outstanding with the old value; `semsig` is a release add of S[ra+1] at the dword at S[ra]. That an address that may be written and not read is accessible is the model's choice, log entry 17. -/
def Obligations.ScalarAtomicsComplete : Prop :=
  ∀ (s : State) (sw : Bool) (rd ra : SReg) (ord : Order) (scope : Scope), s.plain false →
    let ea := (s.rS ra).toNat
    (∀ dw op bs m u, s.sPoi [ra, rd] = false → ea % atomBytes dw = 0 → s.lch.undeclared ea (atomBytes dw) = false →
      s.gAtomic ea (atomBytes dw) ord scope (atomNew dw op (s.rS rd)) = .ok bs m u →
      ∃ t, exec (.satom sw rd ra dw op ord scope) s = .next t ∧ (∃ v, s.MemAcc v s.core s.slot ∧ Spec.Useful v u) ∧
        u.ScalarDone t sw 0 0 [OutRes.of false [.s rd.toNat (Spec.word (leNat bs))] false false] (s.grp.pc + 4)) ∧
    (∀ dw bs m u, s.sPoi [ra, rd, rd + 1] = false → ea % atomBytes dw = 0 → s.lch.undeclared ea (atomBytes dw) = false →
      s.gAtomic ea (atomBytes dw) ord scope (casNew dw (s.rS rd) (s.rS (rd + 1))) = .ok bs m u →
      ∃ t, exec (.scas sw rd ra dw ord scope) s = .next t ∧ (∃ v, s.MemAcc v s.core s.slot ∧ Spec.Useful v u) ∧
        u.ScalarDone t sw 0 0 [OutRes.of false [.s rd.toNat (Spec.word (leNat bs))] false false] (s.grp.pc + 4)) ∧
    (∀ bs m u, s.sPoi [ra, ra + 1] = false → ea % 8 = 0 → s.lch.undeclared ea 8 = false →
      s.gAtomic ea 8 .rel scope (atomNew true .add (s.rS (ra + 1))) = .ok bs m u →
      ∃ t, exec (.semsig sw scope ra) s = .next t ∧ (∃ v, s.MemAcc v s.core s.slot ∧ Spec.Useful v u) ∧ u.ScalarDone t sw 0 0 [] (s.grp.pc + 4))

/-- R186: what each atomic operation leaves of the old bytes, as numbers; compare-and-swap leaves the new value where the old equals the
expected one (R185). -/
def Obligations.AtomicOperations : Prop :=
  ∀ (dw : Bool) (v e : Word) (bs : List Byte), bs.length = atomBytes dw →
    (∀ op, leNat (atomNew dw op v bs) = Spec.atom (8 * atomBytes dw) op (leNat bs) (v.toNat % 2 ^ (8 * atomBytes dw)) ∧
      (atomNew dw op v bs).length = atomBytes dw) ∧
    leNat (casNew dw e v bs) = if leNat bs = e.toNat % 2 ^ (8 * atomBytes dw) then v.toNat % 2 ^ (8 * atomBytes dw) else leNat bs

/-- R189, R193: `semwait` of a semaphore that holds at least its operand completes, under `.take` having subtracted it; otherwise it waits and
changes neither memory nor a register. -/
def Obligations.SemwaitTestsAndTakes : Prop :=
  ∀ (s : State) (sw : Bool) (scope : Scope) (ra : SReg) (bs : List Byte) (m : Bool) (u : State), s.plain false → s.sPoi [ra, ra + 1] = false →
    (s.rS ra).toNat % 8 = 0 → s.lch.undeclared (s.rS ra).toNat 8 = false →
    (s.drainBuf s.core s.slot).gLoad false (s.rS ra).toNat 8 .rlx (if Scope.wide scope then scope else .k) = .ok bs m u →
    ((s.rS (ra + 1)).toNat ≤ leNat bs → bs.length = 8 →
      (∃ t, exec (.semwait sw false scope ra) s = .next t ∧ (u.acquire s.core scope).ScalarDone t sw 0 0 [] (s.grp.pc + 4)) ∧
      (∀ bs' m' v, u.gAtomic (s.rS ra).toNat 8 .acq scope (fun bs => leBytes 8 (ofBytes64 bs - s.rS (ra + 1)).toNat) = .ok bs' m' v →
        ∃ t, exec (.semwait sw true scope ra) s = .next t ∧ v.ScalarDone t sw 0 0 [] (s.grp.pc + 4))) ∧
    (leNat bs < (s.rS (ra + 1)).toNat → bs.length = 8 → ∀ take,
      exec (.semwait sw take scope ra) s = .next (u.modG fun g => { g with sWait := .semwait }))

/-- R181, R182, R190, R191: `fence` performs the group's queued strong stores and cleans its core under a release, marks it stale under an
acquire, and completes; `cinv` marks stale and `ccln` writes home, where that is another column, the superblock of a readable address, in no write region of the
launch, whose walk waits for no transfer engine; R373: where that needs a vertical bus that failed beyond repair they raise VBUS. R141, R148: `pref` completes
whatever its address, and raises nothing. -/
def Obligations.FencesAndCacheOperations : Prop :=
  ∀ (s : State) (sw : Bool), s.plain false →
    (∀ ord scope,
      let b := if ord = .rel ∨ ord = .ar then (s.drainBuf s.core s.slot).release s.core scope else s
      ∃ t, exec (.fence sw ord scope) s = .next t ∧
        (if ord = .acq ∨ ord = .ar then b.acquire s.core scope else b).ScalarDone t sw 0 0 [] (s.grp.pc + 4)) ∧
    (∀ ra z scope imm pa key u, s.sPoi [ra] = false → (Spec.smAddr s ra z imm).toNat % MemSize.bytes z = 0 →
      s.xlate (some s.core) s.prt (Spec.smAddr s ra z imm).toNat false = (.ok pa key, u) →
      s.walkWaits (some s.core) s.prt (Spec.smAddr s ra z imm).toNat = false → s.lch.shadowed (Spec.smAddr s ra z imm).toNat 1 = false →
      s.MemOnly u ∧
      (u.superBus s.core pa = false → ∃ t, exec (.cinv sw ra z scope imm) s = .next t ∧
        (u.markStale s.core fun q => q / 512 == pa / 512).ScalarDone t sw 0 0 [] (s.grp.pc + 4)) ∧
      (u.superBus s.core pa = true → exec (.cinv sw ra z scope imm) s = .next (u.sRaiseAt sw .vbus (Spec.smAddr s ra z imm) false)) ∧
      ((Scope.wide scope = true → u.cleanBus s.core pa = false) → ∃ t, exec (.ccln sw ra z scope imm) s = .next t ∧
        (if Scope.wide scope then u.cleanSuper s.core pa else u).ScalarDone t sw 0 0 [] (s.grp.pc + 4) ∧
        (homedAt s.core pa = true → u.cleanSuper s.core pa = u)) ∧
      (Scope.wide scope = true → u.cleanBus s.core pa = true →
        exec (.ccln sw ra z scope imm) s = .next (u.sRaiseAt sw .vbus (Spec.smAddr s ra z imm) false))) ∧
    (∀ x ra z imm, ∃ t u, exec (.pref sw x ra z imm) s = .next t ∧ s.MemOnly u ∧ u.ScalarDone t sw 0 0 [] (s.grp.pc + 4))

/-- R135, R156, R180: a weak load of a `.direct` launch, nothing of its stream queued over it. Where its core's column SRAM holds the line, valid and not
stale, it hits: it gives the copy's bytes in rising order and leaves memory and the copy as they were. Where the line is absent, and the core's other plane holds
no dirty words of it, it misses: it gives the bytes that stand at the home. A weak store where the column SRAM holds the line, the core its owner or its home, leaves its bytes in the copy, which stays
valid, with the words they touch dirty and every other byte and dirty bit as before, and leaves memory as it was. R386: a load through a link port gives
the bytes that stand at home and changes none, and a store there leaves its bytes at home and every other byte of memory as it was. -/
def Obligations.HomeAccessesReadAndWrite : Prop :=
  (∀ (s : State) (c lid va n pa : Nat) (key bs : List Byte) (m : Bool) (t : State), (s.lchAt lid).direct = true →
    Spec.OnLine s c (s.lchAt lid).part va pa n key false → s.load c lid [] va n .rlx .weak = .ok bs m t →
    let l := (s.coreAt c).colWork.line pa
    bs.length = n ∧
    (l.valid = true → l.stale = false → m = false ∧ (∀ i < n, lget 0 bs i = byteOf l.data (pa % 128 + i)) ∧ t.mem = s.mem ∧ t.owners = s.owners ∧
      { (t.coreAt c).colWork.line pa with lan := l.lan } = l) ∧
    (l.valid = false → l.dirty = 0 → ((s.coreAt c).plane !(s.coreAt c).colSel).dirtyAt (storOf pa / 128) = false → s.keyTag (storOf pa / 128) = tagFor key pa →
      m = true ∧ ∀ i < n, lget 0 bs i = s.homeByte (storOf pa + i))) ∧
  (∀ (s : State) (c g va pa : Nat) (lane : Bool) (bs key : List Byte) (t : State), (s.lchAt (s.grpAt c g).lid).direct = true →
    Spec.OnLine s c (s.lchAt (s.grpAt c g).lid).part va pa bs.length key true → (s.grpAt c g).sbuf = [] → (s.grpAt c g).lsbuf = [] → bs ≠ [] →
    let l := (s.coreAt c).colWork.line pa
    l.valid = true → l.stale = false →
    (s.owner (storOf pa / 128) = some c ∨ homedAt c pa = true ∧ s.owner (storOf pa / 128) = none) →
    s.store c g lane va bs .rlx .weak = .ok t →
    let l' := (t.coreAt c).colWork.line pa
    l'.valid = true ∧ l'.stale = false ∧ t.mem = s.mem ∧
    (∀ i < 128, byteOf l'.data i = if pa % 128 ≤ i ∧ i < pa % 128 + bs.length then lget 0 bs (i - pa % 128) else byteOf l.data i) ∧
    ∀ w < 32, l'.dirty.getLsbD w = (l.dirty.getLsbD w || ((pa % 128) / 4 ≤ w && w ≤ (pa % 128 + bs.length - 1) / 4))) ∧
  (∀ (s : State) (c lid va n pa : Nat) (key : List Byte) (bs : List Byte) (m : Bool) (t : State),
    (s.lchAt lid).direct = true → s.xlate (some c) (s.lchAt lid).part va false = (.ok pa key, s) → Spec.atPort pa → pa % 128 + n ≤ 128 →
    s.keyTag (storOf pa / 128) = tagFor key pa → s.load c lid [] va n .rlx .weak = .ok bs m t →
    bs.length = n ∧ (∀ i < n, lget 0 bs i = s.homeByte (storOf pa + i)) ∧ ∀ a, t.homeByte a = s.homeByte a) ∧
  (∀ (s : State) (c g va pa : Nat) (lane : Bool) (bs key : List Byte) (t : State), s.Inv →
    (s.lchAt (s.grpAt c g).lid).direct = true → s.xlate (some c) (s.lchAt (s.grpAt c g).lid).part va true = (.ok pa key, s) → Spec.atPort pa →
    pa % 128 + bs.length ≤ 128 → s.inQuarMap (storOf pa) = false → s.redirect (storOf pa / 128) = none →
    s.keyTag (storOf pa / 128) = tagFor key pa → (s.grpAt c g).sbuf = [] → (s.grpAt c g).lsbuf = [] →
    s.store c g lane va bs .rlx .weak = .ok t →
    ∀ a, t.homeByte a = if storOf pa ≤ a ∧ a < storOf pa + bs.length then lget 0 bs (a - storOf pa) else s.homeByte a)

/-- R180, R183, R184, R386: a strong store of a `.direct` launch, to bytes not accessed through the other window, is queued in its stream: from its
translation on no byte of memory changes until its home acknowledges it, and a later load of the stream sees it. -/
def Obligations.StrongStoreIsQueued : Prop :=
  ∀ (s : State) (c g va pa : Nat) (bs key : List Byte) (scope : Scope) (u t : State), Scope.wide scope = true →
    (s.lchAt (s.grpAt c g).lid).direct = true → s.xlate (some c) (s.lchAt (s.grpAt c g).lid).part va true = (.ok pa key, u) →
    Spec.oneWindow s pa bs.length → s.store c g false va bs .rlx scope = .ok t →
    (t.grpAt c g).sbuf = (s.grpAt c g).sbuf ++ [⟨pa, key, bs⟩] ∧ (∀ a, t.homeByte a = u.homeByte a) ∧
    ∀ i < bs.length, ∀ old : List Byte, old.length = bs.length → lget 0 (overBuf (t.grpAt c g).sbuf (storOf pa) old) i = lget 0 bs i

namespace Sys2Proof.Spec

/-! Planes, transfers, launches and services. -/

/-- The scalar stream of the acting group goes on at `pc`, its registers as they were. -/
def Onward (s t : State) (pc : Word) : Prop := t.grp.pc = pc ∧ t.grp.sWait = .none ∧ t.grp.a = s.grp.a ∧ t.grp.b = s.grp.b
/-- The scalar stream of the acting group waits at its PC, its registers as they were. -/
def Held (s t : State) : Prop := t.grp.pc = s.grp.pc ∧ t.grp.sWait ≠ .none ∧ t.grp.a = s.grp.a ∧ t.grp.b = s.grp.b

/-- The working plane of an instance is the second one (R198, R213). -/
def selOf (k : Core) : Inst → Bool
  | .grp g => (tget Group.reset k.groups g).selB
  | .acc b => k.accSel.getLsbD b
  | .pane p => k.paneSel.getLsbD p
  | .wbuf => k.wbufSel
  | .col => k.colSel

/-- Group `n` of the acting group's team, with its slot (R73). -/
def member (s : State) (n : Nat) : Option (Nat × Group) := s.me.bound.find? fun e => e.2.slot0 == s.grp.slot0 && e.2.lid == s.grp.lid && e.2.gid == n
/-- The registers that a plane instruction reads (R202). -/
def planeRegs (dom : Dom) (ra : SReg) : List SReg := if dom = .acc ∨ dom = .pane then [ra] else []

/-- A plane instruction of the acting group passes its checks (R203, R208, R214, R317). -/
structure PlaneOk (s : State) (dom : Dom) (ra : SReg) (take : Bool) : Prop where
  idle : s.grp.pflip = none
  handler : s.grp.handler = true → dom ∉ [.grp, .core, .clus]
  right : s.lch.flipRight dom = true
  sound : s.sPoi (planeRegs dom ra) = false
  owned : s.notOwned dom (planeSel dom (s.rS ra)) take = false

/-- No other group of the acting group's team waits at a `pfree` of panes (R214). -/
def noPfree (s : State) : Prop :=
  ∀ e ∈ s.me.bound, e.1 ≠ s.slot → e.2.slot0 = s.grp.slot0 → ∀ f, e.2.pflip = some f → ¬ (f.free = true ∧ f.dom = .pane)

/-- The transfer instructions (R226, R236): their command, descriptor and wick. -/
def transfer : Instr → Option (Bool × XCmd × SReg × Wick)
  | .xfer sw ra w => some (sw, .xfer, ra, w)
  | .xcvt sw ra w => some (sw, .xcvt, ra, w)
  | .xfill sw ra w => some (sw, .xfill, ra, w)
  | .xgath sw ra w => some (sw, .xgath, ra, w)
  | .xred sw ra w => some (sw, .xred, ra, w)
  | .xbcst sw ra w => some (sw, .xbcst, ra, w)
  | .xagree sw ra w => some (sw, .xagree, ra, w)
  | _ => none

/-- An item may be issued now: its wick may rise, and the queue, the scoreboard and the staging plane take it; the record of a collective, which is read at
issue, meets no line that a transfer engine owns (R163, R201, R218, R219, R228, R235). -/
structure Takes (s : State) (i : Item) : Prop where
  wick : s.grp.wick i.wick ≠ 0xFFFF
  queue : (s.me.items.filter fun j => !j.run).length < 32
  score : ∀ t e, s.dstScore s.core i = some (t, e) → (s.coreAt t).score.length < 16
  plane : s.dstHeld s.core i = false
  record : i.isColl = true → ∀ r, s.collRead i = some r → r.2.2.waits = false

/-- The privileged instructions of R331 but `sysr`: their switch marker. -/
def privileged : Instr → Option Bool
  | .sysw sw _ _ => some sw
  | .kzero sw _ => some sw
  | .scrub sw _ _ => some sw
  | .tlbi sw _ _ => some sw
  | .cctl sw _ _ => some sw
  | .vbrep sw _ => some sw
  | _ => none

/-- Exactly the translations that a test names are gone, from every TLB of the device (R155, R334). -/
def dropsTlb (s t : State) (p : TlbEnt → Prop) : Prop :=
  (∀ c e, e ∈ (t.coreAt c).tlb ↔ e ∈ (s.coreAt c).tlb ∧ ¬ p e) ∧ (∀ k e, e ∈ (t.clAt k).tlb ↔ e ∈ (s.clAt k).tlb ∧ ¬ p e) ∧
  ∀ e, e ∈ t.feTlb ↔ e ∈ s.feTlb ∧ ¬ p e
/-- The partition that a `tlbi` names (R334). -/
def tlbiNames (s : State) (kind : TlbKind) (ra : SReg) : Nat :=
  match kind with
  | .va => (s.rRun ra 1).toNat % 8
  | .part => (s.rS ra).toNat % 8
  | .all => s.prt
/-- A watch register holds R, W and ADDR; its other bits are zero (R330). -/
def watch (v : Word) : Word := word (bits v 0 2 + 8 * bits v 3 54)
/-- The fields of DBG_CTL but HLT, written into a partition (R327). -/
def dbgFields (v : Word) (x : Part) : Part :=
  { x with dbgHold := v.getLsbD 0, dbgStep := v.getLsbD 1, dbgLstp := v.getLsbD 2, dbgBrkh := v.getLsbD 3
           dbgSlot := v.extractLsb' 8 7, dbgCore := v.extractLsb' 16 8 }

/-- What a plain write of a system register leaves of the acting group's partition and of the device (R5, R277, R327, R330, R332, R363, R372, R378, R379); none
for a register whose write has more effect than a value: PART_MAP, KEY_SLOT_CTL, and DBG_CTL with HLT. -/
def sysWritten (s : State) (num : Nat) (v : Word) : Option State :=
  let part := fun (f : Part → Part) => some (s.modPart s.prt f)
  match num with
  | 0x002 =>
    let u := s.modG fun g => { g with vbusSel := bits v 0 8 }
    some (if (v.getLsbD 14 = true ∨ v.getLsbD 12 = true) ∧ (s.prt = superPart ∨ s.partOfCore (bits v 0 8) = some s.prt) then
      u.modCore (bits v 0 8) fun k => { k with vbus := { k.vbus with
        woke := if v.getLsbD 14 then false else k.vbus.woke, fail := if v.getLsbD 12 then false else k.vbus.fail } } else u)
  | 0x005 => some (if bits v 60 4 = 15 ∧ (List.range 15).all (fun i => decide (bits v (4 * i) 4 ≤ bits v (4 * (i + 1)) 4)) = true then
      { s with dimRamp := tput s.dimRamp (s.core / 36) v } else s)
  | 0x006 => part fun x => { x with collBase := v &&& ~~~0x3F }
  | 0x008 => part fun x => { x with wdog := v.extractLsb' 0 32 }
  | 0x009 => if v.getLsbD 24 then none else part (dbgFields v)
  | 0x00A => part fun x => { x with wp := x.wp.set 0 (watch v) }
  | 0x00B => part fun x => { x with wp := x.wp.set 1 (watch v) }
  | 0x00C => part fun x => { x with wp := x.wp.set 2 (watch v) }
  | 0x00D => part fun x => { x with wp := x.wp.set 3 (watch v) }
  | 0x011 => part fun x => { x with poolUnits := max (bits v 0 32) x.poolUsed, defq := max 1 (bits v 48 16) }
  | 0x019 => some (if v.getLsbD 41 then { s with fwErr := false } else s)
  | 0x017 => part fun x => { x with pwrCap := v.extractLsb' 0 16 }
  | 0x01A => some (if v.extractLsb' 0 16 = 0xFFFF then s else { s with brusNode := v.extractLsb' 0 16 })
  | n => if n ∈ [0x000, 0x003, 0x012, 0x013, 0x014, 0x015, 0x016, 0x018] ∨ (0x020 ≤ n ∧ n ≤ 0x035) then some s else none

end Sys2Proof.Spec

/-- R202, R203, R204 to R211: `flip` that names no instance completes at once; past its checks it waits; and when its waits are over the planes
of every instance it names are exchanged, a hold of transfer items on them ends, and the stream goes on. -/
def Obligations.FlipExchangesPlanes : Prop :=
  (∀ (s : State) (sw : Bool) (dom : Dom) (mode : FlipMode) (lazy : Bool) (ra : SReg), s.plain false → Spec.PlaneOk s dom ra false →
    let sel := planeSel dom (s.rS ra)
    (planeNone dom sel = true → ∃ t, exec (.flip sw dom mode lazy ra) s = .next t ∧ s.ScalarDone t sw 0 0 [] (s.grp.pc + 4)) ∧
    (planeNone dom sel = false → (dom = .clus → (s.clAt (s.core / 6)).flipBy = none) →
      ∃ t, exec (.flip sw dom mode lazy ra) s = .next t ∧ Spec.Held s t ∧
        t.grp.pflip = some ⟨dom, mode, lazy, sel, s.now, s.me.nextOp, mode == .cancel, false, sw⟩)) ∧
  (∀ (s : State) (c g : Nat) (f : PFlip), let is := s.insts c g f.dom f.sel
    (s.grpAt c g).pflip = some f → f.free = false → f.dom ≠ .clus → is.Nodup → (s.grpAt c g).live = true → (s.grpAt c g).lantern = none →
    s.stepped c g false = false → s.flipReady c g f is = true → (f.mode = .flow → s.turnPanes c is ≠ none) →
    (f.lazy = true ∨ s.stagedBad is = none) →
    ∃ t, exec (.flipExchange c g) s = .next t ∧ (t.grpAt c g).pc = (s.grpAt c g).pc + 4 ∧ (t.grpAt c g).pflip = none ∧
      (t.grpAt c g).sWait = .none ∧
      ∀ i ∈ coreInsts, Spec.selOf (t.coreAt c) i = (Spec.selOf (s.coreAt c) i != is.contains (c, i)) ∧
        (t.coreAt c).holder i = if (c, i) ∈ is ∧ (s.coreAt c).holder i = some .items then none else (s.coreAt c).holder i)

/-- R214: `pfree` that no item, no other hold and no earlier `pfree` of its panes keeps waiting releases the transfer items' holds on the instances it names and completes, the
named panes given to the team or taken by the group; planes and registers stay. -/
def Obligations.PfreeReleasesHolds : Prop :=
  ∀ (s : State) (sw : Bool) (dom : Dom) (mode : FlipMode) (mv : PaneMove) (ra : SReg), s.plain false → Spec.PlaneOk s dom ra (mv == .take) →
    dom ∉ [.core, .clus] →
    let is := s.insts s.core s.slot dom (planeSel dom (s.rS ra))
    (s.itemsOn is = [] → (∀ i ∈ is, s.heldByOther i = false) → (dom = .pane → Spec.noPfree s) →
      ∃ t, exec (.pfree sw dom mode mv ra) s = .next t ∧ Spec.Onward s t (s.grp.pc + 4) ∧ t.grp.pflip = none ∧
        (∀ i ∈ coreInsts, Spec.selOf t.me i = Spec.selOf s.me i ∧
          t.me.holder i = if (s.core, i) ∈ is ∧ s.me.holder i = some .items then none else s.me.holder i) ∧
        ∀ p, s.me.pane p ≠ none → (t.me.pane p).bind (·.owner) = if (s.core, .pane p) ∈ is ∧ mv ≠ .none then
          (if mv = .give then none else some s.grp.gid) else (s.me.pane p).bind (·.owner)) ∧
    (mode ≠ .cancel → (s.itemsOn is ≠ [] ∨ ∃ i ∈ is, s.heldByOther i = true) → planeNone dom (planeSel dom (s.rS ra)) = false →
      ∃ t, exec (.pfree sw dom mode mv ra) s = .next t ∧ Spec.Held s t)

/-- R215: `pstat` writes the mask of what it names, and nothing else: a bit for each group of the team, each tile or bank of the team's, each pane of the
team's and the team's weight buffer, and of the column, where it is held, or its second plane works, or poison stands in its staging (`.poi`) or its working plane
(`.poiw`); of the weight buffer's poison a bit for each 32 KiB, and of the column's a bit for each way. -/
def Obligations.PstatReadsMasks : Prop :=
  ∀ (s : State) (sw : Bool) (dom : Dom) (what : PWhat) (ra : SReg), s.plain false →
    ∃ t v, exec (.pstat sw dom what ra) s = .next t ∧ s.ScalarDone t sw ra v [] (s.grp.pc + 4) ∧
      let accs := fun (n : Nat) => tget none s.me.accOwn (n / 8) == some s.grp.slot0
      let pane := fun (p : Nat → Bool) (n : Nat) => match (s.me.teamPanes s.grp.slot0)[n]? with
        | none => false
        | some x => p x
      let grp := fun (p : Nat × Group → Bool) (n : Nat) => n < 32 && match Spec.member s n with
        | none => false
        | some g => p g
      (what = .held ∨ what = .sel →
        let on := fun (i : Inst) => if what = .held then (s.me.holder i).isSome else Spec.selOf s.me i
        (dom = .grp → ∀ n < 64, v.getLsbD n = grp (fun e => if what = .held then e.2.held.isSome else e.2.selB) n) ∧
        (dom = .acc → ∀ n < 64, v.getLsbD n = (accs n && on (.acc (n / 8)))) ∧
        (dom = .pane → ∀ n < 64, v.getLsbD n = pane (fun p => on (.pane p)) n) ∧
        (dom = .wbuf → v = Spec.word (s.me.wbufOwn == some s.grp.slot0 && on .wbuf).toNat) ∧
        (dom = .col → v = Spec.word (on .col).toNat)) ∧
      (what = .poi ∨ what = .poiw →
        let bad := fun (i : Inst) => s.me.badOffs i (what == .poi)
        (dom = .grp → ∀ n < 64, v.getLsbD n = grp (fun e => !(bad (.grp e.1)).isEmpty) n) ∧
        (dom = .acc → ∀ n < 64, v.getLsbD n = (accs n && (bad (.acc (n / 8))).any fun o => o / 8192 == n)) ∧
        (dom = .pane → ∀ n < 64, v.getLsbD n = pane (fun p => !(bad (.pane p)).isEmpty) n) ∧
        (dom = .wbuf → ∀ n < 64, v.getLsbD n = (n < 32 && s.me.wbufOwn == some s.grp.slot0 && (bad .wbuf).any fun o => o / 32768 == n)) ∧
        (dom = .col → ∀ n < 64, v.getLsbD n = (n < 16 && ((s.me.plane (s.me.colSel != (what == .poi))).badWays.contains n
          || (bad .col).any fun o => 15 - (o - 0x800000) / 2 ^ 20 == n))))

/-- R218, R219, R226, R236: each transfer instruction whose wick, queue, scoreboard entry and staging plane are free issues its item with the
descriptor in its registers: the wick's count and ISSUED rise by one and the stream goes on; otherwise it waits, and changes nothing else. -/
def Obligations.TransfersIssue : Prop :=
  ∀ (i : Instr) (s : State) (sw : Bool) (cmd : XCmd) (ra : SReg) (w : Wick), Spec.transfer i = some (sw, cmd, ra, w) → s.plain false →
    s.sPoi [ra, ra + 1, ra + 2, ra + 3] = false →
    let x := s.newItem cmd ra w
    (x.cmd = cmd ∧ x.wick = w ∧ x.slot = s.slot ∧ x.lid = s.grp.lid ∧ x.seq = (s.grp.xs w).issued ∧ x.d0 = s.rS ra ∧ x.run = false ∧
      x.d1 = s.rRun ra 1 ∧ x.d2 = s.rRun ra 2 ∧ x.d3 = s.rRun ra 3) ∧
    (Spec.Takes s x → ∃ t, exec i s = .next t ∧ Spec.Onward s t (s.grp.pc + 4) ∧ t.me.items = s.me.items ++ [x] ∧
      t.grp.wick w = s.grp.wick w + 1 ∧ (t.grp.xs w).issued = (s.grp.xs w).issued + 1 ∧
      ∀ v, v ≠ w → t.grp.wick v = s.grp.wick v ∧ t.grp.xs v = s.grp.xs v) ∧
    (¬ Spec.Takes s x → exec i s = .next (s.modG fun g => { g with sWait := .other }))

/-- R231, R233, R234: `xcanc` with no unfinished item on its wick completes, and otherwise gives each its cancel and waits; `xstat` writes the
record's two words, zeroes it under `.clr`, and under `.chk` raises XFER with the wick as its code when an item has failed. -/
def Obligations.TransferStatusAndCancel : Prop :=
  ∀ (s : State) (sw : Bool) (w : Wick), s.plain false →
    let mine := fun (i : Item) => i.slot = s.slot ∧ i.lid = s.grp.lid ∧ i.cohort = s.grp.cohort ∧ i.wick = w
    ((∀ i ∈ s.me.items, ¬ mine i) → ∃ t, exec (.xcanc sw w) s = .next t ∧ s.ScalarDone t sw 0 0 [] (s.grp.pc + 4)) ∧
    ((∃ i ∈ s.me.items, mine i) → (s.me.items.map (·.id)).Nodup → ∃ t, exec (.xcanc sw w) s = .next t ∧ Spec.Held s t ∧
      t.me.items.length = s.me.items.length ∧ ∀ n (h : n < s.me.items.length), t.me.items[n]? = some
        (if mine s.me.items[n] ∧ s.me.items[n].cancel = none then { s.me.items[n] with cancel := some (s.now + 6, 2) } else s.me.items[n])) ∧
    (∀ clr chk ra, let r := s.grp.xs w
      (chk = true → r.failed = 0) → ∃ t, exec (.xstat sw clr chk ra w) s = .next t ∧
        (s.modG fun g => (if clr then g.setXs w ⟨0, 0, 0, 0, 0, 0⟩ else g).modWork fun p => p.ws ra.toNat (Spec.word
          (r.issued.toNat + 2 ^ 16 * r.failed.toNat + 2 ^ 32 * r.cause.toNat + 2 ^ 40 * r.detail.toNat + 2 ^ 48 * r.seq.toNat))).ScalarDone
          t sw (ra + 1) r.faddr [] (s.grp.pc + 4)) ∧
    (∀ clr ra, (s.grp.xs w).failed ≠ 0 → exec (.xstat sw clr true ra w) s =
      .next (s.sRaiseX sw .xfer (BitVec.ofNat 32 w.toNat) (s.grp.xs w).faddr false s.grp.pc))

/-- R300, R301, R388: `launch` performs its stream's strong stores and releases its core, and from that state a transactional launch defers the child, a direct
one writes its packet into the D queue, and a queue that takes none leaves BADQ in the record; each counts one child issued, and under `.done` the
wick rises; nothing else changes but the PC and the park of S. With no room in the ring the stream waits. -/
def Obligations.LaunchIssuesChild : Prop :=
  ∀ (s : State) (sw done : Bool) (ra : SReg) (w : Wick), s.plain false → s.sPoi [ra, ra + 1] = false → (s.rS ra).toNat % 64 = 0 →
    (done = true → s.lch.direct = true) → s.grp.wick w ≠ 0xFFFF →
    let b := (s.drainBuf s.core s.slot).release s.core .s
    let q := (s.rRun ra 1).toNat % 1024
    let me : Issuer := ⟨s.lch.order, s.core, s.slot, s.grp.cohort, w, done, false⟩
    let out := fun (v : State) => v.modG fun g => g.setLs w { g.ls w with issued := (g.ls w).issued + 1 }
    let badq := fun (v : State) => (out v).retireChild me (Ending.plain 2 0 0x26) 0 false
    (b.dqOk q s.lch.part = true → s.lch.direct = false → b.quotaUsed s.grp.lid < b.quotaMax s.grp.lid →
      ∃ t, exec (.launch sw done ra w) s = .next t ∧ Spec.Onward s t (s.grp.pc + 4) ∧
        (out (b.modLch s.grp.lid fun l => { l with deferred := l.deferred ++ [⟨me, s.rS ra, q⟩] })).ScalarDone t sw 0 0 [] (s.grp.pc + 4) ∧
        (t.lchAt s.grp.lid).deferred = (b.lchAt s.grp.lid).deferred ++ [⟨me, s.rS ra, q⟩] ∧ (t.grp.ls w).issued = (s.grp.ls w).issued + 1) ∧
    (∀ u, b.dqOk q s.lch.part = true → s.lch.direct = true → b.push s.lch.part q (s.rS ra) me = .ok u →
      ∃ t, exec (.launch sw done ra w) s = .next t ∧ Spec.Onward s t (s.grp.pc + 4) ∧
        (if done then (out u).modG fun g => g.setWick w (g.wick w + 1) else out u).ScalarDone t sw 0 0 [] (s.grp.pc + 4) ∧
        (t.qAt q).pushed = (b.qAt q).pushed + 1 ∧ ((b.qAt q).pushed, me) ∈ (t.qAt q).issuers ∧
        (t.grp.ls w).issued = (s.grp.ls w).issued + 1 ∧ t.grp.wick w = s.grp.wick w + (if done then 1 else 0)) ∧
    (∀ u, b.dqOk q s.lch.part = true → s.lch.direct = true → b.push s.lch.part q (s.rS ra) me = .badq u →
      ∃ t, exec (.launch sw done ra w) s = .next t ∧ (badq u).ScalarDone t sw 0 0 [] (s.grp.pc + 4)) ∧
    (∀ u, b.dqOk q s.lch.part = true → s.lch.direct = true → b.push s.lch.part q (s.rS ra) me = .wait u →
      exec (.launch sw done ra w) s = .next (u.modG fun g => { g with sWait := .launch })) ∧
    (b.dqOk q s.lch.part = false → ∃ t, exec (.launch sw done ra w) s = .next t ∧ Spec.Onward s t (s.grp.pc + 4) ∧
      (badq b).ScalarDone t sw 0 0 [] (s.grp.pc + 4) ∧
      (t.grp.ls w).issued = (s.grp.ls w).issued + 1 ∧ t.grp.wick w = s.grp.wick w ∧
      (b.launches.find? (fun l => l.2.order == s.lch.order && l.2.st != .free) = some (s.grp.lid, b.lchAt s.grp.lid) → s.grp.bound = true →
        s.saved = [] → ((t.grp.ls w).failed ≠ 0) ∧ ((s.grp.ls w).failed = 0 → (t.grp.ls w).cause = 0 ∧ (t.grp.ls w).detail = 0x26)))

/-- R302, R303, R304: `gsig` of a writable address, whose walk waits for no transfer engine, records its signal and the keys of its page (R364) with the launch; `tstat` writes the two words of an outcome record, zeroed
under `.clr`, or of the launch itself; `tabort` ends the launch with its code. -/
def Obligations.LaunchSignalsStatusAbort : Prop :=
  ∀ (s : State) (sw : Bool) (ra : SReg), s.plain false →
    (∀ pa key u, s.sPoi [ra, ra + 1] = false → (s.rS ra).toNat % 8 = 0 → s.xlate (some s.core) s.prt (s.rS ra).toNat true = (.ok pa key, u) →
      s.walkWaits (some s.core) s.prt (s.rS ra).toNat = false →
      (s.lch.direct = true ∨ s.quotaUsed s.grp.lid < s.quotaMax s.grp.lid) →
      ∃ t, exec (.gsig sw ra) s = .next t ∧ s.MemOnly u ∧
        (u.modLch s.grp.lid fun l => { l with gsigs := l.gsigs ++ [⟨s.core, s.slot, pa, s.rRun ra 1, key⟩] }).ScalarDone t sw 0 0 [] (s.grp.pc + 4)) ∧
    (∀ clr w, let r := s.grp.ls w
      ∃ t, exec (.tstat sw false clr ra w) s = .next t ∧
        (s.modG fun g => (if clr then g.setLs w ⟨0, 0, 0, 0, 0, 0, 0⟩ else g).modWork fun p => p.ws ra.toNat (Spec.word
          (r.issued.toNat + 2 ^ 16 * r.failed.toNat + 2 ^ 32 * r.cause.toNat + 2 ^ 40 * r.detail.toNat + 2 ^ 48 * r.ver.toNat))).ScalarDone
          t sw (ra + 1) (Spec.word (r.code.toNat + 2 ^ 16 * r.committed.toNat)) [] (s.grp.pc + 4)) ∧
    (∀ clr w, ∃ t, exec (.tstat sw true clr ra w) s = .next t ∧
      (s.modG fun g => g.modWork fun p => p.ws ra.toNat (if s.lch.direct then 0x900 else Spec.word (s.lch.ver
        + 2 ^ 8 * (s.verAt s.lch.part s.lch.ver).st.code + 2 ^ 32 * s.quotaUsed s.grp.lid : Nat))).ScalarDone
        t sw (ra + 1) (if s.lch.direct then 0 else Spec.word (s.verAt s.lch.part s.lch.ver).units) [] (s.grp.pc + 4)) ∧
    (s.sPoi [ra] = false → ∃ t, exec (.tabort sw ra) s = .next t ∧
      t = s.endLaunch s.grp.lid ⟨1, 0, 0x22, 0, false, false, 0, 0, 0, 0, (s.rS ra).extractLsb' 0 16, none⟩)

/-- R331, R332, R336: `sysr` in a supervisor context gives a system register later, of VBUS_STAT once the errors corrected so far on the selected core's buses
are counted, which touches their counts and their lanes' spares alone (R371, R372; how many there are is free, log entry 44); `sysw` of one leaves what R332
says and goes on, or waits until its write has taken effect: a value in its field; of KEY_SLOT_CTL the selection, and under LOAD and ZERO what R365 makes of
the slot; of DBG_CTL with HLT every halted group continued (R327); of PART_MAP the new map, its leaving clusters wiped and its joining ones trained (R362). One
refused raises PROT or PRIV (the latter of PART_MAP is the model's choice, log entry 75; so is which blob another partition's LOAD reads, and of VBUS_STAT
what a core outside the partition does, log entry 46); a number that is no register raises ILL. -/
def Obligations.SystemRegisters : Prop :=
  ∀ (s : State) (sw : Bool) (ra : SReg) (num : BitVec 12), s.plain false →
    (s.sysRead num.toNat = none → exec (.sysr sw ra num) s = .next (s.sRaise sw .ill) ∧ exec (.sysw sw ra num) s = .next (s.sRaise sw .ill)) ∧
    (∀ x, num ≠ 0x002 → s.lch.priv = true → s.sysRead num.toNat = some x → ∃ t, exec (.sysr sw ra num) s = .next t ∧
      s.ScalarDone t sw 0 0 [OutRes.of false [.s ra.toNat x] false false] (s.grp.pc + 4)) ∧
    (s.lch.priv = true → ∃ t, ∃ u : State, ∃ x, exec (.sysr sw ra 0x002) s = .next t ∧ u.sysRead 0x002 = some x ∧
      u.ScalarDone t sw 0 0 [OutRes.of false [.s ra.toNat x] false false] (s.grp.pc + 4) ∧ { u with cores := s.cores } = s ∧
      (∀ c, c ≠ s.grp.vbusSel → u.coreAt c = s.coreAt c) ∧
      let k := s.coreAt s.grp.vbusSel
      let v := (u.coreAt s.grp.vbusSel).vbus
      u.coreAt s.grp.vbusSel = { k with vbus := { k.vbus with due := v.due, corr := v.corr, lanes := v.lanes, ssp := v.ssp, dsp := v.dsp, spared := v.spared } }) ∧
    (s.lch.priv = false → s.sysRead num.toNat ≠ none → exec (.sysr sw ra num) s = .next (s.sRaise sw .priv)) ∧
    (∀ u, s.lch.priv = true → s.sPoi [ra] = false → Spec.sysWritten s num.toNat (s.rS ra) = some u →
      ∃ t, exec (.sysw sw ra num) s = .next t ∧ u.ScalarDone t sw 0 0 [] (s.grp.pc + 4)) ∧
    (s.lch.priv = true → s.sPoi [ra] = false → let v := s.rS ra
      (v.getLsbD 24 = true → let u := (s.modPart s.prt (Spec.dbgFields v)).continue_ s.prt
        (u.haltLeft s.prt = false → ∃ t, exec (.sysw sw ra 0x009) s = .next t ∧ u.ScalarDone t sw 0 0 [] (s.grp.pc + 4)) ∧
        (u.haltLeft s.prt = true → exec (.sysw sw ra 0x009) s = .next (u.modG fun g => { g with sWait := .other }))) ∧
      (let n := bits v 0 6
       let sel := { s with keySel := n, keyBlob := bits v 12 42 }
       let mine := s.prt = superPart ∨ s.frameIn s.prt (64 * bits v 12 42 / 65536) = true ∧ s.frameIn s.prt ((64 * bits v 12 42 + 71) / 65536) = true
       (bits v 6 2 ≠ 1 → bits v 6 2 ≠ 2 → ∃ t, exec (.sysw sw ra 0x004) s = .next t ∧ sel.ScalarDone t sw 0 0 [] (s.grp.pc + 4)) ∧
       (bits v 6 2 = 1 → (s.keyAt n).valid = true ∨ (s.keyAt n).quar = true ∨ ¬ mine → ∃ t, exec (.sysw sw ra 0x004) s = .next t ∧
         { sel with keys := tput s.keys n { s.keyAt n with err := true } }.ScalarDone t sw 0 0 [] (s.grp.pc + 4)) ∧
       (∀ bs u, bits v 6 2 = 1 → (s.keyAt n).valid = false → (s.keyAt n).quar = false → mine → sel.physRead (64 * bits v 12 42) 72 = some (bs, u) →
         ∃ t, exec (.sysw sw ra 0x004) s = .next t ∧ Spec.Onward s t (s.grp.pc + 4) ∧
           t.keyAt n = ((keyUnwrap (Config.kek s.prt) bs).map fun key => ⟨true, false, false, key⟩).getD { s.keyAt n with err := true }) ∧
       (bits v 6 2 = 2 → ∃ t, exec (.sysw sw ra 0x004) s = .next t ∧ Spec.Onward s t (s.grp.pc + 4) ∧
         t.keyAt n = { s.keyAt n with valid := false, quar := true, key := [] } ∧ t.keySel = n ∧ t.keyBlob = bits v 12 42)) ∧
      (∀ hi, let new := mapPut s.partMap hi v
        s.prt = superPart → (∀ k ∈ mapSpan hi, s.mapBad new k = false) → (∀ k ∈ mapSpan hi, joins s.partMap new k = true → (s.clAt k).wiping = false) →
        ∃ t, exec (.sysw sw ra (if hi then 0x010 else 0x001)) s = .next t ∧ t.partMap = new ∧ t.mapCopy = new ∧
          (∀ k ∈ mapSpan hi, leaves s.partMap new k = true → (t.clAt k).wiping = true) ∧
          (∀ k ∈ mapSpan hi, joins s.partMap new k = true → (t.clAt k).training = true) ∧
          if ∃ k ∈ mapSpan hi, 8 ≤ mapEnt new k ∧ ((t.clAt k).training = true ∨ (t.clAt k).wiping = true) then Spec.Held s t
          else Spec.Onward s t (s.grp.pc + 4))) ∧
    (∀ u, s.lch.priv = true → s.sPoi [ra] = false → s.sysRead num.toNat ≠ none → s.sysWrite num.toNat (s.rS ra) = .stall u →
      exec (.sysw sw ra num) s = .next (u.modG fun g => { g with sWait := .other })) ∧
    (s.lch.priv = true → s.sPoi [ra] = false → s.sysRead num.toNat ≠ none → s.sysWrite num.toNat (s.rS ra) = .prot →
      exec (.sysw sw ra num) s = .next (s.sRaise sw .prot)) ∧
    (s.lch.priv = true → s.sysRead num.toNat ≠ none → s.sysWrite num.toNat (s.rS ra) = .priv → exec (.sysw sw ra num) s = .next (s.sRaise sw .priv)) ∧
    (∀ k ∈ mapSpan false, s.prt ≠ superPart → mapEnt (mapPut s.partMap false (s.rS ra)) k ≠ mapEnt s.partMap k →
      ¬ (mapEnt s.partMap k = 8 + s.prt ∧ mapEnt (mapPut s.partMap false (s.rS ra)) k < 8) → s.sysWrite 0x001 (s.rS ra) = .priv)

/-- R334, R335, R368, R373: `kzero` empties and quarantines its key slot and drops the translations under it; `tlbi` drops those it names, of another
partition than the context's only in the supervisor's, and raises PRIV where it names another; both from every TLB of the device, those of the cores, of the
clusters and of the front end. `cctl` reaches the clusters of its mask that are the context's partition's, all of them in the supervisor's: `.iinv` empties
their instruction caches, `.wb` writes their cores' dirty words home, and `.wbinv` does that, empties their cache ways and releases what they own. `vbrep`
answers whether it switched the lane. R331: outside a supervisor context every privileged instruction raises PRIV in place of its effect, whatever its
registers hold. -/
def Obligations.PrivilegedServicesAct : Prop :=
  (∀ (s : State) (sw : Bool) (ra : SReg), s.plain false → s.lch.priv = true → s.sPoi [ra, ra + 1] = false →
    (∃ t, exec (.kzero sw ra) s = .next t ∧ Spec.Onward s t (s.grp.pc + 4) ∧
      t.keyAt ((s.rS ra).toNat % 64) = { s.keyAt ((s.rS ra).toNat % 64) with valid := false, quar := true, key := [] } ∧
      Spec.dropsTlb s t fun e => e.leaf.enc = true ∧ e.leaf.kslot = (s.rS ra).toNat % 64) ∧
    (∀ kind, (s.prt = superPart ∨ Spec.tlbiNames s kind ra = s.prt) → ∃ t, exec (.tlbi sw kind ra) s = .next t ∧ Spec.Onward s t (s.grp.pc + 4) ∧
      Spec.dropsTlb s t fun e => match kind with
        | .va => e.part = (s.rRun ra 1).toNat % 8 ∧ e.vpn = (s.rS ra).toNat / 2 ^ e.leaf.bits
        | .part => e.part = (s.rS ra).toNat % 8
        | .all => s.prt = superPart ∨ e.part = s.prt) ∧
    (∀ kind, s.prt ≠ superPart → Spec.tlbiNames s kind ra ≠ s.prt → exec (.tlbi sw kind ra) s = .next (s.sRaise sw .priv)) ∧
    (let reached := fun (c : Nat) => c < 144 ∧ (s.rS ra).getLsbD (c / 6) = true ∧ (s.prt = superPart ∨ s.partOfCore c = some s.prt)
     (∃ t, exec (.cctl sw .iinv ra) s = .next t ∧ Spec.Onward s t (s.grp.pc + 4) ∧
       ∀ c, (reached c → (t.coreAt c).icache = []) ∧ (¬ reached c → (t.coreAt c).icache = (s.coreAt c).icache)) ∧
     (∀ cs : List Nat, cs.Pairwise (· < ·) → (∀ c, c ∈ cs ↔ reached c) → ∃ t, exec (.cctl sw .wb ra) s = .next t ∧
       (cs.foldl (fun u c => u.cleanAll c true) s).ScalarDone t sw 0 0 [] (s.grp.pc + 4)) ∧
     (∃ t, exec (.cctl sw .wbinv ra) s = .next t ∧ Spec.Onward s t (s.grp.pc + 4) ∧
       ∀ c, reached c → (t.coreAt c).a.cache = [] ∧ (t.coreAt c).b.cache = [] ∧ ∀ l, t.owner l ≠ some c)) ∧
    (let c := bits (s.rS ra) 0 8
     let bus := bits (s.rS ra) 8 1
     let lane := bits (s.rS ra) 9 12
     let v := (s.coreAt c).vbus
     let code := if 144 ≤ c ∨ ¬ (s.prt = superPart ∨ s.partOfCore c = some s.prt) ∨ (if bus = 0 then 2304 else 144) ≤ lane then 2 else if (bus, lane) ∈ v.spared then 3
       else if 2 ≤ v.spares bus then 1 else 0
     ∃ t, exec (.vbrep sw ra) s = .next t ∧
       (if code = 0 then s.modCore c fun k => { k with vbus := v.spare bus lane } else s).ScalarDone t sw ra (Spec.word code) [] (s.grp.pc + 4))) ∧
  (∀ (i : Instr) (s : State) (sw : Bool), Spec.privileged i = some sw → s.grp.lantern = none → s.lch.priv = false →
    (∀ x ra num, i = .sysw x ra num → s.sysRead num.toNat ≠ none) → exec i s = .next (s.sRaise sw .priv))

/-- R369, R384: `scrub` of a readable job and list hands them to the partition's snuffer, which is then running, the wick and ISSUED risen, the
named cores and frames quarantined, and the translations that the named cores hold gone; a job that breaks the rule fails at once with BADDESC; a running job makes it wait. -/
def Obligations.ScrubStartsSnuffer : Prop :=
  ∀ (s : State) (sw : Bool) (ra : SReg) (w : Wick), s.plain false → s.lch.priv = true → s.sPoi [ra] = false → (s.rS ra).toNat % 64 = 0 →
    s.grp.wick w ≠ 0xFFFF →
    (∀ bs m u ws v, (s.partAt s.prt).snuf = none → s.gLoad false (s.rS ra).toNat 64 .rlx .s = .ok bs m u →
      u.readList (dw (toDws 8 bs) 4) (bits (dw (toDws 8 bs) 0) 16 32) = .ok (ws, v) →
      (∀ cs fs k, v.snufJob s.prt (toDws 8 bs) ws = some (cs, fs, k) →
        ∃ t, exec (.scrub sw ra w) s = .next t ∧ Spec.Onward v t (s.grp.pc + 4) ∧ (t.partAt s.prt).snufState = 1 ∧
          t.grp.wick w = s.grp.wick w + 1 ∧ (t.grp.xs w).issued = (s.grp.xs w).issued + 1 ∧
          (∀ c ∈ cs, (t.coreAt c).tlb = []) ∧ t.grp.scrubs = s.grp.scrubs ++ [w] ∧
          (∀ c < 144, t.quarCores.getLsbD c = (v.quarCores.getLsbD c || cs.contains c)) ∧ (s.Inv → ∀ f ∈ fs, v.redirect ((storOf v.quarBase.toNat + f / 8) / 128) = none → t.frameQuar f = true)) ∧
      (v.snufJob s.prt (toDws 8 bs) ws = none →
        ∃ t, exec (.scrub sw ra w) s = .next t ∧ Spec.Onward v t (s.grp.pc + 4) ∧ (t.partAt s.prt).snufState = 3 ∧
          t.grp.wick w = s.grp.wick w ∧ (t.grp.xs w).issued = (s.grp.xs w).issued + 1 ∧
          ((s.grp.xs w).failed = 0 → (t.grp.xs w).failed = 1 ∧ (t.grp.xs w).cause = BitVec.ofNat 8 (Cause.code .xfer) ∧ (t.grp.xs w).detail = 1))) ∧
    ((s.partAt s.prt).snuf ≠ none → exec (.scrub sw ra w) s = .next (s.modG fun g => { g with sWait := .other }))

namespace Sys2Proof.Spec

/-! Lane instructions. -/

/-- The execute mask: the threads of `f` whose guard holds (R38). -/
def mask (s : State) (h : LHdr) (f : List Nat) : List Nat := f.filter fun t => s.rP t h.prd.toNat != h.neg

/-- A lane instruction issues at `l` for the active threads `f` outside lantern mode, and no poison keeps it from its effect: not of its guard,
of a source of an executing thread, nor of a predicate that it writes (R38, R120, R208). -/
structure Issues (s : State) (h : LHdr) (srcs : List (Sel × Bool)) (out : Nat → List RDest) (l : Word) (f : List Nat) : Prop where
  plain : s.plain true
  active : s.grp.active = some (l, f)
  guard : s.guardOk h f
  sound : ∀ t ∈ mask s h f, ∀ x ∈ srcs, s.selBad x.2 t x.1 = false
  dest : ∀ t ∈ mask s h f, ∀ u p b, RDest.p u p b ∈ out t → p ≠ 0 → s.grp.work.pBad u = false

/-- A lane instruction that computes in each thread for itself: its header, the sources it reads (those of 64 bits marked), and its results. -/
structure LCalc where
  h : LHdr
  srcs : List (Sel × Bool)
  out : Nat → List RDest

/-- A number as what a 32-bit register holds of it. -/
def word32 (x : Int) : BitVec 32 := BitVec.ofInt 32 x
/-- Bits lo to lo + w - 1 of a number, unsigned or as a signed field. -/
def fieldOf (sx : Bool) (x lo w : Nat) : Int :=
  let f := x / 2 ^ lo % 2 ^ w
  if sx ∧ 2 ^ (w - 1) ≤ f then (f : Int) - 2 ^ w else f
/-- An element narrowed to `w` bits (R86). -/
def narrowed (w : Nat) (u sat : Bool) (e : Int) : Int :=
  (if sat then (if u then max 0 (min (2 ^ w - 1) e) else max (-2 ^ (w - 1)) (min (2 ^ (w - 1) - 1) e)) else e) % 2 ^ w

/-- The per-thread integer and predicate instructions of R82, R86 and R87, their values as numbers. -/
def intLane (i : Instr) (s : State) : Option LCalc :=
  let put := fun (h : LHdr) (d : Dst) (xs : List Sel) (f : Nat → Int) =>
    some (LCalc.mk h (xs.map fun x => (x, false)) fun t => Dst.put d t (word32 (f t)))
  let u := fun (imm : BitVec 32) (x : Sel) (t : Nat) => ((s.op32 imm t x).toNat : Int)
  let n := fun (imm : BitVec 32) (x : Sel) (t : Nat) => (s.op32 imm t x).toNat
  let z := fun (imm : BitVec 32) (x : Sel) (t : Nat) => (s.op32 imm t x).toInt
  let k := fun (un : Bool) (imm : BitVec 32) (x : Sel) (t : Nat) => if un then u imm x t else z imm x t
  match i with
  | .iadd h d a b m => put h (.v d) [a, b] fun t => u m a t + u m b t
  | .isub h d a b m => put h (.v d) [a, b] fun t => u m a t - u m b t
  | .imul h d a b m => put h (.v d) [a, b] fun t => u m a t * u m b t
  | .imad h d a b c m => put h (.v d) [a, b, c] fun t => u m a t * u m b t + u m c t
  | .imulh h un d a b m => put h (.v d) [a, b] fun t => k un m a t * k un m b t / 2 ^ 32
  | .iabs h d a m => put h (.v d) [a] fun t => (z m a t).natAbs
  | .imin h un d a b m => put h (.v d) [a, b] fun t => min (k un m a t) (k un m b t)
  | .imax h un d a b m => put h (.v d) [a, b] fun t => max (k un m a t) (k un m b t)
  | .laneAnd h d a b m => put h (.v d) [a, b] fun t => (n m a t &&& n m b t : Nat)
  | .laneOr h d a b m => put h (.v d) [a, b] fun t => (n m a t ||| n m b t : Nat)
  | .laneXor h d a b m => put h (.v d) [a, b] fun t => (n m a t ^^^ n m b t : Nat)
  | .not h d a m => put h (.v d) [a] fun t => 2 ^ 32 - 1 - u m a t
  | .laneShl h d a b m => put h (.v d) [a, b] fun t => u m a t * 2 ^ (n m b t % 32)
  | .laneShr h d a b m => put h (.v d) [a, b] fun t => u m a t / 2 ^ (n m b t % 32)
  | .laneSar h d a b m => put h (.v d) [a, b] fun t => z m a t / 2 ^ (n m b t % 32)
  | .lanePopc h d a m => put h (.v d) [a] fun t => (((List.range 32).filter fun j => (n m a t).testBit j).length : Nat)
  | .laneClz h d a m => put h (.v d) [a] fun t => if n m a t = 0 then 32 else 31 - ((n m a t).log2 : Int)
  | .icmp h cc d a b m => put h d [a, b] fun t => if cond cc (z m a t) (z m b t) (n m a t) (n m b t) then 1 else 0
  | .sel h d a b c m => put h (.v d) [a, b, c] fun t => if u m c t ≠ 0 then u m a t else u m b t
  | .mov h d a m => put h (.v d) [a] fun t => u m a t
  | .idot4 h un d a b c m => put h (.v d) [a, b, c] fun t =>
      let e := fun (x : Sel) (j : Nat) => fieldOf (!un) (n m x t) (8 * j) 8
      u m c t + e a 0 * e b 0 + e a 1 * e b 1 + e a 2 * e b 2 + e a 3 * e b 3
  | .plog h tt d a b c m => put h d [a, b, c] fun t =>
      let e := fun (x : Sel) (w : Nat) => if n m x t = 0 then 0 else w
      if tt.toNat.testBit (e a 4 + e b 2 + e c 1) then 1 else 0
  | .ipack h false un sat d a b m => put h (.v d) [a, b] fun t => narrowed 16 un sat (z m a t) + 2 ^ 16 * narrowed 16 un sat (z m b t)
  | .ipack h true un sat d a b m => put h (.v d) [a, b] fun t =>
      let e := fun (x : Sel) (j : Nat) => narrowed 8 un sat (fieldOf true (n m x t) (16 * j) 16)
      e a 0 + 2 ^ 8 * e a 1 + 2 ^ 16 * e b 0 + 2 ^ 24 * e b 1
  | .iext h byt un d a b m => put h (.v d) [a, b] fun t =>
      if byt then fieldOf (!un) (n m a t) (8 * (n m b t % 4)) 8 else fieldOf (!un) (n m a t) (16 * (n m b t % 2)) 16
  | _ => none

/-- A lane instruction whose result is given bit by bit: bit `k` of the result of thread `t`. -/
structure LBits where
  h : LHdr
  d : VReg
  srcs : List (Sel × Bool)
  bit : Nat → Nat → Bool

/-- The bit instructions of R82 to R85. -/
def bitLane (i : Instr) (s : State) : Option LBits :=
  let v := fun (m : BitVec 32) (x : Sel) (t : Nat) => s.op32 m t x
  let two := fun (m : BitVec 32) (a b : Sel) (t j : Nat) => if j < 32 then (v m a t).getLsbD j else (v m b t).getLsbD (j - 32)
  let nib := fun (x : BitVec 32) (j : Nat) => x.toNat / 2 ^ (4 * j) % 16
  match i with
  | .dsh h false d a b c m => some ⟨h, d, [(a, false), (b, false), (c, false)], fun t k => two m a b t (k + (v m c t).toNat % 64)⟩
  | .dsh h true d a b c m => some ⟨h, d, [(a, false), (b, false), (c, false)], fun t k =>
      let n := (v m c t).toNat % 64
      decide (n ≤ 32 + k) && two m a b t (32 + k - n)⟩
  | .bfe h sx d a b m => some ⟨h, d, [(a, false), (b, false)], fun t k =>
      bextBit sx (v m a t) ((v m b t).toNat % 32) (min ((v m b t).toNat / 256 % 64) 32) k⟩
  | .bfi h d a b c m => some ⟨h, d, [(a, false), (b, false), (c, false)], fun t k =>
      binsBit (v m c t) (v m a t) ((v m b t).toNat % 32) (min ((v m b t).toNat / 256 % 64) 32) k⟩
  | .brev h d a m => some ⟨h, d, [(a, false)], fun t k => (v m a t).getLsbD (31 - k)⟩
  | .perm h d a b c m => some ⟨h, d, [(a, false), (b, false), (c, false)], fun t k =>
      let q := nib (v m c t) (k / 8)
      two m a b t (8 * (q % 8) + if 8 ≤ q then 7 else k % 8)⟩
  | .plut h .nib d a b _ m => some ⟨h, d, [(a, false), (b, true)], fun t k =>
      (s.op64 m t b).getLsbD (4 * nib (v m a t) (k / 4) + k % 4)⟩
  | .plut h form d a b c m => some ⟨h, d, [(a, false), (b, true), (c, true)], fun t k =>
      let j := 8 * nib (v m a t) (2 * (k / 8) + if form = .bhi then 1 else 0) + k % 8
      if j < 64 then (s.op64 m t b).getLsbD j else (s.op64 m t c).getLsbD (j - 64)⟩
  | _ => none

/-- An operation of R88 on two values. -/
def red (op : RedOp) (x y : BitVec 32) : BitVec 32 :=
  match op with
  | .add => word32 (x.toInt + y.toInt)
  | .min => if x.toInt ≤ y.toInt then x else y
  | .max => if x.toInt ≤ y.toInt then y else x
  | .minu => if x.toNat ≤ y.toNat then x else y
  | .maxu => if x.toNat ≤ y.toNat then y else x
  | .and => x &&& y
  | .or => x ||| y
  | .xor => x ^^^ y
/-- The operation over the values of some threads in order; the identity where there is none (R88). -/
def redOver (op : RedOp) : List (BitVec 32) → BitVec 32
  | [] => match op with
    | .and => 0xFFFFFFFF
    | .minu => 0xFFFFFFFF
    | .min => 0x7FFFFFFF
    | .max => 0x80000000
    | _ => 0
  | x :: xs => xs.foldl (red op) x

/-- A thread-exchange instruction: what each executing thread receives, `e` the execute mask (R88), and whether it arrives later (R41). -/
structure LXchg where
  h : LHdr
  slow : Bool
  srcs : List Sel
  out : List Nat → Nat → List RDest

/-- The thread-exchange instructions of R88. -/
def xchgLane (i : Instr) (s : State) : Option LXchg :=
  let v := fun (m : BitVec 32) (x : Sel) (t : Nat) => s.op32 m t x
  match i with
  | .prev h d a b m => some ⟨h, false, [a, b], fun e t => [.v t d.toNat (match (e.filter (· < t)).getLast? with
      | some u => v m a u
      | none => v m b t)]⟩
  | .next h d a b m => some ⟨h, false, [a, b], fun e t => [.v t d.toNat (match (e.filter (t < ·)).head? with
      | some u => v m a u
      | none => v m b t)]⟩
  | .pick h mode d a b c m => some ⟨h, false, [a, b, c], fun e t =>
      let w := (v m b t).toNat
      let src : Int := match mode with
        | .idx => w
        | .xor => ((t ^^^ w : Nat) : Int)
        | .up => t - w
        | .dn => t + w
      [.v t d.toNat (if 0 ≤ src ∧ src.toNat ∈ e then v m a src.toNat else v m c t)]⟩
  | .rdfl h d a m => some ⟨h, false, [a], fun e t => [.v t d.toNat (v m a (e.headD 0))]⟩
  | .vote h mode d a m => some ⟨h, false, [a], fun e t =>
      let on := e.filter fun u => v m a u ≠ 0
      Dst.put d t (match mode with
        | .ballot => word32 (((List.range 32).filter fun u => on.contains u).map fun u => 2 ^ u).sum
        | .any => if on = [] then 0 else 1
        | .all => if on.length = e.length then 1 else 0
        | .eq => if e.all fun u => v m a u == v m a (e.headD 0) then 1 else 0)⟩
  | .gred h op d a m => some ⟨h, true, [a], fun e t => [.v t d.toNat (redOver op (e.map (v m a)))]⟩
  | .gscan h op excl d a m => some ⟨h, true, [a], fun e t =>
      [.v t d.toNat (redOver op ((e.filter fun u => u < t || (u == t && !excl)).map (v m a)))]⟩
  | _ => none

/-- The results that arrive later, as one return; none where no thread has one (R41, R91). -/
def later (ds : List RDest) (miss : Bool) : List OutRes := if ds = [] then [] else [OutRes.of true ds miss false]

end Sys2Proof.Spec

/-- R35, R38, R58, R80, R82, R86, R87, R120: each per-thread integer and predicate instruction completes: every executing thread's register or
predicate takes the value of the rule's table from that thread's sources, every active thread advances, and nothing else of the device changes. -/
def Obligations.LaneIntegerResults : Prop :=
  ∀ (i : Instr) (s : State) (c : Spec.LCalc) (l : Word) (f : List Nat), Spec.intLane i s = some c → Spec.Issues s c.h c.srcs c.out l f →
    ∃ t, exec i s = .next t ∧ s.LaneDone t c.h.sw f ((Spec.mask s c.h f).flatMap c.out) [] (lnext l)

/-- R82, R83, R84, R85: `dsh`, `bfe`, `bfi`, `brev`, `perm` and `plut`, bit by bit; `lnop` has no effect but that every active thread advances. -/
def Obligations.LaneBitResults : Prop :=
  (∀ (i : Instr) (s : State) (c : Spec.LBits) (l : Word) (f : List Nat), Spec.bitLane i s = some c → Spec.Issues s c.h c.srcs (fun _ => []) l f →
    ∃ (t : State) (x : Nat → BitVec 32), exec i s = .next t ∧ s.LaneDone t c.h.sw f ((Spec.mask s c.h f).map fun th => .v th c.d.toNat (x th)) [] (lnext l) ∧
      ∀ th ∈ Spec.mask s c.h f, ∀ k < 32, (x th).getLsbD k = c.bit th k) ∧
  ∀ (s : State) (sw : Bool) (l : Word) (f : List Nat), s.plain true → s.grp.active = some (l, f) →
    ∃ t, exec (.lnop sw) s = .next t ∧ s.LaneDone t sw f [] [] (lnext l)

/-- R41, R88: each thread-exchange instruction completes: every executing thread receives its value, of `gred` and `gscan` later, and threads
outside the execute mask keep theirs. -/
def Obligations.ThreadExchangeResults : Prop :=
  ∀ (i : Instr) (s : State) (c : Spec.LXchg) (l : Word) (f : List Nat), Spec.xchgLane i s = some c →
    let e := Spec.mask s c.h f
    let ds := e.flatMap (c.out e)
    Spec.Issues s c.h (c.srcs.map fun x => (x, false)) (c.out e) l f →
    ∃ t, exec i s = .next t ∧ (if c.slow then s.LaneDone t c.h.sw f [] (Spec.later ds false) (lnext l) else s.LaneDone t c.h.sw f ds [] (lnext l))

/-- R73, R89: `lsrd` gives every executing thread its half of the special register later, %tid as the thread's number, and raises ILL for a number
or element that is none. R65, R66, R90: `lpush` appends the first executing thread's value to the lane result queue, and waits while that is full. -/
def Obligations.LaneSpecialAndPush : Prop :=
  (∀ (s : State) (h : LHdr) (hi : Bool) (num : BitVec 8) (elem : BitVec 4) (d : VReg) (l : Word) (f : List Nat),
    Spec.Issues s h [] (fun _ => []) l f →
    let val := fun (t : Nat) => if num = 0 ∧ elem = 0 then some (Spec.word t) else Spec.special s num.toNat elem.toNat
    ((val 0).isSome = true → (num = 0x0E → s.me.wprChg = none) →
      ∃ t, exec (.lsrd h hi num elem d) s = .next t ∧ s.LaneDone t h.sw f [] (Spec.later ((Spec.mask s h f).map fun th =>
        .v th d.toNat (((val th).getD 0).extractLsb' (if hi then 32 else 0) 32)) false) (lnext l))) ∧
  (∀ (s : State) (h : LHdr) (hi : Bool) (num : BitVec 8) (elem : BitVec 4) (d : VReg) (l : Word) (f : List Nat), s.grp.active = some (l, f) →
    ¬ (num = 0 ∧ elem = 0) → Spec.special s num.toNat elem.toNat = none →
    exec (.lsrd h hi num elem d) s = .next (s.lRaise ⟨l, f, f, h.sw, s.grp.stays⟩ .ill 0 false f)) ∧
  ∀ (s : State) (h : LHdr) (dw : Bool) (a : Sel) (imm : BitVec 32) (l : Word) (f : List Nat), Spec.Issues s h [] (fun _ => []) l f →
    (Spec.mask s h f = [] → ∃ t, exec (.lpush h dw a imm) s = .next t ∧ s.LaneDone t h.sw f [] [] (lnext l)) ∧
    (∀ u us, Spec.mask s h f = u :: us → s.grp.resq.length < 16 → s.selBad dw u a = false → ∃ t, exec (.lpush h dw a imm) s = .next t ∧
      ((s.drainBuf s.core s.slot).modG fun g => { g with resq := g.resq ++
        [if dw then s.op64 imm u a else Spec.word (s.op32 imm u a).toNat] }).LaneDone t h.sw f [] [] (lnext l)) ∧
    (Spec.mask s h f ≠ [] → 16 ≤ s.grp.resq.length → exec (.lpush h dw a imm) s = .next (s.modG fun g => { g with lWait := .lpush }))

namespace Sys2Proof.Spec

/-! Lane float instructions, packed halves, eight-bit floats and doubles. -/

/-- A lane float instruction: whether its result arrives later (R105), and its computation. -/
structure FCalc where
  slow : Bool
  c : LCalc

/-- The per-thread float instructions of R106 to R113, R115 and R116: the exact result of the sources' values rounded once; a subnormal
is read and written as zero under `.ftz` (R98). -/
def floatLane (i : Instr) (s : State) : Option FCalc :=
  let mk := fun (slow : Bool) (h : LHdr) (xs : List (Sel × Bool)) (out : Nat → List RDest) => some (FCalc.mk slow ⟨h, xs, out⟩)
  let nar := fun (xs : List Sel) => xs.map fun x => (x, false)
  let w := fun (d : VReg) (t : Nat) (c : Nat) => [RDest.v t d.toNat (BitVec.ofNat 32 c)]
  let out := fun (slow : Bool) (h : LHdr) (z : Bool) (xs : List Sel) (d : VReg) (c : Nat → Nat) => mk slow h (nar xs) fun t => w d t (ftzOut z (c t))
  let v := fun (z : Bool) (m : BitVec 32) (x : Sel) (t : Nat) => ftzIn z (s.opF fp32 m t x)
  let dec := fun (z : Bool) (m : BitVec 32) (x : Sel) (t : Nat) => fp32.dec (v z m x t)
  let halves := fun (bf : Bool) (h : LHdr) (m : BitVec 32) (xs : List Sel) (d : VReg) (f : Fp → (Sel → Nat) → Nat) => mk false h (nar xs) fun t =>
    let p := if bf then bf16 else fp16
    w d t (f p (fun x => (s.opH p m t x).toNat % 65536) + 65536 * f p (fun x => (s.opH p m t x).toNat / 65536))
  let wide := fun (h : LHdr) (xs : List Sel) (d : VReg) (c : Nat → Nat) => mk false h (xs.map fun x => (x, true)) fun t => putPair d t (BitVec.ofNat 64 (c t))
  match i with
  | .fadd h z rm d a b m => out false h z [a, b] d fun t => fp32.enc rm ((dec z m a t).add rm (dec z m b t))
  | .fsub h z rm d a b m => out false h z [a, b] d fun t => fp32.enc rm ((dec z m a t).add rm (dec z m b t).negate)
  | .fmul h z rm d a b m => out false h z [a, b] d fun t => fp32.enc rm ((dec z m a t).mul (dec z m b t))
  | .ffma h z rm d a b c m => out false h z [a, b, c] d fun t => fp32.enc rm (((dec z m a t).mul (dec z m b t)).add rm (dec z m c t))
  | .fmin h z d a b m => out false h z [a, b] d fun t => fp32.minmaxC false (v z m a t) (v z m b t)
  | .fmax h z d a b m => out false h z [a, b] d fun t => fp32.minmaxC true (v z m a t) (v z m b t)
  | .fabs h d a m => out false h false [a] d fun t => if (dec false m a t).isNan then fp32.nan else v false m a t % 2 ^ 31
  | .fneg h d a m => out false h false [a] d fun t => if (dec false m a t).isNan then fp32.nan
      else if v false m a t < 2 ^ 31 then v false m a t + 2 ^ 31 else v false m a t - 2 ^ 31
  | .fcmp h fc z d a b m => mk false h (nar [a, b]) fun t => Dst.put d t (if FCond.holds fc ((dec z m a t).cmp (dec z m b t)) then 1 else 0)
  | .fclass h fmt d a m => mk false h [(a, fmt == .d)] fun t => w d t ((fpOf fmt).cls (s.opFmt fmt m t a))
  | .frcp h z rm d a m => out true h z [a] d fun t => fp32.div rm (FV.ofInt 1) (dec z m a t)
  | .frsq h z rm d a m => out true h z [a] d fun t => fp32.rsqrt rm (dec z m a t)
  | .fsqrt h z rm d a m => out true h z [a] d fun t => fp32.sqrt rm (dec z m a t)
  | .fdiv h z rm d a b m => out true h z [a, b] d fun t => fp32.div rm (dec z m a t) (dec z m b t)
  | .fexp2 h z rm d a m => out true h z [a] d fun t => fp32.exp2 rm (dec z m a t)
  | .flog2 h z rm d a m => out true h z [a] d fun t => fp32.log2 rm (dec z m a t)
  | .fround h z rm d a m => out false h z [a] d fun t => fp32.enc rm (FV.round rm (dec z m a t))
  | .fscale h z rm d a b m => out false h z [a, b] d fun t => fp32.enc rm ((dec z m a t).scale (s.op32 m t b).toInt)
  | .fgetexp h z d a m => mk false h (nar [a]) fun t => [.v t d.toNat (word32 (getexp (v z m a t)))]
  | .f2i h un rm d a m => mk false h (nar [a]) fun t =>
      [.v t d.toNat (word32 ((dec false m a t).toInt rm (if un then 0 else -2 ^ 31) (if un then 2 ^ 32 - 1 else 2 ^ 31 - 1)))]
  | .i2f h un rm d a m => mk false h (nar [a]) fun t =>
      w d t (fp32.enc rm (FV.ofInt (if un then ((s.op32 m t a).toNat : Int) else (s.op32 m t a).toInt)))
  | .fcvt h tgt frm rm d a m => mk false h [(a, frm == .d)] fun t =>
      let c := (fpOf tgt).enc rm ((fpOf frm).dec (s.opFmt frm m t a))
      if tgt = .d then putPair d t (BitVec.ofNat 64 c) else w d t c
  | .fpack2 h bf rm d a b m => mk false h (nar [a, b]) fun t =>
      let p := if bf then bf16 else fp16
      w d t (p.enc rm (dec false m a t) + 65536 * p.enc rm (dec false m b t))
  | .hadd2 h bf rm d a b m => halves bf h m [a, b] d fun p v => p.addC rm (v a) (v b)
  | .hmul2 h bf rm d a b m => halves bf h m [a, b] d fun p v => p.mulC rm (v a) (v b)
  | .hfma2 h bf rm d a b c m => halves bf h m [a, b, c] d fun p v => p.fmaC rm (v a) (v b) (v c)
  | .qunpack h false d a b c m => mk false h (nar [a, b, c]) fun t =>
      let k := (s.op32 m t b).toNat % 8
      let lo := (s.op32 m t a).toNat / 2 ^ (8 * (k / 2)) % 16
      let hi := (s.op32 m t a).toNat / 2 ^ (8 * (k / 2) + 4) % 16
      let x := if k % 2 = 0 then (qxPair lo hi).1 else (qxPair lo hi).2
      w d t (fp32.enc .rn (scaled ((s.op32 m t c).toNat % 256) x))
  | .qunpack h true d a b c m => mk false h (nar [a, b, c]) fun t =>
      w d t (fp32.enc .rn (scaled ((s.op32 m t c).toNat % 256) (fieldOf true (s.op32 m t a).toNat (8 * ((s.op32 m t b).toNat % 4)) 8)))
  | .f8pack h e5 sat hi rm d a b c m => mk false h (nar [a, b, c]) fun t =>
      let x := f8enc e5 sat rm (dec false m a t) + 256 * f8enc e5 sat rm (dec false m b t)
      let old := (s.op32 m t c).toNat
      w d t (if hi then old % 65536 + 65536 * x else old - old % 65536 + x)
  | .f8unpack h e5 d a b m => mk false h (nar [a, b]) fun t =>
      w d t (fp32.enc .rn (f8dec e5 ((s.op32 m t a).toNat / 2 ^ (8 * ((s.op32 m t b).toNat % 4)) % 256)))
  | .dadd h rm d a b m => wide h [a, b] d fun t => fp64.addC rm (s.opD m t a) (s.opD m t b)
  | .dfma h rm d a b c m => wide h [a, b, c] d fun t => fp64.fmaC rm (s.opD m t a) (s.opD m t b) (s.opD m t c)
  | _ => none

/-- The elements of the block that `qpack` codes: a thread's source, and 0 for a thread that does not execute (R114). -/
def block (s : State) (e : List Nat) (a : Sel) (m : BitVec 32) : List FV :=
  (List.range 32).map fun t => if t ∈ e then fp32.dec (s.opF fp32 m t a) else FV.ofInt 0

end Sys2Proof.Spec

/-- R152, R208: where a source of a per-thread integer, predicate or float instruction of the lane stream is poisoned in some executing threads, those threads
raise POISON after the others have taken their results, at once or later, and advanced. R88, R114, R208: of a thread exchange or of `qpack` a source poisoned in
any executing thread raises POISON for the whole instruction, with nothing written. A scalar instruction that computes, or branches on a register, raises POISON
for a poisoned source in place of its effect. The other forms, whose POISON stands among other checks, this statement does not cover. -/
def Obligations.PoisonedSourcesRaise : Prop :=
  (∀ (i : Instr) (s : State) (slow : Bool) (c : Spec.LCalc) (l : Word) (f : List Nat),
    (slow = false ∧ Spec.intLane i s = some c ∨ wellFormed i = true ∧ Spec.floatLane i s = some ⟨slow, c⟩) → s.grp.lantern = none →
    s.grp.active = some (l, f) → s.guardOk c.h f →
    let e := Spec.mask s c.h f
    let bad := fun (t : Nat) => c.srcs.any (fun x => s.selBad x.2 t x.1)
    let ds := (e.filter fun t => !bad t).flatMap c.out
    (∀ t ∈ e, ∀ u p b, RDest.p u p b ∈ c.out t → p ≠ 0 → s.grp.work.pBad u = false) → (∃ t ∈ e, bad t = true) →
    ∃ u r, exec i s = .next (u.deliver s.core s.slot r) ∧ s.OnlyGroup u ∧
      r.cause = .poison ∧ r.lane = true ∧ r.lpc = l ∧ r.exec = tmask e ∧ r.fmask = tmask (e.filter bad) ∧
      (∀ (th : Nat) (n : VReg), u.grp.work.rv th n.toNat = (if slow then none else vOf ds th n.toNat).getD (s.grp.work.rv th n.toNat)) ∧
      u.grp.outs = s.grp.outs ++ (if slow then Spec.later ds false else []) ∧
      ∀ th, u.grp.thrAt th = if th ∈ s.movers f ∧ ¬(th ∈ e ∧ bad th = true) then { s.grp.thrAt th with pc := lnext l } else s.grp.thrAt th) ∧
  (∀ (i : Instr) (s : State) (h : LHdr) (srcs : List Sel) (l : Word) (f : List Nat),
    ((∃ c, Spec.xchgLane i s = some c ∧ c.h = h ∧ c.srcs = srcs) ∨
      ∃ i8 fix d a b m, i = .qpack h i8 fix d a b m ∧ srcs = if fix then [a, b] else [a]) → s.grp.lantern = none →
    s.grp.active = some (l, f) → s.guardOk h f →
    (∃ t ∈ Spec.mask s h f, ∃ x ∈ srcs, s.selBad false t x = true) →
      exec i s = .next (s.lRaise ⟨l, f, Spec.mask s h f, h.sw, s.grp.stays⟩ .poison 0 false (Spec.mask s h f))) ∧
  (∀ (i : Instr) (s : State), s.grp.lantern = none →
    (∀ c, (Spec.intCalc i s = some c ∨ Spec.floatCalc i s = some c ∨ Spec.slowCalc i s = some c) → s.sPoi c.srcs = true →
      exec i s = .next (s.sRaise c.sw .poison)) ∧
    (∀ sw rd srcs, Spec.fieldSrcs i = some (sw, rd, srcs) → s.sPoi srcs = true → exec i s = .next (s.sRaise sw .poison)) ∧
    (∀ sw cc ra off, (i = .bc sw cc ra off ∨ i = .loop sw ra off) → s.sPoi [ra] = true → exec i s = .next (s.sRaise sw .poison)))

/-- R36, R41, R98, R105, R106 to R113, R115, R116: each lane float instruction completes: every executing thread's register takes the code of the
exact result of its own sources rounded once, at once or later, every active thread advances, and nothing else of the device changes. R103, R114:
`qpack` codes the block of its threads' sources, one element a thread: later each executing thread receives its word of the codes and the scale
code, found by the block or given under `.fix`. Of `fexp2` and `flog2` the working precision is the model's, log entry 7; so are the results of `dfma.rd` for a
product +0 and c = -0, log entry 69, and of `f8pack.e5` for an infinity under the directed modes, log entry 70. -/
def Obligations.LaneFloatResults : Prop :=
  (∀ (i : Instr) (s : State) (c : Spec.FCalc) (l : Word) (f : List Nat), wellFormed i = true → Spec.floatLane i s = some c →
    Spec.Issues s c.c.h c.c.srcs c.c.out l f →
    let ds := (Spec.mask s c.c.h f).flatMap c.c.out
    ∃ t, exec i s = .next t ∧ (if c.slow then s.LaneDone t c.c.h.sw f [] (Spec.later ds false) (lnext l) else s.LaneDone t c.c.h.sw f ds [] (lnext l))) ∧
  (∀ (s : State) (h : LHdr) (i8 fix : Bool) (d : VReg) (a b : Sel) (m : BitVec 32) (l : Word) (f : List Nat),
    Spec.Issues s h (if fix then [(a, false), (b, false)] else [(a, false)]) (fun _ => []) l f →
    let e := Spec.mask s h f
    let q := if fix then quantFix i8 ((s.op32 m (e.headD 0) b).toNat % 256) (Spec.block s e a m) else quantise i8 (Spec.block s e a m)
    let bs := packCodes i8 q.2
    ∃ t, exec (.qpack h i8 fix d a b m) s = .next t ∧ s.LaneDone t h.sw f [] (Spec.later (e.flatMap fun th =>
      let w := if i8 then th % 8 else th % 4
      [.v th d.toNat (BitVec.ofNat 32 (leNat ((bs.drop (4 * w)).take 4))), .v th (d.toNat + 1) (BitVec.ofNat 32 q.1)]) false) (lnext l))
namespace Sys2Proof.Spec

/-- A lane control instruction has completed: each executing thread of `e` is as `g` makes it, the other active ones at the next word, no
register changed; a block in which no thread still runs leaves the lane queue (R121, R126, R128). -/
structure Moved (s t : State) (sw : Bool) (l : Word) (f e : List Nat) (g : Thread → Thread) : Prop where
  only : s.OnlyGroup t
  threads : ∀ th, t.grp.thrAt th = if th ∈ e then g (s.grp.thrAt th) else if th ∈ f then { s.grp.thrAt th with pc := lnext l } else s.grp.thrAt th
  queue : (∃ th < 32, (t.grp.thrAt th).st = .running) → t.grp.lq = s.grp.lq ∧ t.grp.lrun = s.grp.lrun
  ended : (∀ th < 32, (t.grp.thrAt th).st ≠ .running) → t.grp.lq = s.grp.lq.tail ∧ t.grp.lrun = false
  regs : t.grp.a = s.grp.a ∧ t.grp.b = s.grp.b ∧ t.grp.outs = s.grp.outs.map OutRes.onward ∧ t.grp.pc = s.grp.pc
  wait : t.grp.lWait = .none

/-- A lane branch target: a byte offset from the instruction's own address (R126). -/
def ltarget (l : Word) (off : BitVec 32) : Word := word (l.toNat + off.toInt)

end Sys2Proof.Spec

/-- R125, R126, R128: `lbr`, `ljmp`, `lcall` and `lret` take the executing threads to their target, the call pushing and the return popping each
thread's return stack; `lend` and `lkill` end them; an empty execute mask changes nothing but that the active threads advance. A lane target that
is no valid lane address raises ALIGN; a `ljmp` whose target differs among its executing threads, a return from an empty return stack and a ninth call stop the
context with ASSERT and a message pointer of 0, met first by the lowest such thread. -/
def Obligations.LaneControlMoves : Prop :=
  (∀ (s : State) (h : LHdr) (l : Word) (f : List Nat), Spec.Issues s h [] (fun _ => []) l f →
    let e := Spec.mask s h f
    let goes := fun (i : Instr) (g : Thread → Thread) => ∃ t, exec i s = .next t ∧ Spec.Moved s t h.sw l f e g
    (e ≠ [] →
      (∀ off, lvalid (Spec.ltarget l off) = true → goes (.lbr h off) fun th => { th with pc := Spec.ltarget l off }) ∧
      (∀ a m p, (∀ t ∈ e, s.selBad false t a = false) → (∀ t ∈ e, s.op32 m t a = p) → lvalid (Spec.word (s.lch.lcb.toNat + p.toNat)) = true →
        goes (.ljmp h a m) fun th => { th with pc := Spec.word (s.lch.lcb.toNat + p.toNat) }) ∧
      (∀ off, lvalid (Spec.ltarget l off) = true → (∀ t ∈ e, (s.grp.thrAt t).rs.length < 8) →
        goes (.lcall h off) fun th => { th with pc := Spec.ltarget l off, rs := lnext l :: th.rs }) ∧
      ((∀ t ∈ e, (s.grp.thrAt t).rs ≠ []) → goes (.lret h) fun th => { th with pc := th.rs.headD 0, rs := th.rs.tail })) ∧
    goes (.lend h) (fun th => { th with st := .finished, rs := [] }) ∧ goes (.lkill h) (fun th => { th with st := .killed, rs := [] }) ∧
    (e = [] → ∀ off a m, ∀ i ∈ [Instr.lbr h off, .ljmp h a m, .lcall h off, .lret h], ∃ t, exec i s = .next t ∧ s.LaneDone t h.sw f [] [] (lnext l))) ∧
  (∀ (s : State) (h : LHdr) (l : Word) (f : List Nat), Spec.Issues s h [] (fun _ => []) l f →
    let e := Spec.mask s h f
    let stops := fun (i : Instr) (t : Nat) => exec i s = .next (s.deliver s.core s.slot
      ⟨.assert, true, 0, s.grp.stays, true, s.grp.pc, l, 0, tmask e, tmask e, BitVec.ofNat 8 t, 0, s.grp.pc, false, false⟩)
    (e ≠ [] → ∀ off, lvalid (Spec.ltarget l off) = false → ∀ i ∈ [Instr.lbr h off, .lcall h off], exec i s = .next (s.lRaise ⟨l, f, e, h.sw, s.grp.stays⟩ .align 0 false e)) ∧
    (∀ a m, (∀ t ∈ e, s.selBad false t a = false) → e ≠ [] →
      let p := Spec.word (s.lch.lcb.toNat + (s.op32 m (e.headD 0) a).toNat)
      (lvalid p = false → exec (.ljmp h a m) s = .next (s.lRaise ⟨l, f, e, h.sw, s.grp.stays⟩ .align 0 false e)) ∧
      ∀ t, lvalid p = true → e.find? (fun u => s.op32 m u a != s.op32 m (e.headD 0) a) = some t → stops (.ljmp h a m) t) ∧
    (∀ t, e.find? (fun u => (s.grp.thrAt u).rs == []) = some t → stops (.lret h) t) ∧
    (∀ t off, lvalid (Spec.ltarget l off) = true → e.find? (fun u => decide (8 ≤ (s.grp.thrAt u).rs.length)) = some t → stops (.lcall h off) t))

/-- R129, R130: `lmask` writes in every active thread the bit its mode makes of the guard and of the mask's bit of that thread (that a mask in a predicate
is the one of the lowest active thread is the model's choice, log entry 76); `lassert` whose
condition holds in every executing thread has no effect, and otherwise stops the context at the lowest thread where it is zero, with that
thread's message pointer. -/
def Obligations.LaneMaskAndAssert : Prop :=
  (∀ (s : State) (h : LHdr) (mode : MaskMode) (d : BitVec 3) (a : Sel) (m : BitVec 32) (l : Word) (f : List Nat), s.plain true →
    s.grp.active = some (l, f) → (∀ t ∈ f, s.grp.work.pBad t = false) → s.selBad false (f.headD 0) a = false →
    ∃ t, exec (.lmask h mode d a m) s = .next t ∧ s.LaneDone t h.sw f (f.map fun th => .p th d.toNat (
      let bit := (s.op32 m (f.headD 0) a).getLsbD th
      let g := s.rP th h.prd.toNat != h.neg
      match mode with
      | .set => bit
      | .and => g && bit
      | .or => g || bit
      | .andn => g && !bit)) [] (lnext l)) ∧
  ∀ (s : State) (h : LHdr) (a b : Sel) (m : BitVec 32) (l : Word) (f : List Nat), Spec.Issues s h [(a, false), (b, true)] (fun _ => []) l f →
    let e := Spec.mask s h f
    ((∀ t ∈ e, s.op32 m t a ≠ 0) → ∃ t, exec (.lassert h a b m) s = .next t ∧ s.LaneDone t h.sw f [] [] (lnext l)) ∧
    ∀ t, e.find? (fun u => s.op32 m u a == 0) = some t → exec (.lassert h a b m) s = .next (s.deliver s.core s.slot
      ⟨.assert, true, 0, s.grp.stays, true, s.grp.pc, l, 0, tmask e, tmask e, BitVec.ofNat 8 t, s.op64 m t b, s.grp.pc, false, false⟩)

namespace Sys2Proof.Spec

/-- A lane memory instruction: its header, the sources it reads, the address of each thread and the size of its access, the space it is in, whether its
requests leave by rising line of memory (R154, log entry 74), what one thread's access does, and the results of the bytes it returns. -/
structure LMem where
  h : LHdr
  srcs : List (Sel × Bool)
  ea : Nat → Nat
  n : Nat
  spad : Bool
  write : Bool
  line : Bool
  acc : State → Nat → LoadRes
  dests : Nat → List Byte → List RDest

/-- The global address of the indexed form: C[a] + zext(X) × the size + sext(imm32) (R137). -/
def idxAddr (s : State) (ca : BitVec 3) (x : Idx) (n : Nat) (off : BitVec 32) (t : Nat) : Nat :=
  (word ((s.grp.cap ca.toNat).toNat + n * (match x with
    | .v r => (s.rV t r).toNat
    | .none => 0) + off.toInt)).toNat
/-- The global address of the direct form: the register, pair or zero + sext(imm32) (R137). -/
def dirAddr (s : State) (a : ASel) (off : BitVec 32) (t : Nat) : Nat :=
  (word ((match a with
    | .v r => (s.rV t r).toNat + 2 ^ 32 * (s.rV t (r + 1)).toNat
    | .c r => (s.grp.cap r.toNat).toNat
    | .zero => 0 : Nat) + off.toInt)).toNat
/-- The scratchpad address: 32 bits of the register + imm32 (R138). -/
def padAddr (s : State) (a : ASel) (off : BitVec 32) (t : Nat) : Nat :=
  ((match a with
    | .v r => (s.rV t r).toNat
    | .c r => (s.grp.cap r.toNat).toNat
    | .zero => 0) + off.toNat) % 2 ^ 32

/-- The results of a loaded element (R144): the bytes zero-extended, or sign-extended under `.s`, in a register, and eight bytes in a pair. -/
def element (z : MemSize) (sx : Bool) (d : VReg) (t : Nat) (bs : List Byte) : List RDest :=
  match z with
  | .d => [.v t d.toNat (word32 (leNat bs)), .v t (d.toNat + 1) (word32 (leNat bs / 2 ^ 32 : Nat))]
  | .w => [.v t d.toNat (word32 (leNat bs))]
  | .h => [.v t d.toNat (word32 (if sx then fieldOf true (leNat bs) 0 16 else leNat bs))]
  | .b => [.v t d.toNat (word32 (if sx then fieldOf true (leNat bs) 0 8 else leNat bs))]
/-- The results of a vector form: words in registers from `d` on (R144). -/
def elements (k : VecN) (d : VReg) (t : Nat) (bs : List Byte) : List RDest :=
  (List.range (VecN.count k)).map fun i => .v t (d.toNat + i) (word32 (leNat ((bs.drop (4 * i)).take 4)))
/-- The bytes that a thread stores (R144). -/
def datum (s : State) (z : MemSize) (c : Sel) (t : Nat) : List Byte :=
  leBytes (MemSize.bytes z) (if z = .d then (s.op64 0 t c).toNat else (s.op32 0 t c).toNat)
/-- The bytes that a thread of a vector form stores. -/
def data (s : State) (k : VecN) (c : VReg) (t : Nat) : List Byte :=
  (List.range (VecN.count k)).flatMap fun i => leBytes 4 (s.rV t (c + BitVec.ofNat 6 i)).toNat
/-- The operand of a lane atomic (R187). -/
def operand (s : State) (dw : Bool) (c : Sel) (t : Nat) : Word := if dw then s.op64 0 t c else word (s.op32 0 t c).toNat
/-- A compare-and-swap's expected value, and the new value in the next register or pair (R187). -/
def swap (s : State) (dw : Bool) (c : VReg) (t : Nat) : List Byte → List Byte :=
  casNew dw (operand s dw (.v c) t) (operand s dw (.v (c + if dw then 2 else 1)) t)
/-- The registers that a compare-and-swap reads. -/
def swapSrcs (dw : Bool) (c : VReg) : List (Sel × Bool) := [(.v c, dw), (.v (c + if dw then 2 else 1), dw)]
/-- The old value of an atomic in its register or pair (R188). -/
def oldVal (dw : Bool) (d : VReg) : Nat → List Byte → List RDest := element (if dw then .d else .w) false d

/-- The lane memory instructions of R143 to R147 and R187 that make one access in each executing thread. -/
def laneMem (i : Instr) (s : State) : Option LMem :=
  let glob := fun (h : LHdr) (xs : List (Sel × Bool)) (ea : Nat → Nat) (n : Nat) (wr ln : Bool) (acc : State → Nat → LoadRes)
    (ds : Nat → List Byte → List RDest) => some (LMem.mk h xs ea n false wr ln acc ds)
  let pad := fun (h : LHdr) (xs : List (Sel × Bool)) (ea : Nat → Nat) (n : Nat) (acc : State → Nat → LoadRes)
    (ds : Nat → List Byte → List RDest) => some (LMem.mk h xs ea n true false false acc ds)
  let none' := fun (_ : Nat) (_ : List Byte) => ([] : List RDest)
  let order := fun (o : Order) (x : Scope) (r : LoadRes) => match r with
    | .ok bs m u => LoadRes.ok bs m (u.spOrder true o x)
    | r => r
  match i with
  | .ldg h z sx o x d ca ix off =>
    let ea := idxAddr s ca ix (MemSize.bytes z) off
    glob h [(Idx.sel ix, false)] ea (MemSize.bytes z) false true (fun u t => u.gLoad true (ea t) (MemSize.bytes z) o x) (element z sx d)
  | .ldgx h z sx o x d a off =>
    let ea := dirAddr s a off
    glob h [(ASel.sel a, true)] ea (MemSize.bytes z) false true (fun u t => u.gLoad true (ea t) (MemSize.bytes z) o x) (element z sx d)
  | .ldgv h k d ca ix off =>
    let n := 4 * VecN.count k
    let ea := idxAddr s ca ix n off
    glob h [(Idx.sel ix, false)] ea n false true (fun u t => u.gLoad true (ea t) n .rlx .weak) (elements k d)
  | .stg h z o x ca ix c off =>
    let ea := idxAddr s ca ix (MemSize.bytes z) off
    glob h [(Idx.sel ix, false), (c, z == .d)] ea (MemSize.bytes z) true (!Scope.wide x) (fun u t => (u.gStore true (ea t) (datum s z c t) o x).asLoad) none'
  | .stgx h z o x a c off =>
    let ea := dirAddr s a off
    glob h [(ASel.sel a, true), (c, z == .d)] ea (MemSize.bytes z) true (!Scope.wide x) (fun u t => (u.gStore true (ea t) (datum s z c t) o x).asLoad) none'
  | .stgv h k ca ix c off =>
    let n := 4 * VecN.count k
    let ea := idxAddr s ca ix n off
    glob h ((Idx.sel ix, false) :: vecSrcs k c) ea n true true (fun u t => (u.gStore true (ea t) (data s k c t) .rlx .weak).asLoad) none'
  | .atomg h dw op o x d ca ix c off =>
    let ea := idxAddr s ca ix (atomBytes dw) off
    glob h [(Idx.sel ix, false), (c, dw)] ea (atomBytes dw) true false
      (fun u t => u.gAtomic (ea t) (atomBytes dw) o x (atomNew dw op (operand s dw c t))) (oldVal dw d)
  | .casg h dw o x d ca ix c off =>
    let ea := idxAddr s ca ix (atomBytes dw) off
    glob h ((Idx.sel ix, false) :: swapSrcs dw c) ea (atomBytes dw) true false (fun u t => u.gAtomic (ea t) (atomBytes dw) o x (swap s dw c t)) (oldVal dw d)
  | .atomgx h dw op o x d a c off =>
    let ea := dirAddr s a off
    glob h [(ASel.sel a, true), (c, dw)] ea (atomBytes dw) true false
      (fun u t => u.gAtomic (ea t) (atomBytes dw) o x (atomNew dw op (operand s dw c t))) (oldVal dw d)
  | .redg h dw op o x ca ix c off =>
    let ea := idxAddr s ca ix (atomBytes dw) off
    glob h [(Idx.sel ix, false), (c, dw)] ea (atomBytes dw) true false
      (fun u t => u.gAtomic (ea t) (atomBytes dw) o x (atomNew dw op (operand s dw c t))) none'
  | .pchk h wr d a off =>
    let ea := dirAddr s a off
    glob h [(ASel.sel a, true)] ea 1 false true (fun u t => if u.me.scoreHit (.global u.prt) (ea t) 1 || u.walkWaits (some u.core) u.prt (ea t) then .stall
      else .ok (if (u.probe wr (ea t)).1 then [1] else [0]) false (u.probe wr (ea t)).2) fun t bs => [.p t d.toNat (leNat bs != 0)]
  | .lds h z sx o x d a off =>
    let ea := padAddr s a off
    pad h [(ASel.sel a, false)] ea (MemSize.bytes z) (fun u t => order o x (u.spLoad (ea t) (MemSize.bytes z))) (element z sx d)
  | .ldsb h k d a off =>
    let ea := padAddr s a off
    pad h [(ASel.sel a, false)] ea (4 * VecN.count k) (fun u t => u.spLoad (ea t) (4 * VecN.count k)) (elements k d)
  | .sts h z o x a c off =>
    let ea := padAddr s a off
    pad h [(ASel.sel a, false), (c, z == .d)] ea (MemSize.bytes z)
      (fun u t => (u.spOrder false o x).spModify (ea t) (MemSize.bytes z) fun _ => datum s z c t) none'
  | .stsb h k a c off =>
    let ea := padAddr s a off
    pad h ((ASel.sel a, false) :: vecSrcs k c) ea (4 * VecN.count k) (fun u t => u.spModify (ea t) (4 * VecN.count k) fun _ => data s k c t) none'
  | .atoms h dw op o x d a c off =>
    let ea := padAddr s a off
    pad h [(ASel.sel a, false), (c, dw)] ea (atomBytes dw)
      (fun u t => order o x ((u.spOrder false o x).spModify (ea t) (atomBytes dw) (atomNew dw op (operand s dw c t)))) (oldVal dw d)
  | .cass h dw o x d a c off =>
    let ea := padAddr s a off
    pad h ((ASel.sel a, false) :: swapSrcs dw c) ea (atomBytes dw)
      (fun u t => order o x ((u.spOrder false o x).spModify (ea t) (atomBytes dw) (swap s dw c t))) (oldVal dw d)
  | _ => none

/-- The threads of a lane memory instruction in the order of their requests (R144, R153, R154). -/
def LMem.turn (s : State) (m : LMem) (e : List Nat) : List Nat := if m.line then s.byLine (fun t => word (m.ea t)) e else e

/-- The accesses of some threads one after another, where each is made: the state, the results, and whether one missed (R144). -/
def runAll (acc : State → Nat → LoadRes) (dests : Nat → List Byte → List RDest) : State → List Nat → Option (State × List RDest × Bool)
  | s, [] => some (s, [], false)
  | s, t :: ts => match acc s t with
    | .ok bs m u => (runAll acc dests u ts).map fun r => (r.1, dests t bs ++ r.2.1, m || r.2.2)
    | _ => none

/-- The accesses of a lane instruction have left every group as it was, but for the acting group's strong stores and useful hits. -/
structure Kept (s u : State) : Prop where
  acting : { u.grp with sbuf := s.grp.sbuf, lsbuf := s.grp.lsbuf, lan3 := s.grp.lan3 } = s.grp
  others : ∀ c g, (c, g) ≠ (s.core, s.slot) → u.grpAt c g = s.grpAt c g
  at_ : u.core = s.core ∧ u.slot = s.slot

/-- The pads and the column scratchpads list each of their bytes once, rising. -/
def padsRise (s : State) : Prop := ∀ c b, rising ((s.coreAt c).plane b).pad ∧ rising ((s.coreAt c).plane b).col

end Sys2Proof.Spec

/-- R143, R144, R147, R154, R187, R188: each lane memory instruction of one access a thread completes when every thread's address is aligned and every
access can be made: the accesses are made, of global loads and of weak stores by rising line of memory (log entry 74) and of the others in thread order, their
results arrive later, and every active thread advances. That `pchk` raises POISON for a poisoned address or destination, and does not complete so, is the model's
reading of R208 and R209 beside R147, log entry 28. -/
def Obligations.LaneAccessesComplete : Prop :=
  ∀ (i : Instr) (s : State) (m : Spec.LMem) (l : Word) (f : List Nat), wellFormed i = true → Spec.laneMem i s = some m →
    Spec.Issues s m.h m.srcs (fun _ => []) l f →
    let e := Spec.mask s m.h f
    (∀ t ∈ e, m.ea t % m.n = 0) → (m.write = true → ∀ t ∈ e, s.lch.undeclared (m.ea t) m.n = false) →
    (m.spad = true → ∀ t ∈ e, s.spadAt (m.ea t) ≠ none) →
    (∀ t ∈ e, ∀ bs u p b, RDest.p u p b ∈ m.dests t bs → p ≠ 0 → s.grp.work.pBad u = false) →
    ∀ u ds miss, Spec.runAll m.acc m.dests s (m.turn s e) = some (u, ds, miss) →
      ∃ t, exec i s = .next t ∧ Spec.Kept s u ∧ u.LaneDone t m.h.sw f [] (Spec.later ds miss) (lnext l)

/-- R145, R146, R148: `ldbc` reads once and gives every executing thread the element later; `stgm` stores the enabled bytes of each thread that
enables some; `prefg` completes whatever its addresses. -/
def Obligations.LaneBroadcastMaskedPrefetch : Prop :=
  (∀ (s : State) (h : LHdr) (z : MemSize) (sx : Bool) (o : Order) (x : Scope) (d : VReg) (ca : BitVec 3) (off : BitVec 32) (l : Word) (f : List Nat),
    Spec.Issues s h [] (fun _ => []) l f →
    let e := Spec.mask s h f
    let ea := Spec.idxAddr s ca .none 0 off 0
    (e = [] → ∃ t, exec (.ldbc h z sx o x d ca off) s = .next t ∧ s.LaneDone t h.sw f [] [] (lnext l)) ∧
    ∀ bs m u, e ≠ [] → ea % MemSize.bytes z = 0 → s.gLoad true ea (MemSize.bytes z) o x = .ok bs m u →
      ∃ t, exec (.ldbc h z sx o x d ca off) s = .next t ∧
        u.LaneDone t h.sw f [] (Spec.later (e.flatMap fun th => Spec.element z sx d th bs) m) (lnext l)) ∧
  (∀ (s : State) (h : LHdr) (dw : Bool) (a : ASel) (b c : Sel) (off : BitVec 32) (l : Word) (f : List Nat),
    Spec.Issues s h [(b, false)] (fun _ => []) l f →
    let e := Spec.mask s h f
    let n := atomBytes dw
    let ea := Spec.dirAddr s a off
    let on := fun (t : Nat) => (s.op32 0 t b).toNat % 2 ^ n
    (∀ t ∈ e, on t ≠ 0 → s.selBad true t (ASel.sel a) = false ∧ s.selBad dw t c = false ∧ ea t % n = 0 ∧ s.lch.undeclared (ea t) n = false) →
    ∀ u ds miss, Spec.runAll (fun u t => if on t = 0 then .ok [] false u
      else u.maskStore (ea t) n (on t) (Spec.datum s (if dw then .d else .w) c t)) (fun _ _ => []) s (s.byLine (fun t => Spec.word (ea t)) e) = some (u, ds, miss) →
      ∃ t, exec (.stgm h dw a b c off) s = .next t ∧ Spec.Kept s u ∧ u.LaneDone t h.sw f [] [] (lnext l)) ∧
  ∀ (s : State) (h : LHdr) (z : MemSize) (tlb : Bool) (ca : BitVec 3) (x : Idx) (off : BitVec 32) (l : Word) (f : List Nat),
    Spec.Issues s h [] (fun _ => []) l f →
    ∃ t u, exec (.prefg h z tlb ca x off) s = .next t ∧ s.MemOnly u ∧ u.LaneDone t h.sw f [] [] (lnext l)

/-- R151: a lane access whose address is misaligned in some executing thread raises ALIGN for the whole instruction, before any access, with the
address of the lowest such thread; then one outside its launch's declared regions UNDECL (R166), and one outside the group's scratchpad SPAD. While some
executing thread's access lies in ways that a change of %wpr covers, a scratchpad instruction waits whole, before SPAD (R161, R340). -/
def Obligations.LaneAccessChecksRaise : Prop :=
  ∀ (i : Instr) (s : State) (m : Spec.LMem) (l : Word) (f : List Nat), Spec.laneMem i s = some m → s.grp.lantern = none →
    s.grp.active = some (l, f) → s.guardOk m.h f →
    let e := Spec.mask s m.h f
    let raises := fun (c : Cause) (t : Nat) => exec i s = .next (s.deliver s.core s.slot
      ⟨c, true, 0, s.grp.stays, true, s.grp.pc, l, Spec.word (m.ea t), tmask e, tmask e, BitVec.ofNat 8 t, 0, s.grp.pc, false, false⟩)
    (∀ t, e.find? (fun t => m.ea t % m.n != 0) = some t → raises .align t) ∧
    (∀ t, (∀ t ∈ e, m.ea t % m.n = 0) → m.write = true → e.find? (fun t => s.lch.undeclared (m.ea t) m.n) = some t → raises .undecl t) ∧
    (∀ t, (∀ t ∈ e, m.ea t % m.n = 0) → m.spad = true → (∀ t ∈ e, ∀ p, s.spadAt (m.ea t) = some p → s.spadMoves p = false) →
      e.find? (fun t => s.spadAt (m.ea t) == none) = some t → raises .spad t) ∧
    ((∀ t ∈ e, m.ea t % m.n = 0) → m.spad = true → (∃ t ∈ e, ∃ p, s.spadAt (m.ea t) = some p ∧ s.spadMoves p = true) →
      exec i s = .next (s.modG fun g => { g with lWait := .other }))

/-- R138, R144, R165, R188: a scratchpad access that writes gives the bytes that stood in its place, leaves there what its function makes of them,
and changes no other byte of any scratchpad. Stated where the scratchpads list each byte once, rising, which the access keeps. -/
def Obligations.ScratchpadWritesBytes : Prop :=
  ∀ (s u : State) (sa n : Nat) (f : List Byte → List Byte) (old : List Byte) (m : Bool) (l : SLoc), Spec.padsRise s →
    (∀ b, b.length = n → (f b).length = n) → s.spadAt sa = some l → s.spModify sa n f = .ok old m u →
    Spec.padsRise u ∧ old = s.rdSpad l n ∧ u.rdSpad l n = f old ∧
    (∀ c a, (∀ o, l = .pad c o → a < o ∨ o + n ≤ a) → u.rdSpad (.pad c a) 1 = s.rdSpad (.pad c a) 1) ∧
    ∀ c a, (∀ o, l = .col c o → a < o ∨ o + n ≤ a) → u.rdSpad (.col c a) 1 = s.rdSpad (.col c a) 1

namespace Sys2Proof.Spec

/-- A matrix instruction has entered the queue of its core from `s` to `t`: its item `m` stands last, under the next number, with the scoreboard
entries `sc`; the active threads advance and no register changes (R163, R262). -/
structure Queued (s t : State) (l : Word) (f : List Nat) (m : MItem) (sc : List Score) : Prop where
  queue : t.me.mq = s.me.mq ++ [m]
  score : t.me.score = s.me.score ++ sc
  number : m.id = s.me.nextOp ∧ t.me.nextOp = s.me.nextOp + 1
  owner : m.slot = s.slot ∧ m.lid = s.grp.lid ∧ m.cohort = s.grp.cohort
  fresh : m.run = false ∧ m.fail = none ∧ m.doneAt = none ∧ m.resume = 0
  threads : ∀ th, t.grp.thrAt th = if th ∈ s.movers f then { s.grp.thrAt th with pc := lnext l } else s.grp.thrAt th
  regs : t.grp.a = s.grp.a ∧ t.grp.b = s.grp.b ∧ t.grp.outs = s.grp.outs.map OutRes.onward ∧ t.grp.pc = s.grp.pc
  wait : t.grp.lWait = .none

/-- The queue and the scoreboard of the acting core take an instruction with that many entries (R262, R267). -/
def room (s : State) (n : Nat) : Prop := s.me.mq.length < 16 ∧ s.me.score.length + n ≤ 16
/-- A tile lies in a bank of the group's team (R198). -/
def mine (s : State) (t : Nat) : Prop := tget none s.me.accOwn (t / 8) = some s.grp.slot0
/-- The working plane of a tile holds no poison (R208). -/
def clean (s : State) (t : Nat) : Prop := ∀ r < 32, s.me.rowBad t r = false
/-- Two tiles agree in mode and exponent (R261). -/
def alike (s : State) (t u : Nat) : Prop := (s.me.tile t).flt = (s.me.tile u).flt ∧ (s.me.tile t).e = (s.me.tile u).e

/-- No `mstat` of the acting core waits to take effect. -/
def noStat (s : State) : Prop := ∀ g ∈ s.me.groups, ∀ o ∈ g.2.outs, o.op = none

/-- The wick of an asynchronous instruction has risen with its record's ISSUED (R67, R231). -/
def raised (s t : State) (w : Wick) : Prop := t.grp.wick w = s.grp.wick w + 1 ∧ (t.grp.xs w).issued = (s.grp.xs w).issued + 1

end Sys2Proof.Spec

/-- R259 to R262, R269, R271, R279: `mzero`, `mcvt`, `madd`, `mtrans`, `mscl` and `mglow` whose tiles are the team's, alike and free of poison
enter the matrix queue with what they need, `mzero` and `mcvt` recording the tile's new mode and exponent at once. -/
def Obligations.TileInstructionsQueue : Prop :=
  ∀ (s : State) (h : LHdr) (l : Word) (f : List Nat), Spec.Issues s h [] (fun _ => []) l f → Spec.mask s h f ≠ [] → Spec.room s 0 →
    let goes := fun (i : Instr) (p : State → MItem → Prop) => ∃ t m, exec i s = .next t ∧ Spec.Queued s t l f m [] ∧ m.mask = tmask (Spec.mask s h f) ∧ p t m
    (∀ flt (a : BitVec 6) x, Spec.mine s a.toNat →
      goes (.mzero h flt a x) (fun t m => m.op = .mzero ∧ m.tile = a.toNat ∧ (t.me.tile a.toNat).flt = flt ∧ (t.me.tile a.toNat).e = x) ∧
      (Spec.clean s a.toNat →
        goes (.mcvt h flt a x) fun t m => m.op = .mcvt ∧ m.tile = a.toNat ∧ m.flt = flt ∧ m.e = x ∧ m.flt0 = (s.me.tile a.toNat).flt ∧
          m.e0 = (s.me.tile a.toNat).e ∧ (t.me.tile a.toNat).flt = flt ∧ (t.me.tile a.toNat).e = x)) ∧
    (∀ d a b : BitVec 6, Spec.mine s d.toNat → Spec.mine s a.toNat → Spec.clean s a.toNat → Spec.alike s d.toNat a.toNat →
      goes (.mtrans h d a) (fun _ m => m.op = .mtrans ∧ m.tile = d.toNat ∧ m.x = a.toNat) ∧
      (Spec.mine s b.toNat → Spec.clean s b.toNat → Spec.alike s d.toNat b.toNat →
        goes (.madd h d a b) fun _ m => m.op = .madd ∧ m.tile = d.toNat ∧ m.x = a.toNat ∧ m.y = b.toNat)) ∧
    (∀ (d : BitVec 6) a imm, Spec.mine s d.toNat → Spec.clean s d.toNat → (∀ t ∈ Spec.mask s h f, s.selBad false t a = false) →
      goes (.mscl h d a imm) fun _ m => m.op = .mscl ∧ m.tile = d.toNat ∧ m.ks = (List.range 32).map fun t => s.op32 imm t a) ∧
    (∀ n, goes (.mglow h n) fun _ m => m.op = .mglow ∧ m.steps = n.toNat)

/-- R163, R261, R263, R264, R267, R270: `mld`, `mst` and `mma` COMPLETE, as far as the stream that issues them goes, in every state that passes their
checks: `exec` answers the next state in which the instruction stands in the matrix queue with its tile, addresses and executing threads, its wick and
ISSUED risen, and every active thread has gone on; `mma` has taken its descriptor, its operand in scratchpad and its step count, and both operands a
scoreboard entry. What the queued instruction then does ItemAndEngineEventsAct states. R264 raises the wick: that ISSUED and the sequence number rise as for
items is the model's choice, log entry 30. -/
def Obligations.MovesAndMultiplyQueue : Prop :=
  ∀ (s : State) (h : LHdr) (w : Wick) (l : Word) (f : List Nat), Spec.Issues s h [] (fun _ => []) l f → Spec.mask s h f ≠ [] →
    s.grp.wick w ≠ 0xFFFF → Spec.room s 2 →
    (∀ sp (a : BitVec 6) ca (stride : BitVec 32), Spec.mine s a.toNat →
      let addr := if sp then (s.grp.cap ca.toNat).toNat % 2 ^ 32 else (s.grp.cap ca.toNat).toNat
      addr % 8 = 0 → stride.toNat % 8 = 0 → (sp = true → s.outside addr 32 stride.toNat 256 = false) →
      let sc := fun (dst : Bool) => if sp then s.rowScore addr 32 stride.toNat 256 dst
        else [⟨.global s.prt, addr, addr + 31 * stride.toNat + 255, s.me.nextOp, s.core, dst⟩]
      (∃ t m, exec (.mld h sp a w ca stride) s = .next t ∧ Spec.Queued s t l f m (sc false) ∧ Spec.raised s t w ∧ m.op = .mld ∧ m.tile = a.toNat ∧
        m.addr = addr ∧ m.stride = stride.toNat ∧ m.spad = sp ∧ m.wick = w ∧ m.seq = (s.grp.xs w).issued ∧ m.mask = tmask (Spec.mask s h f)) ∧
      (Spec.clean s a.toNat →
        ∃ t m, exec (.mst h sp a w ca stride) s = .next t ∧ Spec.Queued s t l f m (sc true) ∧ Spec.raised s t w ∧ m.op = .mst ∧ m.tile = a.toNat ∧
          m.addr = addr ∧ m.stride = stride.toNat ∧ m.spad = sp ∧ m.wick = w ∧ m.seq = (s.grp.xs w).issued ∧ m.mask = tmask (Spec.mask s h f))) ∧
    (∀ (a : BitVec 6) ca cb (desc : BitVec 8) (steps : BitVec 12) bs miss u,
      let addr := bits (s.grp.cap ca.toNat) 0 32
      let stride := bits (s.grp.cap ca.toNat) 32 16
      let off := bits (s.grp.cap cb.toNat) 0 20
      let n := steps.toNat + 1
      let ws := toDws 8 bs
      let fmt := sfmtOf ws 0
      Spec.mine s a.toNat → Spec.clean s a.toNat → addr % 16 = 0 → stride % 16 = 0 → off % 8 = 0 →
      s.gLoad true (s.lch.fmt + BitVec.ofNat 64 (64 * desc.toNat)).toNat 64 .rlx .weak = .ok bs miss u →
      descCheck ws (s.me.tile a.toNat).flt (s.me.tile a.toNat).e = 0 →
      (fmt = 1 ∨ fmt = 3 ∨ narrowFmt fmt = true → s.outside addr 32 stride (stepBytes fmt * n) = false) →
      (narrowFmt fmt = true → s.outside (scAddr ws 0) 32 (scStride ws 0) (2 * n) = false) →
      ∃ t m, exec (.mma h a w ca cb desc steps) s = .next t ∧ Spec.Queued s t l f m (u.rowScore addr 32 stride (stepBytes fmt * n) false ++
          [⟨.wbuf, s.grp.wb.toNat + off, 0xFFFFF, s.me.nextOp, s.core, false⟩]) ∧ Spec.raised s t w ∧ m.op = .mma ∧ m.tile = a.toNat ∧
        m.addr = addr ∧ m.stride = stride ∧ m.boff = s.grp.wb.toNat + off ∧ m.steps = n ∧ m.desc = ws ∧ m.wick = w ∧ m.seq = (s.grp.xs w).issued ∧ m.mask = tmask (Spec.mask s h f))

/-- R244, R272, R273: `mfmt` gives the number of the first rule its descriptor breaks for the tile, 0 for none; `mstat.flg` the tile's exponent
and flags, and a counter its 64 bits, where no matrix instruction is queued, no `mma` of a saved team is unfinished and no tick of the engine is due, and
otherwise stays outstanding until those issued before it are done, while the stream goes on; `wsel` sets the weight base of B. R275: an empty execute mask leaves
every matrix instruction without effect. -/
def Obligations.MatrixReadsAndBase : Prop :=
  ∀ (s : State) (h : LHdr) (l : Word) (f : List Nat), Spec.Issues s h [] (fun _ => []) l f →
    let e := Spec.mask s h f
    (∀ (d : VReg) (a : BitVec 6) (desc : BitVec 8) bs miss u, e ≠ [] → Spec.mine s a.toNat →
      s.gLoad true (s.lch.fmt + BitVec.ofNat 64 (64 * desc.toNat)).toNat 64 .rlx .weak = .ok bs miss u →
      ∃ t, exec (.mfmt h d a desc) s = .next t ∧ (u.drainBuf s.core s.slot).LaneDone t h.sw f [] (Spec.later (e.map fun th =>
        .v th d.toNat (BitVec.ofNat 32 (descCheck (toDws 8 bs) (s.me.tile a.toNat).flt (s.me.tile a.toNat).e))) false) (lnext l)) ∧
    (∀ (d : VReg) (a : BitVec 6), e ≠ [] → Spec.mine s a.toNat → s.me.mq = [] → s.me.away = [] → Spec.noStat s → s.me.eng.run = none →
      (s.me.eng.pos = none ∧ s.me.eng.req = none ∨ s.now ≤ s.me.eng.tick) →
      let q := s.me.tile a.toNat
      ∃ t, ∃ u : State, exec (.mstat h true d a) s = .next t ∧ u.LaneDone t h.sw f [] (Spec.later (e.map fun th => .v th d.toNat
        (Spec.word32 (q.exh.toNat + 2 * q.ovf.toNat + 4 * q.nan.toNat + 8 * q.flt.toNat + 2 ^ 16 * q.e.toNat : Nat))) false) (lnext l) ∧
        u.grp.a = s.grp.a ∧ u.grp.b = s.grp.b ∧ u.grp.outs = s.grp.outs ∧ u.grp.thr = s.grp.thr) ∧
    (∀ (d : VReg) (n : BitVec 6), d.toNat % 2 = 0 → e ≠ [] → s.me.mq = [] → s.me.away = [] → Spec.noStat s → s.me.eng.run = none → s.me.eng.pos = none → s.me.eng.req = none →
      ∃ t, ∃ u : State, exec (.mstat h false d n) s = .next t ∧ u.LaneDone t h.sw f [] (Spec.later (e.flatMap fun th =>
        [.v th d.toNat (Spec.word32 (s.me.ctr n.toNat).toNat), .v th (d.toNat + 1) (Spec.word32 ((s.me.ctr n.toNat).toNat / 2 ^ 32 : Nat))]) false) (lnext l) ∧
        u.grp.a = s.grp.a ∧ u.grp.b = s.grp.b ∧ u.grp.outs = s.grp.outs ∧ u.grp.thr = s.grp.thr) ∧
    (∀ (d : VReg) (a : BitVec 6), e ≠ [] → Spec.mine s a.toNat → Spec.noStat s → ((∃ m ∈ s.me.mq, m.id < s.me.nextOp) ∨ ∃ n ∈ s.me.away, n < s.me.nextOp) →
      ∃ t o, exec (.mstat h true d a) s = .next t ∧ t.grp.outs = s.grp.outs.map OutRes.onward ++ [o] ∧ o.op = some (s.me.nextOp, true, a.toNat, s.now) ∧
        o.lane = true ∧ t.me.mq = s.me.mq ∧ t.grp.a = s.grp.a ∧ t.grp.b = s.grp.b ∧
        ∀ th, t.grp.thrAt th = if th ∈ s.movers f then { s.grp.thrAt th with pc := lnext l } else s.grp.thrAt th) ∧
    (∀ a imm, e ≠ [] → ∃ t, exec (.wsel h a imm) s = .next t ∧ ((s.drainBuf s.core s.slot).modG fun g =>
      { g with wb := BitVec.ofNat 20 ((s.op32 imm (e.headD 0) a).toNat % 2 ^ 20 / 8 * 8) }).LaneDone t h.sw f [] [] (lnext l)) ∧
    (e = [] → ∀ (x : BitVec 6) (y : BitVec 6) (z : BitVec 6) flt ex a imm d desc flg n, ∀ i ∈ [Instr.mzero h flt x ex, .mcvt h flt x ex, .madd h x y z,
      .mtrans h x y, .mscl h x a imm, .mglow h n, .mfmt h d x desc, .mstat h flg d x, .wsel h a imm],
      ∃ t, exec i s = .next t ∧ s.LaneDone t h.sw f [] [] (lnext l)) ∧
    (e = [] → ∀ (x : BitVec 6) w ca cb desc steps sp stride, s.grp.wick w ≠ 0xFFFF → ∀ i ∈ [Instr.mma h x w ca cb desc steps, .mld h sp x w ca stride,
      .mst h sp x w ca stride], ∃ t, exec i s = .next t ∧ s.LaneDone t h.sw f [] [] (lnext l))

namespace Sys2Proof.Spec

/-! Lantern mode. -/

/-- The scalar instructions that lantern mode suppresses and counts, where they are no illegal ones (R66, R71, R77, R169, R217, R237, R305, R311, R336, R367), with
their switch marker. -/
def hushed : Instr → Option Bool
  | .swr sw _ _ _ => some sw
  | .sysw sw _ _ => some sw
  | .lgo sw _ _ _ => some sw
  | .yield sw => some sw
  | .bar sw _ => some sw
  | .sst sw _ _ _ _ _ _ => some sw
  | .sstp sw _ _ _ _ => some sw
  | .satom sw _ _ _ _ _ _ => some sw
  | .scas sw _ _ _ _ _ => some sw
  | .fence sw _ _ => some sw
  | .cinv sw _ _ _ _ => some sw
  | .ccln sw _ _ _ _ => some sw
  | .semsig sw _ _ => some sw
  | .flip sw _ _ _ _ => some sw
  | .pfree sw _ _ _ _ => some sw
  | .xfer sw _ _ => some sw
  | .xcvt sw _ _ => some sw
  | .xfill sw _ _ => some sw
  | .xgath sw _ _ => some sw
  | .xred sw _ _ => some sw
  | .xbcst sw _ _ => some sw
  | .xagree sw _ _ => some sw
  | .xcanc sw _ => some sw
  | .launch sw _ _ _ => some sw
  | .gsig sw _ => some sw
  | .tabort sw _ => some sw
  | .trap sw _ => some sw
  | .assert sw _ _ => some sw
  | .phint sw _ => some sw
  | .brk sw _ => some sw
  | .kzero sw _ => some sw
  | .scrub sw _ _ => some sw
  | .tlbi sw _ _ => some sw
  | .cctl sw _ _ => some sw
  | .vbrep sw _ => some sw
  | _ => none
/-- The lane instructions that lantern mode suppresses and counts (R169, R275), with their header. -/
def hushedLane : Instr → Option LHdr
  | .stg h _ _ _ _ _ _ _ => some h
  | .stgx h _ _ _ _ _ _ => some h
  | .stgv h _ _ _ _ _ => some h
  | .sts h _ _ _ _ _ _ => some h
  | .stsb h _ _ _ _ => some h
  | .atomg h _ _ _ _ _ _ _ _ _ => some h
  | .casg h _ _ _ _ _ _ _ _ => some h
  | .atomgx h _ _ _ _ _ _ _ _ => some h
  | .redg h _ _ _ _ _ _ _ _ => some h
  | .atoms h _ _ _ _ _ _ _ _ => some h
  | .cass h _ _ _ _ _ _ _ => some h
  | .stgm h _ _ _ _ _ => some h
  | .lpush h _ _ _ => some h
  | .lassert h _ _ _ => some h
  | .mma h _ _ _ _ _ _ => some h
  | .mzero h _ _ _ => some h
  | .mld h _ _ _ _ _ => some h
  | .mst h _ _ _ _ _ => some h
  | .madd h _ _ _ => some h
  | .mcvt h _ _ _ => some h
  | .mscl h _ _ _ => some h
  | .wsel h _ _ => some h
  | .mtrans h _ _ => some h
  | .mglow h _ => some h
  | _ => none

/-- An instruction names a register, an element or a record that exists: a writable special register of `swr`, a system register of `sysw`, a queue record of `phint`
(R44, R71, R321, R332). -/
def named (s : State) : Instr → Prop
  | .swr _ _ num elem => elem = 0 ∧ num ∈ [0x0E, 0x0F, 0x10]
  | .sysw _ _ num => s.sysRead num.toNat ≠ none
  | .phint _ n => n.toNat < s.lch.livecnt
  | _ => True

/-- A result register is dark or not in a group, where the register can be dark. -/
def darkAs (g : Group) (x : Bool) : RDest → Prop
  | .v t n _ => g.vDark t n = x
  | .p t n _ => n ≠ 0 → g.pDark t n = x
  | .s n _ => n ≠ 0 → g.sDark n = x

end Sys2Proof.Spec

/-- R169, R172: an instruction that lantern mode suppresses leaves the group's registers and results, its wicks and its queues as they are, adds
1 to element 4 of %lantern, and its stream goes on; an `lassert` that no thread executes counts nothing (R132), and a `phint` out of range, a `swr` of a
register that cannot be written and a `sysw` of no register are no suppressed ones (R44, R71, R321, R332). R237: `xstat` executes, its two words and under `.clr`
the record's zeros written and not dark, and `.chk` is suppressed. R275: `mfmt` and `mstat` are suppressed and counted, and their destinations are dark in every
executing thread. That any other suppressed lane form with an empty execute mask counts too, where R91, R150 and R275 give it no effect, is the model's
choice, log entry 18. R168, R92: what an integer instruction computes in lantern mode is dark exactly where a source is dark, and no other mark changes: R92
says so of the lane stream, of the scalar stream it is the model's choice, log entry 56. -/
def Obligations.LanternSuppressesAndDarkens : Prop :=
  (∀ (i : Instr) (s : State) (sw : Bool), Spec.hushed i = some sw → s.grp.inLan = true → Spec.named s i →
    ∃ t, exec i s = .next t ∧ s.OnlyGroup t ∧ t.grp.pc = s.grp.pc + 4 ∧ t.grp.lan4 = s.grp.lan4 + 1 ∧ t.grp.thr = s.grp.thr ∧
      t.grp.a = s.grp.a ∧ t.grp.b = s.grp.b ∧ t.grp.outs = s.grp.outs ∧ t.grp.wicks = s.grp.wicks ∧ t.grp.lq = s.grp.lq ∧
      t.grp.resq = s.grp.resq ∧ t.grp.sbuf = s.grp.sbuf) ∧
  (∀ (i : Instr) (s : State) (h : LHdr) (l : Word) (f : List Nat), Spec.hushedLane i = some h → s.grp.inLan = true →
    s.grp.active = some (l, f) → s.guardOk h f → (∀ a b m, i = .lassert h a b m → s.guarded h f ≠ []) →
    ∃ t, exec i s = .next t ∧ s.OnlyGroup t ∧ t.grp.lan4 = s.grp.lan4 + 1 ∧
      (∀ th, t.grp.thrAt th = if th ∈ s.movers f then { s.grp.thrAt th with pc := lnext l } else s.grp.thrAt th) ∧
      t.grp.pc = s.grp.pc ∧ t.grp.a = s.grp.a ∧ t.grp.b = s.grp.b ∧ t.grp.outs = s.grp.outs.map OutRes.onward ∧ t.grp.wicks = s.grp.wicks ∧
      t.grp.resq = s.grp.resq ∧ t.grp.lsbuf = s.grp.lsbuf) ∧
  (∀ (s : State) (sw clr chk : Bool) (ra : SReg) (w : Wick), s.grp.inLan = true → ra ≠ 0 → ra + 1 ≠ 0 →
    let r := s.grp.xs w
    ∃ t, exec (.xstat sw clr chk ra w) s = .next t ∧ s.OnlyGroup t ∧ t.grp.pc = s.grp.pc + 4 ∧
      t.grp.lan4 = s.grp.lan4 + (if chk then 1 else 0) ∧ t.grp.xs w = (if clr then ⟨0, 0, 0, 0, 0, 0⟩ else r) ∧
      t.grp.sDark ra.toNat = false ∧ t.grp.sDark (ra + 1).toNat = false ∧ t.grp.work.rs (ra + 1).toNat = r.faddr ∧
      t.grp.work.rs ra.toNat = Spec.word (r.issued.toNat + 2 ^ 16 * r.failed.toNat + 2 ^ 32 * r.cause.toNat + 2 ^ 40 * r.detail.toNat + 2 ^ 48 * r.seq.toNat)) ∧
  (∀ (i : Instr) (s : State) (h : LHdr) (out : List VReg) (l : Word) (f : List Nat),
    ((∃ d a desc, i = .mfmt h d a desc ∧ out = [d]) ∨ (∃ d n, i = .mstat h true d n ∧ out = [d]) ∨ ∃ d n, i = .mstat h false d n ∧ out = [d, d + 1]) →
    wellFormed i = true → s.grp.inLan = true → s.grp.active = some (l, f) → s.guardOk h f →
    ∃ t, exec i s = .next t ∧ s.OnlyGroup t ∧ t.grp.lan4 = s.grp.lan4 + 1 ∧ t.grp.outs = s.grp.outs.map OutRes.onward ∧ t.grp.a = s.grp.a ∧ t.grp.b = s.grp.b ∧
      (∀ th, t.grp.thrAt th = if th ∈ s.movers f then { s.grp.thrAt th with pc := lnext l } else s.grp.thrAt th) ∧
      ∀ th ∈ s.guarded h f, ∀ r ∈ out, t.grp.vDark th r.toNat = true) ∧
  (∀ (i : Instr) (s : State) (x : Spec.Calc), Spec.intCalc i s = some x → s.grp.inLan = true → s.sPoi x.srcs = false →
    ∃ t, exec i s = .next t ∧ (∀ r : SReg, t.grp.sDark r.toNat = if r = x.rd then x.rd ≠ 0 && s.sDrk x.srcs else s.grp.sDark r.toNat) ∧
      ∀ r : SReg, t.grp.work.rs r.toNat = if r = x.rd ∧ r ≠ 0 then x.val else s.grp.work.rs r.toNat) ∧
  (∀ (i : Instr) (s : State) (c : Spec.LCalc) (l : Word) (f : List Nat), Spec.intLane i s = some c → s.grp.inLan = true →
    s.grp.active = some (l, f) → s.guardOk c.h f → (∀ t ∈ f, s.grp.pDark t c.h.prd.toNat = false) →
    (∀ t ∈ Spec.mask s c.h f, (∀ x ∈ c.srcs, s.selBad x.2 t x.1 = false) ∧ (c.out t).any s.grp.work.destBad = false) →
    ∃ t, exec i s = .next t ∧
      ∀ th ∈ Spec.mask s c.h f, ∀ d ∈ c.out th, Spec.darkAs t.grp (c.srcs.any fun x => s.selDark x.2 th x.1) d)

namespace Sys2Proof.Spec

/-! Lx instructions. -/

/-- The acting Lamplighter core has completed an Lx instruction from `s` to `t`: `v` in rd, x0 excepted, and the next PC; nothing else of it, no
other core and nothing of the device has changed (R355). -/
structure LxDone (s t : State) (rd : BitVec 5) (v : Word) : Prop where
  reg : ∀ r : BitVec 5, r ≠ 0 → tget 0 (t.hartAt s.hart).x r.toNat = if r = rd then v else tget 0 (s.hartAt s.hart).x r.toNat
  rest : t.hartAt s.hart = { s.hartAt s.hart with x := (t.hartAt s.hart).x, pc := (s.hartAt s.hart).pc + 4, swait := none }
  others : ∀ h, h ≠ s.hart → t.hartAt h = s.hartAt h
  device : { t with harts := s.harts } = s

/-- The acting Lamplighter core has taken an Lx fault: mcause 24 with the code in mtval, and the instruction had no effect (R356). Its vector, and MIE, MPIE
and the reservation, which the spec does not give, are those of RISC-V machine mode: the model's, log entry 53. -/
structure LxFaults (s t : State) (code : Nat) : Prop where
  hart : t.hartAt s.hart =
    { s.hartAt s.hart with
      mepc := (s.hartAt s.hart).pc, mcause := 24, mtval := word code
      mpie := (s.hartAt s.hart).mie, mie := false
      swait := none, resv := none, pc := (s.hartAt s.hart).mtvec &&& ~~~3#64 }
  others : ∀ h, h ≠ s.hart → t.hartAt h = s.hartAt h
  device : { t with harts := s.harts } = s

/-- The acting role reaches a partition: the supervisor every one, a scheduler its own (R25, R341). -/
def reaches (s : State) (p : Nat) : Prop := s.hart = 0 ∨ s.hart = p + 1 ∧ p < 8
/-- A queue that an Lx instruction may name (R356). -/
def goodQueue (s : State) (q : Nat) : Prop := q < 1024 ∧ (s.qAt q).en = true ∧ (s.qAt q).state ≠ 0 ∧ reaches s (s.qAt q).part
/-- A private address at which a record of `n` bytes may stand (R341, R356). -/
def goodAddr (a : Word) (n : Nat) : Prop := a.toNat % n = 0 ∧ a.toNat + n ≤ 256 * 1024

end Sys2Proof.Spec

/-- R355, R356: `lx.rfetch` performs one fetch of its queue, puts the packet where it took one at rs2, and the code of the outcome in rd; an empty
queue answers 0 and nothing else changes. `lx.bfx` extracts as `bext`. `lx.swait` ends at a signal it waits for, which it clears, or when its limit
of Lamplighter cycles, 3/2 core cycles each (R4, log entry 11), passes, and waits otherwise. Each fault by its code. -/
def Obligations.LxFetchFieldAndWait : Prop :=
  (∀ (s : State) (rd rs1 rs2 : BitVec 5),
    let q := (s.xr rs1).toNat
    let a := s.xr rs2
    (Spec.goodQueue s q → Spec.goodAddr a 64 →
      (∃ t : State, exec (.lxRfetch rd rs1 rs2) s = .next t ∧
        let r := s.fetch q fun _ => true
        let u := if r.pkt.isEmpty then r.s else r.s.modHart s.hart fun h => { h with sram := twrite h.sram a.toNat r.pkt }
        Spec.LxDone u t rd (Spec.word r.code)) ∧
      ((s.qAt q).state = 1 → (s.qAt q).wr = (s.qAt q).rd → ∃ t, exec (.lxRfetch rd rs1 rs2) s = .next t ∧ Spec.LxDone s t rd 0)) ∧
    (¬ Spec.goodQueue s q → ∃ t, exec (.lxRfetch rd rs1 rs2) s = .next t ∧ Spec.LxFaults s t 0x01) ∧
    (Spec.goodQueue s q → ¬ Spec.goodAddr a 64 → ∃ t, exec (.lxRfetch rd rs1 rs2) s = .next t ∧ Spec.LxFaults s t 0x02)) ∧
  (∀ (s : State) (sx : Bool) (rd rs1 rs2 : BitVec 5), ∃ (t : State) (x : Word), exec (.lxBfx sx rd rs1 rs2) s = .next t ∧ Spec.LxDone s t rd x ∧
    ∀ k < 64, x.getLsbD k = Spec.bextBit sx (s.xr rs1) (Spec.fieldPos (s.xr rs2)) (Spec.fieldLen (s.xr rs2)) k) ∧
  (∀ (s : State) (rd rs1 rs2 : BitVec 5),
    let m := (s.xr rs1).extractLsb' 0 7
    let n := (s.xr rs2).toNat
    let hit := (s.hartAt s.hart).sig &&& m
    let cleared := s.modHart s.hart fun h => { h with sig := (s.hartAt s.hart).sig &&& ~~~m }
    (128 ≤ (s.xr rs1).toNat → ∃ t, exec (.lxSwait rd rs1 rs2) s = .next t ∧ Spec.LxFaults s t 0x30) ∧
    ((s.xr rs1).toNat < 128 → hit ≠ 0 → ∃ t, exec (.lxSwait rd rs1 rs2) s = .next t ∧ Spec.LxDone cleared t rd (Spec.word hit.toNat)) ∧
    ((s.xr rs1).toNat < 128 → hit = 0 → (s.hartAt s.hart).swait = none →
      exec (.lxSwait rd rs1 rs2) s = .next (s.modHart s.hart fun h =>
        { h with swait := some ⟨if n = 0 then none else some (s.now + (3 * n + 1) / 2), rd, m⟩ })) ∧
    (∀ w, (s.xr rs1).toNat < 128 → hit = 0 → (s.hartAt s.hart).swait = some w → (∀ u, w.until_ = some u → s.now < u) →
      exec (.lxSwait rd rs1 rs2) s = .next s) ∧
    (∀ w u, (s.xr rs1).toNat < 128 → hit = 0 → (s.hartAt s.hart).swait = some w → w.until_ = some u → u ≤ s.now →
      ∃ t, exec (.lxSwait rd rs1 rs2) s = .next t ∧ Spec.LxDone cleared t rd 0)) ∧
  (∀ (s : State) (h : Nat) (w : SWait) (u : Nat), (s.hartAt h).swait = some w → w.until_ = some u → u ≤ s.now →
    let sig := (s.hartAt h).sig
    ∃ t : State, exec (.lxSwaitTimeout h) s = .next { t with hart := s.hart } ∧
      Spec.LxDone ({ s with hart := h }.modHart h fun x => { x with sig := sig &&& ~~~w.mask }) t w.rd (Spec.word (sig &&& w.mask).toNat))

/-- R347, R352, R355, R356, R366: `lx.disp` starts the first packet of its queue that is taken and not started, and answers a LID that was free, or 0x3FF;
`lx.bind` writes its record into the core's slot table, or removes one, and refuses a quarantined core. Each fault by its code, with no effect. Stated while no scheduler exchanges
its role. What rd holds after `lx.bind` the spec does not say: that it stays is the model's choice, log entry 11. -/
def Obligations.LxDispatchAndBind : Prop :=
  (∀ (s : State) (rd rs1 rs2 : BitVec 5), (∀ p, (s.partAt p).held = false) →
    let a := s.xr rs1
    let q := (s.xr rs2).toNat
    let here := Spec.goodQueue s q ∧ Spec.goodAddr a 64
    let first := fun (p : Pkt) => (s.qAt q).pkts.find? (fun x => !x.started) = some p ∧ p.dw = s.privDws a 8
    let free := ∃ l < 512, (s.lchAt l).st = .free
    (∀ p, here → first p → ptype p.dw = 1 → free →
      ∃ (t u : State) (l : Nat), exec (.lxDisp rd rs1 rs2) s = .next t ∧ l < 512 ∧ (s.lchAt l).st = .free ∧
        s.startTaken q p = some (l, u) ∧ Spec.LxDone u t rd (Spec.word l)) ∧
    (∀ p, here → first p → ptype p.dw = 1 → ¬ free → ∃ t, exec (.lxDisp rd rs1 rs2) s = .next t ∧ Spec.LxFaults s t 0x04) ∧
    (∀ p, here → first p → ptype p.dw ≠ 1 → ∃ t u : State, exec (.lxDisp rd rs1 rs2) s = .next t ∧
      s.startTaken q p = some (0x3FF, u) ∧ Spec.LxDone u t rd 0x3FF) ∧
    (here → (∀ p, ¬ first p) → ∃ t, exec (.lxDisp rd rs1 rs2) s = .next t ∧ Spec.LxFaults s t 0x03) ∧
    (¬ Spec.goodQueue s q → ∃ t, exec (.lxDisp rd rs1 rs2) s = .next t ∧ Spec.LxFaults s t 0x01) ∧
    (Spec.goodQueue s q → ¬ Spec.goodAddr a 64 → ∃ t, exec (.lxDisp rd rs1 rs2) s = .next t ∧ Spec.LxFaults s t 0x02)) ∧
  (∀ (s : State) (rd rs1 rs2 : BitVec 5), (∀ p, (s.partAt p).held = false) →
    let a := s.xr rs1
    let c := (s.xr rs2).toNat % 256
    let ws := s.privDws a 4
    let b := bindOf ws s.wall
    let l := s.lchAt b.lid
    let v := (dw ws 0).getLsbD 0 = true
    let core := c < 144 ∧ s.quarCores.getLsbD c = false ∧ ∃ p, s.partOfCore c = some p ∧ Spec.reaches s p ∧ (v → l.st = .free ∨ p = l.part)
    let ready := l.st ∈ [.ready, .bound, .running] ∧ Spec.reaches s l.part
    let busy := (s.coreAt c).slotBusy b
    let at_ := fun (code : Nat) => ∃ t, exec (.lxBind rd rs1 rs2) s = .next t ∧ Spec.LxFaults s t code
    (Spec.goodAddr a 32 → core → v → ready → busy = false → s.resBusy c b l.panes = false → bindReserved ws = false → s.badBind c l b = false →
      ∃ t : State, exec (.lxBind rd rs1 rs2) s = .next t ∧ Spec.LxDone (s.bind c b) t 0 0 ∧ (t.coreAt c).binds = (s.coreAt c).binds ++ [b]) ∧
    (Spec.goodAddr a 32 → core → ¬ v → bindReserved ws = false → ∃ t : State, exec (.lxBind rd rs1 rs2) s = .next t ∧
      Spec.LxDone (s.unbind c b.slot0) t 0 0 ∧ ∀ x ∈ (t.coreAt c).binds, x.slot0 = b.slot0 → x.started = true) ∧
    (Spec.goodAddr a 32 → core → ¬ v → bindReserved ws = true → at_ 0x14) ∧
    (¬ Spec.goodAddr a 32 → at_ 0x02) ∧
    (Spec.goodAddr a 32 → ¬ core → at_ 0x10) ∧
    (Spec.goodAddr a 32 → core → v → ¬ ready → at_ 0x11) ∧
    (Spec.goodAddr a 32 → core → v → ready → busy = true → at_ 0x12) ∧
    (Spec.goodAddr a 32 → core → v → ready → busy = false → s.resBusy c b l.panes = true → at_ 0x13) ∧
    (Spec.goodAddr a 32 → core → v → ready → busy = false → s.resBusy c b l.panes = false →
      (bindReserved ws = true ∨ s.badBind c l b = true) → at_ 0x14))

namespace Sys2Proof.Spec

/-! Events. -/

/-- Two states differ at most in the group at `c`, `g`. -/
structure OnlyAt (s t : State) (c g : Nat) : Prop where
  device : { t with cores := s.cores } = s
  core : ∀ d, { t.coreAt d with groups := (s.coreAt d).groups } = s.coreAt d
  group : ∀ d h, (d, h) ≠ (c, g) → t.grpAt d h = s.grpAt d h

/-- The group at `c`, `g` may enter lantern mode (R167). -/
def enters (s : State) (c g : Nat) : Prop :=
  let q := s.grpAt c g
  q.live = true ∧ q.lantern = none ∧ q.preempt = none ∧ q.lanT ≠ 0 ∧ q.held = none ∧ q.handler = false ∧
    ((q.lanDue false s.now = true ∧ q.lanStill true = true) ∨ (q.lanDue true s.now = true ∧ q.lanStill false = true))

/-- Every group of a team is ready for a save (R323). -/
def teamReady (s : State) (c slot0 : Nat) : Prop := ∀ j ∈ s.teamSlots c slot0, ∃ p, (s.grpAt c j).preempt = some p ∧ p.ready = true

end Sys2Proof.Spec

/-- What the events of one group's streams do where their conditions hold: a lane block starts (R63, R121), a result returns (R41), a sleep or a
wait for a semaphore ends (R70, R193), a queued store is acknowledged (R181, R184), %trapvec is written (R73), and lantern mode begins, issues,
reaches its limit and ends (R167, R168, R171), the registers of its outstanding results dark in every thread. -/
def Obligations.GroupEventsAct : Prop :=
  ∀ (s : State) (c g : Nat), let q := s.grpAt c g
    (∀ b rest, q.bound = true → q.lrun = false → q.handler = false → q.halted = false → q.lantern = none → q.lq = b :: rest →
      (∃ th < 32, (q.thrAt th).st ≠ .killed) →
      ∃ t, exec (.laneBlockStart c g) s = .next t ∧ Spec.OnlyAt s t c g ∧ (t.grpAt c g).lrun = true ∧ (t.grpAt c g).lq = q.lq ∧
        ∀ th < 32, (t.grpAt c g).thrAt th = if (q.thrAt th).st = .killed then q.thrAt th else ⟨b.entry, [], .running⟩) ∧
    (∀ b rest, q.bound = true → q.lrun = false → q.handler = false → q.halted = false → q.lantern = none → q.lq = b :: rest →
      (∀ th < 32, (q.thrAt th).st = .killed) →
      ∃ t, exec (.laneBlockStart c g) s = .next t ∧ Spec.OnlyAt s t c g ∧ t.grpAt c g = { q with lq := rest }) ∧
    (∀ k o, q.outs[k]? = some o → o.op = none → o.pend = none → (q.lantern = none ∨ o.entry = false) →
      ∃ t, exec (.variableResultReturn c g k) s = .next t ∧ Spec.OnlyAt s t c g ∧ (t.grpAt c g).work = o.ds.foldl RegPlane.putDest q.work ∧
        (t.grpAt c g).outs = q.outs.eraseIdx k ∧ (t.grpAt c g).stage_ = q.stage_ ∧ (t.grpAt c g).pc = q.pc ∧
        (t.grpAt c g).sPark = (if (t.grpAt c g).awaits false then q.sPark else none) ∧
        (t.grpAt c g).lPark = (if (t.grpAt c g).awaits true then q.lPark else none)) ∧
    (∀ k o r, q.outs[k]? = some o → o.op = none → o.pend = some r → q.pend = none → q.lantern = none →
      ∃ t u, exec (.variableResultReturn c g k) s = .next t ∧ Spec.OnlyAt s u c g ∧ (u.grpAt c g).work = o.ds.foldl RegPlane.putDest q.work ∧
        (u.grpAt c g).outs = q.outs.eraseIdx k ∧ t = u.deliver c g { r with resume := q.pc, spc := q.pc }) ∧
    (q.sWait = .sleep → q.sleepTo ≤ s.now →
      ∃ t, exec (.sleepExpiry c g) s = .next t ∧ Spec.OnlyAt s t c g ∧ t.grpAt c g = { q with sWait := .none }) ∧
    (q.sWait = .semwait → ∃ t, exec (.semwaitRecheck c g) s = .next t ∧ Spec.OnlyAt s t c g ∧ t.grpAt c g = { q with sWait := .none }) ∧
    (∀ e es, q.sbuf = e :: es → ∃ t, exec (.homeAcknowledgement c g false) s = .next t ∧ (t.grpAt c g).sbuf = es ∧
      t = ((s.awaitEngine anyItem e.pa e.bytes.length).modGrp c g fun q => { q with sbuf := es }).wrStrong c e.pa e.key e.bytes) ∧
    (∀ e es, q.lsbuf = e :: es → ∃ t, exec (.homeAcknowledgement c g true) s = .next t ∧ (t.grpAt c g).lsbuf = es ∧
      t = ((s.awaitEngine anyItem e.pa e.bytes.length).modGrp c g fun q => { q with lsbuf := es }).wrStrong c e.pa e.key e.bytes) ∧
    (∀ v, q.live = true → v % 4 = 0 → ∃ t, exec (.trapvecWrite c g v) s = .next t ∧ Spec.OnlyAt s t c g ∧
      t.grpAt c g = { q with trapvec := BitVec.ofNat 64 v }) ∧
    (Spec.enters s c g → ∃ t l, exec (.lanternEntry c g) s = .next t ∧ Spec.OnlyAt s t c g ∧ (t.grpAt c g).lantern = some l ∧
      l.phase = .enter ∧ l.until_ = s.now + 16 ∧ l.count = 0 ∧ l.pc = q.pc ∧ l.thr = q.thr ∧ (t.grpAt c g).held = some .lantern ∧
      (t.grpAt c g).stage_ = q.work ∧ (t.grpAt c g).work = q.work ∧ (t.grpAt c g).lan1 = q.lan1 + 1) ∧
    (∀ l, q.lantern = some l → l.phase = .enter → l.until_ ≤ s.now →
      ∃ t m, exec (.lanternCheckpointDone c g) s = .next t ∧ Spec.OnlyAt s t c g ∧ (t.grpAt c g).lantern = some m ∧ m.phase = .run ∧
        (t.grpAt c g).sPark = none ∧ (t.grpAt c g).lPark = none ∧ ∀ o ∈ q.outs, ∀ d ∈ o.ds, ∀ x ∈ d.everywhere, Spec.darkAs (t.grpAt c g) true x) ∧
    (∀ l, q.lantern = some l → l.phase = .run → 2048 ≤ l.count →
      ∃ t, exec (.lanternInstrLimit c g) s = .next t ∧ Spec.OnlyAt s t c g ∧
        t.grpAt c g = { q with lantern := some { l with phase := .leave, until_ := s.now + 16 } }) ∧
    (∀ l, q.lantern = some l → l.phase = .leave → l.until_ ≤ s.now → (∀ o ∈ q.outs, o.entry = true → o.come = true → o.pend = none) →
      ∃ t, exec (.lanternRestoreDone c g) s = .next t ∧ Spec.OnlyAt s t c g ∧ (t.grpAt c g).lantern = none ∧ (t.grpAt c g).held = none ∧
        (t.grpAt c g).pc = l.pc ∧ (t.grpAt c g).thr = l.thr ∧ (t.grpAt c g).lq = l.lq ∧ (t.grpAt c g).lrun = l.lrun ∧
        (t.grpAt c g).outs = (q.outs.filter fun o => o.entry && !o.come).map (fun o => { o with entry := false }) ∧
        (t.grpAt c g).work = (q.outs.filter fun o => o.entry && o.come).foldl (fun p o => o.ds.foldl RegPlane.putDest p) q.stage_)

/-- What the events of planes, ways, homes, traps and pre-emption do where their conditions hold: a home revokes an owner (R180), a change of %wpr
begins and ends (R158 to R160), a cluster's flip is acknowledged and exchanged (R212), a waiting trap enters its handler or halts its group (R314,
R328), a debugger continues (R327), kills, resets and watchdogs end launches (R318 to R320), and teams are asked for, saved and restored (R216,
R321 to R326), the step of an `mma` under way finished first (R274). That a context swap waits for items which name the core's column scratchpad is the
model's choice, log entry 78. -/
def Obligations.TrapAndTeamEventsAct : Prop :=
  (∀ (s : State) (c line : Nat), s.owner line = some c →
    ∃ t, exec (.homeRevoke c line) s = .next t ∧ t.owner line = none ∧ t = { s.cleanOf c line with owners := tdel s.owners line }) ∧
  (∀ (s : State) (c g v : Nat), (s.grpAt c g).live = true → (s.lchAt (s.grpAt c g).lid).rightW = true → s.wprFree c = true → s.wprLine c = [] →
    (s.coreAt c).wpr ≠ min v 8 → ∃ t, exec (.wprWrite c g v) s = .next t ∧ (t.grpAt c g).sWait = .wpr ∧
      (t.coreAt c).wprChg = some ⟨min v 8, s.now + 2048 * (min v 8 - (s.coreAt c).wpr), g⟩) ∧
  (∀ (s : State) (c : Nat) (w : WprChg), (s.coreAt c).wprChg = some w → w.until_ ≤ s.now →
    let lo := 2 ^ 20 * min (s.coreAt c).wpr w.goal
    let hi := 2 ^ 20 * max (s.coreAt c).wpr w.goal
    ((s.coreAt c).wpr < w.goal ∨ s.colItems c lo = false) →
    ∃ t, exec (.wprChangeComplete c) s = .next t ∧ (t.coreAt c).wpr = w.goal ∧ (t.coreAt c).wprChg = none ∧
      ∀ o, lo ≤ o → o < hi → tget 0 (t.coreAt c).a.col o = 0 ∧ tget 0 (t.coreAt c).b.col o = 0 ∧
        ∀ b, (t.coreAt c).bad (.col b) o = false ∧ (t.coreAt c).eccBad (.col b) o = false) ∧
  (∀ (s : State) (cl c i g : Nat) (f : PFlip), (s.clAt cl).flipBy = some (i, g) → (s.grpAt i g).pflip = some f → f.dom = .clus → f.free = false →
    (c / 6 = cl → c % 6 ∉ (s.clAt cl).acks → s.flipReady i g f (coreInsts.map fun x => (c, x)) = true →
      ∃ t, exec (.clusterFlipAck cl c) s = .next t ∧ (t.clAt cl).acks = (s.clAt cl).acks ++ [c % 6] ∧ t.cores = s.cores) ∧
    (∀ is, is = s.insts i g .clus [] → (s.clAt cl).acks.length = 6 → (s.grpAt i g).live = true → s.flipReady i g f is = true →
      (f.lazy = true ∨ s.stagedBad is = none) → is.Nodup → s.stepped i g false = false → ∃ t, exec (.clusterFlipExchange cl) s = .next t ∧ (t.clAt cl).flipBy = none ∧ (t.clAt cl).acks = [] ∧
        (t.grpAt i g).pflip = none ∧ ∀ e ∈ is, Spec.selOf (t.coreAt e.1) e.2 = !Spec.selOf (s.coreAt e.1) e.2)) ∧
  (∀ (s : State) (c g : Nat) (r : TrapRec), (s.grpAt c g).bound = true → (s.grpAt c g).pend = some r →
    (Spec.Handles s c g r → ∃ t, exec (.trapEntry c g) s = .next t ∧ Spec.Entered s t c g r) ∧
    (r.cause ∈ [.step, .watch] → r.swap = false → r.silent = false → (s.grpAt c g).handler = false → s.canEnter c g = true →
      ∃ t u : State, exec (.debugHalt c g) s = .next t ∧ u = (s.modGrp c g fun q => { q with pend := none }).doEnter c g r true ∧
        t = u.haltNote c g r.faddr ∧ (u.grpAt c g).halted = true ∧ (u.grpAt c g).handler = true) ∧
    (r.swap = true → (∀ j ∈ s.teamSlots c (s.grpAt c g).slot0, (s.grpAt c j).lantern = none) → s.canSave c (s.grpAt c g).slot0 true = true →
      s.outBad (s.capture c (s.grpAt c g).slot0 true none none) = false → s.engNow c (s.grpAt c g).slot0 = true →
      ((s.coreAt c).stepOpen (s.grpAt c g).slot0 = false → ∃ t, exec (.pageFaultSwap c g) s = .next t ∧
        t = (s.saveTeam c (s.grpAt c g).slot0 true (some r.faddr.toNat)).event (s.lchAt (s.grpAt c g).lid).part 1 r.faddr (s.grpAt c g).lid) ∧
      ((s.coreAt c).stepOpen (s.grpAt c g).slot0 = true →
        exec (.pageFaultSwap c g) s = .next (s.modCore c fun k => k.stopAfter (s.grpAt c g).slot0)))) ∧
  (∀ (s : State) (p : Nat), ∃ t, exec (.dbgContinue p) s = .next t ∧ (t.partAt p).dbgHlt = false ∧ t = s.continue_ p) ∧
  (∀ (s : State) (lid : Nat), ∃ t, exec (.supervisorKill lid) s = .next t ∧ t = s.endLaunch lid (Ending.plain 1 0 0x23)) ∧
  (∀ (s : State) (p lid : Nat) (l : Launch), s.launches = [(lid, l)] → l.part = p →
    ∃ t, exec (.partitionReset p) s = .next t ∧ t = s.endLaunch lid (Ending.plain 1 0 0x23)) ∧
  (∀ (s : State) (lid f : Nat), (s.lchAt lid).st = .running → (s.lchAt lid).first = some f →
    let n := (s.partAt (s.lchAt lid).part).wdog.toNat
    n ≠ 0 → f + 1000 * n ≤ s.wall → ∃ t, exec (.watchdogExpiry lid) s = .next t ∧ t = s.endLaunch lid (Ending.plain 1 0 0x24)) ∧
  (∀ (s : State) (c g : Nat), (s.grpAt c g).bound = true → ∃ t, exec (.preemptionRequest c g) s = .next t ∧
    ∀ j ∈ s.teamSlots c (s.grpAt c g).slot0, (s.grpAt c j).preempt = none →
      (t.grpAt c j).preempt = some ⟨s.now, (s.grpAt c j).parked && !(s.grpAt c j).handler, none⟩) ∧
  (∀ (s : State) (c g : Nat) (p : Preempt), (s.grpAt c g).preempt = some p → p.ready = false → p.since + 65536 ≤ s.now →
    ∃ t, exec (.preemptDeadline c g) s = .next t ∧ Spec.OnlyAt s t c g ∧ (t.grpAt c g).preempt = some { p with ready := true }) ∧
  (∀ (s : State) (c g : Nat), (s.grpAt c g).bound = true → Spec.teamReady s c (s.grpAt c g).slot0 → s.canSave c (s.grpAt c g).slot0 false = true →
    s.outBad (s.capture c (s.grpAt c g).slot0 false none none) = false → s.engNow c (s.grpAt c g).slot0 = true →
    ((s.coreAt c).stepOpen (s.grpAt c g).slot0 = false → ∃ t, exec (.teamSave c g) s = .next t ∧ t = s.saveTeam c (s.grpAt c g).slot0 false none) ∧
    ((s.coreAt c).stepOpen (s.grpAt c g).slot0 = true → exec (.teamSave c g) s = .next (s.modCore c fun k => k.stopAfter (s.grpAt c g).slot0))) ∧
  (∀ (s : State) (c g : Nat) (v : Saved), s.saved.find? (fun x => x.core == c && x.slot0 == g && x.ctx.isNone) = some v →
    (v.page = none ∨ v.answer ≠ none) → s.roomFor v = true → (∀ i ∈ v.insts, s.saveHold c i.2 = true) → s.itemsOn v.insts = [] → (∀ i ∈ v.insts, s.inBad [v] i = false) →
    ∃ t, exec (.teamRestore c g) s = .next t ∧ t = ((s.swapPlanes v.insts).place_ v).answered v) ∧
  (∀ (s : State) (c image : Nat), c < 144 → (s.coreAt c).wprChg = none → (s.coreAt c).bound = [] → s.saved = [] →
    let is := coreInsts.map fun i => (c, i)
    (∀ i ∈ coreInsts, s.saveHold c i = true) → s.itemsOn is = [] → s.allItems.any (s.itemCol c) = false → (∀ i ∈ is, s.inBad [] i = false) →
    ∃ t, exec (.contextSwap c image) s = .next t ∧ t = s.swapPlanes is)

/-- What the events of transfer items, of the matrix queue and engine, and of the dimmer do where their conditions hold: R218, R219, R222, R226,
R232, R233, R235 for items; R262, R266, R268 to R271 for queued instructions and the mma, R274 for one whose team is being saved; R250, R254 for an attempt; R276,
R277, R279 for the dimmer, which grants the lowest core that has asked by the tick. What falls on an engine happens in the order of its times: each of its events waits until what falls earlier has happened. The model's choices among
these: an mma that failed retires without R266's 8 cycles, log entry 31; what an item that ends early leaves poisoned, log entry 24; what an item records that
delivers into part of a bad granule, log entry 73. -/
def Obligations.ItemAndEngineEventsAct : Prop :=
  (∀ (s : State) (c : Nat) (i : Item), (s.coreAt c).items.find? (fun i => !i.run) = some i → ((s.coreAt c).items.filter fun i => i.run).length < 4 →
    ∃ t, exec (.itemDispatch c) s = .next t ∧
      (t.coreAt c).items = (s.coreAt c).items.map fun j => if j.id = i.id then { j with run := true } else j) ∧
  (∀ (s : State) (c k : Nat) (i : Item), s.item c k = some i → i.run = true → i.cancel = none → i.fail = none → i.got = false →
    (s.itemLate i = true → ∃ t done, exec (.itemRetire c k) s = .next t ∧ t = s.endItem c i done 5) ∧
    (s.itemLate i = false → i.badDesc = true → ∃ t, exec (.itemRetire c k) s = .next t ∧ t = s.itemFail c i ⟨.xfer, 1, 0⟩) ∧
    (s.itemLate i = false → i.badDesc = false →
      (∀ keep, i.walked = some (none, keep) → ∃ t, exec (.itemRetire c k) s = .next t ∧ t = (s.markDst c i keep false).retireItem c i none ∧
        ∀ j ∈ (t.coreAt c).items, j.id ≠ i.id) ∧
      (∀ f keep, i.walked = some (some f, keep) → ∃ t, exec (.itemRetire c k) s = .next t ∧ t = s.retireItem c i (some f)) ∧
      (∀ u v b w, i.walked = none → i.isColl = false → s.blocked c i = false → s.itemChk c i = .ok u v → v.srcChk c i = .ok b w →
        (∀ rows x, i.dig = false → w.itemWalk c i false = .ok rows x → (∀ r ∈ rows.flatten, r.2 = none) →
          ∃ t, exec (.itemRetire c k) s = .next t ∧ t = (x.spoil c i (w.partBad c i)).retireItem c i (w.partFail c i) ∧
            ∀ j ∈ (t.coreAt c).items, j.id ≠ i.id) ∧
        (∀ dg y rows x, i.dig = true → w.digestAt c i = .ok dg y → y.itemWalk c i true = .ok rows x → (∀ r ∈ rows.flatten, r.2 = none) →
          let same := sha3 (rows.flatten.map (·.1)) = dg.map (·.1)
          ∃ t, exec (.itemRetire c k) s = .next t ∧ ∀ f, f = (if same then none else some (Fail.mk .xfer 4 i.d1)) →
            t = (x.spoil c i (y.partBad c i)).modItem c i.id fun j => { j with walked := some ((y.partFail c i).or f, y.partBad c i) })))) ∧
  (∀ (s : State) (c k done : Nat) (i : Item), s.item c k = some i → i.got = false →
    (i.tmo ≠ 0 → i.cancel = none → i.fail = none → i.since + 1000 * 2 ^ i.tmo ≤ s.wall →
      ∃ t, exec (.itemTimeout c k done) s = .next t ∧ t = s.endItem c i (done.testBit ·) 5) ∧
    (∀ at_ det, i.cancel = some (at_, det) → at_ ≤ s.now → ∃ t, exec (.cancelRetire c k done) s = .next t ∧ t = s.endItem c i (done.testBit ·) det) ∧
    (i.isColl = true → i.badDesc = false → i.cancel = none → i.fail = some ⟨.xfer, 6, i.d1⟩ → ∃ t, exec (.collectivePeerFail c k done) s = .next t ∧
      t = s.endItem c i (done.testBit ·) 6)) ∧
  (∀ (s : State) (c x : Nat) (m : MItem), (s.coreAt c).nextOp_ = some (m, x) → x ≤ s.now → (s.coreAt c).upTo x = true →
    (m.op ≠ .mglow → ∃ t, exec (.matrixQueueExecute c) s = .next t ∧ t = s.tileDone c m x ∧ (∀ y ∈ (t.coreAt c).mq, y.id ≠ m.id) ∧
      (m.op = .mzero → ∀ i < 32, ∀ j < 32, (t.coreAt c).el m.tile i j = 0)) ∧
    (m.op = .mglow → ∃ t, exec (.matrixQueueExecute c) s = .next t ∧
      t = (((s.passMq c m x).mLeave c m none false x).glow c m.steps x).statDue c)) ∧
  (∀ (s : State) (c : Nat) (m : MItem), (s.coreAt c).nextMove = some m → (s.coreAt c).upTo s.now = true →
    (∀ p, (s.coreAt c).nextOp_ = some p → s.now < p.2) → ∃ t, exec (.matrixQueueExecute c) s = .next t ∧
      (t.coreAt c).mq = (s.coreAt c).mq.map fun x => if x.id = m.id then { x with run := true } else x) ∧
  (∀ (s : State) (c due : Nat) (m : MItem), (s.coreAt c).nextMma = some m → (s.coreAt c).reachAt = some due → let e := (s.coreAt c).eng
    let x := max due e.t
    x ≤ s.now → (s.coreAt c).upTo x = true →
    ∃ t r, exec (.mmaReachEngine c) s = .next t ∧ (t.coreAt c).eng.run = some r ∧ r.id = m.id ∧ r.step = m.resume ∧ (t.coreAt c).mq = (s.coreAt c).mq ∧
      (e.pos = none → (t.coreAt c).eng.req = some x) ∧
      (e.pos ≠ none → (t.coreAt c).eng.pos = e.pos ∧ (t.coreAt c).eng.down = false ∧ (t.coreAt c).eng.holdTo = none)) ∧
  (∀ (s : State) (c f : Nat) (r : Run) (m : MItem), let e := (s.coreAt c).eng
    e.run = some r → (s.coreAt c).mItem r.id = some m → r.fetchEnd = some f → f ≤ s.now → (s.coreAt c).upTo f = true →
    (∀ b, (s.coreAt c).endAt = some b → f < b) → (∀ l ∈ s.stepLocs c m r.fetched, s.spadMoves l = false) →
    (∀ o boff n, s.fetchStep c m r.fetched r.boff = .ok (o, boff, n) →
      ∃ t q, exec (.mmaStepFetchDone c) s = .next t ∧ (t.coreAt c).eng.run = some q ∧ q.fetched = r.fetched + 1 ∧ q.ops = r.ops ++ [o] ∧
        q.boff = boff) ∧
    (∀ fl, s.fetchStep c m r.fetched r.boff = .error fl →
      ∃ t, exec (.mmaStepFetchDone c) s = .next t ∧
        t = (((s.stepLocs c m r.fetched).foldl State.touchSpad s).modCore c fun k => k.settle f).mmaEnd c m.id f (some fl))) ∧
  (∀ (s : State) (c b : Nat) (r : Run) (m : MItem), let e := (s.coreAt c).eng
    e.run = some r → (s.coreAt c).mItem r.id = some m → (s.coreAt c).endAt = some b → b ≤ s.now → (s.coreAt c).upTo b = true →
    let o := (r.ops.head?).getD ⟨[], [], [], [], 0⟩
    let a := attempt m.desc (if m.taint then o.free s else o) m.mask r.rung
    let u := s.modCore c fun k => k.settle b
    (overBudget m.desc a.ev = true → r.rung < maxrOf m.desc → ∃ t q, exec (.mmaAttemptEnd c) s = .next t ∧ (t.coreAt c).eng.run = some q ∧
      q.rung = r.rung + 1 ∧ q.step = r.step ∧ (∀ i j, (t.coreAt c).el m.tile i j = (s.coreAt c).el m.tile i j)) ∧
    (¬ (overBudget m.desc a.ev = true ∧ r.rung < maxrOf m.desc) →
      let v := u.modCore c fun k => k.commit m r.rung a (overBudget m.desc a.ev)
      (m.steps ≤ r.step + 1 → ∃ t, exec (.mmaAttemptEnd c) s = .next t ∧ t = v.mmaEnd c m.id b none) ∧
      (r.step + 1 < m.steps → (s.coreAt c).stopping m = true → ∃ t, exec (.mmaAttemptEnd c) s = .next t ∧
        t = v.interrupt c m.id { r with step := r.step + 1, ops := r.ops.tail } b) ∧
      (r.step + 1 < m.steps → (s.coreAt c).stopping m = false → ∃ t q, exec (.mmaAttemptEnd c) s = .next t ∧ (t.coreAt c).eng.run = some q ∧ q.step = r.step + 1 ∧
        q.ops = r.ops.tail ∧ ∀ i j, (t.coreAt c).el m.tile i j = (v.coreAt c).el m.tile i j))) ∧
  (∀ (s : State) (c k x : Nat) (m : MItem), (s.coreAt c).mItem k = some m →
    let y := if m.fail = none then x + 7 else x
    (m.op = .mma → m.doneAt = some x → y ≤ s.now → (s.coreAt c).upTo y = true → ∃ t, exec (.mmaRetire c k) s = .next t ∧
      t = s.mLeave c m m.fail true y ∧ ∀ z ∈ (t.coreAt c).mq, z.id ≠ k) ∧
    (∀ u, m.run = true → s.mvBlocked c m = false → s.mvMoves c m = false → (s.coreAt c).upTo s.now = true →
      s.mvRows c m (bitsOf 32 m.mask.toNat) = .ok u → ∃ t, exec (.tileMoveDone c k) s = .next t ∧ t = u.mvEnd c m none)) ∧
  (∀ (s : State) (die x : Nat), let es := (dieCores die).filter fun c => (s.coreAt c).eng.active
    (∃ c ∈ es, (s.coreAt c).eng.tick = x) → (∀ c ∈ es, x ≤ (s.coreAt c).eng.tick) → x ≤ s.now →
    (∀ c ∈ dieCores die, (s.coreAt c).tickReady x = true) → ∃ t, exec (.dimmerTick die) s = .next t ∧
      (∀ c ∈ es, (s.coreAt c).eng.tick = x → (t.coreAt c).eng.tick = x + 4) ∧
      (∀ c ∈ es, (s.coreAt c).eng.tick = x → (s.coreAt c).eng.run ≠ none → (s.coreAt c).eng.pos = none → (∃ q ≤ x, (s.coreAt c).eng.req = some q) →
        (∀ d ∈ es, d < c → ∀ q, (s.coreAt d).eng.req = some q → x < q) → (t.coreAt c).eng.pos = some 0 ∧ (t.coreAt c).eng.req = none) ∧
      ∀ c, c ∉ dieCores die → t.coreAt c = s.coreAt c) ∧
  (∀ (s : State) (c h : Nat), (s.coreAt c).eng.holdTo = some h → h ≤ s.now → h ≤ (s.coreAt c).eng.tick →
    ∃ t, exec (.glowHoldExpiry c) s = .next t ∧ (t.coreAt c).eng = { (s.coreAt c).eng with holdTo := none, down := true } ∧
      ∀ d, d ≠ c → t.coreAt d = s.coreAt d) ∧
  (∀ (s : State) (die v : Nat), let w := BitVec.ofNat 64 v
    (bits w 60 4 = 15 → (∀ i < 15, bits w (4 * i) 4 ≤ bits w (4 * i + 4) 4) → ∃ t, exec (.dimRampWrite die v) s = .next t ∧ t.rampOf die = w) ∧
    (¬ (bits w 60 4 = 15 ∧ ∀ i < 15, bits w (4 * i) 4 ≤ bits w (4 * i + 4) 4) → exec (.dimRampWrite die v) s = .next s))

/-- What the events of queues, launches and transactions do where their conditions hold: packets start and complete (R345 to R347, R350, R359),
slots are tried again (R346), doorbells and contexts are written (R343, R344, R349), and launches are resolved (R289), released (R353, R357),
committed (R292, R294), merged, freed (R295) and given quota (R298); one that is halted is neither released nor given quota (R318). The model's choices among these: a doorbell of a queue that has faulted already is not
reported again, clearing N gives STATE 0, and the sizes that a LINK packet takes are 6 to 16, log entry 38; a launch is RUNNING from its first unit's release,
log entry 39; which queues the physical function's BAR reaches, log entry 71. -/
def Obligations.QueueAndLaunchEventsAct : Prop :=
  (∀ (s u : State) (q ty : Nat) (p : Pkt), (∀ p, (s.partAt p).held = false) →
    (u = if (s.qAt q).waiting.isSome then s else (s.fetch q fun ws => ptype ws == ty && !frontPkt ws (s.qAt q).priv).s) →
    (u.qAt q).waiting = some p → ptype p.dw = ty →
    (ty = 1 → (∃ l < 512, (u.lchAt l).st = .free) → ∃ t l, exec (.launchPacket q) s = .next t ∧ u.startTaken q p = some (l, t)) ∧
    (ty = 2 → ∃ t, exec (.graphPacket q) s = .next t ∧ t = (u.startGraph q p ((u.qAt q).issuer p.n)).runAll q) ∧
    (ty = 6 → ∃ t, exec (.resumePacket q) s = .next t ∧ t = u.startResume q p)) ∧
  (∀ (s : State) (q : Nat) (ws : List Word), (s.qAt q).en = true → (s.qAt q).evq = false → (s.qAt q).torn = 0 → (s.qAt q).holds = false → s.peek q = some ws →
    (s.qAt q).startable ws = true →
    ∀ i ty, (i, ty) ∈ [(Instr.signalPacket q, 3), (.nopPacket q, 4), (.linkPacket q, 5)] → ptype ws = ty →
      ∃ t, exec i s = .next t ∧ (∃ p ∈ (t.qAt q).pkts, p.n = (s.qAt q).taken ∧ p.dw = ws) ∧
        (¬ (ty = 5 ∧ pktOk ws (s.qAt q).priv = true) → (t.qAt q).rd = (s.qAt q).rd + 1) ∧
        (ty = 5 → pktOk ws (s.qAt q).priv = true → (t.qAt q).rd = 0 ∧ (t.qAt q).pass = 1 ∧
          (t.qAt q).base = BitVec.ofNat 52 ((dw ws 2).toNat / 4096) ∧ (t.qAt q).log2n = (dw ws 3).toNat) ∧
        ((∀ p ∈ (s.qAt q).pkts, p.started = true) → ∃ p ∈ (t.qAt q).pkts, p.n = (s.qAt q).taken ∧ p.done = true)) ∧
  (∀ (s u : State) (q r : Nat) (bs : List Byte), let x := s.qAt q
    x.state = 1 → x.en = true → x.evq = false → x.retry = some r → r ≤ s.now → x.wr ≠ x.rd → s.feRead x.part (x.slotAt x.rd.toNat) 64 = .ok (bs, u) → (lget 0 bs 60).toNat = x.pass →
    BitVec.ofNat 32 (leNat ((bs.drop 56).take 4)) ≠ pktCrc bs x.pass →
    (x.torn + 1 ≠ 3 → ∃ t, exec (.packetFetchRetry q) s = .next t ∧ t = u.modQ q fun y => { y with torn := y.torn + 1, retry := some (u.now + 2250) }) ∧
    (x.torn + 1 = 3 → ∃ t, exec (.packetFetchRetry q) s = .next t ∧ t = (u.modQ q fun y => { y with torn := 3, retry := none }).queueFault q)) ∧
  (∀ (s : State) (fn q n : Nat), let x := s.qAt q
    let w := BitVec.ofNat 32 n
    let u := (s.modQ q fun x => { x with wr := w }).signal (x.part + 1) 0
    let over_ := x.dev = true ∨ 2 ^ x.log2n < (w - x.rd).toNat
    (q < 1024 → s.barMine fn q = false → exec (.doorbellWrite (1024 * fn + q) n) s = .next s) ∧
    (s.barMine fn q = true → x.evq = false → ¬ over_ → ¬ (x.torn = 0 ∧ x.retry ≠ none) → ∃ t, exec (.doorbellWrite (1024 * fn + q) n) s = .next t ∧ t = u ∧
      (t.qAt q).wr = w ∧ (t.hartAt (x.part + 1)).sig.getLsbD 0 = true) ∧
    (s.barMine fn q = true → x.evq = false → ¬ over_ → x.torn = 0 → x.retry ≠ none → ∃ t, exec (.doorbellWrite (1024 * fn + q) n) s = .next t ∧ t = u.refetch q) ∧
    (s.barMine fn q = true → x.evq = false → over_ → ∃ t, exec (.doorbellWrite (1024 * fn + q) n) s = .next t ∧
      t = if x.state = 2 then u else u.queueFault q) ∧
    (s.barMine fn q = true → x.evq = true → ∃ t, exec (.doorbellWrite (1024 * fn + q) n) s = .next t ∧ t = s.rdWrite q w)) ∧
  (∀ (s : State) (q n : Nat), let x := s.qAt q
    let w := BitVec.ofNat 32 n
    (q < 1024 → x.evq = true → (w - x.rd).toNat ≤ (x.wr - x.rd).toNat → ∃ t, exec (.eventQueueRdWrite q n) s = .next t ∧
      (t.qAt q).rd = w ∧ t = (s.modQ q fun x => x.advance w).flush x.part)) ∧
  (∀ (s : State) (q d0 d1 : Nat), q < 1024 → let w := BitVec.ofNat 64 d1
    ∃ t, exec (.queueEnable q d0 d1) s = .next t ∧ (t.qAt q).en = w.getLsbD 8 ∧ (t.qAt q).base = BitVec.ofNat 52 (d0 / 4096) ∧
      (t.qAt q).part = bits w 5 3 ∧
      (w.getLsbD 8 = true → (t.qAt q).rd = 0 ∧ (t.qAt q).cdone = 0 ∧ (6 ≤ bits w 0 5 → bits w 0 5 ≤ 16 → (t.qAt q).state = 1)) ∧
      (w.getLsbD 8 = false → (t.qAt q).state = 0)) ∧
  (∀ (s : State) (q n : Nat) (clearL : Bool), q < 1024 → let x := s.qAt q
    let nx := BitVec.ofNat 52 (n % 2 ^ 64 / 4096)
    (x.link = false → ∃ t, exec (.queueNextWrite q n clearL) s = .next t ∧ (t.qAt q).next = nx ∧ (t.qAt q).nlog2n = n % 32) ∧
    (x.link = true → nx ≠ 0 → 6 ≤ n % 32 → n % 32 ≤ 16 → x.wseg = none →
      ∃ t, exec (.queueNextWrite q n clearL) s = .next t ∧ t = s.linkIn q nx (n % 32)) ∧
    (x.link = true → nx = 0 → clearL = true → ∃ t, exec (.queueNextWrite q n clearL) s = .next t ∧ (t.qAt q).link = false ∧
      (t.qAt q).linkWait = true)) ∧
  (∀ (s : State) (lid : Nat), (s.lchAt lid).st = .resolving → ∃ t, exec (.boundFieldResolve lid) s = .next t ∧ t = (s.resolve lid 8).reap 512) ∧
  (∀ (s : State) (lid unit : Nat), let l := s.lchAt lid
    l.st ∈ [.ready, .bound, .running] → l.frozen = false → s.unitFull lid unit = true → l.nbf ≤ s.wall → (s.partAt l.part).held = false →
      (∀ r ∈ s.unitBinds lid unit, (s.coreAt r.1).bound = [] → (s.coreAt r.1).wprChg = none) →
      ∃ t, exec (.launchUnitRelease lid unit) s = .next t ∧ (t.lchAt lid).st = .running ∧
      (t.lchAt lid).released = l.released ++ (if l.cores then List.range l.ncoh else [unit]) ∧
      ∀ c b, s.unitBinds lid unit = [(c, b)] → ∀ j < b.ngrp, t.grpAt c (b.slot0 + j) = (s.grpAt c (b.slot0 + j)).bindTo l c b j) ∧
  (∀ (s : State) (lid : Nat), let l := s.lchAt lid
    l.st ≠ .ended → l.complete = true → l.direct = false → s.commitTurn l = true → ∃ t, exec (.launchCommit lid) s = .next t ∧
      t = (((((((s.newCode lid).revokeAll ((s.verAt l.part l.ver).lines.map (·.1))).modVer l.part l.ver fun v => { v with st := .committed }).doGsigs lid).endWith lid (Ending.plain 0 0 0)).drainKids lid 4096).reap 512)) ∧
  (∀ (s : State) (p tag line : Nat), tag < 256 → let v := s.verAt p tag
    (v.st = .committed → (∃ x, (line, x) ∈ v.lines) → ∃ t, exec (.shadowMerge (256 * p + tag) line) s = .next t ∧
      t = ((s.touchLine line).mergeLine line).freeVer p tag) ∧
    (v.st = .aborted → ∃ t, exec (.shadowFree (256 * p + tag) line) s = .next t ∧
      (tdel v.lines line = [] → t.verAt p tag = Version.reset ∧ (t.partAt p).poolUsed = (s.partAt p).poolUsed - v.units) ∧
      (tdel v.lines line ≠ [] → t.verAt p tag = { v with lines := tdel v.lines line }))) ∧
  (∀ (s : State) (lid : Nat), let l := s.lchAt lid
    l.quotaWait = true → l.frozen = false → l.direct = false → l.st ∉ [.ended, .free] →
    ((s.partAt l.part).poolUsed < (s.partAt l.part).poolUnits → ∃ t, exec (.quotaGrant lid) s = .next t ∧
      t.lchAt lid = { l with quotaWait := false } ∧ (t.verAt l.part l.ver).units = (s.verAt l.part l.ver).units + 1 ∧
      (t.partAt l.part).poolUsed = (s.partAt l.part).poolUsed + 1) ∧
    ((s.partAt l.part).poolUnits ≤ (s.partAt l.part).poolUsed → ∃ t, exec (.quotaGrant lid) s = .next t ∧
      t = s.endLaunch lid (Ending.plain 1 0x0D 0x21))) ∧
  (∀ (s : State) (lid unit : Nat), (s.lchAt lid).frozen = true → exec (.launchUnitRelease lid unit) s = .next s ∧ exec (.quotaGrant lid) s = .next s)

/-- What the events of partitions, keys, the snuffer, buses, patrols, power, links, firmware, resets and the Lamplighter cores' accesses do where
their conditions hold: R362 and R365 to R369; R331, R332, R372, R379 for writes; R371 to R376; R380, R381; R379, R229; R26, R355, R377, R378; R18,
R370, R385; R341, R342; R209. The model's choices among these: that PART_MAP is written here by partition 0, and what another partition's key load may read,
log entry 75; a failed lane with a spare left is spared, and how many errors are corrected, log entry 44; a warm reset keeps FAIL, log entry 46; the floors of
the input level and of the ceiling, and what the 60 A limit does, log entry 49; DOWNS counts a full loss alone, log entry 50; a fence has no effect, log entry
52; whose key-encryption key unwraps, that one role is exchanged an event, the extra snuffer event, and that an image is the genuine one of its version or
another, log entry 54; unlisted memory reads 0 after a cold reset, log entry 3. -/
def Obligations.SystemEventsAct : Prop :=
  (∀ (s : State) (hi : Bool) (v : Nat), let new := mapPut s.partMap hi (BitVec.ofNat 64 v)
    ((∀ k ∈ mapSpan hi, s.mapBad new k = false) → (∀ k ∈ mapSpan hi, joins s.partMap new k = true → (s.clAt k).wiping = false) →
      ∃ t, exec (.partMapWrite hi v) s = .next t ∧ t.partMap = new ∧ t.mapCopy = new ∧
        (∀ k ∈ mapSpan hi, leaves s.partMap new k = true → (t.clAt k).wiping = true) ∧
        (∀ k ∈ mapSpan hi, joins s.partMap new k = true → (t.clAt k).training = true)) ∧
    ((∃ k ∈ mapSpan hi, s.mapBad new k = true) → exec (.partMapWrite hi v) s = .next s)) ∧
  (∀ (s : State) (cl : Nat), cl < 24 → (s.clAt cl).wiping = true → ∃ t, exec (.clusterWipeDone cl) s = .next t ∧ (t.clAt cl).wiping = false ∧
    (t.clAt cl).tlb = [] ∧ ∀ c, 6 * cl ≤ c → c < 6 * cl + 6 → (t.coreAt c).a = CorePlane.reset ∧ (t.coreAt c).b = CorePlane.reset ∧
      (t.coreAt c).wpr = 0 ∧ (t.coreAt c).tlb = [] ∧ ∀ a, c * 2 ^ 40 ≤ a → a < c * 2 ^ 40 + 2 ^ 31 → s.inQuarMap a = false → memByte t.mem a = 0) ∧
  (∀ (s : State) (cl : Nat), (s.clAt cl).training = true → (s.clAt cl).wiping = false → ∃ t, exec (.clusterPowerUpDone cl) s = .next t ∧
    t.clAt cl = { s.clAt cl with training := false, powered := true }) ∧
  (∀ (s : State) (p n blob : Nat), let k := n % 64
    let sel := { s with keySel := k, keyBlob := blob % 2 ^ 42 }
    (∃ t, exec (.keySlotSelect n blob) s = .next t ∧ t = sel) ∧
    let mine := p = superPart ∨ s.frameIn p (64 * (blob % 2 ^ 42) / 65536) = true ∧ s.frameIn p ((64 * (blob % 2 ^ 42) + 71) / 65536) = true
    (∀ bs u, (s.keyAt k).valid = false → (s.keyAt k).quar = false → mine → sel.physRead (64 * (blob % 2 ^ 42)) 72 = some (bs, u) →
      ∃ t, exec (.keySlotLoad p n blob) s = .next t ∧
        t.keyAt k = ((keyUnwrap (Config.kek p) bs).map fun key => ⟨true, false, false, key⟩).getD { s.keyAt k with err := true }) ∧
    ((s.keyAt k).valid = true ∨ (s.keyAt k).quar = true ∨ ¬ mine → ∃ t, exec (.keySlotLoad p n blob) s = .next t ∧
      t.keyAt k = { s.keyAt k with err := true }) ∧
    (∃ t, exec (.keySlotZero n) s = .next t ∧ (t.keyAt k).valid = false ∧ (t.keyAt k).quar = true ∧ (t.keyAt k).key = [])) ∧
  (∀ (s : State) (p : Nat) (j : Snuf), (s.partAt p).snuf = some j →
    (∀ c cs, j.coresLeft = c :: cs → s.snufFailed j = false → ∃ t, exec (.snufferCoreWipeDone p) s = .next t ∧
      (t.partAt p).snufCores = (s.partAt p).snufCores + 1 ∧ (t.coreAt c).a = CorePlane.reset ∧ (t.coreAt c).b = CorePlane.reset ∧
      (t.partAt p).snuf = some { j with coresLeft := cs } ∧
      (cs = [] → j.framesLeft = [] → (t.partAt p).snufState = 2)) ∧
    (∀ f fs, j.coresLeft = [] → j.framesLeft = f :: fs → s.snufFailed j = false → ∃ t, exec (.snufferFrameDone p) s = .next t ∧
      (t.partAt p).snufFrames = (s.partAt p).snufFrames + 1 ∧ (∀ a ∈ frameStor f, ∀ i < 512, s.inQuarMap (a + i) = false → memByte t.mem (a + i) = 0) ∧
      (fs = [] → (t.partAt p).snufState = 2 ∧ ∀ k, j.slot = some k → (t.keyAt k).valid = false ∧ (t.keyAt k).quar = false)) ∧
    (j.coresLeft = [] → j.framesLeft = [] → (s.partAt p).snufState = 2 → ∃ t, exec (.snufferFrameDone p) s = .next t ∧ (t.partAt p).snuf = none ∧
      t.grpAt j.core j.gslot = (s.modOwner j.core j.gslot j.lid j.cohort fun g => g.xRetire j.wick j.seq none).grpAt j.core j.gslot)) ∧
  (∀ (s : State) (c g num v : Nat), s.superAt c g = true →
    (∃ t, exec (.vbusStatWrite c g v) s = .next t ∧ (t.grpAt c g).vbusSel = v % 2 ^ 64 % 256) ∧
    (∃ t, exec (.sysregWrite c g num v) s = .next t ∧ t = s.plainWrite (s.lchAt (s.grpAt c g).lid).part num (BitVec.ofNat 64 v)) ∧
    (∃ t, exec (.sysregWrite c g 8 v) s = .next t ∧ (t.partAt (s.lchAt (s.grpAt c g).lid).part).wdog = BitVec.ofNat 32 v)) ∧
  (∀ (s : State) (v : Nat), v % 65536 ≠ 0xFFFF → ∃ t, exec (.brusNodeWrite v) s = .next t ∧ t = { s with brusNode := BitVec.ofNat 16 v }) ∧
  (∀ (s : State) (c bus lane : Nat), c < 144 → bus < 2 → let v := (s.coreAt c).vbus
    (lane < busLanes bus → (bus, lane) ∉ v.spared →
      (v.spares bus < 2 → ∃ t, exec (.vbusLaneFailure c bus lane) s = .next t ∧ (t.coreAt c).vbus = v.spare bus lane) ∧
      (2 ≤ v.spares bus → ∃ t, exec (.vbusLaneFailure c bus lane) s = .next t ∧ (t.coreAt c).vbus.fail = true)) ∧
    (∃ t, exec (.driftRetrain c bus) s = .next t ∧ (t.coreAt c).vbus.retrain = min 0xFFFF (v.retrain + 1))) ∧
  (∀ (s : State) (line corr bad c o : Nat), locOf (128 * line) = some (.col c o) → let n := (c * 2 ^ 40 + o) / 128
    ∃ t, exec (.dramPatrol line corr bad) s = .next t ∧ (t.coreAt c).vbus.corr = min 0xFFFF ((s.coreAt c).vbus.corr + corr) ∧
      ∀ i < 4, tget false t.eccu (4 * n + i) = false ∧ (bad.testBit i = true → tget false t.poison (4 * n + i) = true)) ∧
  (∀ (s : State) (c store granule corr : Nat) (b : Bool) (st : Store) (limit : Nat), c < 144 →
    (store, st, limit) ∈ [(1, Store.acc b, 0x80000), (2, .pad b, 0x80000), (3, .wbuf b, 0x100000), (4, .col b, 0x800000)] → 32 * granule < limit →
    ∃ t, exec (.sramPatrol c store b granule corr true) s = .next t ∧ (t.coreAt c).bad st (32 * granule) = true ∧
      (t.coreAt c).vbus.corr = min 0xFFFF ((s.coreAt c).vbus.corr + corr)) ∧
  (∀ (s : State) (vin pin tmax : Nat), ∃ t, exec (.telemetryRefresh vin pin tmax) s = .next t ∧ t.vin = BitVec.ofNat 16 vin ∧
    t.pin = BitVec.ofNat 16 pin ∧ t.tmax = BitVec.ofNat 8 tmax) ∧
  (∀ (s : State) (c : Nat),
    (c < 144 → ((s.coreAt c).bound = [] → (s.coreAt c).idleSince + 2250000 ≤ s.now) →
      (∀ e ∈ (s.coreAt c).bound, e.2.halted = true ∨ e.2.stopped = true) → ∃ t, exec (.layerGate c) s = .next t ∧
      (t.coreAt c).vbus.gateS = true ∧ (t.coreAt c).vbus.gateD = true ∧ (t.coreAt c).vbus.wakeS = false ∧ (t.coreAt c).vbus.wakeD = false) ∧
    (let v := (s.coreAt c).vbus
      let sram := { v with gateS := false, wakeS := false }
      let dram := { v with gateD := false, wakeD := false }
      v.wakeS = true ∨ v.wakeD = true → ∃ t, exec (.layerWakeDone c) s = .next t ∧
        (v.wakeS = true ∧ (t.coreAt c).vbus = sram ∨ v.wakeD = true ∧ (t.coreAt c).vbus = dram))) ∧
  (∀ (s : State) (p : Nat), p < 8 → (s.partAt p).capAt ≤ s.now →
    ((s.partAt p).pwrCap ≠ 0 → ∃ t, exec (.powerCapStep p true) s = .next t ∧ (t.partAt p).ceiling = max 1 ((s.partAt p).ceiling - 1)) ∧
    (∃ t, exec (.powerCapStep p false) s = .next t ∧ (t.partAt p).ceiling = min 16 ((s.partAt p).ceiling + 1))) ∧
  (∀ (s : State) (vin : Nat), let level := fun (t : State) (c : Nat) => match s.partOfCore c with
      | some p => min (s.partAt p).ceiling t.inputLevel
      | none => t.inputLevel
    let amps := fun (v : Nat) => if 60 * v < 100 * s.pin.toNat then max 1 (16 * (60 * v) / (100 * s.pin.toNat)) else 16
    (vin < 4000 → ∃ t, exec (.inputUndervoltage vin) s = .next t ∧ t.uv = true ∧ t.vin = BitVec.ofNat 16 vin ∧
      t.inputLevel = min (max 1 (16 * vin / 4000)) (amps vin) ∧ (vin < 3600 → t.lowSince = some (s.lowSince.getD s.now)) ∧ ∀ c, t.ceilingOf c = level t c) ∧
    (4000 ≤ vin → vin ≤ 6300 → ∃ t, exec (.inputVoltageRestored vin) s = .next t ∧ t.uv = false ∧ t.lowSince = none ∧
      t.inputLevel = amps vin ∧ ∀ c, t.ceilingOf c = level t c)) ∧
  (∀ (s : State) (x : Nat), s.lowSince = some x → x + 22500000 ≤ s.now → ∃ t, exec .undervoltagePowerDown s = .next t ∧
    t = { s with powered := false }) ∧
  (∀ s : State, (6300 < s.vin.toNat → ∃ t, exec .overvoltageDisconnect s = .next t ∧ t = { s with connected := false }) ∧
    (s.vin.toNat ≤ 6300 → exec .overvoltageDisconnect s = .next s)) ∧
  (∀ (s : State) (port n : Nat), port < 18 → let l := tget Link.reset s.brus port
    (l.up = true → ∃ t, exec (.linkDown port 0) s = .next t ∧ tget Link.reset t.brus port = { l with up := false, lanes := 0, downs := min 255 (l.downs + 1) }) ∧
    (n ≠ 0 → ∃ t, exec (.linkDown port n) s = .next t ∧ tget Link.reset t.brus port = { l with lanes := min l.lanes n }) ∧
    (∀ peer, n ≠ 0 → n ≤ 8 → ∃ t, exec (.linkTrained port n peer) s = .next t ∧
      tget Link.reset t.brus port = { l with up := true, lanes := n, peer := BitVec.ofNat 16 peer }) ∧
    (∀ c k, ∃ t, exec (.linkCrcRetry port c k) s = .next t ∧ tget Link.reset t.brus port = { l with retry := min 0xFFFFFFFF (l.retry + 1) })) ∧
  (∀ (s : State) (n : Nat), (∃ t, exec (.walltime1pps n) s = .next t ∧ t = { s with wall := n }) ∧
    (∃ t, exec (.mctpMessage n) s = .next t ∧ t.attest = s.attest ++ [(s.measLog, devId, n, Config.attestSig s.measLog devId n)] ∧ (t.hartAt 0).sig.getLsbD 6 = true) ∧
    (n < 10 → ∃ t, exec (.lxTimerSignal n) s = .next t ∧ (t.hartAt n).sig.getLsbD 5 = true ∧ { t with harts := s.harts } = s)) ∧
  (∀ (s : State) (version : Nat) (ok : Bool), let image := Config.image (version % 65536) ok
    let log := s.measLog ++ [sha3 image]
    (s.fwUpd = false → Config.mldsaOk (sha3 image) (Config.imageSig (version % 65536) ok) = true → ∃ t, exec (.firmwareLiveUpdate version ok) s = .next t ∧
      t = { s with measLog := log, fwStaged := BitVec.ofNat 16 version, fwUpd := true, fwDone := [] }) ∧
    (s.fwUpd = false → Config.mldsaOk (sha3 image) (Config.imageSig (version % 65536) ok) = false → ∃ t, exec (.firmwareLiveUpdate version ok) s = .next t ∧
      t = { s with measLog := log, fwErr := true }) ∧
    (∀ r, s.fwUpd = true → (∀ p < 8, (s.partAt p).held = false) → (List.range 9).find? (fun r => !s.fwDone.contains r) = some r →
      ∃ t, exec (.firmwareLiveUpdate version ok) s = .next t ∧ t.roleAt r = s.roleAt 9 ∧ t.roleAt 9 = s.roleAt r ∧
        (r ≠ 0 → (t.partAt (r - 1)).held = true)) ∧
    (s.fwUpd = true → (∀ p < 8, (s.partAt p).held = false) → (∀ r < 9, r ∈ s.fwDone) →
      ∃ t, exec (.firmwareLiveUpdate version ok) s = .next t ∧ t.fwRun = s.fwStaged ∧ t.fwUpd = false)) ∧
  (∀ s : State, (∃ t, exec .coldReset s = .next t ∧ t.cores = [] ∧ t.parts = [] ∧ t.launches = [] ∧ t.queues = [] ∧ t.partMap = 0 ∧ t.keys = [] ∧
      t.now = 0 ∧ (∀ a, a < 0xE0 * 2 ^ 40 → memByte t.mem a = 0) ∧ ∃ ok, t.measLog = [sha3 (Config.image s.fwRun.toNat ok)] ∧
        t.connected = Config.mldsaOk (sha3 (Config.image s.fwRun.toNat ok)) (Config.imageSig s.fwRun.toNat ok)) ∧
    ((∀ v ∈ s.versions, v.2.st ≠ .committed) → ∃ t, exec .warmReset s = .next t ∧ t.mem = s.mem ∧ t.poison = s.poison ∧ t.partMap = s.mapCopy ∧
      t.quarCores = s.quarCores ∧ t.quarBase = s.quarBase ∧ (∀ k, (t.keyAt k).valid = false) ∧ t.launches = [] ∧
      ∀ e ∈ t.cores, ∃ d ∈ s.cores, d.1 = e.1 ∧ (d.2.vbus.fail = true ∨ d.2.vbus.failS = true ∨ d.2.vbus.failD = true) ∧
        e.2 = { Core.reset with vbus := { Vbus.reset with fail := d.2.vbus.fail, failS := d.2.vbus.failS, failD := d.2.vbus.failD } })) ∧
  (∀ (s : State) (h a n : Nat) (sx : Bool) (rd : BitVec 5), h < 10 →
    (∀ bs u, n ∈ [1, 2, 4, 8] → s.devRead h a n = some (bs, u) → ∃ t, exec (.lamplighterDeviceAccess h (.load a n sx rd)) s = .next t ∧
      t = u.rvPut h rd (BitVec.ofNat 64 (if sx && (leNat bs).testBit (8 * n - 1) then leNat bs + 2 ^ 64 - 2 ^ (8 * n) else leNat bs))) ∧
    (∀ bs u, s.devWrite h a bs = some u → ∃ t, exec (.lamplighterDeviceAccess h (.store a bs)) s = .next t ∧ t = u) ∧
    (∀ x bs u v, s.devRead h a 8 = some (bs, u) → u.devWrite h a (leBytes 8 (ofBytes64 bs + x).toNat) = some v →
      ∃ t, exec (.lamplighterDeviceAccess h (.amoadd a x rd)) s = .next t ∧ t = v.rvPut h rd (ofBytes64 bs)) ∧
    (∃ t, exec (.lamplighterDeviceAccess h .fence) s = .next t ∧ t = s)) ∧
  (∀ (s u : State) (pa : Nat) (bs : List Byte), s.physWrite pa bs true = some u → ∃ t, exec (.inboundPeerOrHostWrite pa bs) s = .next t ∧ t = u)

/-- R18, R73, R155, R277, R292, R330, R343, R352, R363: what reset leaves: every register and predicate zero and unpoisoned in both planes, plane A
working, cores and queues as their tables say, nothing launched, and memory that lists nothing; the scalar PC of an unbound slot (log entry 5), what
unlisted memory reads as (log entry 3) and empty TLBs (log entry 6) are the model's choice. The invariant of every step holds there. -/
def Obligations.ResetState : Prop :=
  State.reset.Inv ∧ State.reset.mem = [] ∧ State.reset.partMap = 0 ∧ State.reset.feTlb = [] ∧
  (∀ c g, let q := State.reset.grpAt c g
    q.bound = false ∧ q.selB = false ∧ q.held = none ∧ q.handler = false ∧ q.lantern = none ∧ q.trapvec = 0 ∧ q.lanT = 400 ∧ q.pc = 0 ∧
    q.lan1 = 0 ∧ q.lan2 = 0 ∧ q.lan3 = 0 ∧ q.lan4 = 0 ∧ q.wb = 0 ∧
    (∀ p ∈ [q.work, q.stage_], ∀ r : SReg, ∀ th, ∀ n : VReg, p.rs r.toNat = 0 ∧ p.sBad r.toNat = false ∧ p.rv th n.toNat = 0 ∧
      p.vBad th n.toNat = false ∧ p.pBad th = false ∧ p.rp th 0 = true ∧ ∀ k, k ≠ 0 → p.rp th k = false) ∧
    ∀ w, q.wick w = 0) ∧
  (∀ c, let k := State.reset.coreAt c
    k.wpr = 0 ∧ k.wprChg = none ∧ k.tlb = [] ∧ k.items = [] ∧ k.mq = [] ∧ k.eng.pos = none ∧
    ∀ tile i j, k.el tile i j = 0) ∧
  (∀ p, let x := State.reset.partAt p
    x.wdog = 0 ∧ x.dbgHold = false ∧ x.dbgStep = false ∧ x.dbgHlt = false ∧ x.poolUnits = 0 ∧ x.poolUsed = 0 ∧ x.defq = 1 ∧ x.snufState = 0) ∧
  (∀ q, (State.reset.qAt q).en = false ∧ (State.reset.qAt q).state = 0 ∧ (State.reset.qAt q).pass = 1) ∧
  (∀ l, (State.reset.lchAt l).st = .free) ∧ (∀ p t, (State.reset.verAt p t).st = .free) ∧
  (∀ k, (State.reset.keyAt k).valid = false) ∧ (∀ die, State.reset.rampOf die = 0xFEDCBA9876543210) ∧ ∀ a, memByte State.reset.mem a = 0

/-- R14, R41, R44, R45, R62, R134, R228, R341, R354: the agent whose turn it is executes the instruction that the bytes at its PC decode to, on the state
that the fetch leaves, and the clocks and the next turn follow; a pipe takes the slot that its turn picks; scalar and lane bytes that decode to nothing
raise ILL; a Lamplighter core executes every other word as RV64IMAC; an event on the turn is executed; what meets a line that a transfer engine owns
is not performed and is tried again. -/
def Obligations.StepRunsDecoded : Prop :=
  (∀ (s u : State) (g : Nat) (bs : List Byte), s.turn = .scalar → s.isOn = true → s.sPick s.core (s.slot % 4) = some g →
    let v := s.sTake s.core (s.slot % 4) g
    v.fetchBytes v.core v.prt v.grp.pc 4 = .word bs u → u.waits = false →
    (∀ i, decode .scalar bs = .ok i → step s = ticked (settled u.noteFirst (exec i u.noteFirst))) ∧
    (∀ r, decode .scalar bs = .error r → step s = ticked (settled s (.next (u.noteFirst.sRaise false .ill))))) ∧
  (∀ (s u : State) (g : Nat) (bs : List Byte) (l : Word) (f : List Nat), s.turn = .lane → s.isOn = true → s.lPick s.core (s.slot / 2) = some g →
    let v := s.lTake s.core (s.slot / 2) g
    v.grp.active = some (l, f) → v.fetchBytes v.core v.prt l 12 = .word bs u → u.waits = false →
    (∀ i, decode .lane bs = .ok i → step s = ticked (settled u (exec i u))) ∧
    (∀ r, decode .lane bs = .error r → step s = ticked (settled s (.next (u.lRaise ⟨l, f, f, false, u.grp.stays⟩ .ill 0 false f))))) ∧
  (∀ (s u w : State) (lo bs : List Byte), let x := s.hartAt s.hart
    s.turn = .lx → s.isOn = true → s.hart < 10 → ¬ (x.irq = true ∧ x.mie = true ∧ x.ie.getLsbD 24 = true) →
    s.rvBytes s.hart x.pc.toNat 2 = some (lo, u) →
    (leNat lo % 4 ≠ 3 → step s = ticked (settled s (settled u (.next (u.rvExec u.hart (leNat lo)))))) ∧
    (leNat lo % 4 = 3 → s.rvBytes s.hart x.pc.toNat 4 = some (bs, w) →
      (∀ i, decode .lx bs = .ok i → step s = ticked (settled s (settled w (exec i w)))) ∧
      (∀ r, decode .lx bs = .error r → leNat bs % 128 ≠ 0x0B → step s = ticked (settled s (settled w (.next (w.rvExec w.hart (leNat bs)))))))) ∧
  (∀ (s : State) (i : Instr), s.turn = .event i → i.cls = .event → (s.isOn = true ∨ i = .coldReset) → step s = ticked (settled s (exec i s))) ∧
  (∀ s t : State, settled s (.next t) = .next (if t.waits then s else t)) ∧
  (∀ t : State, ticked (.next t) = .next t.tick ∧ t.tick.waits = false ∧
    { t.tick with fresh := t.fresh, now := t.now, wall := t.wall, turn := t.turn, core := t.core, slot := t.slot, hart := t.hart, waits := t.waits } = t)

/-- R29, R34, R46 to R48, R354: words of every class written out from the encoding tables decode to the instructions they stand for, lowest byte
first. -/
def Obligations.DecodeWords : Prop :=
  let sc := fun (w : Nat) => (decode .scalar (leBytes 4 w)).toOption
  let ln := fun (hi mid lo : Nat) => (decode .lane (leBytes 4 lo ++ leBytes 4 mid ++ leBytes 4 hi)).toOption
  let lx := fun (w : Nat) => (decode .lx (leBytes 4 w)).toOption
  sc 0x1C145FFF = some (.addi false 5 5 0xFFF) ∧
  sc 0x1A0C4142 = some (.cmp false .lt 3 4 5) ∧
  sc 0x28FFFFFD = some (.b false 0xFFFFFD) ∧
  sc 0x2E290300 = some (.lgo false 10 16 3) ∧
  sc 0xB8102C01 = some (.sld true 4 2 .d .rlx .weak 1) ∧
  sc 0x4218000A = some (.flip false .pane .flow false 6) ∧
  sc 0x45208000 = some (.xfer false 8 2) ∧
  sc 0x4E114001 = some (.launch false true 4 5) ∧
  sc 0x54000007 = some (.trap false 7) ∧
  sc 0xD9100000 = some (.sysr true 4 0) ∧
  ln 0x8098380A 0x10000000 0 = some (.iadd ⟨true, false, 3⟩ 7 (.v 1) (.c 2) 0) ∧
  ln 0x15802008 0x10180008 0 = some (.ffma ⟨false, false, 0⟩ false .rz 4 (.v 1) (.v 2) (.v 3) 0) ∧
  ln 0x24000000 0 0xFFFFFFDC = some (.lbr ⟨false, false, 0⟩ 0xFFFFFFDC) ∧
  ln 0x28002200 0x18000010 0x10 = some (.ldg ⟨false, false, 0⟩ .w false .rlx .weak 4 0 (.v 3) 0x10) ∧
  ln 0x32000202 0x08000620 0x105 = some (.mma ⟨false, false, 0⟩ 4 3 0 1 5 1) ∧
  lx 0x00C5850B = some (.lxRfetch 10 11 12) ∧
  lx 0x02C5950B = some (.lxBfx true 10 11 12) ∧
  sc 0x7F000000 = none ∧ sc 0x00000001 = none ∧ lx 0x00C5D50B = none

/-- R354: the Lx words by their fields, and an illegal-instruction exception for every other custom-0 word. What that exception leaves, mcause 2, mepc and the
jump to mtvec & ~3, the spec does not give: they are those of RISC-V machine mode, the model's choice, log entries 51 and 53. -/
def Obligations.LxWordsDecode : Prop :=
  let word := fun (f7 rs2 rs1 f3 rd : Nat) => leBytes 4 (f7 * 2 ^ 25 + rs2 * 2 ^ 20 + rs1 * 2 ^ 15 + f3 * 2 ^ 12 + rd * 2 ^ 7 + 0x0B)
  (∀ rd rs1 rs2 : BitVec 5, let w := fun (f7 f3 : Nat) => decode .lx (word f7 rs2.toNat rs1.toNat f3 rd.toNat)
    w 0 0 = .ok (.lxRfetch rd rs1 rs2) ∧ w 0 1 = .ok (.lxBfx false rd rs1 rs2) ∧ w 1 1 = .ok (.lxBfx true rd rs1 rs2) ∧
    w 0 2 = .ok (.lxSwait rd rs1 rs2) ∧ w 0 3 = .ok (.lxDisp rd rs1 rs2) ∧ w 0 4 = .ok (.lxBind rd rs1 rs2)) ∧
  (∀ (s : State) (f7 rs2 rs1 f3 rd : Nat), f7 < 128 → rs2 < 32 → rs1 < 32 → f3 < 8 → rd < 32 → (5 ≤ f3 ∨ f7 ≠ 0 ∧ ¬ (f7 = 1 ∧ f3 = 1)) →
    s.turn = .lx → s.isOn = true → s.waits = false → s.hart < 10 → (s.hartAt s.hart).irq = false →
    let w := word f7 rs2 rs1 f3 rd
    (∃ u, s.rvBytes s.hart (s.hartAt s.hart).pc.toNat 2 = some (w.take 2, u)) → (∃ u, s.rvBytes s.hart (s.hartAt s.hart).pc.toNat 4 = some (w, u)) →
    ∃ t, step s = .next t ∧ (t.hartAt s.hart).mcause = 2 ∧ (t.hartAt s.hart).mepc = (s.hartAt s.hart).pc ∧
      (t.hartAt s.hart).pc = (s.hartAt s.hart).mtvec &&& ~~~3#64)

/-- R29 to R43, R46 to R48, R354: every well-formed instruction of every family is decoded from the word that its encoding gives, with every operand
at every value. -/
def Obligations.DecodeEncodeRoundTrip : Prop :=
  ∀ i : Instr, i.cls ≠ .event → wellFormed i = true → ∃ bs, encode i = some bs ∧ bs.length = i.cls.bytes ∧ decode i.cls bs = .ok i

/-- Every step keeps memory in its canonical form, so that no byte stands twice or as what an unlisted byte reads as, and every core and group
listed once. -/
def Obligations.StepKeepsInv : Prop := ∀ s t : State, s.Inv → step s = .next t → t.Inv
end

