-- ==== Sys2Proof/Laws/Tab.lean ====
section
/-!
SUPPORT. Sys2Proof/Laws/Tab.lean: reading a table after a write, and that memory operations keep the canonical form.
-/
namespace Sys2Proof.Machine

/-- A key just written reads as written. -/
@[simp] theorem tget_tput_self {α : Type} (d : α) (t : Tab α) (n : Nat) (v : α) : tget d (tput t n v) n = v := by
  induction t with
  | nil => simp [tput, tget]
  | cons e r ih =>
    obtain ⟨k, w⟩ := e
    simp only [tput]
    split
    · simp [tget]
    · split
      · simp [tget]
      · simp [tget, *]

/-- Another key reads as before. -/
theorem tget_tput_ne {α : Type} (d : α) (t : Tab α) {n m : Nat} (v : α) (h : m ≠ n) : tget d (tput t n v) m = tget d t m := by
  induction t with
  | nil => simp [tput, tget, h]
  | cons e r ih =>
    obtain ⟨k, w⟩ := e
    simp only [tput]
    split
    · rename_i hk
      subst hk
      simp [tget, h]
    · rename_i hk
      split
      · rename_i hlt
        simp only [tget, h, if_false]
        split
        · rename_i hm
          rw [if_neg (by omega), if_pos (by omega)]
        · rfl
      · simp only [tget]
        split
        · rfl
        · split
          · rfl
          · exact ih

/-- A read after a write, in one equation. -/
theorem tget_tput {α : Type} (d : α) (t : Tab α) (n m : Nat) (v : α) : tget d (tput t n v) m = if m = n then v else tget d t m := by
  split
  · rename_i h; subst h; simp
  · rename_i h; exact tget_tput_ne d t v h

/-- A second write of a key replaces the first. -/
@[simp] theorem tput_tput {α : Type} (t : Tab α) (n : Nat) (v w : α) : tput (tput t n v) n w = tput t n w := by
  induction t with
  | nil => simp [tput]
  | cons e r ih =>
    obtain ⟨k, x⟩ := e
    simp only [tput]
    split
    · simp [tput]
    · split
      · simp [tput]
      · simp [tput, *]

/-- A key below every key of a rising table is not listed. -/
theorem tget_below {α : Type} (d : α) {e : Nat × α} {r : Tab α} (h : rising (e :: r)) {n : Nat} (hn : n ≤ e.1) : tget d r n = d := by
  cases r with
  | nil => rfl
  | cons f r =>
    obtain ⟨k, v⟩ := f
    simp only [rising] at h
    simp only [tget]
    rw [if_neg (by omega), if_pos (by omega)]

theorem rising_tail {α : Type} {e : Nat × α} {r : Tab α} (h : rising (e :: r)) : rising r := by
  cases r with
  | nil => trivial
  | cons f r => exact h.2

/-- In a rising table a key above the head is above nothing smaller. -/
theorem rising_cons {α : Type} {e : Nat × α} {r : Tab α} (h : ∀ f ∈ r, e.1 < f.1) (hr : rising r) : rising (e :: r) := by
  cases r with
  | nil => trivial
  | cons f r => exact ⟨h f (by simp), hr⟩

/-- Every later key of a rising table is above its first. -/
theorem rising_lt {α : Type} {e : Nat × α} {r : Tab α} (h : rising (e :: r)) : ∀ f ∈ r, e.1 < f.1 := by
  induction r generalizing e with
  | nil => simp
  | cons g r ih =>
    intro f hf
    simp only [List.mem_cons] at hf
    rcases hf with rfl | hf
    · exact h.1
    · exact Nat.lt_trans h.1 (ih h.2 f hf)

/-- A key of a filtered rising table reads as before where the filter keeps it, and as the default where it does not. -/
theorem tget_filter {α : Type} (d : α) (p : Nat → Bool) (t : Tab α) (h : rising t) (n : Nat) :
    tget d (t.filter fun e => p e.1) n = if p n then tget d t n else d := by
  induction t with
  | nil => simp [tget]
  | cons e r ih =>
    obtain ⟨k, v⟩ := e
    have ihr := ih (rising_tail h)
    by_cases hk : n = k
    · subst hk
      by_cases hp : p n
      · simp [hp, tget]
      · simp [hp] at ihr ⊢
        exact ihr
    · by_cases hlt : n < k
      · have hb : tget d r n = d := tget_below d h (Nat.le_of_lt hlt)
        simp only [hb, ite_self] at ihr
        by_cases hp : p k
        · simp [hp, tget, hk, hlt]
        · simp [hp, tget, hk, hlt, ihr]
      · by_cases hp : p k
        · simp [hp, tget, hk, hlt, ihr]
        · simp [hp, tget, hk, hlt, ihr]

/-- A read after a write that does not list the default. -/
theorem tget_tset {α : Type} [DecidableEq α] (d : α) (t : Tab α) (h : rising t) (n m : Nat) (v : α) :
    tget d (tset d t n v) m = if m = n then v else tget d t m := by
  simp only [tset]
  split
  · rename_i hv
    have := tget_filter d (fun k => k != n) t h m
    simp only [tdel, this, hv]
    by_cases hm : m = n <;> simp [hm]
  · exact tget_tput d t n m v

/-- A filtered rising table rises. -/
theorem rising_filter {α : Type} (p : Nat × α → Bool) (t : Tab α) (h : rising t) : rising (t.filter p) := by
  induction t with
  | nil => trivial
  | cons e r ih =>
    simp only [List.filter_cons]
    split
    · refine rising_cons (fun f hf => rising_lt h f ?_) (ih (rising_tail h))
      exact (List.mem_filter.mp hf).1
    · exact ih (rising_tail h)

/-- The members of a table with a key written: the key, or members of the table. -/
theorem mem_tput {α : Type} {t : Tab α} {n : Nat} {v : α} {e : Nat × α} (h : e ∈ tput t n v) : e = (n, v) ∨ e ∈ t := by
  induction t with
  | nil => simpa [tput] using h
  | cons f r ih =>
    obtain ⟨k, w⟩ := f
    simp only [tput] at h
    split at h
    · simp only [List.mem_cons] at h ⊢
      grind
    · split at h
      · simp only [List.mem_cons] at h ⊢
        grind
      · simp only [List.mem_cons] at h ⊢
        rcases h with h | h
        · exact Or.inr (Or.inl h)
        · rcases ih h with h | h
          · exact Or.inl h
          · exact Or.inr (Or.inr h)

/-- A rising table with a key written rises. -/
theorem rising_tput {α : Type} (t : Tab α) (h : rising t) (n : Nat) (v : α) : rising (tput t n v) := by
  induction t with
  | nil => trivial
  | cons f r ih =>
    obtain ⟨k, w⟩ := f
    simp only [tput]
    split
    · rename_i hk
      subst hk
      exact rising_cons (fun f hf => rising_lt h f hf) (rising_tail h)
    · split
      · rename_i hlt
        exact ⟨hlt, h⟩
      · refine rising_cons (fun e he => ?_) (ih (rising_tail h))
        rcases mem_tput he with rfl | he
        · simp only
          omega
        · exact rising_lt h e he

/-- The canonical form, as rising keys and no zero byte listed. -/
theorem memWf_iff (m : List Host.Cell) : memWf m = true ↔ rising m ∧ ∀ e ∈ m, e.2 ≠ 0 := by
  induction m with
  | nil => simp [memWf, rising]
  | cons e r ih =>
    cases r with
    | nil => simp [memWf, rising]
    | cons f r =>
      simp only [memWf, Bool.and_eq_true, ih, rising, List.mem_cons, decide_eq_true_eq, bne_iff_ne]
      constructor
      · rintro ⟨⟨h1, h2⟩, h3, h4⟩
        refine ⟨⟨h2, h3⟩, ?_⟩
        rintro x (rfl | hx)
        · exact h1
        · exact h4 x hx
      · rintro ⟨⟨h2, h3⟩, h4⟩
        exact ⟨⟨h4 e (Or.inl rfl), h2⟩, h3, fun x hx => h4 x (Or.inr hx)⟩

/-- The keys of canonical memory rise. -/
theorem memWf_rising {m : List Host.Cell} (h : memWf m = true) : rising m := ((memWf_iff m).mp h).1

/-- Memory with cells dropped keeps its canonical form. -/
theorem memWf_filter (p : Host.Cell → Bool) {m : List Host.Cell} (h : memWf m = true) : memWf (m.filter p) = true := by
  rw [memWf_iff] at h ⊢
  exact ⟨rising_filter p m h.1, fun e he => h.2 e (List.mem_filter.mp he).1⟩

/-- A byte written keeps memory's canonical form. -/
theorem memWf_memSet {m : List Host.Cell} (h : memWf m = true) (a : Nat) (b : Byte) : memWf (memSet m a b) = true := by
  simp only [memSet, tset]
  split
  · exact memWf_filter _ h
  · rename_i hb
    rw [memWf_iff] at h ⊢
    refine ⟨rising_tput m h.1 a b, fun e he => ?_⟩
    rcases mem_tput he with rfl | he
    · exact hb
    · exact h.2 e he

/-- Bytes written keep memory's canonical form. -/
theorem memWf_memWrite {m : List Host.Cell} (h : memWf m = true) (a : Nat) (bs : List Byte) : memWf (memWrite m a bs) = true := by
  induction bs generalizing m a with
  | nil => exact h
  | cons b bs ih => exact ih (memWf_memSet h a b) _

/-- A byte of memory after a byte was written. -/
theorem memByte_memSet {m : List Host.Cell} (h : memWf m = true) (a x : Nat) (b : Byte) :
    memByte (memSet m a b) x = if x = a then b else memByte m x := tget_tset 0 m (memWf_rising h) a x b

/-- A byte of memory after bytes were written: theirs within them, as before outside. -/
theorem memByte_memWrite {m : List Host.Cell} (h : memWf m = true) (a x : Nat) (bs : List Byte) :
    memByte (memWrite m a bs) x = if a ≤ x ∧ x < a + bs.length then lget 0 bs (x - a) else memByte m x := by
  induction bs generalizing m a with
  | nil =>
    simp only [memWrite, List.length_nil, Nat.add_zero]
    rw [if_neg (by omega)]
  | cons b bs ih =>
    simp only [memWrite, List.length_cons]
    rw [ih (memWf_memSet h a b), memByte_memSet h]
    by_cases hx : x = a
    · subst hx
      rw [if_neg (by omega), if_pos rfl, if_pos (by omega)]
      simp [lget]
    · by_cases hin : a + 1 ≤ x ∧ x < a + 1 + bs.length
      · rw [if_pos hin, if_pos (by omega)]
        have : x - a = (x - (a + 1)) + 1 := by omega
        simp [lget, this]
      · rw [if_neg hin, if_neg hx, if_neg (by omega)]

end Sys2Proof.Machine
end

