-- ==== Sys2Proof/Laws/State.lean ====
section
/-!
SUPPORT. Sys2Proof/Laws/State.lean: what each update of the state leaves as it was, one lemma per field, and what it makes of what it changes.
-/
namespace Sys2Proof.Machine

/-! `State.setCore` changes `cores` alone. -/

@[simp] theorem State.setCore_turn (s : State) (c : Nat) (x : Core) : (s.setCore c x).turn = s.turn := rfl
@[simp] theorem State.setCore_core (s : State) (c : Nat) (x : Core) : (s.setCore c x).core = s.core := rfl
@[simp] theorem State.setCore_slot (s : State) (c : Nat) (x : Core) : (s.setCore c x).slot = s.slot := rfl
@[simp] theorem State.setCore_hart (s : State) (c : Nat) (x : Core) : (s.setCore c x).hart = s.hart := rfl
@[simp] theorem State.setCore_now (s : State) (c : Nat) (x : Core) : (s.setCore c x).now = s.now := rfl
@[simp] theorem State.setCore_wall (s : State) (c : Nat) (x : Core) : (s.setCore c x).wall = s.wall := rfl
@[simp] theorem State.setCore_fresh (s : State) (c : Nat) (x : Core) : (s.setCore c x).fresh = s.fresh := rfl
@[simp] theorem State.setCore_mem (s : State) (c : Nat) (x : Core) : (s.setCore c x).mem = s.mem := rfl
@[simp] theorem State.setCore_poison (s : State) (c : Nat) (x : Core) : (s.setCore c x).poison = s.poison := rfl
@[simp] theorem State.setCore_eccu (s : State) (c : Nat) (x : Core) : (s.setCore c x).eccu = s.eccu := rfl
@[simp] theorem State.setCore_encTags (s : State) (c : Nat) (x : Core) : (s.setCore c x).encTags = s.encTags := rfl
@[simp] theorem State.setCore_owners (s : State) (c : Nat) (x : Core) : (s.setCore c x).owners = s.owners := rfl
@[simp] theorem State.setCore_wins (s : State) (c : Nat) (x : Core) : (s.setCore c x).wins = s.wins := rfl
@[simp] theorem State.setCore_partMap (s : State) (c : Nat) (x : Core) : (s.setCore c x).partMap = s.partMap := rfl
@[simp] theorem State.setCore_left (s : State) (c : Nat) (x : Core) : (s.setCore c x).left = s.left := rfl
@[simp] theorem State.setCore_keys (s : State) (c : Nat) (x : Core) : (s.setCore c x).keys = s.keys := rfl
@[simp] theorem State.setCore_keySel (s : State) (c : Nat) (x : Core) : (s.setCore c x).keySel = s.keySel := rfl
@[simp] theorem State.setCore_keyBlob (s : State) (c : Nat) (x : Core) : (s.setCore c x).keyBlob = s.keyBlob := rfl
@[simp] theorem State.setCore_quarBase (s : State) (c : Nat) (x : Core) : (s.setCore c x).quarBase = s.quarBase := rfl
@[simp] theorem State.setCore_quarCores (s : State) (c : Nat) (x : Core) : (s.setCore c x).quarCores = s.quarCores := rfl
@[simp] theorem State.setCore_vin (s : State) (c : Nat) (x : Core) : (s.setCore c x).vin = s.vin := rfl
@[simp] theorem State.setCore_pin (s : State) (c : Nat) (x : Core) : (s.setCore c x).pin = s.pin := rfl
@[simp] theorem State.setCore_tmax (s : State) (c : Nat) (x : Core) : (s.setCore c x).tmax = s.tmax := rfl
@[simp] theorem State.setCore_thr (s : State) (c : Nat) (x : Core) : (s.setCore c x).thr = s.thr := rfl
@[simp] theorem State.setCore_uv (s : State) (c : Nat) (x : Core) : (s.setCore c x).uv = s.uv := rfl
@[simp] theorem State.setCore_fwRun (s : State) (c : Nat) (x : Core) : (s.setCore c x).fwRun = s.fwRun := rfl
@[simp] theorem State.setCore_fwStaged (s : State) (c : Nat) (x : Core) : (s.setCore c x).fwStaged = s.fwStaged := rfl
@[simp] theorem State.setCore_roleCore (s : State) (c : Nat) (x : Core) : (s.setCore c x).roleCore = s.roleCore := rfl
@[simp] theorem State.setCore_fwDone (s : State) (c : Nat) (x : Core) : (s.setCore c x).fwDone = s.fwDone := rfl
@[simp] theorem State.setCore_fwUpd (s : State) (c : Nat) (x : Core) : (s.setCore c x).fwUpd = s.fwUpd := rfl
@[simp] theorem State.setCore_fwErr (s : State) (c : Nat) (x : Core) : (s.setCore c x).fwErr = s.fwErr := rfl
@[simp] theorem State.setCore_brusNode (s : State) (c : Nat) (x : Core) : (s.setCore c x).brusNode = s.brusNode := rfl
@[simp] theorem State.setCore_brus (s : State) (c : Nat) (x : Core) : (s.setCore c x).brus = s.brus := rfl
@[simp] theorem State.setCore_igold (s : State) (c : Nat) (x : Core) : (s.setCore c x).igold = s.igold := rfl
@[simp] theorem State.setCore_versions (s : State) (c : Nat) (x : Core) : (s.setCore c x).versions = s.versions := rfl
@[simp] theorem State.setCore_powered (s : State) (c : Nat) (x : Core) : (s.setCore c x).powered = s.powered := rfl
@[simp] theorem State.setCore_connected (s : State) (c : Nat) (x : Core) : (s.setCore c x).connected = s.connected := rfl
@[simp] theorem State.setCore_measLog (s : State) (c : Nat) (x : Core) : (s.setCore c x).measLog = s.measLog := rfl
@[simp] theorem State.setCore_attest (s : State) (c : Nat) (x : Core) : (s.setCore c x).attest = s.attest := rfl
@[simp] theorem State.setCore_msix (s : State) (c : Nat) (x : Core) : (s.setCore c x).msix = s.msix := rfl
@[simp] theorem State.setCore_mapCopy (s : State) (c : Nat) (x : Core) : (s.setCore c x).mapCopy = s.mapCopy := rfl
@[simp] theorem State.setCore_lowSince (s : State) (c : Nat) (x : Core) : (s.setCore c x).lowSince = s.lowSince := rfl
@[simp] theorem State.setCore_dimRamp (s : State) (c : Nat) (x : Core) : (s.setCore c x).dimRamp = s.dimRamp := rfl
@[simp] theorem State.setCore_parts (s : State) (c : Nat) (x : Core) : (s.setCore c x).parts = s.parts := rfl
@[simp] theorem State.setCore_clusters (s : State) (c : Nat) (x : Core) : (s.setCore c x).clusters = s.clusters := rfl
@[simp] theorem State.setCore_queues (s : State) (c : Nat) (x : Core) : (s.setCore c x).queues = s.queues := rfl
@[simp] theorem State.setCore_launches (s : State) (c : Nat) (x : Core) : (s.setCore c x).launches = s.launches := rfl
@[simp] theorem State.setCore_graphs (s : State) (c : Nat) (x : Core) : (s.setCore c x).graphs = s.graphs := rfl
@[simp] theorem State.setCore_order (s : State) (c : Nat) (x : Core) : (s.setCore c x).order = s.order := rfl
@[simp] theorem State.setCore_feTlb (s : State) (c : Nat) (x : Core) : (s.setCore c x).feTlb = s.feTlb := rfl
@[simp] theorem State.setCore_harts (s : State) (c : Nat) (x : Core) : (s.setCore c x).harts = s.harts := rfl
@[simp] theorem State.setCore_saved (s : State) (c : Nat) (x : Core) : (s.setCore c x).saved = s.saved := rfl
@[simp] theorem State.setCore_nodesUsed (s : State) (c : Nat) (x : Core) : (s.setCore c x).nodesUsed = s.nodesUsed := rfl
@[simp] theorem State.setCore_fronts (s : State) (c : Nat) (x : Core) : (s.setCore c x).fronts = s.fronts := rfl
@[simp] theorem State.setCore_waits (s : State) (c : Nat) (x : Core) : (s.setCore c x).waits = s.waits := rfl

/-! `State.modCore` changes `cores` alone. -/

@[simp] theorem State.modCore_turn (s : State) (c : Nat) (f : Core → Core) : (s.modCore c f).turn = s.turn := rfl
@[simp] theorem State.modCore_core (s : State) (c : Nat) (f : Core → Core) : (s.modCore c f).core = s.core := rfl
@[simp] theorem State.modCore_slot (s : State) (c : Nat) (f : Core → Core) : (s.modCore c f).slot = s.slot := rfl
@[simp] theorem State.modCore_hart (s : State) (c : Nat) (f : Core → Core) : (s.modCore c f).hart = s.hart := rfl
@[simp] theorem State.modCore_now (s : State) (c : Nat) (f : Core → Core) : (s.modCore c f).now = s.now := rfl
@[simp] theorem State.modCore_wall (s : State) (c : Nat) (f : Core → Core) : (s.modCore c f).wall = s.wall := rfl
@[simp] theorem State.modCore_fresh (s : State) (c : Nat) (f : Core → Core) : (s.modCore c f).fresh = s.fresh := rfl
@[simp] theorem State.modCore_mem (s : State) (c : Nat) (f : Core → Core) : (s.modCore c f).mem = s.mem := rfl
@[simp] theorem State.modCore_poison (s : State) (c : Nat) (f : Core → Core) : (s.modCore c f).poison = s.poison := rfl
@[simp] theorem State.modCore_eccu (s : State) (c : Nat) (f : Core → Core) : (s.modCore c f).eccu = s.eccu := rfl
@[simp] theorem State.modCore_encTags (s : State) (c : Nat) (f : Core → Core) : (s.modCore c f).encTags = s.encTags := rfl
@[simp] theorem State.modCore_owners (s : State) (c : Nat) (f : Core → Core) : (s.modCore c f).owners = s.owners := rfl
@[simp] theorem State.modCore_wins (s : State) (c : Nat) (f : Core → Core) : (s.modCore c f).wins = s.wins := rfl
@[simp] theorem State.modCore_partMap (s : State) (c : Nat) (f : Core → Core) : (s.modCore c f).partMap = s.partMap := rfl
@[simp] theorem State.modCore_left (s : State) (c : Nat) (f : Core → Core) : (s.modCore c f).left = s.left := rfl
@[simp] theorem State.modCore_keys (s : State) (c : Nat) (f : Core → Core) : (s.modCore c f).keys = s.keys := rfl
@[simp] theorem State.modCore_keySel (s : State) (c : Nat) (f : Core → Core) : (s.modCore c f).keySel = s.keySel := rfl
@[simp] theorem State.modCore_keyBlob (s : State) (c : Nat) (f : Core → Core) : (s.modCore c f).keyBlob = s.keyBlob := rfl
@[simp] theorem State.modCore_quarBase (s : State) (c : Nat) (f : Core → Core) : (s.modCore c f).quarBase = s.quarBase := rfl
@[simp] theorem State.modCore_quarCores (s : State) (c : Nat) (f : Core → Core) : (s.modCore c f).quarCores = s.quarCores := rfl
@[simp] theorem State.modCore_vin (s : State) (c : Nat) (f : Core → Core) : (s.modCore c f).vin = s.vin := rfl
@[simp] theorem State.modCore_pin (s : State) (c : Nat) (f : Core → Core) : (s.modCore c f).pin = s.pin := rfl
@[simp] theorem State.modCore_tmax (s : State) (c : Nat) (f : Core → Core) : (s.modCore c f).tmax = s.tmax := rfl
@[simp] theorem State.modCore_thr (s : State) (c : Nat) (f : Core → Core) : (s.modCore c f).thr = s.thr := rfl
@[simp] theorem State.modCore_uv (s : State) (c : Nat) (f : Core → Core) : (s.modCore c f).uv = s.uv := rfl
@[simp] theorem State.modCore_fwRun (s : State) (c : Nat) (f : Core → Core) : (s.modCore c f).fwRun = s.fwRun := rfl
@[simp] theorem State.modCore_fwStaged (s : State) (c : Nat) (f : Core → Core) : (s.modCore c f).fwStaged = s.fwStaged := rfl
@[simp] theorem State.modCore_roleCore (s : State) (c : Nat) (f : Core → Core) : (s.modCore c f).roleCore = s.roleCore := rfl
@[simp] theorem State.modCore_fwDone (s : State) (c : Nat) (f : Core → Core) : (s.modCore c f).fwDone = s.fwDone := rfl
@[simp] theorem State.modCore_fwUpd (s : State) (c : Nat) (f : Core → Core) : (s.modCore c f).fwUpd = s.fwUpd := rfl
@[simp] theorem State.modCore_fwErr (s : State) (c : Nat) (f : Core → Core) : (s.modCore c f).fwErr = s.fwErr := rfl
@[simp] theorem State.modCore_brusNode (s : State) (c : Nat) (f : Core → Core) : (s.modCore c f).brusNode = s.brusNode := rfl
@[simp] theorem State.modCore_brus (s : State) (c : Nat) (f : Core → Core) : (s.modCore c f).brus = s.brus := rfl
@[simp] theorem State.modCore_igold (s : State) (c : Nat) (f : Core → Core) : (s.modCore c f).igold = s.igold := rfl
@[simp] theorem State.modCore_versions (s : State) (c : Nat) (f : Core → Core) : (s.modCore c f).versions = s.versions := rfl
@[simp] theorem State.modCore_powered (s : State) (c : Nat) (f : Core → Core) : (s.modCore c f).powered = s.powered := rfl
@[simp] theorem State.modCore_connected (s : State) (c : Nat) (f : Core → Core) : (s.modCore c f).connected = s.connected := rfl
@[simp] theorem State.modCore_measLog (s : State) (c : Nat) (f : Core → Core) : (s.modCore c f).measLog = s.measLog := rfl
@[simp] theorem State.modCore_attest (s : State) (c : Nat) (f : Core → Core) : (s.modCore c f).attest = s.attest := rfl
@[simp] theorem State.modCore_msix (s : State) (c : Nat) (f : Core → Core) : (s.modCore c f).msix = s.msix := rfl
@[simp] theorem State.modCore_mapCopy (s : State) (c : Nat) (f : Core → Core) : (s.modCore c f).mapCopy = s.mapCopy := rfl
@[simp] theorem State.modCore_lowSince (s : State) (c : Nat) (f : Core → Core) : (s.modCore c f).lowSince = s.lowSince := rfl
@[simp] theorem State.modCore_dimRamp (s : State) (c : Nat) (f : Core → Core) : (s.modCore c f).dimRamp = s.dimRamp := rfl
@[simp] theorem State.modCore_parts (s : State) (c : Nat) (f : Core → Core) : (s.modCore c f).parts = s.parts := rfl
@[simp] theorem State.modCore_clusters (s : State) (c : Nat) (f : Core → Core) : (s.modCore c f).clusters = s.clusters := rfl
@[simp] theorem State.modCore_queues (s : State) (c : Nat) (f : Core → Core) : (s.modCore c f).queues = s.queues := rfl
@[simp] theorem State.modCore_launches (s : State) (c : Nat) (f : Core → Core) : (s.modCore c f).launches = s.launches := rfl
@[simp] theorem State.modCore_graphs (s : State) (c : Nat) (f : Core → Core) : (s.modCore c f).graphs = s.graphs := rfl
@[simp] theorem State.modCore_order (s : State) (c : Nat) (f : Core → Core) : (s.modCore c f).order = s.order := rfl
@[simp] theorem State.modCore_feTlb (s : State) (c : Nat) (f : Core → Core) : (s.modCore c f).feTlb = s.feTlb := rfl
@[simp] theorem State.modCore_harts (s : State) (c : Nat) (f : Core → Core) : (s.modCore c f).harts = s.harts := rfl
@[simp] theorem State.modCore_saved (s : State) (c : Nat) (f : Core → Core) : (s.modCore c f).saved = s.saved := rfl
@[simp] theorem State.modCore_nodesUsed (s : State) (c : Nat) (f : Core → Core) : (s.modCore c f).nodesUsed = s.nodesUsed := rfl
@[simp] theorem State.modCore_fronts (s : State) (c : Nat) (f : Core → Core) : (s.modCore c f).fronts = s.fronts := rfl
@[simp] theorem State.modCore_waits (s : State) (c : Nat) (f : Core → Core) : (s.modCore c f).waits = s.waits := rfl

/-! `State.setGrp` changes `cores` alone. -/

@[simp] theorem State.setGrp_turn (s : State) (c g : Nat) (x : Group) : (s.setGrp c g x).turn = s.turn := rfl
@[simp] theorem State.setGrp_core (s : State) (c g : Nat) (x : Group) : (s.setGrp c g x).core = s.core := rfl
@[simp] theorem State.setGrp_slot (s : State) (c g : Nat) (x : Group) : (s.setGrp c g x).slot = s.slot := rfl
@[simp] theorem State.setGrp_hart (s : State) (c g : Nat) (x : Group) : (s.setGrp c g x).hart = s.hart := rfl
@[simp] theorem State.setGrp_now (s : State) (c g : Nat) (x : Group) : (s.setGrp c g x).now = s.now := rfl
@[simp] theorem State.setGrp_wall (s : State) (c g : Nat) (x : Group) : (s.setGrp c g x).wall = s.wall := rfl
@[simp] theorem State.setGrp_fresh (s : State) (c g : Nat) (x : Group) : (s.setGrp c g x).fresh = s.fresh := rfl
@[simp] theorem State.setGrp_mem (s : State) (c g : Nat) (x : Group) : (s.setGrp c g x).mem = s.mem := rfl
@[simp] theorem State.setGrp_poison (s : State) (c g : Nat) (x : Group) : (s.setGrp c g x).poison = s.poison := rfl
@[simp] theorem State.setGrp_eccu (s : State) (c g : Nat) (x : Group) : (s.setGrp c g x).eccu = s.eccu := rfl
@[simp] theorem State.setGrp_encTags (s : State) (c g : Nat) (x : Group) : (s.setGrp c g x).encTags = s.encTags := rfl
@[simp] theorem State.setGrp_owners (s : State) (c g : Nat) (x : Group) : (s.setGrp c g x).owners = s.owners := rfl
@[simp] theorem State.setGrp_wins (s : State) (c g : Nat) (x : Group) : (s.setGrp c g x).wins = s.wins := rfl
@[simp] theorem State.setGrp_partMap (s : State) (c g : Nat) (x : Group) : (s.setGrp c g x).partMap = s.partMap := rfl
@[simp] theorem State.setGrp_left (s : State) (c g : Nat) (x : Group) : (s.setGrp c g x).left = s.left := rfl
@[simp] theorem State.setGrp_keys (s : State) (c g : Nat) (x : Group) : (s.setGrp c g x).keys = s.keys := rfl
@[simp] theorem State.setGrp_keySel (s : State) (c g : Nat) (x : Group) : (s.setGrp c g x).keySel = s.keySel := rfl
@[simp] theorem State.setGrp_keyBlob (s : State) (c g : Nat) (x : Group) : (s.setGrp c g x).keyBlob = s.keyBlob := rfl
@[simp] theorem State.setGrp_quarBase (s : State) (c g : Nat) (x : Group) : (s.setGrp c g x).quarBase = s.quarBase := rfl
@[simp] theorem State.setGrp_quarCores (s : State) (c g : Nat) (x : Group) : (s.setGrp c g x).quarCores = s.quarCores := rfl
@[simp] theorem State.setGrp_vin (s : State) (c g : Nat) (x : Group) : (s.setGrp c g x).vin = s.vin := rfl
@[simp] theorem State.setGrp_pin (s : State) (c g : Nat) (x : Group) : (s.setGrp c g x).pin = s.pin := rfl
@[simp] theorem State.setGrp_tmax (s : State) (c g : Nat) (x : Group) : (s.setGrp c g x).tmax = s.tmax := rfl
@[simp] theorem State.setGrp_thr (s : State) (c g : Nat) (x : Group) : (s.setGrp c g x).thr = s.thr := rfl
@[simp] theorem State.setGrp_uv (s : State) (c g : Nat) (x : Group) : (s.setGrp c g x).uv = s.uv := rfl
@[simp] theorem State.setGrp_fwRun (s : State) (c g : Nat) (x : Group) : (s.setGrp c g x).fwRun = s.fwRun := rfl
@[simp] theorem State.setGrp_fwStaged (s : State) (c g : Nat) (x : Group) : (s.setGrp c g x).fwStaged = s.fwStaged := rfl
@[simp] theorem State.setGrp_roleCore (s : State) (c g : Nat) (x : Group) : (s.setGrp c g x).roleCore = s.roleCore := rfl
@[simp] theorem State.setGrp_fwDone (s : State) (c g : Nat) (x : Group) : (s.setGrp c g x).fwDone = s.fwDone := rfl
@[simp] theorem State.setGrp_fwUpd (s : State) (c g : Nat) (x : Group) : (s.setGrp c g x).fwUpd = s.fwUpd := rfl
@[simp] theorem State.setGrp_fwErr (s : State) (c g : Nat) (x : Group) : (s.setGrp c g x).fwErr = s.fwErr := rfl
@[simp] theorem State.setGrp_brusNode (s : State) (c g : Nat) (x : Group) : (s.setGrp c g x).brusNode = s.brusNode := rfl
@[simp] theorem State.setGrp_brus (s : State) (c g : Nat) (x : Group) : (s.setGrp c g x).brus = s.brus := rfl
@[simp] theorem State.setGrp_igold (s : State) (c g : Nat) (x : Group) : (s.setGrp c g x).igold = s.igold := rfl
@[simp] theorem State.setGrp_versions (s : State) (c g : Nat) (x : Group) : (s.setGrp c g x).versions = s.versions := rfl
@[simp] theorem State.setGrp_powered (s : State) (c g : Nat) (x : Group) : (s.setGrp c g x).powered = s.powered := rfl
@[simp] theorem State.setGrp_connected (s : State) (c g : Nat) (x : Group) : (s.setGrp c g x).connected = s.connected := rfl
@[simp] theorem State.setGrp_measLog (s : State) (c g : Nat) (x : Group) : (s.setGrp c g x).measLog = s.measLog := rfl
@[simp] theorem State.setGrp_attest (s : State) (c g : Nat) (x : Group) : (s.setGrp c g x).attest = s.attest := rfl
@[simp] theorem State.setGrp_msix (s : State) (c g : Nat) (x : Group) : (s.setGrp c g x).msix = s.msix := rfl
@[simp] theorem State.setGrp_mapCopy (s : State) (c g : Nat) (x : Group) : (s.setGrp c g x).mapCopy = s.mapCopy := rfl
@[simp] theorem State.setGrp_lowSince (s : State) (c g : Nat) (x : Group) : (s.setGrp c g x).lowSince = s.lowSince := rfl
@[simp] theorem State.setGrp_dimRamp (s : State) (c g : Nat) (x : Group) : (s.setGrp c g x).dimRamp = s.dimRamp := rfl
@[simp] theorem State.setGrp_parts (s : State) (c g : Nat) (x : Group) : (s.setGrp c g x).parts = s.parts := rfl
@[simp] theorem State.setGrp_clusters (s : State) (c g : Nat) (x : Group) : (s.setGrp c g x).clusters = s.clusters := rfl
@[simp] theorem State.setGrp_queues (s : State) (c g : Nat) (x : Group) : (s.setGrp c g x).queues = s.queues := rfl
@[simp] theorem State.setGrp_launches (s : State) (c g : Nat) (x : Group) : (s.setGrp c g x).launches = s.launches := rfl
@[simp] theorem State.setGrp_graphs (s : State) (c g : Nat) (x : Group) : (s.setGrp c g x).graphs = s.graphs := rfl
@[simp] theorem State.setGrp_order (s : State) (c g : Nat) (x : Group) : (s.setGrp c g x).order = s.order := rfl
@[simp] theorem State.setGrp_feTlb (s : State) (c g : Nat) (x : Group) : (s.setGrp c g x).feTlb = s.feTlb := rfl
@[simp] theorem State.setGrp_harts (s : State) (c g : Nat) (x : Group) : (s.setGrp c g x).harts = s.harts := rfl
@[simp] theorem State.setGrp_saved (s : State) (c g : Nat) (x : Group) : (s.setGrp c g x).saved = s.saved := rfl
@[simp] theorem State.setGrp_nodesUsed (s : State) (c g : Nat) (x : Group) : (s.setGrp c g x).nodesUsed = s.nodesUsed := rfl
@[simp] theorem State.setGrp_fronts (s : State) (c g : Nat) (x : Group) : (s.setGrp c g x).fronts = s.fronts := rfl
@[simp] theorem State.setGrp_waits (s : State) (c g : Nat) (x : Group) : (s.setGrp c g x).waits = s.waits := rfl

/-! `State.modGrp` changes `cores` alone. -/

@[simp] theorem State.modGrp_turn (s : State) (c g : Nat) (f : Group → Group) : (s.modGrp c g f).turn = s.turn := rfl
@[simp] theorem State.modGrp_core (s : State) (c g : Nat) (f : Group → Group) : (s.modGrp c g f).core = s.core := rfl
@[simp] theorem State.modGrp_slot (s : State) (c g : Nat) (f : Group → Group) : (s.modGrp c g f).slot = s.slot := rfl
@[simp] theorem State.modGrp_hart (s : State) (c g : Nat) (f : Group → Group) : (s.modGrp c g f).hart = s.hart := rfl
@[simp] theorem State.modGrp_now (s : State) (c g : Nat) (f : Group → Group) : (s.modGrp c g f).now = s.now := rfl
@[simp] theorem State.modGrp_wall (s : State) (c g : Nat) (f : Group → Group) : (s.modGrp c g f).wall = s.wall := rfl
@[simp] theorem State.modGrp_fresh (s : State) (c g : Nat) (f : Group → Group) : (s.modGrp c g f).fresh = s.fresh := rfl
@[simp] theorem State.modGrp_mem (s : State) (c g : Nat) (f : Group → Group) : (s.modGrp c g f).mem = s.mem := rfl
@[simp] theorem State.modGrp_poison (s : State) (c g : Nat) (f : Group → Group) : (s.modGrp c g f).poison = s.poison := rfl
@[simp] theorem State.modGrp_eccu (s : State) (c g : Nat) (f : Group → Group) : (s.modGrp c g f).eccu = s.eccu := rfl
@[simp] theorem State.modGrp_encTags (s : State) (c g : Nat) (f : Group → Group) : (s.modGrp c g f).encTags = s.encTags := rfl
@[simp] theorem State.modGrp_owners (s : State) (c g : Nat) (f : Group → Group) : (s.modGrp c g f).owners = s.owners := rfl
@[simp] theorem State.modGrp_wins (s : State) (c g : Nat) (f : Group → Group) : (s.modGrp c g f).wins = s.wins := rfl
@[simp] theorem State.modGrp_partMap (s : State) (c g : Nat) (f : Group → Group) : (s.modGrp c g f).partMap = s.partMap := rfl
@[simp] theorem State.modGrp_left (s : State) (c g : Nat) (f : Group → Group) : (s.modGrp c g f).left = s.left := rfl
@[simp] theorem State.modGrp_keys (s : State) (c g : Nat) (f : Group → Group) : (s.modGrp c g f).keys = s.keys := rfl
@[simp] theorem State.modGrp_keySel (s : State) (c g : Nat) (f : Group → Group) : (s.modGrp c g f).keySel = s.keySel := rfl
@[simp] theorem State.modGrp_keyBlob (s : State) (c g : Nat) (f : Group → Group) : (s.modGrp c g f).keyBlob = s.keyBlob := rfl
@[simp] theorem State.modGrp_quarBase (s : State) (c g : Nat) (f : Group → Group) : (s.modGrp c g f).quarBase = s.quarBase := rfl
@[simp] theorem State.modGrp_quarCores (s : State) (c g : Nat) (f : Group → Group) : (s.modGrp c g f).quarCores = s.quarCores := rfl
@[simp] theorem State.modGrp_vin (s : State) (c g : Nat) (f : Group → Group) : (s.modGrp c g f).vin = s.vin := rfl
@[simp] theorem State.modGrp_pin (s : State) (c g : Nat) (f : Group → Group) : (s.modGrp c g f).pin = s.pin := rfl
@[simp] theorem State.modGrp_tmax (s : State) (c g : Nat) (f : Group → Group) : (s.modGrp c g f).tmax = s.tmax := rfl
@[simp] theorem State.modGrp_thr (s : State) (c g : Nat) (f : Group → Group) : (s.modGrp c g f).thr = s.thr := rfl
@[simp] theorem State.modGrp_uv (s : State) (c g : Nat) (f : Group → Group) : (s.modGrp c g f).uv = s.uv := rfl
@[simp] theorem State.modGrp_fwRun (s : State) (c g : Nat) (f : Group → Group) : (s.modGrp c g f).fwRun = s.fwRun := rfl
@[simp] theorem State.modGrp_fwStaged (s : State) (c g : Nat) (f : Group → Group) : (s.modGrp c g f).fwStaged = s.fwStaged := rfl
@[simp] theorem State.modGrp_roleCore (s : State) (c g : Nat) (f : Group → Group) : (s.modGrp c g f).roleCore = s.roleCore := rfl
@[simp] theorem State.modGrp_fwDone (s : State) (c g : Nat) (f : Group → Group) : (s.modGrp c g f).fwDone = s.fwDone := rfl
@[simp] theorem State.modGrp_fwUpd (s : State) (c g : Nat) (f : Group → Group) : (s.modGrp c g f).fwUpd = s.fwUpd := rfl
@[simp] theorem State.modGrp_fwErr (s : State) (c g : Nat) (f : Group → Group) : (s.modGrp c g f).fwErr = s.fwErr := rfl
@[simp] theorem State.modGrp_brusNode (s : State) (c g : Nat) (f : Group → Group) : (s.modGrp c g f).brusNode = s.brusNode := rfl
@[simp] theorem State.modGrp_brus (s : State) (c g : Nat) (f : Group → Group) : (s.modGrp c g f).brus = s.brus := rfl
@[simp] theorem State.modGrp_igold (s : State) (c g : Nat) (f : Group → Group) : (s.modGrp c g f).igold = s.igold := rfl
@[simp] theorem State.modGrp_versions (s : State) (c g : Nat) (f : Group → Group) : (s.modGrp c g f).versions = s.versions := rfl
@[simp] theorem State.modGrp_powered (s : State) (c g : Nat) (f : Group → Group) : (s.modGrp c g f).powered = s.powered := rfl
@[simp] theorem State.modGrp_connected (s : State) (c g : Nat) (f : Group → Group) : (s.modGrp c g f).connected = s.connected := rfl
@[simp] theorem State.modGrp_measLog (s : State) (c g : Nat) (f : Group → Group) : (s.modGrp c g f).measLog = s.measLog := rfl
@[simp] theorem State.modGrp_attest (s : State) (c g : Nat) (f : Group → Group) : (s.modGrp c g f).attest = s.attest := rfl
@[simp] theorem State.modGrp_msix (s : State) (c g : Nat) (f : Group → Group) : (s.modGrp c g f).msix = s.msix := rfl
@[simp] theorem State.modGrp_mapCopy (s : State) (c g : Nat) (f : Group → Group) : (s.modGrp c g f).mapCopy = s.mapCopy := rfl
@[simp] theorem State.modGrp_lowSince (s : State) (c g : Nat) (f : Group → Group) : (s.modGrp c g f).lowSince = s.lowSince := rfl
@[simp] theorem State.modGrp_dimRamp (s : State) (c g : Nat) (f : Group → Group) : (s.modGrp c g f).dimRamp = s.dimRamp := rfl
@[simp] theorem State.modGrp_parts (s : State) (c g : Nat) (f : Group → Group) : (s.modGrp c g f).parts = s.parts := rfl
@[simp] theorem State.modGrp_clusters (s : State) (c g : Nat) (f : Group → Group) : (s.modGrp c g f).clusters = s.clusters := rfl
@[simp] theorem State.modGrp_queues (s : State) (c g : Nat) (f : Group → Group) : (s.modGrp c g f).queues = s.queues := rfl
@[simp] theorem State.modGrp_launches (s : State) (c g : Nat) (f : Group → Group) : (s.modGrp c g f).launches = s.launches := rfl
@[simp] theorem State.modGrp_graphs (s : State) (c g : Nat) (f : Group → Group) : (s.modGrp c g f).graphs = s.graphs := rfl
@[simp] theorem State.modGrp_order (s : State) (c g : Nat) (f : Group → Group) : (s.modGrp c g f).order = s.order := rfl
@[simp] theorem State.modGrp_feTlb (s : State) (c g : Nat) (f : Group → Group) : (s.modGrp c g f).feTlb = s.feTlb := rfl
@[simp] theorem State.modGrp_harts (s : State) (c g : Nat) (f : Group → Group) : (s.modGrp c g f).harts = s.harts := rfl
@[simp] theorem State.modGrp_saved (s : State) (c g : Nat) (f : Group → Group) : (s.modGrp c g f).saved = s.saved := rfl
@[simp] theorem State.modGrp_nodesUsed (s : State) (c g : Nat) (f : Group → Group) : (s.modGrp c g f).nodesUsed = s.nodesUsed := rfl
@[simp] theorem State.modGrp_fronts (s : State) (c g : Nat) (f : Group → Group) : (s.modGrp c g f).fronts = s.fronts := rfl
@[simp] theorem State.modGrp_waits (s : State) (c g : Nat) (f : Group → Group) : (s.modGrp c g f).waits = s.waits := rfl

/-! `State.modG` changes `cores` alone. -/

@[simp] theorem State.modG_turn (s : State) (f : Group → Group) : (s.modG f).turn = s.turn := rfl
@[simp] theorem State.modG_core (s : State) (f : Group → Group) : (s.modG f).core = s.core := rfl
@[simp] theorem State.modG_slot (s : State) (f : Group → Group) : (s.modG f).slot = s.slot := rfl
@[simp] theorem State.modG_hart (s : State) (f : Group → Group) : (s.modG f).hart = s.hart := rfl
@[simp] theorem State.modG_now (s : State) (f : Group → Group) : (s.modG f).now = s.now := rfl
@[simp] theorem State.modG_wall (s : State) (f : Group → Group) : (s.modG f).wall = s.wall := rfl
@[simp] theorem State.modG_fresh (s : State) (f : Group → Group) : (s.modG f).fresh = s.fresh := rfl
@[simp] theorem State.modG_mem (s : State) (f : Group → Group) : (s.modG f).mem = s.mem := rfl
@[simp] theorem State.modG_poison (s : State) (f : Group → Group) : (s.modG f).poison = s.poison := rfl
@[simp] theorem State.modG_eccu (s : State) (f : Group → Group) : (s.modG f).eccu = s.eccu := rfl
@[simp] theorem State.modG_encTags (s : State) (f : Group → Group) : (s.modG f).encTags = s.encTags := rfl
@[simp] theorem State.modG_owners (s : State) (f : Group → Group) : (s.modG f).owners = s.owners := rfl
@[simp] theorem State.modG_wins (s : State) (f : Group → Group) : (s.modG f).wins = s.wins := rfl
@[simp] theorem State.modG_partMap (s : State) (f : Group → Group) : (s.modG f).partMap = s.partMap := rfl
@[simp] theorem State.modG_left (s : State) (f : Group → Group) : (s.modG f).left = s.left := rfl
@[simp] theorem State.modG_keys (s : State) (f : Group → Group) : (s.modG f).keys = s.keys := rfl
@[simp] theorem State.modG_keySel (s : State) (f : Group → Group) : (s.modG f).keySel = s.keySel := rfl
@[simp] theorem State.modG_keyBlob (s : State) (f : Group → Group) : (s.modG f).keyBlob = s.keyBlob := rfl
@[simp] theorem State.modG_quarBase (s : State) (f : Group → Group) : (s.modG f).quarBase = s.quarBase := rfl
@[simp] theorem State.modG_quarCores (s : State) (f : Group → Group) : (s.modG f).quarCores = s.quarCores := rfl
@[simp] theorem State.modG_vin (s : State) (f : Group → Group) : (s.modG f).vin = s.vin := rfl
@[simp] theorem State.modG_pin (s : State) (f : Group → Group) : (s.modG f).pin = s.pin := rfl
@[simp] theorem State.modG_tmax (s : State) (f : Group → Group) : (s.modG f).tmax = s.tmax := rfl
@[simp] theorem State.modG_thr (s : State) (f : Group → Group) : (s.modG f).thr = s.thr := rfl
@[simp] theorem State.modG_uv (s : State) (f : Group → Group) : (s.modG f).uv = s.uv := rfl
@[simp] theorem State.modG_fwRun (s : State) (f : Group → Group) : (s.modG f).fwRun = s.fwRun := rfl
@[simp] theorem State.modG_fwStaged (s : State) (f : Group → Group) : (s.modG f).fwStaged = s.fwStaged := rfl
@[simp] theorem State.modG_roleCore (s : State) (f : Group → Group) : (s.modG f).roleCore = s.roleCore := rfl
@[simp] theorem State.modG_fwDone (s : State) (f : Group → Group) : (s.modG f).fwDone = s.fwDone := rfl
@[simp] theorem State.modG_fwUpd (s : State) (f : Group → Group) : (s.modG f).fwUpd = s.fwUpd := rfl
@[simp] theorem State.modG_fwErr (s : State) (f : Group → Group) : (s.modG f).fwErr = s.fwErr := rfl
@[simp] theorem State.modG_brusNode (s : State) (f : Group → Group) : (s.modG f).brusNode = s.brusNode := rfl
@[simp] theorem State.modG_brus (s : State) (f : Group → Group) : (s.modG f).brus = s.brus := rfl
@[simp] theorem State.modG_igold (s : State) (f : Group → Group) : (s.modG f).igold = s.igold := rfl
@[simp] theorem State.modG_versions (s : State) (f : Group → Group) : (s.modG f).versions = s.versions := rfl
@[simp] theorem State.modG_powered (s : State) (f : Group → Group) : (s.modG f).powered = s.powered := rfl
@[simp] theorem State.modG_connected (s : State) (f : Group → Group) : (s.modG f).connected = s.connected := rfl
@[simp] theorem State.modG_measLog (s : State) (f : Group → Group) : (s.modG f).measLog = s.measLog := rfl
@[simp] theorem State.modG_attest (s : State) (f : Group → Group) : (s.modG f).attest = s.attest := rfl
@[simp] theorem State.modG_msix (s : State) (f : Group → Group) : (s.modG f).msix = s.msix := rfl
@[simp] theorem State.modG_mapCopy (s : State) (f : Group → Group) : (s.modG f).mapCopy = s.mapCopy := rfl
@[simp] theorem State.modG_lowSince (s : State) (f : Group → Group) : (s.modG f).lowSince = s.lowSince := rfl
@[simp] theorem State.modG_dimRamp (s : State) (f : Group → Group) : (s.modG f).dimRamp = s.dimRamp := rfl
@[simp] theorem State.modG_parts (s : State) (f : Group → Group) : (s.modG f).parts = s.parts := rfl
@[simp] theorem State.modG_clusters (s : State) (f : Group → Group) : (s.modG f).clusters = s.clusters := rfl
@[simp] theorem State.modG_queues (s : State) (f : Group → Group) : (s.modG f).queues = s.queues := rfl
@[simp] theorem State.modG_launches (s : State) (f : Group → Group) : (s.modG f).launches = s.launches := rfl
@[simp] theorem State.modG_graphs (s : State) (f : Group → Group) : (s.modG f).graphs = s.graphs := rfl
@[simp] theorem State.modG_order (s : State) (f : Group → Group) : (s.modG f).order = s.order := rfl
@[simp] theorem State.modG_feTlb (s : State) (f : Group → Group) : (s.modG f).feTlb = s.feTlb := rfl
@[simp] theorem State.modG_harts (s : State) (f : Group → Group) : (s.modG f).harts = s.harts := rfl
@[simp] theorem State.modG_saved (s : State) (f : Group → Group) : (s.modG f).saved = s.saved := rfl
@[simp] theorem State.modG_nodesUsed (s : State) (f : Group → Group) : (s.modG f).nodesUsed = s.nodesUsed := rfl
@[simp] theorem State.modG_fronts (s : State) (f : Group → Group) : (s.modG f).fronts = s.fronts := rfl
@[simp] theorem State.modG_waits (s : State) (f : Group → Group) : (s.modG f).waits = s.waits := rfl

/-! `State.modLch` changes `launches` alone. -/

@[simp] theorem State.modLch_turn (s : State) (n : Nat) (f : Launch → Launch) : (s.modLch n f).turn = s.turn := rfl
@[simp] theorem State.modLch_core (s : State) (n : Nat) (f : Launch → Launch) : (s.modLch n f).core = s.core := rfl
@[simp] theorem State.modLch_slot (s : State) (n : Nat) (f : Launch → Launch) : (s.modLch n f).slot = s.slot := rfl
@[simp] theorem State.modLch_hart (s : State) (n : Nat) (f : Launch → Launch) : (s.modLch n f).hart = s.hart := rfl
@[simp] theorem State.modLch_now (s : State) (n : Nat) (f : Launch → Launch) : (s.modLch n f).now = s.now := rfl
@[simp] theorem State.modLch_wall (s : State) (n : Nat) (f : Launch → Launch) : (s.modLch n f).wall = s.wall := rfl
@[simp] theorem State.modLch_fresh (s : State) (n : Nat) (f : Launch → Launch) : (s.modLch n f).fresh = s.fresh := rfl
@[simp] theorem State.modLch_mem (s : State) (n : Nat) (f : Launch → Launch) : (s.modLch n f).mem = s.mem := rfl
@[simp] theorem State.modLch_poison (s : State) (n : Nat) (f : Launch → Launch) : (s.modLch n f).poison = s.poison := rfl
@[simp] theorem State.modLch_eccu (s : State) (n : Nat) (f : Launch → Launch) : (s.modLch n f).eccu = s.eccu := rfl
@[simp] theorem State.modLch_encTags (s : State) (n : Nat) (f : Launch → Launch) : (s.modLch n f).encTags = s.encTags := rfl
@[simp] theorem State.modLch_owners (s : State) (n : Nat) (f : Launch → Launch) : (s.modLch n f).owners = s.owners := rfl
@[simp] theorem State.modLch_wins (s : State) (n : Nat) (f : Launch → Launch) : (s.modLch n f).wins = s.wins := rfl
@[simp] theorem State.modLch_partMap (s : State) (n : Nat) (f : Launch → Launch) : (s.modLch n f).partMap = s.partMap := rfl
@[simp] theorem State.modLch_left (s : State) (n : Nat) (f : Launch → Launch) : (s.modLch n f).left = s.left := rfl
@[simp] theorem State.modLch_keys (s : State) (n : Nat) (f : Launch → Launch) : (s.modLch n f).keys = s.keys := rfl
@[simp] theorem State.modLch_keySel (s : State) (n : Nat) (f : Launch → Launch) : (s.modLch n f).keySel = s.keySel := rfl
@[simp] theorem State.modLch_keyBlob (s : State) (n : Nat) (f : Launch → Launch) : (s.modLch n f).keyBlob = s.keyBlob := rfl
@[simp] theorem State.modLch_quarBase (s : State) (n : Nat) (f : Launch → Launch) : (s.modLch n f).quarBase = s.quarBase := rfl
@[simp] theorem State.modLch_quarCores (s : State) (n : Nat) (f : Launch → Launch) : (s.modLch n f).quarCores = s.quarCores := rfl
@[simp] theorem State.modLch_vin (s : State) (n : Nat) (f : Launch → Launch) : (s.modLch n f).vin = s.vin := rfl
@[simp] theorem State.modLch_pin (s : State) (n : Nat) (f : Launch → Launch) : (s.modLch n f).pin = s.pin := rfl
@[simp] theorem State.modLch_tmax (s : State) (n : Nat) (f : Launch → Launch) : (s.modLch n f).tmax = s.tmax := rfl
@[simp] theorem State.modLch_thr (s : State) (n : Nat) (f : Launch → Launch) : (s.modLch n f).thr = s.thr := rfl
@[simp] theorem State.modLch_uv (s : State) (n : Nat) (f : Launch → Launch) : (s.modLch n f).uv = s.uv := rfl
@[simp] theorem State.modLch_fwRun (s : State) (n : Nat) (f : Launch → Launch) : (s.modLch n f).fwRun = s.fwRun := rfl
@[simp] theorem State.modLch_fwStaged (s : State) (n : Nat) (f : Launch → Launch) : (s.modLch n f).fwStaged = s.fwStaged := rfl
@[simp] theorem State.modLch_roleCore (s : State) (n : Nat) (f : Launch → Launch) : (s.modLch n f).roleCore = s.roleCore := rfl
@[simp] theorem State.modLch_fwDone (s : State) (n : Nat) (f : Launch → Launch) : (s.modLch n f).fwDone = s.fwDone := rfl
@[simp] theorem State.modLch_fwUpd (s : State) (n : Nat) (f : Launch → Launch) : (s.modLch n f).fwUpd = s.fwUpd := rfl
@[simp] theorem State.modLch_fwErr (s : State) (n : Nat) (f : Launch → Launch) : (s.modLch n f).fwErr = s.fwErr := rfl
@[simp] theorem State.modLch_brusNode (s : State) (n : Nat) (f : Launch → Launch) : (s.modLch n f).brusNode = s.brusNode := rfl
@[simp] theorem State.modLch_brus (s : State) (n : Nat) (f : Launch → Launch) : (s.modLch n f).brus = s.brus := rfl
@[simp] theorem State.modLch_igold (s : State) (n : Nat) (f : Launch → Launch) : (s.modLch n f).igold = s.igold := rfl
@[simp] theorem State.modLch_versions (s : State) (n : Nat) (f : Launch → Launch) : (s.modLch n f).versions = s.versions := rfl
@[simp] theorem State.modLch_powered (s : State) (n : Nat) (f : Launch → Launch) : (s.modLch n f).powered = s.powered := rfl
@[simp] theorem State.modLch_connected (s : State) (n : Nat) (f : Launch → Launch) : (s.modLch n f).connected = s.connected := rfl
@[simp] theorem State.modLch_measLog (s : State) (n : Nat) (f : Launch → Launch) : (s.modLch n f).measLog = s.measLog := rfl
@[simp] theorem State.modLch_attest (s : State) (n : Nat) (f : Launch → Launch) : (s.modLch n f).attest = s.attest := rfl
@[simp] theorem State.modLch_msix (s : State) (n : Nat) (f : Launch → Launch) : (s.modLch n f).msix = s.msix := rfl
@[simp] theorem State.modLch_mapCopy (s : State) (n : Nat) (f : Launch → Launch) : (s.modLch n f).mapCopy = s.mapCopy := rfl
@[simp] theorem State.modLch_lowSince (s : State) (n : Nat) (f : Launch → Launch) : (s.modLch n f).lowSince = s.lowSince := rfl
@[simp] theorem State.modLch_dimRamp (s : State) (n : Nat) (f : Launch → Launch) : (s.modLch n f).dimRamp = s.dimRamp := rfl
@[simp] theorem State.modLch_parts (s : State) (n : Nat) (f : Launch → Launch) : (s.modLch n f).parts = s.parts := rfl
@[simp] theorem State.modLch_clusters (s : State) (n : Nat) (f : Launch → Launch) : (s.modLch n f).clusters = s.clusters := rfl
@[simp] theorem State.modLch_cores (s : State) (n : Nat) (f : Launch → Launch) : (s.modLch n f).cores = s.cores := rfl
@[simp] theorem State.modLch_queues (s : State) (n : Nat) (f : Launch → Launch) : (s.modLch n f).queues = s.queues := rfl
@[simp] theorem State.modLch_graphs (s : State) (n : Nat) (f : Launch → Launch) : (s.modLch n f).graphs = s.graphs := rfl
@[simp] theorem State.modLch_order (s : State) (n : Nat) (f : Launch → Launch) : (s.modLch n f).order = s.order := rfl
@[simp] theorem State.modLch_feTlb (s : State) (n : Nat) (f : Launch → Launch) : (s.modLch n f).feTlb = s.feTlb := rfl
@[simp] theorem State.modLch_harts (s : State) (n : Nat) (f : Launch → Launch) : (s.modLch n f).harts = s.harts := rfl
@[simp] theorem State.modLch_saved (s : State) (n : Nat) (f : Launch → Launch) : (s.modLch n f).saved = s.saved := rfl
@[simp] theorem State.modLch_nodesUsed (s : State) (n : Nat) (f : Launch → Launch) : (s.modLch n f).nodesUsed = s.nodesUsed := rfl
@[simp] theorem State.modLch_fronts (s : State) (n : Nat) (f : Launch → Launch) : (s.modLch n f).fronts = s.fronts := rfl
@[simp] theorem State.modLch_waits (s : State) (n : Nat) (f : Launch → Launch) : (s.modLch n f).waits = s.waits := rfl

/-! `State.modPart` changes `parts` alone. -/

@[simp] theorem State.modPart_turn (s : State) (n : Nat) (f : Part → Part) : (s.modPart n f).turn = s.turn := rfl
@[simp] theorem State.modPart_core (s : State) (n : Nat) (f : Part → Part) : (s.modPart n f).core = s.core := rfl
@[simp] theorem State.modPart_slot (s : State) (n : Nat) (f : Part → Part) : (s.modPart n f).slot = s.slot := rfl
@[simp] theorem State.modPart_hart (s : State) (n : Nat) (f : Part → Part) : (s.modPart n f).hart = s.hart := rfl
@[simp] theorem State.modPart_now (s : State) (n : Nat) (f : Part → Part) : (s.modPart n f).now = s.now := rfl
@[simp] theorem State.modPart_wall (s : State) (n : Nat) (f : Part → Part) : (s.modPart n f).wall = s.wall := rfl
@[simp] theorem State.modPart_fresh (s : State) (n : Nat) (f : Part → Part) : (s.modPart n f).fresh = s.fresh := rfl
@[simp] theorem State.modPart_mem (s : State) (n : Nat) (f : Part → Part) : (s.modPart n f).mem = s.mem := rfl
@[simp] theorem State.modPart_poison (s : State) (n : Nat) (f : Part → Part) : (s.modPart n f).poison = s.poison := rfl
@[simp] theorem State.modPart_eccu (s : State) (n : Nat) (f : Part → Part) : (s.modPart n f).eccu = s.eccu := rfl
@[simp] theorem State.modPart_encTags (s : State) (n : Nat) (f : Part → Part) : (s.modPart n f).encTags = s.encTags := rfl
@[simp] theorem State.modPart_owners (s : State) (n : Nat) (f : Part → Part) : (s.modPart n f).owners = s.owners := rfl
@[simp] theorem State.modPart_wins (s : State) (n : Nat) (f : Part → Part) : (s.modPart n f).wins = s.wins := rfl
@[simp] theorem State.modPart_partMap (s : State) (n : Nat) (f : Part → Part) : (s.modPart n f).partMap = s.partMap := rfl
@[simp] theorem State.modPart_left (s : State) (n : Nat) (f : Part → Part) : (s.modPart n f).left = s.left := rfl
@[simp] theorem State.modPart_keys (s : State) (n : Nat) (f : Part → Part) : (s.modPart n f).keys = s.keys := rfl
@[simp] theorem State.modPart_keySel (s : State) (n : Nat) (f : Part → Part) : (s.modPart n f).keySel = s.keySel := rfl
@[simp] theorem State.modPart_keyBlob (s : State) (n : Nat) (f : Part → Part) : (s.modPart n f).keyBlob = s.keyBlob := rfl
@[simp] theorem State.modPart_quarBase (s : State) (n : Nat) (f : Part → Part) : (s.modPart n f).quarBase = s.quarBase := rfl
@[simp] theorem State.modPart_quarCores (s : State) (n : Nat) (f : Part → Part) : (s.modPart n f).quarCores = s.quarCores := rfl
@[simp] theorem State.modPart_vin (s : State) (n : Nat) (f : Part → Part) : (s.modPart n f).vin = s.vin := rfl
@[simp] theorem State.modPart_pin (s : State) (n : Nat) (f : Part → Part) : (s.modPart n f).pin = s.pin := rfl
@[simp] theorem State.modPart_tmax (s : State) (n : Nat) (f : Part → Part) : (s.modPart n f).tmax = s.tmax := rfl
@[simp] theorem State.modPart_thr (s : State) (n : Nat) (f : Part → Part) : (s.modPart n f).thr = s.thr := rfl
@[simp] theorem State.modPart_uv (s : State) (n : Nat) (f : Part → Part) : (s.modPart n f).uv = s.uv := rfl
@[simp] theorem State.modPart_fwRun (s : State) (n : Nat) (f : Part → Part) : (s.modPart n f).fwRun = s.fwRun := rfl
@[simp] theorem State.modPart_fwStaged (s : State) (n : Nat) (f : Part → Part) : (s.modPart n f).fwStaged = s.fwStaged := rfl
@[simp] theorem State.modPart_roleCore (s : State) (n : Nat) (f : Part → Part) : (s.modPart n f).roleCore = s.roleCore := rfl
@[simp] theorem State.modPart_fwDone (s : State) (n : Nat) (f : Part → Part) : (s.modPart n f).fwDone = s.fwDone := rfl
@[simp] theorem State.modPart_fwUpd (s : State) (n : Nat) (f : Part → Part) : (s.modPart n f).fwUpd = s.fwUpd := rfl
@[simp] theorem State.modPart_fwErr (s : State) (n : Nat) (f : Part → Part) : (s.modPart n f).fwErr = s.fwErr := rfl
@[simp] theorem State.modPart_brusNode (s : State) (n : Nat) (f : Part → Part) : (s.modPart n f).brusNode = s.brusNode := rfl
@[simp] theorem State.modPart_brus (s : State) (n : Nat) (f : Part → Part) : (s.modPart n f).brus = s.brus := rfl
@[simp] theorem State.modPart_igold (s : State) (n : Nat) (f : Part → Part) : (s.modPart n f).igold = s.igold := rfl
@[simp] theorem State.modPart_versions (s : State) (n : Nat) (f : Part → Part) : (s.modPart n f).versions = s.versions := rfl
@[simp] theorem State.modPart_powered (s : State) (n : Nat) (f : Part → Part) : (s.modPart n f).powered = s.powered := rfl
@[simp] theorem State.modPart_connected (s : State) (n : Nat) (f : Part → Part) : (s.modPart n f).connected = s.connected := rfl
@[simp] theorem State.modPart_measLog (s : State) (n : Nat) (f : Part → Part) : (s.modPart n f).measLog = s.measLog := rfl
@[simp] theorem State.modPart_attest (s : State) (n : Nat) (f : Part → Part) : (s.modPart n f).attest = s.attest := rfl
@[simp] theorem State.modPart_msix (s : State) (n : Nat) (f : Part → Part) : (s.modPart n f).msix = s.msix := rfl
@[simp] theorem State.modPart_mapCopy (s : State) (n : Nat) (f : Part → Part) : (s.modPart n f).mapCopy = s.mapCopy := rfl
@[simp] theorem State.modPart_lowSince (s : State) (n : Nat) (f : Part → Part) : (s.modPart n f).lowSince = s.lowSince := rfl
@[simp] theorem State.modPart_dimRamp (s : State) (n : Nat) (f : Part → Part) : (s.modPart n f).dimRamp = s.dimRamp := rfl
@[simp] theorem State.modPart_clusters (s : State) (n : Nat) (f : Part → Part) : (s.modPart n f).clusters = s.clusters := rfl
@[simp] theorem State.modPart_cores (s : State) (n : Nat) (f : Part → Part) : (s.modPart n f).cores = s.cores := rfl
@[simp] theorem State.modPart_queues (s : State) (n : Nat) (f : Part → Part) : (s.modPart n f).queues = s.queues := rfl
@[simp] theorem State.modPart_launches (s : State) (n : Nat) (f : Part → Part) : (s.modPart n f).launches = s.launches := rfl
@[simp] theorem State.modPart_graphs (s : State) (n : Nat) (f : Part → Part) : (s.modPart n f).graphs = s.graphs := rfl
@[simp] theorem State.modPart_order (s : State) (n : Nat) (f : Part → Part) : (s.modPart n f).order = s.order := rfl
@[simp] theorem State.modPart_feTlb (s : State) (n : Nat) (f : Part → Part) : (s.modPart n f).feTlb = s.feTlb := rfl
@[simp] theorem State.modPart_harts (s : State) (n : Nat) (f : Part → Part) : (s.modPart n f).harts = s.harts := rfl
@[simp] theorem State.modPart_saved (s : State) (n : Nat) (f : Part → Part) : (s.modPart n f).saved = s.saved := rfl
@[simp] theorem State.modPart_nodesUsed (s : State) (n : Nat) (f : Part → Part) : (s.modPart n f).nodesUsed = s.nodesUsed := rfl
@[simp] theorem State.modPart_fronts (s : State) (n : Nat) (f : Part → Part) : (s.modPart n f).fronts = s.fronts := rfl
@[simp] theorem State.modPart_waits (s : State) (n : Nat) (f : Part → Part) : (s.modPart n f).waits = s.waits := rfl

/-! `State.modCl` changes `clusters` alone. -/

@[simp] theorem State.modCl_turn (s : State) (n : Nat) (f : Cluster → Cluster) : (s.modCl n f).turn = s.turn := rfl
@[simp] theorem State.modCl_core (s : State) (n : Nat) (f : Cluster → Cluster) : (s.modCl n f).core = s.core := rfl
@[simp] theorem State.modCl_slot (s : State) (n : Nat) (f : Cluster → Cluster) : (s.modCl n f).slot = s.slot := rfl
@[simp] theorem State.modCl_hart (s : State) (n : Nat) (f : Cluster → Cluster) : (s.modCl n f).hart = s.hart := rfl
@[simp] theorem State.modCl_now (s : State) (n : Nat) (f : Cluster → Cluster) : (s.modCl n f).now = s.now := rfl
@[simp] theorem State.modCl_wall (s : State) (n : Nat) (f : Cluster → Cluster) : (s.modCl n f).wall = s.wall := rfl
@[simp] theorem State.modCl_fresh (s : State) (n : Nat) (f : Cluster → Cluster) : (s.modCl n f).fresh = s.fresh := rfl
@[simp] theorem State.modCl_mem (s : State) (n : Nat) (f : Cluster → Cluster) : (s.modCl n f).mem = s.mem := rfl
@[simp] theorem State.modCl_poison (s : State) (n : Nat) (f : Cluster → Cluster) : (s.modCl n f).poison = s.poison := rfl
@[simp] theorem State.modCl_eccu (s : State) (n : Nat) (f : Cluster → Cluster) : (s.modCl n f).eccu = s.eccu := rfl
@[simp] theorem State.modCl_encTags (s : State) (n : Nat) (f : Cluster → Cluster) : (s.modCl n f).encTags = s.encTags := rfl
@[simp] theorem State.modCl_owners (s : State) (n : Nat) (f : Cluster → Cluster) : (s.modCl n f).owners = s.owners := rfl
@[simp] theorem State.modCl_wins (s : State) (n : Nat) (f : Cluster → Cluster) : (s.modCl n f).wins = s.wins := rfl
@[simp] theorem State.modCl_partMap (s : State) (n : Nat) (f : Cluster → Cluster) : (s.modCl n f).partMap = s.partMap := rfl
@[simp] theorem State.modCl_left (s : State) (n : Nat) (f : Cluster → Cluster) : (s.modCl n f).left = s.left := rfl
@[simp] theorem State.modCl_keys (s : State) (n : Nat) (f : Cluster → Cluster) : (s.modCl n f).keys = s.keys := rfl
@[simp] theorem State.modCl_keySel (s : State) (n : Nat) (f : Cluster → Cluster) : (s.modCl n f).keySel = s.keySel := rfl
@[simp] theorem State.modCl_keyBlob (s : State) (n : Nat) (f : Cluster → Cluster) : (s.modCl n f).keyBlob = s.keyBlob := rfl
@[simp] theorem State.modCl_quarBase (s : State) (n : Nat) (f : Cluster → Cluster) : (s.modCl n f).quarBase = s.quarBase := rfl
@[simp] theorem State.modCl_quarCores (s : State) (n : Nat) (f : Cluster → Cluster) : (s.modCl n f).quarCores = s.quarCores := rfl
@[simp] theorem State.modCl_vin (s : State) (n : Nat) (f : Cluster → Cluster) : (s.modCl n f).vin = s.vin := rfl
@[simp] theorem State.modCl_pin (s : State) (n : Nat) (f : Cluster → Cluster) : (s.modCl n f).pin = s.pin := rfl
@[simp] theorem State.modCl_tmax (s : State) (n : Nat) (f : Cluster → Cluster) : (s.modCl n f).tmax = s.tmax := rfl
@[simp] theorem State.modCl_thr (s : State) (n : Nat) (f : Cluster → Cluster) : (s.modCl n f).thr = s.thr := rfl
@[simp] theorem State.modCl_uv (s : State) (n : Nat) (f : Cluster → Cluster) : (s.modCl n f).uv = s.uv := rfl
@[simp] theorem State.modCl_fwRun (s : State) (n : Nat) (f : Cluster → Cluster) : (s.modCl n f).fwRun = s.fwRun := rfl
@[simp] theorem State.modCl_fwStaged (s : State) (n : Nat) (f : Cluster → Cluster) : (s.modCl n f).fwStaged = s.fwStaged := rfl
@[simp] theorem State.modCl_roleCore (s : State) (n : Nat) (f : Cluster → Cluster) : (s.modCl n f).roleCore = s.roleCore := rfl
@[simp] theorem State.modCl_fwDone (s : State) (n : Nat) (f : Cluster → Cluster) : (s.modCl n f).fwDone = s.fwDone := rfl
@[simp] theorem State.modCl_fwUpd (s : State) (n : Nat) (f : Cluster → Cluster) : (s.modCl n f).fwUpd = s.fwUpd := rfl
@[simp] theorem State.modCl_fwErr (s : State) (n : Nat) (f : Cluster → Cluster) : (s.modCl n f).fwErr = s.fwErr := rfl
@[simp] theorem State.modCl_brusNode (s : State) (n : Nat) (f : Cluster → Cluster) : (s.modCl n f).brusNode = s.brusNode := rfl
@[simp] theorem State.modCl_brus (s : State) (n : Nat) (f : Cluster → Cluster) : (s.modCl n f).brus = s.brus := rfl
@[simp] theorem State.modCl_igold (s : State) (n : Nat) (f : Cluster → Cluster) : (s.modCl n f).igold = s.igold := rfl
@[simp] theorem State.modCl_versions (s : State) (n : Nat) (f : Cluster → Cluster) : (s.modCl n f).versions = s.versions := rfl
@[simp] theorem State.modCl_powered (s : State) (n : Nat) (f : Cluster → Cluster) : (s.modCl n f).powered = s.powered := rfl
@[simp] theorem State.modCl_connected (s : State) (n : Nat) (f : Cluster → Cluster) : (s.modCl n f).connected = s.connected := rfl
@[simp] theorem State.modCl_measLog (s : State) (n : Nat) (f : Cluster → Cluster) : (s.modCl n f).measLog = s.measLog := rfl
@[simp] theorem State.modCl_attest (s : State) (n : Nat) (f : Cluster → Cluster) : (s.modCl n f).attest = s.attest := rfl
@[simp] theorem State.modCl_msix (s : State) (n : Nat) (f : Cluster → Cluster) : (s.modCl n f).msix = s.msix := rfl
@[simp] theorem State.modCl_mapCopy (s : State) (n : Nat) (f : Cluster → Cluster) : (s.modCl n f).mapCopy = s.mapCopy := rfl
@[simp] theorem State.modCl_lowSince (s : State) (n : Nat) (f : Cluster → Cluster) : (s.modCl n f).lowSince = s.lowSince := rfl
@[simp] theorem State.modCl_dimRamp (s : State) (n : Nat) (f : Cluster → Cluster) : (s.modCl n f).dimRamp = s.dimRamp := rfl
@[simp] theorem State.modCl_parts (s : State) (n : Nat) (f : Cluster → Cluster) : (s.modCl n f).parts = s.parts := rfl
@[simp] theorem State.modCl_cores (s : State) (n : Nat) (f : Cluster → Cluster) : (s.modCl n f).cores = s.cores := rfl
@[simp] theorem State.modCl_queues (s : State) (n : Nat) (f : Cluster → Cluster) : (s.modCl n f).queues = s.queues := rfl
@[simp] theorem State.modCl_launches (s : State) (n : Nat) (f : Cluster → Cluster) : (s.modCl n f).launches = s.launches := rfl
@[simp] theorem State.modCl_graphs (s : State) (n : Nat) (f : Cluster → Cluster) : (s.modCl n f).graphs = s.graphs := rfl
@[simp] theorem State.modCl_order (s : State) (n : Nat) (f : Cluster → Cluster) : (s.modCl n f).order = s.order := rfl
@[simp] theorem State.modCl_feTlb (s : State) (n : Nat) (f : Cluster → Cluster) : (s.modCl n f).feTlb = s.feTlb := rfl
@[simp] theorem State.modCl_harts (s : State) (n : Nat) (f : Cluster → Cluster) : (s.modCl n f).harts = s.harts := rfl
@[simp] theorem State.modCl_saved (s : State) (n : Nat) (f : Cluster → Cluster) : (s.modCl n f).saved = s.saved := rfl
@[simp] theorem State.modCl_nodesUsed (s : State) (n : Nat) (f : Cluster → Cluster) : (s.modCl n f).nodesUsed = s.nodesUsed := rfl
@[simp] theorem State.modCl_fronts (s : State) (n : Nat) (f : Cluster → Cluster) : (s.modCl n f).fronts = s.fronts := rfl
@[simp] theorem State.modCl_waits (s : State) (n : Nat) (f : Cluster → Cluster) : (s.modCl n f).waits = s.waits := rfl

/-! `State.modQ` changes `queues` alone. -/

@[simp] theorem State.modQ_turn (s : State) (n : Nat) (f : Queue → Queue) : (s.modQ n f).turn = s.turn := rfl
@[simp] theorem State.modQ_core (s : State) (n : Nat) (f : Queue → Queue) : (s.modQ n f).core = s.core := rfl
@[simp] theorem State.modQ_slot (s : State) (n : Nat) (f : Queue → Queue) : (s.modQ n f).slot = s.slot := rfl
@[simp] theorem State.modQ_hart (s : State) (n : Nat) (f : Queue → Queue) : (s.modQ n f).hart = s.hart := rfl
@[simp] theorem State.modQ_now (s : State) (n : Nat) (f : Queue → Queue) : (s.modQ n f).now = s.now := rfl
@[simp] theorem State.modQ_wall (s : State) (n : Nat) (f : Queue → Queue) : (s.modQ n f).wall = s.wall := rfl
@[simp] theorem State.modQ_fresh (s : State) (n : Nat) (f : Queue → Queue) : (s.modQ n f).fresh = s.fresh := rfl
@[simp] theorem State.modQ_mem (s : State) (n : Nat) (f : Queue → Queue) : (s.modQ n f).mem = s.mem := rfl
@[simp] theorem State.modQ_poison (s : State) (n : Nat) (f : Queue → Queue) : (s.modQ n f).poison = s.poison := rfl
@[simp] theorem State.modQ_eccu (s : State) (n : Nat) (f : Queue → Queue) : (s.modQ n f).eccu = s.eccu := rfl
@[simp] theorem State.modQ_encTags (s : State) (n : Nat) (f : Queue → Queue) : (s.modQ n f).encTags = s.encTags := rfl
@[simp] theorem State.modQ_owners (s : State) (n : Nat) (f : Queue → Queue) : (s.modQ n f).owners = s.owners := rfl
@[simp] theorem State.modQ_wins (s : State) (n : Nat) (f : Queue → Queue) : (s.modQ n f).wins = s.wins := rfl
@[simp] theorem State.modQ_partMap (s : State) (n : Nat) (f : Queue → Queue) : (s.modQ n f).partMap = s.partMap := rfl
@[simp] theorem State.modQ_left (s : State) (n : Nat) (f : Queue → Queue) : (s.modQ n f).left = s.left := rfl
@[simp] theorem State.modQ_keys (s : State) (n : Nat) (f : Queue → Queue) : (s.modQ n f).keys = s.keys := rfl
@[simp] theorem State.modQ_keySel (s : State) (n : Nat) (f : Queue → Queue) : (s.modQ n f).keySel = s.keySel := rfl
@[simp] theorem State.modQ_keyBlob (s : State) (n : Nat) (f : Queue → Queue) : (s.modQ n f).keyBlob = s.keyBlob := rfl
@[simp] theorem State.modQ_quarBase (s : State) (n : Nat) (f : Queue → Queue) : (s.modQ n f).quarBase = s.quarBase := rfl
@[simp] theorem State.modQ_quarCores (s : State) (n : Nat) (f : Queue → Queue) : (s.modQ n f).quarCores = s.quarCores := rfl
@[simp] theorem State.modQ_vin (s : State) (n : Nat) (f : Queue → Queue) : (s.modQ n f).vin = s.vin := rfl
@[simp] theorem State.modQ_pin (s : State) (n : Nat) (f : Queue → Queue) : (s.modQ n f).pin = s.pin := rfl
@[simp] theorem State.modQ_tmax (s : State) (n : Nat) (f : Queue → Queue) : (s.modQ n f).tmax = s.tmax := rfl
@[simp] theorem State.modQ_thr (s : State) (n : Nat) (f : Queue → Queue) : (s.modQ n f).thr = s.thr := rfl
@[simp] theorem State.modQ_uv (s : State) (n : Nat) (f : Queue → Queue) : (s.modQ n f).uv = s.uv := rfl
@[simp] theorem State.modQ_fwRun (s : State) (n : Nat) (f : Queue → Queue) : (s.modQ n f).fwRun = s.fwRun := rfl
@[simp] theorem State.modQ_fwStaged (s : State) (n : Nat) (f : Queue → Queue) : (s.modQ n f).fwStaged = s.fwStaged := rfl
@[simp] theorem State.modQ_roleCore (s : State) (n : Nat) (f : Queue → Queue) : (s.modQ n f).roleCore = s.roleCore := rfl
@[simp] theorem State.modQ_fwDone (s : State) (n : Nat) (f : Queue → Queue) : (s.modQ n f).fwDone = s.fwDone := rfl
@[simp] theorem State.modQ_fwUpd (s : State) (n : Nat) (f : Queue → Queue) : (s.modQ n f).fwUpd = s.fwUpd := rfl
@[simp] theorem State.modQ_fwErr (s : State) (n : Nat) (f : Queue → Queue) : (s.modQ n f).fwErr = s.fwErr := rfl
@[simp] theorem State.modQ_brusNode (s : State) (n : Nat) (f : Queue → Queue) : (s.modQ n f).brusNode = s.brusNode := rfl
@[simp] theorem State.modQ_brus (s : State) (n : Nat) (f : Queue → Queue) : (s.modQ n f).brus = s.brus := rfl
@[simp] theorem State.modQ_igold (s : State) (n : Nat) (f : Queue → Queue) : (s.modQ n f).igold = s.igold := rfl
@[simp] theorem State.modQ_versions (s : State) (n : Nat) (f : Queue → Queue) : (s.modQ n f).versions = s.versions := rfl
@[simp] theorem State.modQ_powered (s : State) (n : Nat) (f : Queue → Queue) : (s.modQ n f).powered = s.powered := rfl
@[simp] theorem State.modQ_connected (s : State) (n : Nat) (f : Queue → Queue) : (s.modQ n f).connected = s.connected := rfl
@[simp] theorem State.modQ_measLog (s : State) (n : Nat) (f : Queue → Queue) : (s.modQ n f).measLog = s.measLog := rfl
@[simp] theorem State.modQ_attest (s : State) (n : Nat) (f : Queue → Queue) : (s.modQ n f).attest = s.attest := rfl
@[simp] theorem State.modQ_msix (s : State) (n : Nat) (f : Queue → Queue) : (s.modQ n f).msix = s.msix := rfl
@[simp] theorem State.modQ_mapCopy (s : State) (n : Nat) (f : Queue → Queue) : (s.modQ n f).mapCopy = s.mapCopy := rfl
@[simp] theorem State.modQ_lowSince (s : State) (n : Nat) (f : Queue → Queue) : (s.modQ n f).lowSince = s.lowSince := rfl
@[simp] theorem State.modQ_dimRamp (s : State) (n : Nat) (f : Queue → Queue) : (s.modQ n f).dimRamp = s.dimRamp := rfl
@[simp] theorem State.modQ_parts (s : State) (n : Nat) (f : Queue → Queue) : (s.modQ n f).parts = s.parts := rfl
@[simp] theorem State.modQ_clusters (s : State) (n : Nat) (f : Queue → Queue) : (s.modQ n f).clusters = s.clusters := rfl
@[simp] theorem State.modQ_cores (s : State) (n : Nat) (f : Queue → Queue) : (s.modQ n f).cores = s.cores := rfl
@[simp] theorem State.modQ_launches (s : State) (n : Nat) (f : Queue → Queue) : (s.modQ n f).launches = s.launches := rfl
@[simp] theorem State.modQ_graphs (s : State) (n : Nat) (f : Queue → Queue) : (s.modQ n f).graphs = s.graphs := rfl
@[simp] theorem State.modQ_order (s : State) (n : Nat) (f : Queue → Queue) : (s.modQ n f).order = s.order := rfl
@[simp] theorem State.modQ_feTlb (s : State) (n : Nat) (f : Queue → Queue) : (s.modQ n f).feTlb = s.feTlb := rfl
@[simp] theorem State.modQ_harts (s : State) (n : Nat) (f : Queue → Queue) : (s.modQ n f).harts = s.harts := rfl
@[simp] theorem State.modQ_saved (s : State) (n : Nat) (f : Queue → Queue) : (s.modQ n f).saved = s.saved := rfl
@[simp] theorem State.modQ_nodesUsed (s : State) (n : Nat) (f : Queue → Queue) : (s.modQ n f).nodesUsed = s.nodesUsed := rfl
@[simp] theorem State.modQ_fronts (s : State) (n : Nat) (f : Queue → Queue) : (s.modQ n f).fronts = s.fronts := rfl
@[simp] theorem State.modQ_waits (s : State) (n : Nat) (f : Queue → Queue) : (s.modQ n f).waits = s.waits := rfl

/-! `State.modHart` changes `harts` alone. -/

@[simp] theorem State.modHart_turn (s : State) (n : Nat) (f : Hart → Hart) : (s.modHart n f).turn = s.turn := rfl
@[simp] theorem State.modHart_core (s : State) (n : Nat) (f : Hart → Hart) : (s.modHart n f).core = s.core := rfl
@[simp] theorem State.modHart_slot (s : State) (n : Nat) (f : Hart → Hart) : (s.modHart n f).slot = s.slot := rfl
@[simp] theorem State.modHart_hart (s : State) (n : Nat) (f : Hart → Hart) : (s.modHart n f).hart = s.hart := rfl
@[simp] theorem State.modHart_now (s : State) (n : Nat) (f : Hart → Hart) : (s.modHart n f).now = s.now := rfl
@[simp] theorem State.modHart_wall (s : State) (n : Nat) (f : Hart → Hart) : (s.modHart n f).wall = s.wall := rfl
@[simp] theorem State.modHart_fresh (s : State) (n : Nat) (f : Hart → Hart) : (s.modHart n f).fresh = s.fresh := rfl
@[simp] theorem State.modHart_mem (s : State) (n : Nat) (f : Hart → Hart) : (s.modHart n f).mem = s.mem := rfl
@[simp] theorem State.modHart_poison (s : State) (n : Nat) (f : Hart → Hart) : (s.modHart n f).poison = s.poison := rfl
@[simp] theorem State.modHart_eccu (s : State) (n : Nat) (f : Hart → Hart) : (s.modHart n f).eccu = s.eccu := rfl
@[simp] theorem State.modHart_encTags (s : State) (n : Nat) (f : Hart → Hart) : (s.modHart n f).encTags = s.encTags := rfl
@[simp] theorem State.modHart_owners (s : State) (n : Nat) (f : Hart → Hart) : (s.modHart n f).owners = s.owners := rfl
@[simp] theorem State.modHart_wins (s : State) (n : Nat) (f : Hart → Hart) : (s.modHart n f).wins = s.wins := rfl
@[simp] theorem State.modHart_partMap (s : State) (n : Nat) (f : Hart → Hart) : (s.modHart n f).partMap = s.partMap := rfl
@[simp] theorem State.modHart_left (s : State) (n : Nat) (f : Hart → Hart) : (s.modHart n f).left = s.left := rfl
@[simp] theorem State.modHart_keys (s : State) (n : Nat) (f : Hart → Hart) : (s.modHart n f).keys = s.keys := rfl
@[simp] theorem State.modHart_keySel (s : State) (n : Nat) (f : Hart → Hart) : (s.modHart n f).keySel = s.keySel := rfl
@[simp] theorem State.modHart_keyBlob (s : State) (n : Nat) (f : Hart → Hart) : (s.modHart n f).keyBlob = s.keyBlob := rfl
@[simp] theorem State.modHart_quarBase (s : State) (n : Nat) (f : Hart → Hart) : (s.modHart n f).quarBase = s.quarBase := rfl
@[simp] theorem State.modHart_quarCores (s : State) (n : Nat) (f : Hart → Hart) : (s.modHart n f).quarCores = s.quarCores := rfl
@[simp] theorem State.modHart_vin (s : State) (n : Nat) (f : Hart → Hart) : (s.modHart n f).vin = s.vin := rfl
@[simp] theorem State.modHart_pin (s : State) (n : Nat) (f : Hart → Hart) : (s.modHart n f).pin = s.pin := rfl
@[simp] theorem State.modHart_tmax (s : State) (n : Nat) (f : Hart → Hart) : (s.modHart n f).tmax = s.tmax := rfl
@[simp] theorem State.modHart_thr (s : State) (n : Nat) (f : Hart → Hart) : (s.modHart n f).thr = s.thr := rfl
@[simp] theorem State.modHart_uv (s : State) (n : Nat) (f : Hart → Hart) : (s.modHart n f).uv = s.uv := rfl
@[simp] theorem State.modHart_fwRun (s : State) (n : Nat) (f : Hart → Hart) : (s.modHart n f).fwRun = s.fwRun := rfl
@[simp] theorem State.modHart_fwStaged (s : State) (n : Nat) (f : Hart → Hart) : (s.modHart n f).fwStaged = s.fwStaged := rfl
@[simp] theorem State.modHart_roleCore (s : State) (n : Nat) (f : Hart → Hart) : (s.modHart n f).roleCore = s.roleCore := rfl
@[simp] theorem State.modHart_fwDone (s : State) (n : Nat) (f : Hart → Hart) : (s.modHart n f).fwDone = s.fwDone := rfl
@[simp] theorem State.modHart_fwUpd (s : State) (n : Nat) (f : Hart → Hart) : (s.modHart n f).fwUpd = s.fwUpd := rfl
@[simp] theorem State.modHart_fwErr (s : State) (n : Nat) (f : Hart → Hart) : (s.modHart n f).fwErr = s.fwErr := rfl
@[simp] theorem State.modHart_brusNode (s : State) (n : Nat) (f : Hart → Hart) : (s.modHart n f).brusNode = s.brusNode := rfl
@[simp] theorem State.modHart_brus (s : State) (n : Nat) (f : Hart → Hart) : (s.modHart n f).brus = s.brus := rfl
@[simp] theorem State.modHart_igold (s : State) (n : Nat) (f : Hart → Hart) : (s.modHart n f).igold = s.igold := rfl
@[simp] theorem State.modHart_versions (s : State) (n : Nat) (f : Hart → Hart) : (s.modHart n f).versions = s.versions := rfl
@[simp] theorem State.modHart_powered (s : State) (n : Nat) (f : Hart → Hart) : (s.modHart n f).powered = s.powered := rfl
@[simp] theorem State.modHart_connected (s : State) (n : Nat) (f : Hart → Hart) : (s.modHart n f).connected = s.connected := rfl
@[simp] theorem State.modHart_measLog (s : State) (n : Nat) (f : Hart → Hart) : (s.modHart n f).measLog = s.measLog := rfl
@[simp] theorem State.modHart_attest (s : State) (n : Nat) (f : Hart → Hart) : (s.modHart n f).attest = s.attest := rfl
@[simp] theorem State.modHart_msix (s : State) (n : Nat) (f : Hart → Hart) : (s.modHart n f).msix = s.msix := rfl
@[simp] theorem State.modHart_mapCopy (s : State) (n : Nat) (f : Hart → Hart) : (s.modHart n f).mapCopy = s.mapCopy := rfl
@[simp] theorem State.modHart_lowSince (s : State) (n : Nat) (f : Hart → Hart) : (s.modHart n f).lowSince = s.lowSince := rfl
@[simp] theorem State.modHart_dimRamp (s : State) (n : Nat) (f : Hart → Hart) : (s.modHart n f).dimRamp = s.dimRamp := rfl
@[simp] theorem State.modHart_parts (s : State) (n : Nat) (f : Hart → Hart) : (s.modHart n f).parts = s.parts := rfl
@[simp] theorem State.modHart_clusters (s : State) (n : Nat) (f : Hart → Hart) : (s.modHart n f).clusters = s.clusters := rfl
@[simp] theorem State.modHart_cores (s : State) (n : Nat) (f : Hart → Hart) : (s.modHart n f).cores = s.cores := rfl
@[simp] theorem State.modHart_queues (s : State) (n : Nat) (f : Hart → Hart) : (s.modHart n f).queues = s.queues := rfl
@[simp] theorem State.modHart_launches (s : State) (n : Nat) (f : Hart → Hart) : (s.modHart n f).launches = s.launches := rfl
@[simp] theorem State.modHart_graphs (s : State) (n : Nat) (f : Hart → Hart) : (s.modHart n f).graphs = s.graphs := rfl
@[simp] theorem State.modHart_order (s : State) (n : Nat) (f : Hart → Hart) : (s.modHart n f).order = s.order := rfl
@[simp] theorem State.modHart_feTlb (s : State) (n : Nat) (f : Hart → Hart) : (s.modHart n f).feTlb = s.feTlb := rfl
@[simp] theorem State.modHart_saved (s : State) (n : Nat) (f : Hart → Hart) : (s.modHart n f).saved = s.saved := rfl
@[simp] theorem State.modHart_nodesUsed (s : State) (n : Nat) (f : Hart → Hart) : (s.modHart n f).nodesUsed = s.nodesUsed := rfl
@[simp] theorem State.modHart_fronts (s : State) (n : Nat) (f : Hart → Hart) : (s.modHart n f).fronts = s.fronts := rfl
@[simp] theorem State.modHart_waits (s : State) (n : Nat) (f : Hart → Hart) : (s.modHart n f).waits = s.waits := rfl

/-! `State.modVer` changes `versions` alone. -/

@[simp] theorem State.modVer_turn (s : State) (p n : Nat) (f : Version → Version) : (s.modVer p n f).turn = s.turn := rfl
@[simp] theorem State.modVer_core (s : State) (p n : Nat) (f : Version → Version) : (s.modVer p n f).core = s.core := rfl
@[simp] theorem State.modVer_slot (s : State) (p n : Nat) (f : Version → Version) : (s.modVer p n f).slot = s.slot := rfl
@[simp] theorem State.modVer_hart (s : State) (p n : Nat) (f : Version → Version) : (s.modVer p n f).hart = s.hart := rfl
@[simp] theorem State.modVer_now (s : State) (p n : Nat) (f : Version → Version) : (s.modVer p n f).now = s.now := rfl
@[simp] theorem State.modVer_wall (s : State) (p n : Nat) (f : Version → Version) : (s.modVer p n f).wall = s.wall := rfl
@[simp] theorem State.modVer_fresh (s : State) (p n : Nat) (f : Version → Version) : (s.modVer p n f).fresh = s.fresh := rfl
@[simp] theorem State.modVer_mem (s : State) (p n : Nat) (f : Version → Version) : (s.modVer p n f).mem = s.mem := rfl
@[simp] theorem State.modVer_poison (s : State) (p n : Nat) (f : Version → Version) : (s.modVer p n f).poison = s.poison := rfl
@[simp] theorem State.modVer_eccu (s : State) (p n : Nat) (f : Version → Version) : (s.modVer p n f).eccu = s.eccu := rfl
@[simp] theorem State.modVer_encTags (s : State) (p n : Nat) (f : Version → Version) : (s.modVer p n f).encTags = s.encTags := rfl
@[simp] theorem State.modVer_owners (s : State) (p n : Nat) (f : Version → Version) : (s.modVer p n f).owners = s.owners := rfl
@[simp] theorem State.modVer_wins (s : State) (p n : Nat) (f : Version → Version) : (s.modVer p n f).wins = s.wins := rfl
@[simp] theorem State.modVer_partMap (s : State) (p n : Nat) (f : Version → Version) : (s.modVer p n f).partMap = s.partMap := rfl
@[simp] theorem State.modVer_left (s : State) (p n : Nat) (f : Version → Version) : (s.modVer p n f).left = s.left := rfl
@[simp] theorem State.modVer_keys (s : State) (p n : Nat) (f : Version → Version) : (s.modVer p n f).keys = s.keys := rfl
@[simp] theorem State.modVer_keySel (s : State) (p n : Nat) (f : Version → Version) : (s.modVer p n f).keySel = s.keySel := rfl
@[simp] theorem State.modVer_keyBlob (s : State) (p n : Nat) (f : Version → Version) : (s.modVer p n f).keyBlob = s.keyBlob := rfl
@[simp] theorem State.modVer_quarBase (s : State) (p n : Nat) (f : Version → Version) : (s.modVer p n f).quarBase = s.quarBase := rfl
@[simp] theorem State.modVer_quarCores (s : State) (p n : Nat) (f : Version → Version) : (s.modVer p n f).quarCores = s.quarCores := rfl
@[simp] theorem State.modVer_vin (s : State) (p n : Nat) (f : Version → Version) : (s.modVer p n f).vin = s.vin := rfl
@[simp] theorem State.modVer_pin (s : State) (p n : Nat) (f : Version → Version) : (s.modVer p n f).pin = s.pin := rfl
@[simp] theorem State.modVer_tmax (s : State) (p n : Nat) (f : Version → Version) : (s.modVer p n f).tmax = s.tmax := rfl
@[simp] theorem State.modVer_thr (s : State) (p n : Nat) (f : Version → Version) : (s.modVer p n f).thr = s.thr := rfl
@[simp] theorem State.modVer_uv (s : State) (p n : Nat) (f : Version → Version) : (s.modVer p n f).uv = s.uv := rfl
@[simp] theorem State.modVer_fwRun (s : State) (p n : Nat) (f : Version → Version) : (s.modVer p n f).fwRun = s.fwRun := rfl
@[simp] theorem State.modVer_fwStaged (s : State) (p n : Nat) (f : Version → Version) : (s.modVer p n f).fwStaged = s.fwStaged := rfl
@[simp] theorem State.modVer_roleCore (s : State) (p n : Nat) (f : Version → Version) : (s.modVer p n f).roleCore = s.roleCore := rfl
@[simp] theorem State.modVer_fwDone (s : State) (p n : Nat) (f : Version → Version) : (s.modVer p n f).fwDone = s.fwDone := rfl
@[simp] theorem State.modVer_fwUpd (s : State) (p n : Nat) (f : Version → Version) : (s.modVer p n f).fwUpd = s.fwUpd := rfl
@[simp] theorem State.modVer_fwErr (s : State) (p n : Nat) (f : Version → Version) : (s.modVer p n f).fwErr = s.fwErr := rfl
@[simp] theorem State.modVer_brusNode (s : State) (p n : Nat) (f : Version → Version) : (s.modVer p n f).brusNode = s.brusNode := rfl
@[simp] theorem State.modVer_brus (s : State) (p n : Nat) (f : Version → Version) : (s.modVer p n f).brus = s.brus := rfl
@[simp] theorem State.modVer_igold (s : State) (p n : Nat) (f : Version → Version) : (s.modVer p n f).igold = s.igold := rfl
@[simp] theorem State.modVer_powered (s : State) (p n : Nat) (f : Version → Version) : (s.modVer p n f).powered = s.powered := rfl
@[simp] theorem State.modVer_connected (s : State) (p n : Nat) (f : Version → Version) : (s.modVer p n f).connected = s.connected := rfl
@[simp] theorem State.modVer_measLog (s : State) (p n : Nat) (f : Version → Version) : (s.modVer p n f).measLog = s.measLog := rfl
@[simp] theorem State.modVer_attest (s : State) (p n : Nat) (f : Version → Version) : (s.modVer p n f).attest = s.attest := rfl
@[simp] theorem State.modVer_msix (s : State) (p n : Nat) (f : Version → Version) : (s.modVer p n f).msix = s.msix := rfl
@[simp] theorem State.modVer_mapCopy (s : State) (p n : Nat) (f : Version → Version) : (s.modVer p n f).mapCopy = s.mapCopy := rfl
@[simp] theorem State.modVer_lowSince (s : State) (p n : Nat) (f : Version → Version) : (s.modVer p n f).lowSince = s.lowSince := rfl
@[simp] theorem State.modVer_dimRamp (s : State) (p n : Nat) (f : Version → Version) : (s.modVer p n f).dimRamp = s.dimRamp := rfl
@[simp] theorem State.modVer_parts (s : State) (p n : Nat) (f : Version → Version) : (s.modVer p n f).parts = s.parts := rfl
@[simp] theorem State.modVer_clusters (s : State) (p n : Nat) (f : Version → Version) : (s.modVer p n f).clusters = s.clusters := rfl
@[simp] theorem State.modVer_cores (s : State) (p n : Nat) (f : Version → Version) : (s.modVer p n f).cores = s.cores := rfl
@[simp] theorem State.modVer_queues (s : State) (p n : Nat) (f : Version → Version) : (s.modVer p n f).queues = s.queues := rfl
@[simp] theorem State.modVer_launches (s : State) (p n : Nat) (f : Version → Version) : (s.modVer p n f).launches = s.launches := rfl
@[simp] theorem State.modVer_graphs (s : State) (p n : Nat) (f : Version → Version) : (s.modVer p n f).graphs = s.graphs := rfl
@[simp] theorem State.modVer_order (s : State) (p n : Nat) (f : Version → Version) : (s.modVer p n f).order = s.order := rfl
@[simp] theorem State.modVer_feTlb (s : State) (p n : Nat) (f : Version → Version) : (s.modVer p n f).feTlb = s.feTlb := rfl
@[simp] theorem State.modVer_harts (s : State) (p n : Nat) (f : Version → Version) : (s.modVer p n f).harts = s.harts := rfl
@[simp] theorem State.modVer_saved (s : State) (p n : Nat) (f : Version → Version) : (s.modVer p n f).saved = s.saved := rfl
@[simp] theorem State.modVer_nodesUsed (s : State) (p n : Nat) (f : Version → Version) : (s.modVer p n f).nodesUsed = s.nodesUsed := rfl
@[simp] theorem State.modVer_fronts (s : State) (p n : Nat) (f : Version → Version) : (s.modVer p n f).fronts = s.fronts := rfl
@[simp] theorem State.modVer_waits (s : State) (p n : Nat) (f : Version → Version) : (s.modVer p n f).waits = s.waits := rfl

/-! What the updates make of the parts of the state. -/

theorem State.coreAt_setCore (s : State) (c d : Nat) (x : Core) : (s.setCore c x).coreAt d = if d = c then x else s.coreAt d :=
  tget_tput _ _ _ _ _
@[simp] theorem State.coreAt_setCore_self (s : State) (c : Nat) (x : Core) : (s.setCore c x).coreAt c = x := tget_tput_self _ _ _ _
theorem State.coreAt_modCore (s : State) (c d : Nat) (f : Core → Core) :
    (s.modCore c f).coreAt d = if d = c then f (s.coreAt c) else s.coreAt d := tget_tput _ _ _ _ _
@[simp] theorem State.coreAt_modCore_self (s : State) (c : Nat) (f : Core → Core) : (s.modCore c f).coreAt c = f (s.coreAt c) :=
  tget_tput_self _ _ _ _
@[simp] theorem State.setCore_setCore (s : State) (c : Nat) (x y : Core) : (s.setCore c x).setCore c y = s.setCore c y := by
  simp [State.setCore]
@[simp] theorem State.grpAt_setGrp_self (s : State) (c g : Nat) (x : Group) : (s.setGrp c g x).grpAt c g = x := by
  simp [State.grpAt, State.setGrp]
theorem State.grpAt_setGrp (s : State) (c g d h : Nat) (x : Group) :
    (s.setGrp c g x).grpAt d h = if d = c ∧ h = g then x else s.grpAt d h := by
  simp only [State.grpAt, State.setGrp, State.coreAt_setCore]
  by_cases hd : d = c
  · subst hd
    by_cases hh : h = g <;> simp [hh, tget_tput]
  · simp [hd]
@[simp] theorem State.grpAt_modGrp_self (s : State) (c g : Nat) (f : Group → Group) : (s.modGrp c g f).grpAt c g = f (s.grpAt c g) := by
  simp [State.modGrp]
theorem State.grpAt_modGrp (s : State) (c g d h : Nat) (f : Group → Group) :
    (s.modGrp c g f).grpAt d h = if d = c ∧ h = g then f (s.grpAt c g) else s.grpAt d h := by
  simp only [State.modGrp, State.grpAt_setGrp]
@[simp] theorem State.grp_modG (s : State) (f : Group → Group) : (s.modG f).grp = f s.grp := by
  simp [State.modG, State.grp]
theorem State.grpAt_modG (s : State) (c g : Nat) (f : Group → Group) :
    (s.modG f).grpAt c g = if c = s.core ∧ g = s.slot then f s.grp else s.grpAt c g := by
  simp only [State.modG, State.grpAt_modGrp, State.grp]
/-- A group's update leaves every core as it was but for its groups. -/
theorem State.coreAt_setGrp (s : State) (c g d : Nat) (x : Group) :
    { (s.setGrp c g x).coreAt d with groups := (s.coreAt d).groups } = s.coreAt d := by
  simp only [State.setGrp, State.coreAt_setCore]
  split
  · rename_i h; subst h; rfl
  · rfl
theorem State.coreAt_modG (s : State) (d : Nat) (f : Group → Group) :
    { (s.modG f).coreAt d with groups := (s.coreAt d).groups } = s.coreAt d := State.coreAt_setGrp s _ _ d _
@[simp] theorem State.setGrp_setGrp (s : State) (c g : Nat) (x y : Group) : (s.setGrp c g x).setGrp c g y = s.setGrp c g y := by
  simp [State.setGrp]
@[simp] theorem State.modG_modG (s : State) (f h : Group → Group) : (s.modG f).modG h = s.modG fun g => h (f g) := by
  simp [State.modG, State.modGrp]
@[simp] theorem State.me_modG_groups (s : State) (f : Group → Group) : (s.modG f).me.groups = tput s.me.groups s.slot (f s.grp) := by
  simp [State.me, State.modG, State.modGrp, State.setGrp, State.grp, State.grpAt]

theorem State.lchAt_modLch (s : State) (n m : Nat) (f : Launch → Launch) : (s.modLch n f).lchAt m = if m = n then f (s.lchAt n) else s.lchAt m :=
  tget_tput _ _ _ _ _
@[simp] theorem State.lchAt_modLch_self (s : State) (n : Nat) (f : Launch → Launch) : (s.modLch n f).lchAt n = f (s.lchAt n) := tget_tput_self _ _ _ _
@[simp] theorem State.lchAt_setCore (s : State) (c : Nat) (x : Core) (m : Nat) : (s.setCore c x).lchAt m = s.lchAt m := rfl
@[simp] theorem State.lchAt_modCore (s : State) (c : Nat) (f : Core → Core) (m : Nat) : (s.modCore c f).lchAt m = s.lchAt m := rfl
@[simp] theorem State.lchAt_setGrp (s : State) (c g : Nat) (x : Group) (m : Nat) : (s.setGrp c g x).lchAt m = s.lchAt m := rfl
@[simp] theorem State.lchAt_modGrp (s : State) (c g : Nat) (f : Group → Group) (m : Nat) : (s.modGrp c g f).lchAt m = s.lchAt m := rfl
@[simp] theorem State.lchAt_modG (s : State) (f : Group → Group) (m : Nat) : (s.modG f).lchAt m = s.lchAt m := rfl
@[simp] theorem State.lchAt_modPart (s : State) (n : Nat) (f : Part → Part) (m : Nat) : (s.modPart n f).lchAt m = s.lchAt m := rfl
@[simp] theorem State.lchAt_modCl (s : State) (n : Nat) (f : Cluster → Cluster) (m : Nat) : (s.modCl n f).lchAt m = s.lchAt m := rfl
@[simp] theorem State.lchAt_modQ (s : State) (n : Nat) (f : Queue → Queue) (m : Nat) : (s.modQ n f).lchAt m = s.lchAt m := rfl
@[simp] theorem State.lchAt_modHart (s : State) (n : Nat) (f : Hart → Hart) (m : Nat) : (s.modHart n f).lchAt m = s.lchAt m := rfl
@[simp] theorem State.lchAt_modVer (s : State) (p n : Nat) (f : Version → Version) (m : Nat) : (s.modVer p n f).lchAt m = s.lchAt m := rfl
theorem State.partAt_modPart (s : State) (n m : Nat) (f : Part → Part) : (s.modPart n f).partAt m = if m = n then f (s.partAt n) else s.partAt m :=
  tget_tput _ _ _ _ _
@[simp] theorem State.partAt_modPart_self (s : State) (n : Nat) (f : Part → Part) : (s.modPart n f).partAt n = f (s.partAt n) := tget_tput_self _ _ _ _
@[simp] theorem State.partAt_setCore (s : State) (c : Nat) (x : Core) (m : Nat) : (s.setCore c x).partAt m = s.partAt m := rfl
@[simp] theorem State.partAt_modCore (s : State) (c : Nat) (f : Core → Core) (m : Nat) : (s.modCore c f).partAt m = s.partAt m := rfl
@[simp] theorem State.partAt_setGrp (s : State) (c g : Nat) (x : Group) (m : Nat) : (s.setGrp c g x).partAt m = s.partAt m := rfl
@[simp] theorem State.partAt_modGrp (s : State) (c g : Nat) (f : Group → Group) (m : Nat) : (s.modGrp c g f).partAt m = s.partAt m := rfl
@[simp] theorem State.partAt_modG (s : State) (f : Group → Group) (m : Nat) : (s.modG f).partAt m = s.partAt m := rfl
@[simp] theorem State.partAt_modLch (s : State) (n : Nat) (f : Launch → Launch) (m : Nat) : (s.modLch n f).partAt m = s.partAt m := rfl
@[simp] theorem State.partAt_modCl (s : State) (n : Nat) (f : Cluster → Cluster) (m : Nat) : (s.modCl n f).partAt m = s.partAt m := rfl
@[simp] theorem State.partAt_modQ (s : State) (n : Nat) (f : Queue → Queue) (m : Nat) : (s.modQ n f).partAt m = s.partAt m := rfl
@[simp] theorem State.partAt_modHart (s : State) (n : Nat) (f : Hart → Hart) (m : Nat) : (s.modHart n f).partAt m = s.partAt m := rfl
@[simp] theorem State.partAt_modVer (s : State) (p n : Nat) (f : Version → Version) (m : Nat) : (s.modVer p n f).partAt m = s.partAt m := rfl
theorem State.clAt_modCl (s : State) (n m : Nat) (f : Cluster → Cluster) : (s.modCl n f).clAt m = if m = n then f (s.clAt n) else s.clAt m :=
  tget_tput _ _ _ _ _
@[simp] theorem State.clAt_modCl_self (s : State) (n : Nat) (f : Cluster → Cluster) : (s.modCl n f).clAt n = f (s.clAt n) := tget_tput_self _ _ _ _
@[simp] theorem State.clAt_setCore (s : State) (c : Nat) (x : Core) (m : Nat) : (s.setCore c x).clAt m = s.clAt m := rfl
@[simp] theorem State.clAt_modCore (s : State) (c : Nat) (f : Core → Core) (m : Nat) : (s.modCore c f).clAt m = s.clAt m := rfl
@[simp] theorem State.clAt_setGrp (s : State) (c g : Nat) (x : Group) (m : Nat) : (s.setGrp c g x).clAt m = s.clAt m := rfl
@[simp] theorem State.clAt_modGrp (s : State) (c g : Nat) (f : Group → Group) (m : Nat) : (s.modGrp c g f).clAt m = s.clAt m := rfl
@[simp] theorem State.clAt_modG (s : State) (f : Group → Group) (m : Nat) : (s.modG f).clAt m = s.clAt m := rfl
@[simp] theorem State.clAt_modLch (s : State) (n : Nat) (f : Launch → Launch) (m : Nat) : (s.modLch n f).clAt m = s.clAt m := rfl
@[simp] theorem State.clAt_modPart (s : State) (n : Nat) (f : Part → Part) (m : Nat) : (s.modPart n f).clAt m = s.clAt m := rfl
@[simp] theorem State.clAt_modQ (s : State) (n : Nat) (f : Queue → Queue) (m : Nat) : (s.modQ n f).clAt m = s.clAt m := rfl
@[simp] theorem State.clAt_modHart (s : State) (n : Nat) (f : Hart → Hart) (m : Nat) : (s.modHart n f).clAt m = s.clAt m := rfl
@[simp] theorem State.clAt_modVer (s : State) (p n : Nat) (f : Version → Version) (m : Nat) : (s.modVer p n f).clAt m = s.clAt m := rfl
theorem State.qAt_modQ (s : State) (n m : Nat) (f : Queue → Queue) : (s.modQ n f).qAt m = if m = n then f (s.qAt n) else s.qAt m :=
  tget_tput _ _ _ _ _
@[simp] theorem State.qAt_modQ_self (s : State) (n : Nat) (f : Queue → Queue) : (s.modQ n f).qAt n = f (s.qAt n) := tget_tput_self _ _ _ _
@[simp] theorem State.qAt_setCore (s : State) (c : Nat) (x : Core) (m : Nat) : (s.setCore c x).qAt m = s.qAt m := rfl
@[simp] theorem State.qAt_modCore (s : State) (c : Nat) (f : Core → Core) (m : Nat) : (s.modCore c f).qAt m = s.qAt m := rfl
@[simp] theorem State.qAt_setGrp (s : State) (c g : Nat) (x : Group) (m : Nat) : (s.setGrp c g x).qAt m = s.qAt m := rfl
@[simp] theorem State.qAt_modGrp (s : State) (c g : Nat) (f : Group → Group) (m : Nat) : (s.modGrp c g f).qAt m = s.qAt m := rfl
@[simp] theorem State.qAt_modG (s : State) (f : Group → Group) (m : Nat) : (s.modG f).qAt m = s.qAt m := rfl
@[simp] theorem State.qAt_modLch (s : State) (n : Nat) (f : Launch → Launch) (m : Nat) : (s.modLch n f).qAt m = s.qAt m := rfl
@[simp] theorem State.qAt_modPart (s : State) (n : Nat) (f : Part → Part) (m : Nat) : (s.modPart n f).qAt m = s.qAt m := rfl
@[simp] theorem State.qAt_modCl (s : State) (n : Nat) (f : Cluster → Cluster) (m : Nat) : (s.modCl n f).qAt m = s.qAt m := rfl
@[simp] theorem State.qAt_modHart (s : State) (n : Nat) (f : Hart → Hart) (m : Nat) : (s.modHart n f).qAt m = s.qAt m := rfl
@[simp] theorem State.qAt_modVer (s : State) (p n : Nat) (f : Version → Version) (m : Nat) : (s.modVer p n f).qAt m = s.qAt m := rfl
theorem State.hartAt_modHart (s : State) (n m : Nat) (f : Hart → Hart) : (s.modHart n f).hartAt m = if m = n then f (s.hartAt n) else s.hartAt m :=
  tget_tput _ _ _ _ _
@[simp] theorem State.hartAt_modHart_self (s : State) (n : Nat) (f : Hart → Hart) : (s.modHart n f).hartAt n = f (s.hartAt n) := tget_tput_self _ _ _ _
@[simp] theorem State.hartAt_setCore (s : State) (c : Nat) (x : Core) (m : Nat) : (s.setCore c x).hartAt m = s.hartAt m := rfl
@[simp] theorem State.hartAt_modCore (s : State) (c : Nat) (f : Core → Core) (m : Nat) : (s.modCore c f).hartAt m = s.hartAt m := rfl
@[simp] theorem State.hartAt_setGrp (s : State) (c g : Nat) (x : Group) (m : Nat) : (s.setGrp c g x).hartAt m = s.hartAt m := rfl
@[simp] theorem State.hartAt_modGrp (s : State) (c g : Nat) (f : Group → Group) (m : Nat) : (s.modGrp c g f).hartAt m = s.hartAt m := rfl
@[simp] theorem State.hartAt_modG (s : State) (f : Group → Group) (m : Nat) : (s.modG f).hartAt m = s.hartAt m := rfl
@[simp] theorem State.hartAt_modLch (s : State) (n : Nat) (f : Launch → Launch) (m : Nat) : (s.modLch n f).hartAt m = s.hartAt m := rfl
@[simp] theorem State.hartAt_modPart (s : State) (n : Nat) (f : Part → Part) (m : Nat) : (s.modPart n f).hartAt m = s.hartAt m := rfl
@[simp] theorem State.hartAt_modCl (s : State) (n : Nat) (f : Cluster → Cluster) (m : Nat) : (s.modCl n f).hartAt m = s.hartAt m := rfl
@[simp] theorem State.hartAt_modQ (s : State) (n : Nat) (f : Queue → Queue) (m : Nat) : (s.modQ n f).hartAt m = s.hartAt m := rfl
@[simp] theorem State.hartAt_modVer (s : State) (p n : Nat) (f : Version → Version) (m : Nat) : (s.modVer p n f).hartAt m = s.hartAt m := rfl
theorem State.verAt_modVer (s : State) (p n q m : Nat) (f : Version → Version) :
    (s.modVer p n f).verAt q m = if 256 * q + m = 256 * p + n then f (s.verAt p n) else s.verAt q m := tget_tput _ _ _ _ _
@[simp] theorem State.verAt_setCore (s : State) (c : Nat) (x : Core) (q m : Nat) : (s.setCore c x).verAt q m = s.verAt q m := rfl
@[simp] theorem State.verAt_modCore (s : State) (c : Nat) (f : Core → Core) (q m : Nat) : (s.modCore c f).verAt q m = s.verAt q m := rfl
@[simp] theorem State.verAt_setGrp (s : State) (c g : Nat) (x : Group) (q m : Nat) : (s.setGrp c g x).verAt q m = s.verAt q m := rfl
@[simp] theorem State.verAt_modGrp (s : State) (c g : Nat) (f : Group → Group) (q m : Nat) : (s.modGrp c g f).verAt q m = s.verAt q m := rfl
@[simp] theorem State.verAt_modG (s : State) (f : Group → Group) (q m : Nat) : (s.modG f).verAt q m = s.verAt q m := rfl
@[simp] theorem State.coreAt_modLch (s : State) (n : Nat) (f : Launch → Launch) (d : Nat) : (s.modLch n f).coreAt d = s.coreAt d := rfl
@[simp] theorem State.grpAt_modLch (s : State) (n : Nat) (f : Launch → Launch) (d h : Nat) : (s.modLch n f).grpAt d h = s.grpAt d h := rfl
@[simp] theorem State.grp_modLch (s : State) (n : Nat) (f : Launch → Launch) : (s.modLch n f).grp = s.grp := rfl
@[simp] theorem State.me_modLch (s : State) (n : Nat) (f : Launch → Launch) : (s.modLch n f).me = s.me := rfl
@[simp] theorem State.verAt_modLch (s : State) (n : Nat) (f : Launch → Launch) (q m : Nat) : (s.modLch n f).verAt q m = s.verAt q m := rfl
@[simp] theorem State.coreAt_modPart (s : State) (n : Nat) (f : Part → Part) (d : Nat) : (s.modPart n f).coreAt d = s.coreAt d := rfl
@[simp] theorem State.grpAt_modPart (s : State) (n : Nat) (f : Part → Part) (d h : Nat) : (s.modPart n f).grpAt d h = s.grpAt d h := rfl
@[simp] theorem State.grp_modPart (s : State) (n : Nat) (f : Part → Part) : (s.modPart n f).grp = s.grp := rfl
@[simp] theorem State.me_modPart (s : State) (n : Nat) (f : Part → Part) : (s.modPart n f).me = s.me := rfl
@[simp] theorem State.verAt_modPart (s : State) (n : Nat) (f : Part → Part) (q m : Nat) : (s.modPart n f).verAt q m = s.verAt q m := rfl
@[simp] theorem State.coreAt_modCl (s : State) (n : Nat) (f : Cluster → Cluster) (d : Nat) : (s.modCl n f).coreAt d = s.coreAt d := rfl
@[simp] theorem State.grpAt_modCl (s : State) (n : Nat) (f : Cluster → Cluster) (d h : Nat) : (s.modCl n f).grpAt d h = s.grpAt d h := rfl
@[simp] theorem State.grp_modCl (s : State) (n : Nat) (f : Cluster → Cluster) : (s.modCl n f).grp = s.grp := rfl
@[simp] theorem State.me_modCl (s : State) (n : Nat) (f : Cluster → Cluster) : (s.modCl n f).me = s.me := rfl
@[simp] theorem State.verAt_modCl (s : State) (n : Nat) (f : Cluster → Cluster) (q m : Nat) : (s.modCl n f).verAt q m = s.verAt q m := rfl
@[simp] theorem State.coreAt_modQ (s : State) (n : Nat) (f : Queue → Queue) (d : Nat) : (s.modQ n f).coreAt d = s.coreAt d := rfl
@[simp] theorem State.grpAt_modQ (s : State) (n : Nat) (f : Queue → Queue) (d h : Nat) : (s.modQ n f).grpAt d h = s.grpAt d h := rfl
@[simp] theorem State.grp_modQ (s : State) (n : Nat) (f : Queue → Queue) : (s.modQ n f).grp = s.grp := rfl
@[simp] theorem State.me_modQ (s : State) (n : Nat) (f : Queue → Queue) : (s.modQ n f).me = s.me := rfl
@[simp] theorem State.verAt_modQ (s : State) (n : Nat) (f : Queue → Queue) (q m : Nat) : (s.modQ n f).verAt q m = s.verAt q m := rfl
@[simp] theorem State.coreAt_modHart (s : State) (n : Nat) (f : Hart → Hart) (d : Nat) : (s.modHart n f).coreAt d = s.coreAt d := rfl
@[simp] theorem State.grpAt_modHart (s : State) (n : Nat) (f : Hart → Hart) (d h : Nat) : (s.modHart n f).grpAt d h = s.grpAt d h := rfl
@[simp] theorem State.grp_modHart (s : State) (n : Nat) (f : Hart → Hart) : (s.modHart n f).grp = s.grp := rfl
@[simp] theorem State.me_modHart (s : State) (n : Nat) (f : Hart → Hart) : (s.modHart n f).me = s.me := rfl
@[simp] theorem State.verAt_modHart (s : State) (n : Nat) (f : Hart → Hart) (q m : Nat) : (s.modHart n f).verAt q m = s.verAt q m := rfl
@[simp] theorem State.coreAt_modVer (s : State) (p n : Nat) (f : Version → Version) (d : Nat) : (s.modVer p n f).coreAt d = s.coreAt d := rfl
@[simp] theorem State.grpAt_modVer (s : State) (p n : Nat) (f : Version → Version) (d h : Nat) : (s.modVer p n f).grpAt d h = s.grpAt d h := rfl
@[simp] theorem State.grp_modVer (s : State) (p n : Nat) (f : Version → Version) : (s.modVer p n f).grp = s.grp := rfl
@[simp] theorem State.me_modVer (s : State) (p n : Nat) (f : Version → Version) : (s.modVer p n f).me = s.me := rfl

end Sys2Proof.Machine
end

