-- ==== Sys2Proof/Laws/Ops.lean ====
section
/-!
SUPPORT. Sys2Proof/Laws/Ops.lean: what the completion of an instruction does, once for each of its forms.
-/
namespace Sys2Proof.Machine

/-! Tables and registers. -/

/-- A table mapped by a function that keeps the default. -/
theorem tget_map {α : Type} (d : α) (f : α → α) (hd : f d = d) (t : Tab α) (n : Nat) :
    tget d (t.map fun e => (e.1, f e.2)) n = f (tget d t n) := by
  induction t with
  | nil => simp [tget, hd]
  | cons e r ih =>
    simp only [List.map_cons, tget, ih]
    split
    · rfl
    · split <;> simp [hd]

theorem RegPlane.rs_ws (p : RegPlane) (n m : Nat) (x : Word) : (p.ws n x).rs m = if m = n ∧ m ≠ 0 then x else p.rs m := by
  simp only [RegPlane.ws, RegPlane.rs]
  by_cases hn : n = 0
  · subst hn; by_cases hm : m = 0 <;> simp [hm]
  · by_cases hm : m = 0
    · simp [hm]
    · by_cases h : m = n <;> simp [hn, hm, tget_tput, h]

theorem RegPlane.sBad_ws (p : RegPlane) (n m : Nat) (x : Word) : (p.ws n x).sBad m = if m = n then false else p.sBad m := by
  simp only [RegPlane.ws, RegPlane.sBad]
  by_cases hn : n = 0
  · subst hn; by_cases hm : m = 0 <;> simp [hm]
  · by_cases h : m = n <;> simp [hn, tget_tput, h]

@[simp] theorem RegPlane.ws_v (p : RegPlane) (n : Nat) (x : Word) : (p.ws n x).v = p.v := by simp only [RegPlane.ws]; split <;> rfl
@[simp] theorem RegPlane.ws_p (p : RegPlane) (n : Nat) (x : Word) : (p.ws n x).p = p.p := by simp only [RegPlane.ws]; split <;> rfl
@[simp] theorem RegPlane.ws_vPoi (p : RegPlane) (n : Nat) (x : Word) : (p.ws n x).vPoi = p.vPoi := by simp only [RegPlane.ws]; split <;> rfl
@[simp] theorem RegPlane.ws_pPoi (p : RegPlane) (n : Nat) (x : Word) : (p.ws n x).pPoi = p.pPoi := by simp only [RegPlane.ws]; split <;> rfl
@[simp] theorem RegPlane.ws_zero (p : RegPlane) (x : Word) : p.ws 0 x = p := rfl

theorem RegPlane.rv_wv (p : RegPlane) (t n t' n' : Nat) (x : BitVec 32) (hn : n < 64) (hn' : n' < 64) :
    (p.wv t n x).rv t' n' = if t' = t ∧ n' = n then x else p.rv t' n' := by
  simp only [RegPlane.wv, RegPlane.rv, tget_tput]
  have : (64 * t' + n' = 64 * t + n) ↔ (t' = t ∧ n' = n) := by omega
  simp [this]

@[simp] theorem Group.work_modWork (g : Group) (f : RegPlane → RegPlane) : (g.modWork f).work = f g.work := by
  simp only [Group.modWork, Group.work]; split <;> simp_all
@[simp] theorem Group.stage_modWork (g : Group) (f : RegPlane → RegPlane) : (g.modWork f).stage_ = g.stage_ := by
  simp only [Group.modWork, Group.stage_]; split <;> simp_all
@[simp] theorem Group.modWork_lid (g : Group) (f : RegPlane → RegPlane) : (g.modWork f).lid = g.lid := by
  simp only [Group.modWork]; split <;> rfl
@[simp] theorem Group.modWork_lantern (g : Group) (f : RegPlane → RegPlane) : (g.modWork f).lantern = g.lantern := by
  simp only [Group.modWork]; split <;> rfl
@[simp] theorem Group.modWork_outs (g : Group) (f : RegPlane → RegPlane) : (g.modWork f).outs = g.outs := by
  simp only [Group.modWork]; split <;> rfl
/-- A changed working plane leaves the rest of the group. -/
theorem Group.modWork_rest (g : Group) (f : RegPlane → RegPlane) : { g.modWork f with a := g.a, b := g.b } = g := by
  simp only [Group.modWork]; split <;> rfl
theorem Group.work_of_b {g : Group} (h : g.selB = true) : g.work = g.b := by simp [Group.work, h]
theorem Group.work_of_a {g : Group} (h : g.selB = false) : g.work = g.a := by simp [Group.work, h]

/-- Outside lantern mode there is no dark register to mark. -/
theorem Group.setSDark_none {g : Group} (h : g.lantern = none) (n : Nat) (x : Bool) : g.setSDark n x = g := by
  cases g; simp only [Group.setSDark, Group.modLan] at *; subst h; rfl
theorem Group.sDark_none {g : Group} (h : g.lantern = none) (n : Nat) : g.sDark n = false := by simp [Group.sDark, h]
theorem Group.inLan_none {g : Group} (h : g.lantern = none) : g.inLan = false := by simp [Group.inLan, h]
theorem Group.lanTick_none {g : Group} (h : g.lantern = none) : g.lanTick = g := by simp [Group.lanTick, Group.inLan, h]
theorem State.sDrk_none {s : State} (h : s.grp.lantern = none) (rs : List SReg) : s.sDrk rs = false := by
  simp [State.sDrk, Group.sDark_none h]

/-! Completion. -/

/-- The group of a slot after an issue of the acting one. -/
theorem State.grpAt_issued (s : State) (c g : Nat) :
    { s.issued.grpAt c g with yielded := [] } = { s.grpAt c g with yielded := [] } := by
  simp only [State.issued, State.grpAt, State.coreAt_modCore]
  split
  · rename_i h; subst h
    split
    · dsimp only
      rw [tget_map (d := Group.reset) (f := fun x => { x with yielded := x.yielded.filter (· != s.slot) }) (hd := rfl)]
    · rfl
  · rfl

theorem State.coreAt_issued (s : State) (c : Nat) : { s.issued.coreAt c with groups := (s.coreAt c).groups } = s.coreAt c := by
  simp only [State.issued, State.coreAt_modCore]
  split
  · rename_i h; subst h; split <;> rfl
  · rfl

theorem State.rest_issued (s : State) : { s.issued with cores := s.cores } = s := rfl
@[simp] theorem State.core_issued (s : State) : s.issued.core = s.core := rfl
@[simp] theorem State.slot_issued (s : State) : s.issued.slot = s.slot := rfl
@[simp] theorem State.partAt_issued (s : State) (p : Nat) : s.issued.partAt p = s.partAt p := rfl
@[simp] theorem State.lchAt_issued (s : State) (p : Nat) : s.issued.lchAt p = s.lchAt p := rfl

/-- A field that does not concern yields, of a group after an issue. -/
theorem State.field_issued {β : Type} (f : Group → β) (hf : ∀ g, f { g with yielded := [] } = f g) (s : State) (c g : Nat) :
    f (s.issued.grpAt c g) = f (s.grpAt c g) := by
  rw [← hf, State.grpAt_issued, hf]

/-- What a group's update leaves. -/
theorem State.onlyGroup_modG (s : State) (f : Group → Group) : s.OnlyGroup (s.modG f) where
  device := rfl
  core c := State.coreAt_modG s c f
  group c g h := by
    rw [State.grpAt_modG, if_neg]
    rintro ⟨rfl, rfl⟩; exact h rfl

theorem State.OnlyGroup.issued {s t : State} (h : s.OnlyGroup t) : s.OnlyGroup t.issued where
  device := h.device
  core c := by
    have := State.coreAt_issued t c
    have h2 := h.core c
    rw [← h2, ← this]
  group c g hne := by rw [State.grpAt_issued, h.group c g hne]

/-- A stream that is not stepped goes on. -/
theorem State.stepHalt_none {s : State} (lane : Bool) (h : s.stepped s.core s.slot lane = false) : s.stepHalt lane = s := by
  simp [State.stepHalt, h]

theorem State.stepped_congr {s t : State} (c g : Nat) (lane : Bool) (hl : (t.grpAt c g).lid = (s.grpAt c g).lid)
    (hp : t.parts = s.parts) (hx : t.launches = s.launches) : t.stepped c g lane = s.stepped c g lane := by
  simp only [State.stepped, hl, State.partAt, State.lchAt, hp, hx]

theorem State.modG_congr {s : State} {f h : Group → Group} (e : f s.grp = h s.grp) : s.modG f = s.modG h := by
  simp only [State.modG, State.modGrp]
  rw [show s.grpAt s.core s.slot = s.grp from rfl, e]

@[simp] theorem Group.sGoes_lid (g : Group) (sw : Bool) (pc : Word) (now : Nat) : (g.sGoes sw pc now).lid = g.lid := by
  simp only [Group.sGoes, Group.lanTick, Group.modLan]; split <;> split <;> rfl

/-- The completion of a scalar instruction outside lantern mode, after an update of its group that keeps the launch. -/
theorem State.sGo_modG {s : State} (hp : s.stepped s.core s.slot false = false) (f : Group → Group) (hl : (f s.grp).lid = s.grp.lid)
    (sw : Bool) (pc : Word) :
    (s.modG f).sGo sw pc = (s.modG fun g => (f g).sGoes sw pc s.now).issued := by
  simp only [State.sGo, State.modG_modG, State.modG_now]
  apply State.stepHalt_none
  rw [State.stepped_congr (s := s)]
  · exact hp
  · simp only [State.core_issued, State.slot_issued, State.modG_core, State.modG_slot]
    rw [State.field_issued (f := Group.lid) (hf := fun _ => rfl), State.grpAt_modG, if_pos ⟨rfl, rfl⟩, Group.sGoes_lid]
    exact hl
  · rfl
  · rfl

theorem Group.sGoes_none {g : Group} (h : g.lantern = none) (sw : Bool) (pc : Word) (now : Nat) :
    g.sGoes sw pc now = { g with pc := pc, sWait := .none, sPark := if sw && g.awaits false then some now else g.sPark } := by
  rw [Group.sGoes, Group.lanTick_none h]
  change (if (sw && g.awaits false) = true then _ else _) = _
  cases sw && g.awaits false <;> rfl

/-- The acting group after an update and an issue. -/
theorem State.grp_issued_modG (s : State) (f : Group → Group) :
    { ((s.modG f).issued).grp with yielded := [] } = { f s.grp with yielded := [] } := by
  have := State.grpAt_issued (s.modG f) s.core s.slot
  rw [State.grpAt_modG, if_pos ⟨rfl, rfl⟩] at this
  exact this

/-- A field of the acting group after an update and an issue. -/
theorem State.field_issued_modG {β : Type} (p : Group → β) (hp : ∀ g, p { g with yielded := [] } = p g) (s : State) (f : Group → Group) :
    p ((s.modG f).issued).grp = p (f s.grp) := by
  rw [← hp, State.grp_issued_modG, hp]

/-- What the write of a scalar register and new outstanding results make of a group. -/
def Group.wrote (g : Group) (rd : SReg) (x : Word) (late : List OutRes) : Group :=
  { g.modWork fun p => p.ws rd.toNat x with outs := g.outs ++ late }

theorem SReg.toNat_ne {r : SReg} : (r.toNat ≠ 0) ↔ r ≠ 0 := by
  constructor
  · intro h h0; subst h0; exact h rfl
  · intro h h0; exact h (BitVec.eq_of_toNat_eq h0)

/-- The completion of a scalar instruction that writes a register and leaves results outstanding. -/
theorem State.scalarDone_sGo {s : State} (hp : s.plain false) (rd : SReg) (x : Word) (late : List OutRes) (sw : Bool) (pc : Word) :
    s.ScalarDone ((s.modG fun g => g.wrote rd x late).sGo sw pc) sw rd x late pc := by
  have hl : ∀ g : Group, (g.wrote rd x late).lid = g.lid := fun g => by simp [Group.wrote]
  have hn : (s.grp.wrote rd x late).lantern = none := by simp [Group.wrote, hp.1]
  rw [State.sGo_modG hp.2 _ (hl _)]
  have hg := Group.sGoes_none hn sw pc s.now
  have hw : (s.grp.wrote rd x late).work = s.grp.work.ws rd.toNat x := by
    have := Group.work_modWork s.grp fun p => p.ws rd.toNat x
    rw [← this]; rfl
  have hst : (s.grp.wrote rd x late).stage_ = s.grp.stage_ := by
    have := Group.stage_modWork s.grp fun p => p.ws rd.toNat x
    rw [← this]; rfl
  constructor
  · exact (State.onlyGroup_modG s _).issued
  · intro r
    rw [State.field_issued_modG (p := fun g => g.work.rs r.toNat) (hp := fun _ => rfl), hg]
    change (s.grp.wrote rd x late).work.rs r.toNat = _
    rw [hw, RegPlane.rs_ws]
    simp only [SReg.toNat_ne, BitVec.toNat_inj]
  · intro r
    rw [State.field_issued_modG (p := fun g => g.work.sBad r.toNat) (hp := fun _ => rfl), hg]
    change (s.grp.wrote rd x late).work.sBad r.toNat = _
    rw [hw, RegPlane.sBad_ws]
    simp only [BitVec.toNat_inj]
  · rw [State.field_issued_modG (p := fun g => g.work) (hp := fun _ => rfl), hg]
    change { (s.grp.wrote rd x late).work with s := s.grp.work.s, sPoi := s.grp.work.sPoi, ecc := s.grp.work.ecc } = _
    rw [hw]; simp
  · rw [State.field_issued_modG (p := fun g => g.stage_) (hp := fun _ => rfl), hg]
    exact hst
  · rw [State.field_issued_modG (p := fun g => g.pc) (hp := fun _ => rfl), hg]
  · rw [State.field_issued_modG (p := fun g => g.outs) (hp := fun _ => rfl), hg]; rfl
  · rw [State.field_issued_modG (p := fun g => g.sPark) (hp := fun _ => rfl),
      State.field_issued_modG (p := fun g => g.awaits false) (hp := fun _ => rfl), hg]
    simp only [Group.wrote, Group.awaits]
    have : (s.grp.modWork fun p => p.ws rd.toNat x).sPark = s.grp.sPark := by simp only [Group.modWork]; split <;> rfl
    rw [this]; rfl
  · rw [State.field_issued_modG (p := fun g => g.sWait) (hp := fun _ => rfl), hg]
  · have := State.grp_issued_modG s fun g => (g.wrote rd x late).sGoes sw pc s.now
    rw [hg] at this
    have h2 := Group.modWork_rest s.grp fun p => p.ws rd.toNat x
    have h3 : ∀ (t g : Group), { t with yielded := [] } = { g with yielded := [] } →
        { t with a := s.grp.a, b := s.grp.b, pc := s.grp.pc, outs := s.grp.outs, sPark := s.grp.sPark, sWait := s.grp.sWait, yielded := s.grp.yielded }
        = { g with a := s.grp.a, b := s.grp.b, pc := s.grp.pc, outs := s.grp.outs, sPark := s.grp.sPark, sWait := s.grp.sWait, yielded := s.grp.yielded } := by
      intro t g h
      have := congrArg (fun x : Group => { x with a := s.grp.a, b := s.grp.b, pc := s.grp.pc, outs := s.grp.outs, sPark := s.grp.sPark, sWait := s.grp.sWait, yielded := s.grp.yielded }) h
      exact this
    rw [h3 _ _ this]
    simp only [Group.wrote, Group.modWork]
    split <;> rfl

theorem Group.wrote_zero (g : Group) (x : Word) (late : List OutRes) : g.wrote 0 x late = { g with outs := g.outs ++ late } := by
  simp only [Group.wrote, Group.modWork, BitVec.ofNat_eq_ofNat, BitVec.toNat_ofNat, Nat.zero_mod, RegPlane.ws_zero]; split <;> rfl
theorem Group.wrote_nil (g : Group) (rd : SReg) (x : Word) : g.wrote rd x [] = g.modWork fun p => p.ws rd.toNat x := by
  simp only [Group.wrote, List.append_nil, Group.modWork]; split <;> rfl

/-- A scalar instruction that writes nothing. -/
theorem State.sGo_done {s : State} (hp : s.plain false) (sw : Bool) (pc : Word) : s.ScalarDone (s.sGo sw pc) sw 0 0 [] pc := by
  have := State.scalarDone_sGo hp 0 0 [] sw pc
  have e : (s.modG fun g => g.wrote 0 0 []).sGo sw pc = s.sGo sw pc := by
    rw [State.sGo_modG hp.2 _ (by rw [Group.wrote_zero])]
    have := State.sGo_modG hp.2 id rfl sw pc
    have h0 : (s.modG id).sGo sw pc = s.sGo sw pc := by
      simp only [State.sGo, State.modG_modG, State.modG_now, id]
    rw [← h0, this]
    congr 1
    apply State.modG_congr
    rw [Group.wrote_zero, List.append_nil]; rfl
  rw [← e]; exact this

/-- A scalar instruction that writes a register and goes on at a PC. -/
theorem State.wS_sGo_done {s : State} (hp : s.plain false) (sw : Bool) (rd : SReg) (x : Word) (dark : Bool) (pc : Word) :
    s.ScalarDone ((s.wS rd x dark).sGo sw pc) sw rd x [] pc := by
  have e : s.wS rd x dark = s.modG fun g => g.wrote rd x [] := by
    apply State.modG_congr
    rw [Group.wrote_nil, Group.setSDark_none (by simpa using hp.1)]
  rw [e]; exact State.scalarDone_sGo hp rd x [] sw pc

@[simp] theorem State.grp_wS_pc (s : State) (rd : SReg) (x : Word) (dark : Bool) : (s.wS rd x dark).grp.pc = s.grp.pc := by
  simp only [State.wS, State.grp_modG, Group.setSDark, Group.modLan, Group.modWork]; split <;> rfl

/-- A scalar instruction that only writes a register, its sources not poisoned. -/
theorem State.sCalc_done {s : State} (hp : s.plain false) (sw : Bool) (rd : SReg) (rs : List SReg) (x : Word) (hr : s.sPoi rs = false) :
    s.ScalarDone (s.sCalc sw rd rs x) sw rd x [] (s.grp.pc + 4) := by
  simp only [State.sCalc, hr, Bool.false_eq_true, if_false, State.sDone, State.grp_wS_pc]
  exact State.wS_sGo_done hp sw rd x _ _

/-- A scalar instruction with a poisoned source raises POISON (R208). -/
theorem State.sCalc_poison {s : State} (hn : s.grp.lantern = none) (sw : Bool) (rd : SReg) (rs : List SReg) (x : Word) (hr : s.sPoi rs = true) :
    s.sCalc sw rd rs x = s.sRaise sw .poison := by
  simp [State.sCalc, hr, Group.inLan_none hn]

/-- A scalar instruction whose results return later (R41). -/
theorem State.sLate_done {s : State} (hp : s.plain false) (sw : Bool) (ds : List RDest) (dark missed : Bool) :
    s.ScalarDone (s.sLate sw ds dark missed) sw 0 0 [OutRes.of false ds missed false] (s.grp.pc + 4) := by
  have hf : ∀ (ds : List RDest) (g : Group), g.lantern = none → g.markLate dark ds = g := by
    intro ds
    induction ds with
    | nil => intros; rfl
    | cons d ds ih => intro g hg; cases d <;> simp [Group.markLate, Group.setSDark_none hg, ih g hg]
  have e : s.sLate sw ds dark missed = (s.modG fun g => g.wrote 0 0 [OutRes.of false ds missed false]).sGo sw (s.grp.pc + 4) := by
    simp only [State.sLate, State.sDone]
    have : ∀ (f h : Group → Group), f s.grp = h s.grp → (h s.grp).pc = s.grp.pc →
        (s.modG f).sGo sw ((s.modG f).grp.pc + 4) = (s.modG h).sGo sw (s.grp.pc + 4) := by
      intro f h he hpc
      rw [State.modG_congr he, State.grp_modG, hpc]
    apply this
    · rw [hf _ _ hp.1, Group.wrote_zero, Group.inLan_none hp.1]
    · rw [Group.wrote_zero]
  rw [e]; exact State.scalarDone_sGo hp 0 0 _ sw _

end Sys2Proof.Machine
end

