-- ==== Sys2Proof/Laws/Lane.lean ====
section
/-!
SUPPORT. Sys2Proof/Laws/Lane.lean: what the completion of a lane instruction does, once for each of its forms.
-/
namespace Sys2Proof.Machine

/-! Results written to a plane. -/

theorem RegPlane.rp_wp (p : RegPlane) (t n t' n' : Nat) (x : Bool) (hn' : n' < 8) :
    (p.wp t n x).rp t' n' = if t' = t ∧ n' = n ∧ n' ≠ 0 then x else p.rp t' n' := by
  simp only [RegPlane.wp, RegPlane.rp]
  by_cases hn : n = 0
  · subst hn; by_cases h : n' = 0 <;> simp [h]
  · rw [if_neg hn]
    by_cases hz : n' = 0
    · simp [hz]
    · simp only [tget_tput]
      by_cases ht : t' = t
      · subst ht
        by_cases h : n' = n
        · subst h
          have hb : (BitVec.ofNat 8 (2 ^ n')).getLsbD n' = true := by
            rw [BitVec.getLsbD_ofNat]; simp [hn', Nat.testBit_two_pow_self]
          rw [BitVec.getLsbD_eq_getElem hn'] at hb
          generalize BitVec.ofNat 8 (2 ^ n') = m at hb ⊢
          cases x <;> simp [hz, hn', hb]
        · have hb : (BitVec.ofNat 8 (2 ^ n)).getLsbD n' = false := by
            rw [BitVec.getLsbD_ofNat, Nat.testBit_two_pow]; simp; intro _ h2; exact h h2.symm
          rw [BitVec.getLsbD_eq_getElem hn'] at hb
          generalize BitVec.ofNat 8 (2 ^ n) = m at hb ⊢
          cases x <;> simp [h, hn', hb]
      · simp [ht]

theorem RegPlane.vBad_wv (p : RegPlane) (t n t' n' : Nat) (x : BitVec 32) (hn : n < 64) (hn' : n' < 64) :
    (p.wv t n x).vBad t' n' = (!(decide (t' = t ∧ n' = n)) && p.vBad t' n') := by
  simp only [RegPlane.wv, RegPlane.vBad, tget_tput]
  have : (64 * t' + n' = 64 * t + n) ↔ (t' = t ∧ n' = n) := by omega
  by_cases h : t' = t ∧ n' = n <;> simp [this, h]

/-- What results written one after another leave in a plane. -/
theorem RegPlane.fold_putDest (ds : List RDest) (hf : fits ds) (p : RegPlane) :
    (∀ (th : Nat) (n : VReg), (ds.foldl RegPlane.putDest p).rv th n.toNat = (vOf ds th n.toNat).getD (p.rv th n.toNat)) ∧
    (∀ (th : Nat) (n : VReg), (ds.foldl RegPlane.putDest p).vBad th n.toNat = ((vOf ds th n.toNat).isNone && p.vBad th n.toNat)) ∧
    (∀ (th : Nat) (n : BitVec 3), (ds.foldl RegPlane.putDest p).rp th n.toNat = (pOf ds th n.toNat).getD (p.rp th n.toNat)) ∧
    { ds.foldl RegPlane.putDest p with v := p.v, vPoi := p.vPoi, p := p.p, ecc := p.ecc } = p := by
  induction ds generalizing p with
  | nil => exact ⟨fun _ _ => rfl, fun _ _ => rfl, fun _ _ => rfl, rfl⟩
  | cons d ds ih =>
    obtain ⟨i1, i2, i3, i4⟩ := ih (fun e he => hf e (List.mem_cons_of_mem _ he)) (p.putDest d)
    have hd := hf d (List.mem_cons_self ..)
    simp only [List.foldl_cons]
    refine ⟨fun th n => ?_, fun th n => ?_, fun th n => ?_, ?_⟩
    · rw [i1]
      cases d with
      | s k x => exact hd.elim
      | v t k x =>
        rw [vOf]
        cases vOf ds th n.toNat with
        | some y => rfl
        | none =>
          simp only [RegPlane.putDest, Option.none_or, Option.getD_none]
          rw [RegPlane.rv_wv _ _ _ _ _ _ hd n.isLt]
          by_cases h : th = t ∧ n.toNat = k
          · rw [if_pos h, if_pos ⟨h.1.symm, h.2.symm⟩]; rfl
          · rw [if_neg h, if_neg (fun e => h ⟨e.1.symm, e.2.symm⟩)]; rfl
      | p t k x =>
        have : (p.putDest (.p t k x)).rv th n.toNat = p.rv th n.toNat := by
          simp only [RegPlane.putDest, RegPlane.wp, RegPlane.rv]; split <;> rfl
        rw [this]; rfl
    · rw [i2]
      cases d with
      | s k x => exact hd.elim
      | v t k x =>
        rw [vOf]
        cases vOf ds th n.toNat with
        | some y => rfl
        | none =>
          simp only [RegPlane.putDest, Option.none_or, Option.isNone_none, Bool.true_and]
          rw [RegPlane.vBad_wv _ _ _ _ _ _ hd n.isLt]
          by_cases h : th = t ∧ n.toNat = k
          · rw [if_pos ⟨h.1.symm, h.2.symm⟩]; simp [h]
          · rw [if_neg (fun e => h ⟨e.1.symm, e.2.symm⟩)]; simp [h]
      | p t k x =>
        have : (p.putDest (.p t k x)).vBad th n.toNat = p.vBad th n.toNat := by
          simp only [RegPlane.putDest, RegPlane.wp, RegPlane.vBad]; split <;> rfl
        rw [this]; rfl
    · rw [i3]
      cases d with
      | s k x => exact hd.elim
      | v t k x =>
        have : (p.putDest (.v t k x)).rp th n.toNat = p.rp th n.toNat := rfl
        rw [this]; rfl
      | p t k x =>
        rw [pOf]
        cases pOf ds th n.toNat with
        | some y => rfl
        | none =>
          simp only [RegPlane.putDest, Option.none_or, Option.getD_none]
          rw [RegPlane.rp_wp _ _ _ _ _ _ n.isLt]
          by_cases h : th = t ∧ n.toNat = k ∧ n.toNat ≠ 0
          · rw [if_pos h, if_pos ⟨h.1.symm, h.2.1.symm, h.2.2⟩]; rfl
          · rw [if_neg h, if_neg (fun e => h ⟨e.1.symm, e.2.1.symm, e.2.2⟩)]; rfl
    · have e : ∀ (q r : RegPlane), { q with v := r.v, vPoi := r.vPoi, p := r.p, ecc := r.ecc } = r → { r with v := p.v, vPoi := p.vPoi, p := p.p, ecc := p.ecc } = p →
          { q with v := p.v, vPoi := p.vPoi, p := p.p, ecc := p.ecc } = p := by
        intro q r h1 h2; rw [← h2, ← h1]
      refine e _ _ i4 ?_
      cases d with
      | s k x => exact hd.elim
      | v t k x => rfl
      | p t k x => simp only [RegPlane.putDest, RegPlane.wp]; split <;> rfl

/-! Threads. -/

theorem Group.thrAt_modThr (g : Group) (t u : Nat) (f : Thread → Thread) :
    (g.modThr t f).thrAt u = if u = t then f (g.thrAt t) else g.thrAt u := by simp [Group.thrAt, Group.modThr, tget_tput]

/-- Threads moved to a lane PC: they alone change, and in nothing else. -/
theorem Group.moveTo_spec (ts : List Nat) (p : Word) (g : Group) :
    (∀ th, (g.moveTo ts p).thrAt th = if th ∈ ts then { g.thrAt th with pc := p } else g.thrAt th) ∧
    { g.moveTo ts p with thr := g.thr } = g := by
  induction ts generalizing g with
  | nil => exact ⟨fun th => by simp [Group.moveTo], rfl⟩
  | cons t ts ih =>
    obtain ⟨i1, i2⟩ := ih (g.modThr t fun x => { x with pc := p })
    simp only [Group.moveTo, List.foldl_cons] at i1 i2 ⊢
    refine ⟨fun th => ?_, ?_⟩
    · rw [i1, Group.thrAt_modThr]
      by_cases h : th = t
      · subst h; simp
      · simp [h]
    · have e : ∀ (q r : Group), { q with thr := r.thr } = r → { r with thr := g.thr } = g → { q with thr := g.thr } = g := by
        intro q r h1 h2; rw [← h2, ← h1]
      exact e _ _ i2 rfl

/-- A field that does not concern threads, after they moved. -/
theorem Group.moveTo_field {β : Type} (f : Group → β) (hf : ∀ (g : Group) x, f { g with thr := x } = f g) (ts : List Nat) (p : Word) (g : Group) :
    f (g.moveTo ts p) = f g := by
  have := (Group.moveTo_spec ts p g).2
  rw [← hf (g.moveTo ts p) g.thr, this]

/-! Completion. -/

theorem Group.lGoes_none {g : Group} (h : g.lantern = none) (sw : Bool) (now : Nat) :
    g.lGoes sw now = { g with redo := none, lWait := .none, outs := g.outs.map OutRes.onward, lPark := if sw && g.awaits true then some now else g.lPark } := by
  have e : ({ g with redo := none, lWait := .none, outs := g.outs.map OutRes.onward } : Group).awaits true = g.awaits true := by
    simp only [Group.awaits, List.any_map]; rfl
  simp only [Group.lGoes, Group.lanTick_none h, e]
  cases sw && g.awaits true <;> rfl

@[simp] theorem Group.lGoes_lid (g : Group) (sw : Bool) (now : Nat) : (g.lGoes sw now).lid = g.lid := by
  simp only [Group.lGoes, Group.lanTick, Group.modLan]; split <;> split <;> rfl

/-- The completion of a lane instruction by a stream that is not stepped, after an update of its group that keeps the launch. -/
theorem State.lGo_modG {s : State} (hp : s.stepped s.core s.slot true = false) (f : Group → Group) (hl : (f s.grp).lid = s.grp.lid)
    (sw : Bool) : (s.modG f).lGo sw = s.modG fun g => (f g).lGoes sw s.now := by
  simp only [State.lGo, State.modG_modG, State.modG_now]
  apply State.stepHalt_none
  rw [State.stepped_congr (s := s)]
  · exact hp
  · simp only [State.modG_core, State.modG_slot]
    rw [State.grpAt_modG, if_pos ⟨rfl, rfl⟩, Group.lGoes_lid]
    exact hl
  · rfl
  · rfl

/-- What the results of a lane instruction make of a group. -/
def Group.gave (g : Group) (ds : List RDest) (late : List OutRes) : Group :=
  { g.modWork fun p => ds.foldl RegPlane.putDest p with outs := g.outs ++ late }

/-- The completion of a lane instruction that gives results. -/
theorem State.laneDone_lDone {s : State} (hp : s.plain true) (ds : List RDest) (hf : fits ds) (late : List OutRes) (hlate : late.map OutRes.onward = late) (sw : Bool) (x : Lane)
    (hx : x.stay = s.grp.stays) :
    s.LaneDone ((s.modG fun g => g.gave ds late).lDone sw x) sw x.f ds late (lnext x.pc) := by
  have hl : ∀ g : Group, (g.gave ds late).lid = g.lid := fun g => by simp [Group.gave]
  have hn : (s.grp.gave ds late).lantern = none := by simp [Group.gave, hp.1]
  have hm := Group.moveTo_spec (s.movers x.f) (lnext x.pc) (s.grp.gave ds late)
  have hw : ((s.grp.gave ds late).moveTo (s.movers x.f) (lnext x.pc)).work = ds.foldl RegPlane.putDest s.grp.work := by
    rw [Group.moveTo_field (f := Group.work) (hf := fun _ _ => rfl)]
    have := Group.work_modWork s.grp fun p => ds.foldl RegPlane.putDest p
    rw [← this]; rfl
  have hst : ((s.grp.gave ds late).moveTo (s.movers x.f) (lnext x.pc)).stage_ = s.grp.stage_ := by
    rw [Group.moveTo_field (f := Group.stage_) (hf := fun _ _ => rfl)]
    have := Group.stage_modWork s.grp fun p => ds.foldl RegPlane.putDest p
    rw [← this]; rfl
  have hlan : ((s.grp.gave ds late).moveTo (s.movers x.f) (lnext x.pc)).lantern = none := by
    rw [Group.moveTo_field (f := Group.lantern) (hf := fun _ _ => rfl)]; exact hn
  have hg := Group.lGoes_none hlan sw s.now
  have e : (s.modG fun g => g.gave ds late).lDone sw x =
      s.modG fun g => ((g.gave ds late).moveTo (s.movers x.f) (lnext x.pc)).lGoes sw s.now := by
    have hm : (if x.stay = true then [] else x.f) = s.movers x.f := by rw [hx]; rfl
    simp only [State.lDone, State.modG_modG, hm]
    apply State.lGo_modG hp.2
    rw [Group.moveTo_field (f := Group.lid) (hf := fun _ _ => rfl)]; exact hl _
  have hr := RegPlane.fold_putDest ds hf s.grp.work
  rw [e]
  constructor
  · exact State.onlyGroup_modG s _
  · intro th n
    rw [State.grp_modG, hg]
    change ((s.grp.gave ds late).moveTo (s.movers x.f) (lnext x.pc)).work.rv th n.toNat = _
    rw [hw]; exact hr.1 th n
  · intro th n
    rw [State.grp_modG, hg]
    change ((s.grp.gave ds late).moveTo (s.movers x.f) (lnext x.pc)).work.vBad th n.toNat = _
    rw [hw]; exact hr.2.1 th n
  · intro th n
    rw [State.grp_modG, hg]
    change ((s.grp.gave ds late).moveTo (s.movers x.f) (lnext x.pc)).work.rp th n.toNat = _
    rw [hw]; exact hr.2.2.1 th n
  · rw [State.grp_modG, hg]
    change { ((s.grp.gave ds late).moveTo (s.movers x.f) (lnext x.pc)).work with v := s.grp.work.v, vPoi := s.grp.work.vPoi, p := s.grp.work.p, ecc := s.grp.work.ecc } = _
    rw [hw]; exact hr.2.2.2
  · rw [State.grp_modG, hg]; exact hst
  · intro th
    rw [State.grp_modG, hg]
    change ((s.grp.gave ds late).moveTo (s.movers x.f) (lnext x.pc)).thrAt th = _
    rw [hm.1]
    have : (s.grp.gave ds late).thrAt th = s.grp.thrAt th := by
      simp only [Group.gave, Group.thrAt, Group.modWork]; split <;> rfl
    rw [this]
  · rw [State.grp_modG, hg]
    change (((s.grp.gave ds late).moveTo (s.movers x.f) (lnext x.pc)).outs).map OutRes.onward = _
    rw [Group.moveTo_field (f := Group.outs) (hf := fun _ _ => rfl)]
    change (s.grp.outs ++ late).map OutRes.onward = _
    rw [List.map_append, hlate]
  · rw [State.grp_modG, hg]
    have ea : ∀ (q : Group) (l : Option Nat), ({ q with redo := none, lWait := .none, outs := q.outs.map OutRes.onward, lPark := l } : Group).awaits true = q.awaits true := by
      intro q l; simp only [Group.awaits, List.any_map]; rfl
    rw [ea]
    change (if sw && ((s.grp.gave ds late).moveTo (s.movers x.f) (lnext x.pc)).awaits true then some s.now
      else ((s.grp.gave ds late).moveTo (s.movers x.f) (lnext x.pc)).lPark) = if sw && ((s.grp.gave ds late).moveTo (s.movers x.f) (lnext x.pc)).awaits true then _ else _
    have : ((s.grp.gave ds late).moveTo (s.movers x.f) (lnext x.pc)).lPark = s.grp.lPark := by
      rw [Group.moveTo_field (f := Group.lPark) (hf := fun _ _ => rfl)]
      simp only [Group.gave, Group.modWork]; split <;> rfl
    rw [this]
  · rw [State.grp_modG, hg]
  · rw [State.grp_modG, hg]
  · rw [State.grp_modG, hg]
    have h1 := hm.2
    have h2 : ∀ (q r : Group), { q with thr := r.thr } = r →
        { q with a := s.grp.a, b := s.grp.b, thr := s.grp.thr, outs := s.grp.outs, lPark := s.grp.lPark, lWait := s.grp.lWait, redo := s.grp.redo }
        = { r with a := s.grp.a, b := s.grp.b, thr := s.grp.thr, outs := s.grp.outs, lPark := s.grp.lPark, lWait := s.grp.lWait,
                   redo := s.grp.redo } := by
      intro q r h; rw [← h]
    refine (h2 _ _ h1).trans ?_
    simp only [Group.gave, Group.modWork]
    split <;> rfl

/-- The group that gives nothing. -/
theorem Group.gave_nil (g : Group) (late : List OutRes) : g.gave [] late = { g with outs := g.outs ++ late } := by
  simp only [Group.gave, List.foldl_nil, Group.modWork]; split <;> rfl
theorem Group.gave_late (g : Group) (ds : List RDest) : g.gave ds [] = g.modWork fun p => ds.foldl RegPlane.putDest p := by
  simp only [Group.gave, List.append_nil, Group.modWork]; split <;> rfl

/-- A lane instruction that gives no result. -/
theorem State.lDone_done {s : State} (hp : s.plain true) (sw : Bool) (x : Lane) (hx : x.stay = s.grp.stays) : s.LaneDone (s.lDone sw x) sw x.f [] [] (lnext x.pc) := by
  have := State.laneDone_lDone hp [] (fun _ h => by cases h) [] rfl sw x hx
  have e : (s.modG fun g => g.gave [] []).lDone sw x = s.lDone sw x := by
    simp only [State.lDone, State.modG_modG]
    congr 1
    apply State.modG_congr
    rw [Group.gave_nil, List.append_nil]
  rw [← e]; exact this

/-- A lane instruction under its guard, which is not poisoned. -/
theorem State.lane_eq {s : State} {h : LHdr} {k : State → Lane → State} {l : Word} {f : List Nat} (ha : s.grp.active = some (l, f))
    (hg : s.guardOk h f) : s.lane h k = k s ⟨l, f, s.guarded h f, h.sw, s.grp.stays⟩ := by
  simp only [State.lane, State.laneBy, ha]
  rw [if_neg]
  simpa [State.guardOk] using hg

/-- A lane instruction that writes results in each executing thread, no source or written predicate poisoned. -/
theorem State.lMap_done {s : State} (hp : s.plain true) {h : LHdr} {bad dark : Nat → Bool} {out : Nat → List RDest} {l : Word} {f : List Nat}
    (ha : s.grp.active = some (l, f)) (hg : s.guardOk h f)
    (hb : ∀ t ∈ s.guarded h f, bad t = false ∧ (out t).any s.grp.work.destBad = false)
    (hf : fits ((s.guarded h f).flatMap out)) :
    s.LaneDone (s.lMap h false bad dark out) h.sw f ((s.guarded h f).flatMap out) [] (lnext l) := by
  have e : s.lMap h false bad dark out = (s.modG fun g => g.gave ((s.guarded h f).flatMap out) []).lDone h.sw ⟨l, f, s.guarded h f, h.sw, s.grp.stays⟩ := by
    rw [State.lMap, State.lane_eq ha hg]
    have h1 : (s.guarded h f).filter (fun t => !(bad t || (out t).any s.grp.work.destBad)) = s.guarded h f := by
      apply List.filter_eq_self.mpr
      intro t ht; simp [hb t ht]
    have h2 : (s.guarded h f).filter (fun t => bad t || (out t).any s.grp.work.destBad) = [] := by
      apply List.filter_eq_nil_iff.mpr
      intro t ht; simp [hb t ht]
    simp only [Group.inLan_none hp.1, Bool.false_eq_true, if_false, h1, h2, List.map_nil, State.lEnd, recorded]
    congr 1
    apply State.modG_congr
    rw [Group.gave_late]
  rw [e]
  exact State.laneDone_lDone hp _ hf [] rfl h.sw ⟨l, f, s.guarded h f, h.sw, s.grp.stays⟩ rfl

/-- The same for variable-latency results, given in some thread (R41). -/
theorem State.lMap_late {s : State} (hp : s.plain true) {h : LHdr} {bad dark : Nat → Bool} {out : Nat → List RDest} {l : Word} {f : List Nat}
    (ha : s.grp.active = some (l, f)) (hg : s.guardOk h f)
    (hb : ∀ t ∈ s.guarded h f, bad t = false ∧ (out t).any s.grp.work.destBad = false) :
    s.LaneDone (s.lMap h true bad dark out) h.sw f []
      (if (s.guarded h f).flatMap out = [] then [] else [OutRes.of true ((s.guarded h f).flatMap out) false false]) (lnext l) := by
  have e : s.lMap h true bad dark out = (s.modG fun g => g.gave []
      (if (s.guarded h f).flatMap out = [] then [] else [OutRes.of true ((s.guarded h f).flatMap out) false false])).lDone h.sw
        ⟨l, f, s.guarded h f, h.sw, s.grp.stays⟩ := by
    rw [State.lMap, State.lane_eq ha hg]
    have h1 : (s.guarded h f).filter (fun t => !(bad t || (out t).any s.grp.work.destBad)) = s.guarded h f := by
      apply List.filter_eq_self.mpr
      intro t ht; simp [hb t ht]
    have h2 : (s.guarded h f).filter (fun t => bad t || (out t).any s.grp.work.destBad) = [] := by
      apply List.filter_eq_nil_iff.mpr
      intro t ht; simp [hb t ht]
    simp only [Group.inLan_none hp.1, Bool.false_eq_true, if_false, if_true, Bool.false_and, h1, h2, List.map_nil, State.lEnd, recorded]
    congr 1
    apply State.modG_congr
    rw [Group.gave_nil]
    by_cases hz : (s.guarded h f).flatMap out = []
    · simp [hz]
    · simp [hz]
  rw [e]
  exact State.laneDone_lDone hp _ (fun _ h => by cases h) _ (by split <;> rfl) h.sw ⟨l, f, s.guarded h f, h.sw, s.grp.stays⟩ rfl

/-- A thread-exchange instruction with no poisoned source. -/
theorem State.lXchg_done {s : State} (hp : s.plain true) {h : LHdr} {srcs : List (Sel × Bool)} {dark : Lane → Nat → Bool}
    {out : Lane → Nat → List RDest} {l : Word} {f : List Nat}
    (ha : s.grp.active = some (l, f)) (hg : s.guardOk h f)
    (hb : ∀ t ∈ s.guarded h f, s.anyBad srcs t = false ∧ (out ⟨l, f, s.guarded h f, h.sw, s.grp.stays⟩ t).any s.grp.work.destBad = false)
    (hf : fits ((s.guarded h f).flatMap (out ⟨l, f, s.guarded h f, h.sw, s.grp.stays⟩))) :
    s.LaneDone (s.lXchg h false srcs dark out) h.sw f ((s.guarded h f).flatMap (out ⟨l, f, s.guarded h f, h.sw, s.grp.stays⟩)) [] (lnext l) := by
  have e : s.lXchg h false srcs dark out =
      (s.modG fun g => g.gave ((s.guarded h f).flatMap (out ⟨l, f, s.guarded h f, h.sw, s.grp.stays⟩)) []).lDone h.sw ⟨l, f, s.guarded h f, h.sw, s.grp.stays⟩ := by
    rw [State.lXchg, State.lane_eq ha hg]
    have h2 : ((s.guarded h f).any fun t => s.anyBad srcs t) = false := by
      apply List.any_eq_false.mpr
      intro t ht; simp [hb t ht]
    have h3 : (s.guarded h f).filter (fun t => (out ⟨l, f, s.guarded h f, h.sw, s.grp.stays⟩ t).any s.grp.work.destBad) = [] := by
      apply List.filter_eq_nil_iff.mpr
      intro t ht; simp [hb t ht]
    have h4 : (s.guarded h f).filter (fun _ => true) = s.guarded h f := List.filter_eq_self.mpr fun _ _ => rfl
    simp only [Group.inLan_none hp.1, Bool.false_eq_true, if_false, h2, h3, List.contains_nil, Bool.not_false, h4, List.map_nil, State.lEnd, recorded]
    congr 1
    apply State.modG_congr
    rw [Group.gave_late]
  rw [e]
  exact State.laneDone_lDone hp _ hf [] rfl h.sw ⟨l, f, s.guarded h f, h.sw, s.grp.stays⟩ rfl

/-- The same for variable-latency results. -/
theorem State.lXchg_late {s : State} (hp : s.plain true) {h : LHdr} {srcs : List (Sel × Bool)} {dark : Lane → Nat → Bool}
    {out : Lane → Nat → List RDest} {l : Word} {f : List Nat}
    (ha : s.grp.active = some (l, f)) (hg : s.guardOk h f)
    (hb : ∀ t ∈ s.guarded h f, s.anyBad srcs t = false ∧ (out ⟨l, f, s.guarded h f, h.sw, s.grp.stays⟩ t).any s.grp.work.destBad = false) :
    s.LaneDone (s.lXchg h true srcs dark out) h.sw f []
      (if (s.guarded h f).flatMap (out ⟨l, f, s.guarded h f, h.sw, s.grp.stays⟩) = [] then []
        else [OutRes.of true ((s.guarded h f).flatMap (out ⟨l, f, s.guarded h f, h.sw, s.grp.stays⟩)) false false]) (lnext l) := by
  have e : s.lXchg h true srcs dark out = (s.modG fun g => g.gave []
      (if (s.guarded h f).flatMap (out ⟨l, f, s.guarded h f, h.sw, s.grp.stays⟩) = [] then []
        else [OutRes.of true ((s.guarded h f).flatMap (out ⟨l, f, s.guarded h f, h.sw, s.grp.stays⟩)) false false])).lDone h.sw ⟨l, f, s.guarded h f, h.sw, s.grp.stays⟩ := by
    rw [State.lXchg, State.lane_eq ha hg]
    have h2 : ((s.guarded h f).any fun t => s.anyBad srcs t) = false := by
      apply List.any_eq_false.mpr
      intro t ht; simp [hb t ht]
    have h3 : (s.guarded h f).filter (fun t => (out ⟨l, f, s.guarded h f, h.sw, s.grp.stays⟩ t).any s.grp.work.destBad) = [] := by
      apply List.filter_eq_nil_iff.mpr
      intro t ht; simp [hb t ht]
    have h4 : (s.guarded h f).filter (fun _ => true) = s.guarded h f := List.filter_eq_self.mpr fun _ _ => rfl
    simp only [Group.inLan_none hp.1, Bool.false_eq_true, if_false, if_true, Bool.false_and, h2, h3, List.contains_nil, Bool.not_false, h4, List.map_nil, State.lEnd, recorded]
    congr 1
    apply State.modG_congr
    rw [Group.gave_nil]
    by_cases hz : (s.guarded h f).flatMap (out ⟨l, f, s.guarded h f, h.sw, s.grp.stays⟩) = []
    · simp [hz]
    · simp [hz]
  rw [e]
  exact State.laneDone_lDone hp _ (fun _ h => by cases h) _ (by split <;> rfl) h.sw ⟨l, f, s.guarded h f, h.sw, s.grp.stays⟩ rfl

end Sys2Proof.Machine
end

