-- ==== Sys2Proof/Laws/Mem.lean ====
section
/-!
SUPPORT. Sys2Proof/Laws/Mem.lean: every operation on memory changes the memory system alone, and keeps the memory's canonical form.
-/
namespace Sys2Proof.Machine

/-- The groups of a core in order. -/
theorem State.Inv.groupsAt {s : State} (h : s.Inv) (c : Nat) : rising (s.coreAt c).groups := by
  have : ∀ t : Tab Core, (∀ e ∈ t, rising e.2.groups) → rising (tget Core.reset t c).groups := by
    intro t
    induction t with
    | nil => intro _; trivial
    | cons e r ih =>
      intro hr
      simp only [tget]
      split
      · exact hr e (List.mem_cons_self ..)
      · split
        · trivial
        · exact ih fun f hf => hr f (List.mem_cons_of_mem _ hf)
  exact this _ h.groups

theorem State.MemOnly.refl (s : State) : s.MemOnly s := ⟨id, rfl, fun _ => rfl, fun _ => rfl, fun _ => rfl, fun _ => rfl, fun _ => rfl⟩

theorem State.MemOnly.trans {s t u : State} (h : s.MemOnly t) (k : t.MemOnly u) : s.MemOnly u where
  wf := k.wf ∘ h.wf
  device := by
    have h1 := h.device; have h2 := k.device
    rw [← h1, ← h2]
  cluster c := by have h1 := h.cluster c; have h2 := k.cluster c; rw [← h1, ← h2]
  core c := by have h1 := h.core c; have h2 := k.core c; rw [← h1, ← h2]
  planeA c := by have h1 := h.planeA c; have h2 := k.planeA c; rw [← h1, ← h2]
  planeB c := by have h1 := h.planeB c; have h2 := k.planeB c; rw [← h1, ← h2]
  bus c := by have h1 := h.bus c; have h2 := k.bus c; rw [← h1, ← h2]

/-- A fold of operations each of which changes the memory system alone. -/
theorem State.MemOnly.fold {α : Type} {f : State → α → State} (hf : ∀ (s : State) (a : α), s.MemOnly (f s a)) (l : List α) (s : State) :
    s.MemOnly (l.foldl f s) := by
  induction l generalizing s with
  | nil => exact .refl s
  | cons a l ih => exact (hf s a).trans (ih _)

/-- Inv of a state with a core changed that keeps its groups in order. -/
theorem State.Inv.modCore {s : State} (h : s.Inv) (c : Nat) (f : Core → Core)
    (hf : rising (f (s.coreAt c)).groups) : (s.modCore c f).Inv where
  mem := h.mem
  cores := rising_tput _ h.cores _ _
  groups e he := by
    rcases mem_tput he with rfl | he
    · exact hf
    · exact h.groups e he

/-- Inv of a state with a group changed. -/
theorem State.Inv.modGrp {s : State} (h : s.Inv) (c g : Nat) (f : Group → Group) : (s.modGrp c g f).Inv where
  mem := h.mem
  cores := rising_tput _ h.cores _ _
  groups e he := by
    rcases mem_tput he with rfl | he
    · exact rising_tput _ (h.groupsAt c) _ _
    · exact h.groups e he

/-- An update of memory, its poison, errors, keys, owners, shadows, windows or the wait for a transfer engine alone. -/
theorem State.MemOnly.of_mem {s : State} {m : List Host.Cell} {p e : Tab Bool} {k : Tab (List Byte × Nat)} {o : Tab Nat} {v : Tab Version}
    {w : Tab (BitVec 512 × BitVec 512 × List Nat)} {b : Bool} (h : memWf s.mem = true → memWf m = true) :
    s.MemOnly { s with mem := m, poison := p, eccu := e, encTags := k, owners := o, versions := v, wins := w, waits := b } :=
  ⟨fun i => ⟨h i.mem, i.cores, i.groups⟩, rfl, fun _ => rfl, fun _ => rfl, fun _ => rfl, fun _ => rfl, fun _ => rfl⟩

/-- An update of one core in its cache ways, translations, instruction cache and wake alone. -/
theorem State.MemOnly.of_core {s : State} {c : Nat} {f : Core → Core}
    (h1 : { f (s.coreAt c) with a := (s.coreAt c).a, b := (s.coreAt c).b, tlb := (s.coreAt c).tlb, icache := (s.coreAt c).icache,
                                vbus := (s.coreAt c).vbus } = s.coreAt c)
    (h2 : { (f (s.coreAt c)).a with cache := (s.coreAt c).a.cache } = (s.coreAt c).a)
    (h3 : { (f (s.coreAt c)).b with cache := (s.coreAt c).b.cache } = (s.coreAt c).b)
    (h4 : { (f (s.coreAt c)).vbus with wakeS := (s.coreAt c).vbus.wakeS, wakeD := (s.coreAt c).vbus.wakeD, woke := (s.coreAt c).vbus.woke, due := (s.coreAt c).vbus.due }
      = (s.coreAt c).vbus) :
    s.MemOnly (s.modCore c f) where
  wf h := by
    have e : (f (s.coreAt c)).groups = (s.coreAt c).groups := by
      have := congrArg Core.groups h1; exact this
    exact h.modCore c f (by rw [e]; exact h.groupsAt c)
  device := rfl
  cluster _ := rfl
  core d := by
    simp only [State.coreAt_modCore]
    by_cases h : d = c
    · subst h; simpa using h1
    · simp [h]
  planeA d := by
    simp only [State.coreAt_modCore]
    by_cases h : d = c
    · subst h; simpa using h2
    · simp [h]
  planeB d := by
    simp only [State.coreAt_modCore]
    by_cases h : d = c
    · subst h; simpa using h3
    · simp [h]
  bus d := by
    simp only [State.coreAt_modCore]
    by_cases h : d = c
    · subst h; simpa using h4
    · simp [h]

theorem State.MemOnly.now {s t : State} (h : s.MemOnly t) : t.now = s.now := by have := h.device; rw [← this]
theorem State.MemOnly.coreId {s t : State} (h : s.MemOnly t) : t.core = s.core := by have := h.device; rw [← this]
theorem State.MemOnly.slotId {s t : State} (h : s.MemOnly t) : t.slot = s.slot := by have := h.device; rw [← this]
theorem State.MemOnly.partsEq {s t : State} (h : s.MemOnly t) : t.parts = s.parts := by have := h.device; rw [← this]
theorem State.MemOnly.launchesEq {s t : State} (h : s.MemOnly t) : t.launches = s.launches := by have := h.device; rw [← this]
theorem State.MemOnly.freshEq {s t : State} (h : s.MemOnly t) : t.fresh = s.fresh := by have := h.device; rw [← this]
theorem State.MemOnly.groups {s t : State} (h : s.MemOnly t) (c : Nat) : (t.coreAt c).groups = (s.coreAt c).groups := by
  have := h.core c; rw [← this]
/-- The groups stand as they were. -/
theorem State.MemOnly.grpAt {s t : State} (h : s.MemOnly t) (c g : Nat) : t.grpAt c g = s.grpAt c g := by
  simp only [State.grpAt, h.groups c]
theorem State.MemOnly.grp {s t : State} (h : s.MemOnly t) : t.grp = s.grp := by
  simp only [State.grp, h.coreId, h.slotId, h.grpAt]
theorem State.MemOnly.lchAt {s t : State} (h : s.MemOnly t) (l : Nat) : t.lchAt l = s.lchAt l := by
  simp only [State.lchAt, h.launchesEq]
theorem State.MemOnly.partAt {s t : State} (h : s.MemOnly t) (l : Nat) : t.partAt l = s.partAt l := by
  simp only [State.partAt, h.partsEq]
/-- A stream runs as usual after an operation on memory. -/
theorem State.MemOnly.plain {s t : State} (h : s.MemOnly t) {lane : Bool} (hp : s.plain lane) : t.plain lane := by
  refine ⟨by rw [h.grp]; exact hp.1, ?_⟩
  rw [h.coreId, h.slotId, State.stepped_congr s.core s.slot lane (s := s) (by rw [h.grpAt]) h.partsEq h.launchesEq]
  exact hp.2

/-! The operations. -/

/-- Writing words of a line keeps memory's canonical form. -/
theorem memWf_wrWords (m : List Host.Cell) (line : Nat) (mask : BitVec 32) (data : BitVec 1024) (h : memWf m = true) :
    memWf (wrWords m line mask data) = true := by
  simp only [wrWords]
  generalize bitsOf 32 mask.toNat = l
  induction l generalizing m with
  | nil => exact h
  | cons w l ih => exact ih _ (memWf_memWrite h _ _)

theorem State.memOnly_mapCache (s : State) (c : Nat) (f : Nat → Line → Line) : s.MemOnly (s.mapCache c f) := .of_core rfl rfl rfl rfl

theorem State.memOnly_touchS (s : State) (c : Nat) : s.MemOnly (s.touchS c) := .of_core rfl rfl rfl rfl
theorem State.memOnly_touchD (s : State) (c : Nat) : s.MemOnly (s.touchD c) := .of_core rfl rfl rfl rfl
theorem State.memOnly_touchLine (s : State) (line : Nat) : s.MemOnly (s.touchLine line) := by
  simp only [State.touchLine]; split
  · split
    · exact s.memOnly_touchD _
    · exact s.memOnly_touchS _
  · exact .refl s
theorem State.memOnly_touchHome (s : State) (pa : Nat) : s.MemOnly (s.touchHome pa) := by
  simp only [State.touchHome]; split
  · exact s.memOnly_touchLine _
  · exact .refl s

theorem State.memOnly_rekey (s : State) (tag : List Byte × Nat) (line : Nat) : s.MemOnly (s.rekey tag line) := by
  simp only [State.rekey]
  split
  · exact .refl s
  · exact .of_mem fun h => memWf_memWrite h _ _

theorem State.memOnly_wrDram (s : State) (tag : List Byte × Nat) (a : Nat) (bs : List Byte) : s.MemOnly (s.wrDram tag a bs) :=
  (s.memOnly_rekey tag _).trans (.of_mem fun h => memWf_memWrite h _ _)

theorem State.memOnly_putHome (s : State) (tag : List Byte × Nat) (a : Nat) (bs : List Byte) : s.MemOnly (s.putHome tag a bs) := by
  simp only [State.putHome]
  split
  · exact s.memOnly_mapCache _ _
  · exact s.memOnly_wrDram _ _ _

theorem State.memOnly_dropPoi (s : State) (gs : List Nat) : s.MemOnly (s.dropPoi gs) := by
  refine State.MemOnly.trans (.of_mem id) (State.MemOnly.fold (fun s g => ?_) _ _)
  split
  · exact s.memOnly_mapCache _ _
  · exact .refl s

theorem State.memOnly_mergeLine (s : State) (line : Nat) : s.MemOnly (s.mergeLine line) := by
  simp only [State.mergeLine]
  split
  · exact .refl s
  · generalize hg : (span (4 * line) 4).filter s.homePoi = bad
    have h := s.memOnly_dropPoi ((span (4 * line) 4).filter fun g => !bad.contains g)
    generalize s.dropPoi ((span (4 * line) 4).filter fun g => !bad.contains g) = u at h
    refine h.trans (State.MemOnly.trans ?_ (State.MemOnly.fold (fun s w => s.memOnly_putHome _ _ _) _ _))
    exact .of_mem id

theorem State.memOnly_wrHome (s : State) (key : List Byte) (pa : Nat) (bs : List Byte) : s.MemOnly (s.wrHome key pa bs) := by
  refine State.MemOnly.fold (fun s p => ?_) _ s
  split
  · exact .refl s
  · exact (s.memOnly_mergeLine _).trans (State.memOnly_putHome _ _ _ _)

theorem State.memOnly_tlbFill (s : State) (core : Option Nat) (part va : Nat) (l : Leaf) : s.MemOnly (s.tlbFill core part va l) := by
  simp only [State.tlbFill]
  split
  · rename_i c
    refine (State.MemOnly.of_core (c := c) (f := fun k => { k with tlb := tlbAdd k.tlb 1024 part va l }) rfl rfl rfl rfl).trans ?_
    refine ⟨fun i => ⟨i.mem, i.cores, i.groups⟩, rfl, fun k => ?_, fun _ => rfl, fun _ => rfl, fun _ => rfl, fun _ => rfl⟩
    simp only [State.clAt_modCl, State.clAt_modCore]
    by_cases h : k = c / 6
    · subst h; simp
    · simp [h]
  · exact ⟨fun i => ⟨i.mem, i.cores, i.groups⟩, rfl, fun _ => rfl, fun _ => rfl, fun _ => rfl, fun _ => rfl, fun _ => rfl⟩

theorem State.memOnly_scramble (s : State) (b : Nat) (m : BitVec 512) : s.MemOnly (s.scramble b m) := by
  have hw : ∀ (is : List Nat) (g : Nat → Byte) (mm : List Host.Cell), memWf mm = true →
      memWf (is.foldl (fun m i => memWrite m (512 * b + i) [g i]) mm) = true := by
    intro is g
    induction is with
    | nil => exact fun _ h => h
    | cons i is ih => exact fun mm h => ih _ (memWf_memWrite h _ _)
  simp only [State.scramble]
  split
  · exact .refl s
  · have h := State.MemOnly.fold (fun (s : State) (i : Nat) => s.memOnly_mergeLine (4 * b + i)) (List.range 4) s
    generalize (List.range 4).foldl (fun s i => s.mergeLine (4 * b + i)) s = u at h
    exact h.trans (State.MemOnly.trans (.of_mem fun h => hw _ _ _ h)
      (State.MemOnly.fold (fun (s : State) (e : Nat × Core) => s.memOnly_mapCache e.1 _) _ _))

theorem State.memOnly_useWin (s : State) (pa n : Nat) : s.MemOnly (s.useWin pa n) := by
  simp only [State.useWin]
  split
  · exact .refl s
  · exact (s.memOnly_scramble _ _).trans (.of_mem id)

theorem State.memOnly_cleanHome (s : State) (c pa : Nat) (l : Line) : s.MemOnly (s.cleanHome c pa l) := by
  simp only [State.cleanHome]
  split
  · exact .refl s
  · refine ((s.memOnly_touchS c).trans (State.memOnly_touchHome _ pa)).trans ((State.MemOnly.fold (fun s w => ?_) _ _).trans (State.MemOnly.fold (fun s _ => ?_) _ _))
    · split
      · exact s.memOnly_wrDram _ _ _
      · exact s.memOnly_wrHome _ _ _
    · split
      · exact .of_mem id
      · exact .refl s

theorem State.memOnly_evict (s : State) (c set : Nat) (x : Super) : s.MemOnly (s.evict c set x) :=
  State.MemOnly.fold (fun s _ => s.memOnly_cleanHome _ _ _) _ s

theorem State.memOnly_cache (s : State) (c : Nat) (b : Bool) (f : CorePlane → CorePlane)
    (h : ∀ p, { f p with cache := p.cache } = p) : s.MemOnly (s.modCore c fun k => k.modPlane b f) := by
  cases b
  · exact .of_core rfl (h _) rfl rfl
  · exact .of_core rfl rfl (h _) rfl

theorem State.memOnly_cacheSel (s : State) (c : Nat) (f : CorePlane → CorePlane)
    (h : ∀ p, { f p with cache := p.cache } = p) : s.MemOnly (s.modCore c fun k => k.modPlane k.colSel f) := by
  have e : (s.modCore c fun k => k.modPlane k.colSel f) = s.modCore c fun k => k.modPlane (s.coreAt c).colSel f := rfl
  rw [e]; exact s.memOnly_cache c _ f h

theorem State.memOnly_putLine (s : State) (c pa : Nat) (l : Line) : s.MemOnly (s.putLine c pa l) := by
  simp only [State.putLine]
  split
  · exact s.memOnly_cacheSel c _ fun _ => rfl
  · split
    · exact s.memOnly_cacheSel c _ fun _ => rfl
    · split
      · exact (s.memOnly_evict _ _ _).trans (State.memOnly_cacheSel _ c _ fun _ => rfl)
      · exact .refl s

theorem State.memOnly_cleanOf (s : State) (c line : Nat) : s.MemOnly (s.cleanOf c line) := by
  simp only [State.cleanOf]
  refine (State.MemOnly.fold (fun s e => ?_) _ s).trans (State.memOnly_mapCache _ c _)
  split
  · exact s.memOnly_cleanHome _ _ _
  · exact .refl s

theorem State.memOnly_revoke (s : State) (c : Option Nat) (line : Nat) : s.MemOnly (s.revoke c line) := by
  simp only [State.revoke]
  split
  · exact .refl s
  · split
    · exact .refl s
    · exact (s.memOnly_cleanOf _ line).trans (.of_mem id)

theorem State.memOnly_revokeAll (s : State) (lines : List Nat) : s.MemOnly (s.revokeAll lines) :=
  State.MemOnly.fold (fun s l => s.memOnly_revoke none l) _ s

theorem State.memOnly_cleanAll (s : State) (c : Nat) (own : Bool) : s.MemOnly (s.cleanAll c own) := by
  simp only [State.cleanAll]
  refine (State.MemOnly.fold (fun s e => ?_) _ s).trans (State.memOnly_mapCache _ c _)
  split
  · exact s.memOnly_cleanHome _ _ _
  · exact .refl s

theorem State.memOnly_walk (s : State) (part va : Nat) : s.MemOnly (s.walk part va).2 :=
  (s.memOnly_revokeAll _).trans (State.MemOnly.fold (fun s l => s.memOnly_touchLine l) _ _)

theorem State.memOnly_xlate (s : State) (core : Option Nat) (part va : Nat) (w : Bool) : s.MemOnly (s.xlate core part va w).2 := by
  have hw := s.memOnly_walk part va
  simp only [State.xlate]
  split
  · exact .refl s
  · split
    · exact .refl s
    · split
      · exact .refl s
      split
      · exact .refl s
      · generalize s.walk part va = r at hw
        split
        · exact hw
        · split
          · exact hw
          · exact hw.trans (State.memOnly_tlbFill ..)

theorem State.memOnly_markStale (s : State) (c : Nat) (p : Nat → Bool) : s.MemOnly (s.markStale c p) :=
  s.memOnly_cacheSel c _ fun _ => rfl

theorem State.memOnly_release (s : State) (c : Nat) (x : Scope) : s.MemOnly (s.release c x) := by
  simp only [State.release]; split
  · exact s.memOnly_cleanAll c false
  · exact .refl s
theorem State.memOnly_acquire (s : State) (c : Nat) (x : Scope) : s.MemOnly (s.acquire c x) := by
  simp only [State.acquire]; split
  · exact s.memOnly_markStale c _
  · exact .refl s

theorem State.memOnly_cacheNot (s : State) (c : Nat) (f : CorePlane → CorePlane)
    (h : ∀ p, { f p with cache := p.cache } = p) : s.MemOnly (s.modCore c fun k => k.modPlane (!k.colSel) f) := by
  have e : (s.modCore c fun k => k.modPlane (!k.colSel) f) = s.modCore c fun k => k.modPlane (!(s.coreAt c).colSel) f := rfl
  rw [e]; exact s.memOnly_cache c _ f h

theorem State.memOnly_oneCopy (s : State) (c pa : Nat) : s.MemOnly (s.oneCopy c pa) := by
  simp only [State.oneCopy]
  split
  · exact .refl s
  · refine State.MemOnly.trans ?_ (State.memOnly_cacheNot _ c _ fun _ => rfl)
    split
    · exact s.memOnly_cleanOf _ _
    · exact .refl s

theorem State.memOnly_fetchLine (s : State) (c pa : Nat) (key : List Byte) (lan : Bool) : s.MemOnly (s.fetchLine c pa key lan).2.2 :=
  (s.memOnly_oneCopy c pa).trans (State.memOnly_putLine _ _ _ _)

theorem State.memOnly_cached (s : State) (c pa : Nat) (key : List Byte) (lan : Bool) : s.MemOnly (s.cached c pa key lan).2.2 := by
  have h : s.MemOnly (if homedAt c pa then s.mergeLine (storOf pa / 128) else s) := by
    split
    · exact s.memOnly_mergeLine _
    · exact .refl s
  simp only [State.cached]
  generalize (if homedAt c pa then s.mergeLine (storOf pa / 128) else s) = u at h
  split
  · exact h.trans (u.memOnly_putLine _ _ _)
  · exact h.trans (u.memOnly_fetchLine _ _ _ _)

theorem State.memOnly_rdWeak (s : State) (c pa : Nat) (key : List Byte) (n : Nat) : s.MemOnly (s.rdWeak c pa key n).2.2 := by
  simp only [State.rdWeak]
  split
  · exact s.memOnly_cached _ _ _ _
  · exact .refl s

theorem State.memOnly_rdStrong (s : State) (c pa : Nat) (key : List Byte) (n : Nat) : s.MemOnly (s.rdStrong c pa key n).2 := by
  simp only [State.rdStrong]
  refine (s.memOnly_revoke (some c) (storOf pa / 128)).trans ?_
  generalize s.revoke (some c) (storOf pa / 128) = u
  split
  · split
    · exact u.memOnly_cached _ _ _ _
    · exact u.memOnly_fetchLine _ _ _ _
  · exact .refl u

theorem State.memOnly_wrWeak (s : State) (c pa : Nat) (key bs : List Byte) : s.MemOnly (s.wrWeak c pa key bs) := by
  simp only [State.wrWeak]
  split
  · refine (s.memOnly_revoke (some c) (storOf pa / 128)).trans ?_
    generalize s.revoke (some c) (storOf pa / 128) = u
    split
    · exact .refl u
    · split
      · exact (u.memOnly_cached _ _ _ _).trans ((State.memOnly_putLine _ _ _ _).trans (State.memOnly_wrHome _ _ _ _))
      · have h : u.MemOnly { u with owners := tput u.owners (storOf pa / 128) (c + 1) } := .of_mem id
        generalize { u with owners := tput u.owners (storOf pa / 128) (c + 1) } = v at h
        refine h.trans (State.MemOnly.trans ?_ (State.memOnly_putLine _ _ _ _))
        split
        · exact v.memOnly_cached _ _ _ _
        · exact v.memOnly_fetchLine _ _ _ _
  · exact s.memOnly_wrHome _ _ _

theorem State.memOnly_freshen (s : State) (c pa : Nat) (bs : List Byte) : s.MemOnly (s.freshen c pa bs) := by
  simp only [State.freshen]; split
  · exact .refl s
  · split <;> exact s.memOnly_putLine _ _ _

theorem State.memOnly_wrStrong (s : State) (c pa : Nat) (key bs : List Byte) : s.MemOnly (s.wrStrong c pa key bs) := by
  simp only [State.wrStrong]
  refine ((s.memOnly_revoke (some c) (storOf pa / 128)).trans (State.memOnly_oneCopy _ c pa)).trans ?_
  generalize (s.revoke (some c) (storOf pa / 128)).oneCopy c pa = u
  refine State.MemOnly.trans ?_ ((State.memOnly_wrHome _ _ _ _).trans (State.memOnly_freshen _ _ _ _))
  split
  · exact .refl u
  · exact u.memOnly_cleanOf _ _

theorem State.memOnly_arrive (s : State) (c pa n : Nat) (far : Bool) : s.MemOnly (s.arrive c pa n far) := by
  simp only [State.arrive]; split
  · refine State.MemOnly.trans ?_ ((State.memOnly_touchS _ c).trans (State.memOnly_useWin _ pa n))
    split
    · exact s.memOnly_touchHome pa
    · exact .refl s
  · exact s.memOnly_useWin pa n
theorem State.memOnly_arriveAt (s : State) (pa n : Nat) : s.MemOnly (s.arriveAt pa n) :=
  (s.memOnly_touchHome pa).trans (State.memOnly_useWin _ pa n)

theorem State.memOnly_clearPoi (s : State) (gs : List Nat) : s.MemOnly (s.clearPoi gs) := by
  simp only [State.clearPoi]
  have h : s.MemOnly { s with eccu := s.eccu.filter fun e => !gs.contains e.1 } := .of_mem id
  split
  · exact h
  · exact h.trans (State.memOnly_dropPoi _ _)

theorem State.memOnly_awaitEngine (s : State) (t : Item → Bool) (pa n : Nat) : s.MemOnly (s.awaitEngine t pa n) := by
  simp only [State.awaitEngine]; split
  · exact .of_mem id
  · exact .refl s

theorem State.memOnly_reach (s : State) (core : Option Nat) (part va : Nat) (w : Bool) : s.MemOnly (s.reach core part va w).2 := by
  have h := s.memOnly_xlate core part va w
  simp only [State.reach]
  split
  · exact h.trans (.of_mem id)
  · exact h

theorem State.memOnly_staleOf (s : State) (c line : Nat) : s.MemOnly (s.staleOf c line) := by
  simp only [State.staleOf]
  split
  · exact .refl s
  · exact s.memOnly_mapCache _ _

theorem State.memOnly_modVer (s : State) (p t : Nat) (f : Version → Version) : s.MemOnly (s.modVer p t f) :=
  ⟨fun i => ⟨i.mem, i.cores, i.groups⟩, rfl, fun _ => rfl, fun _ => rfl, fun _ => rfl, fun _ => rfl, fun _ => rfl⟩

theorem State.memOnly_owners (s : State) (o : List (Nat × Nat)) : s.MemOnly { s with owners := o } := .of_mem id

theorem State.memOnly_wrShadow (s : State) (c lid : Nat) (key : List Byte) (pa : Nat) (bs : List Byte) {t : State}
    (h : s.wrShadow c lid key pa bs = some t) : s.MemOnly t := by
  simp only [State.wrShadow] at h
  split at h
  · cases h; exact .refl s
  split at h
  · cases h; exact s.memOnly_modVer _ _ _
  · split at h
    · cases h
      have h1 := (s.memOnly_revoke none (storOf pa / 128)).trans ((State.memOnly_mergeLine _ (storOf pa / 128)).trans
        (State.memOnly_staleOf _ c (storOf pa / 128)))
      generalize State.staleOf _ c (storOf pa / 128) = u at h1 ⊢
      exact h1.trans (State.MemOnly.trans (u.memOnly_owners _) (State.memOnly_modVer _ _ _ _))
    · cases h

/-- A load changes the memory system alone. -/
theorem State.memOnly_load (s : State) (c lid : Nat) (sb : List PStore) (va n : Nat) (o : Order) (x : Scope) {bs : List Byte} {m : Bool} {t : State}
    (h : s.load c lid sb va n o x = .ok bs m t) : s.MemOnly t := by
  simp only [State.load] at h
  split at h
  · cases h
  split at h
  · cases h
  · rename_i pa key s0 hx
    have h0 : s.MemOnly s0 := by have := s.memOnly_xlate (some c) (s.lchAt lid).part va false; rw [hx] at this; exact this
    have h1 : s.MemOnly (s0.arrive c pa n (Scope.wide x)) := h0.trans (s0.memOnly_arrive c pa n _)
    generalize s0.arrive c pa n (Scope.wide x) = s1 at h h1
    have h2 : s1.MemOnly (if Scope.wide x = true then ((s1.rdStrong c pa key n).1, s1.misses c pa, (s1.rdStrong c pa key n).2)
        else s1.rdWeak c pa key n).2.2 := by
      split
      · exact State.memOnly_rdStrong _ _ _ _ _
      · exact State.memOnly_rdWeak _ _ _ _ _
    -- the checks, in order
    iterate 5 (split at h; · cases h)
    cases h
    refine h1.trans ?_
    split
    · exact h2.trans (State.memOnly_acquire _ _ _)
    · exact h2

/-! Accesses that touch the strong stores not yet performed. -/

theorem State.MemOnly.acc {s t : State} (h : s.MemOnly t) (c g : Nat) : s.MemAcc t c g where
  wf := h.wf
  device := h.device
  cluster := h.cluster
  core d := by have := h.core d; rw [← this]
  planeA := h.planeA
  planeB := h.planeB
  bus := h.bus
  group := by rw [h.grpAt]
  groups d k _ := h.grpAt d k

theorem State.MemAcc.trans {s t u : State} {c g : Nat} (h : s.MemAcc t c g) (k : t.MemAcc u c g) : s.MemAcc u c g where
  wf := k.wf ∘ h.wf
  device := by have h1 := h.device; have h2 := k.device; rw [← h1, ← h2]
  cluster d := by have h1 := h.cluster d; have h2 := k.cluster d; rw [← h1, ← h2]
  core d := by have h1 := h.core d; have h2 := k.core d; rw [← h1, ← h2]
  planeA d := by have h1 := h.planeA d; have h2 := k.planeA d; rw [← h1, ← h2]
  planeB d := by have h1 := h.planeB d; have h2 := k.planeB d; rw [← h1, ← h2]
  bus d := by have h1 := h.bus d; have h2 := k.bus d; rw [← h1, ← h2]
  group := by
    have h1 := h.group; have h2 := k.group
    rw [← h1, ← h2]
  groups d e hne := (k.groups d e hne).trans (h.groups d e hne)

/-- The strong stores of a group not yet performed, replaced. -/
theorem State.memAcc_bufs (s : State) (c g : Nat) (f : Group → Group)
    (hf : ∀ q : Group, { f q with sbuf := q.sbuf, lsbuf := q.lsbuf } = q) : s.MemAcc (s.modGrp c g f) c g where
  wf h := h.modGrp c g f
  device := rfl
  cluster _ := rfl
  core d := by
    have e := State.coreAt_setGrp s c g d (f (s.grpAt c g))
    rw [State.modGrp, ← e]
  planeA d := by
    have e := State.coreAt_setGrp s c g d (f (s.grpAt c g))
    rw [State.modGrp, ← e]
  planeB d := by
    have e := State.coreAt_setGrp s c g d (f (s.grpAt c g))
    rw [State.modGrp, ← e]
  bus d := by
    have e := State.coreAt_setGrp s c g d (f (s.grpAt c g))
    rw [State.modGrp, ← e]
  group := by rw [State.grpAt_modGrp_self]; exact hf _
  groups d h hne := by
    rw [State.grpAt_modGrp, if_neg]
    rintro ⟨rfl, rfl⟩; exact hne rfl

theorem State.memAcc_drainBuf (s : State) (c g : Nat) : s.MemAcc (s.drainBuf c g) c g := by
  have h : s.MemOnly ((((s.grpAt c g).sbuf ++ (s.grpAt c g).lsbuf)).foldl (fun s e => ((s.awaitEngine anyItem e.pa e.bytes.length).touchHome e.pa).wrStrong c e.pa e.key e.bytes) s) :=
    State.MemOnly.fold (fun s e => ((s.memOnly_awaitEngine _ _ _).trans (State.memOnly_touchHome _ _)).trans (State.memOnly_wrStrong _ _ _ _ _)) _ s
  exact (h.acc c g).trans (State.memAcc_bufs _ c g (fun q => { q with sbuf := [], lsbuf := [] }) fun _ => rfl)

/-- The group after its queued stores are performed. -/
theorem State.grpAt_drainBuf (s : State) (c g : Nat) : (s.drainBuf c g).grpAt c g = { s.grpAt c g with sbuf := [], lsbuf := [] } := by
  have h : s.MemOnly ((((s.grpAt c g).sbuf ++ (s.grpAt c g).lsbuf)).foldl (fun s e => ((s.awaitEngine anyItem e.pa e.bytes.length).touchHome e.pa).wrStrong c e.pa e.key e.bytes) s) :=
    State.MemOnly.fold (fun s e => ((s.memOnly_awaitEngine _ _ _).trans (State.memOnly_touchHome _ _)).trans (State.memOnly_wrStrong _ _ _ _ _)) _ s
  simp only [State.drainBuf, State.grpAt_modGrp_self, h.grpAt]

theorem State.MemAcc.lid {s t : State} {c g : Nat} (h : s.MemAcc t c g) (d k : Nat) : (t.grpAt d k).lid = (s.grpAt d k).lid := by
  by_cases e : (d, k) = (c, g)
  · cases e; have := h.group; rw [← this]
  · rw [h.groups d k e]
theorem State.MemAcc.now {s t : State} {c g : Nat} (h : s.MemAcc t c g) : t.now = s.now := by have := h.device; rw [← this]
theorem State.MemAcc.coreId {s t : State} {c g : Nat} (h : s.MemAcc t c g) : t.core = s.core := by have := h.device; rw [← this]
theorem State.MemAcc.slotId {s t : State} {c g : Nat} (h : s.MemAcc t c g) : t.slot = s.slot := by have := h.device; rw [← this]
theorem State.MemAcc.partsEq {s t : State} {c g : Nat} (h : s.MemAcc t c g) : t.parts = s.parts := by have := h.device; rw [← this]
theorem State.MemAcc.launchesEq {s t : State} {c g : Nat} (h : s.MemAcc t c g) : t.launches = s.launches := by have := h.device; rw [← this]
theorem State.MemAcc.lchAt {s t : State} {c g : Nat} (h : s.MemAcc t c g) (l : Nat) : t.lchAt l = s.lchAt l := by
  simp only [State.lchAt, h.launchesEq]
/-- A stream runs as usual after an access of its group. -/
theorem State.MemAcc.plain {s t : State} (h : s.MemAcc t s.core s.slot) {lane : Bool} (hp : s.plain lane) : t.plain lane := by
  refine ⟨?_, ?_⟩
  · have := h.group
    have e : t.grp = t.grpAt s.core s.slot := by simp only [State.grp, h.coreId, h.slotId]
    have h1 := hp.1
    rw [State.grp, ← this] at h1
    rw [e]; exact h1
  · rw [h.coreId, h.slotId, State.stepped_congr s.core s.slot lane (s := s) (h.lid _ _) h.partsEq h.launchesEq]
    exact hp.2

/-- One part of a store changes the memory system and its group's strong stores alone. -/
theorem State.memAcc_storeRun (s : State) (l : Launch) (c g : Nat) (lane : Bool) (x : Scope) (key : List Byte) (pa va : Nat) (bs : List Byte) (p : Nat × Nat)
    {t : State} (h : s.storeRun l c g lane x key pa va bs p = .ok t) : s.MemAcc t c g := by
  simp only [State.storeRun] at h
  split at h
  · split at h
    · rename_i s3 hs
      cases h
      exact (State.memOnly_wrShadow _ _ _ _ _ _ hs).acc c g
    · cases h
  · split at h
    · cases h
      refine State.memAcc_bufs _ c g _ fun q => ?_
      split <;> rfl
    · cases h
      exact (State.memOnly_wrWeak _ _ _ _ _).acc c g
/-- Once a part of a store has stopped, the fold stays as it stopped. -/
theorem StoreRes.fold_stuck {α : Type} (f : α → State → StoreRes) (l : List α) {r : StoreRes} (hr : ∀ u, r ≠ .ok u) (t : State) :
    l.foldl (fun (r : StoreRes) a => r.andThen (f a)) r ≠ .ok t := by
  induction l with
  | nil => exact hr t
  | cons a l ih =>
    have e : r.andThen (f a) = r := by
      cases r with
      | ok u => exact absurd rfl (hr u)
      | bad _ _ _ => rfl
      | stall => rfl
      | quota => rfl
    rw [List.foldl_cons, e]; exact ih
/-- A fold of parts of a store that goes on where each was made. -/
theorem StoreRes.fold_andThen {α : Type} {c g : Nat} (f : α → State → StoreRes) (hf : ∀ a s t, f a s = .ok t → s.MemAcc t c g) (l : List α) :
    ∀ (s t : State), l.foldl (fun (r : StoreRes) a => r.andThen (f a)) (StoreRes.ok s) = StoreRes.ok t → s.MemAcc t c g := by
  induction l with
  | nil =>
    intro s t h
    have e : s = t := by injection h
    subst e; exact (State.MemOnly.refl s).acc c g
  | cons a l ih =>
    intro s t h
    rw [List.foldl_cons, show (StoreRes.ok s).andThen (f a) = f a s from rfl] at h
    generalize hr : f a s = r at h
    cases r with
    | ok u => exact (hf a s u hr).trans (ih u t h)
    | bad d w _ => exact absurd h (fold_stuck f l (fun _ => StoreRes.noConfusion) t)
    | stall => exact absurd h (fold_stuck f l (fun _ => StoreRes.noConfusion) t)
    | quota => exact absurd h (fold_stuck f l (fun _ => StoreRes.noConfusion) t)

/-- A store changes the memory system and its group's strong stores alone. -/
theorem State.memAcc_store (s : State) (c g : Nat) (lane : Bool) (va : Nat) (bs : List Byte) (o : Order) (x : Scope) {t : State}
    (h : s.store c g lane va bs o x = .ok t) : s.MemAcc t c g := by
  simp only [State.store] at h
  split at h
  · cases h
  split at h
  · cases h
  · rename_i pa key s0 hx
    have h0 : s.MemOnly s0 := by
      have := s.memOnly_xlate (some c) (s.lchAt (s.grpAt c g).lid).part va true; rw [hx] at this; exact this
    generalize (Scope.wide x || !(homedAt c pa || s.owner (storOf pa / 128) == some c)) = far at h
    have h1 : s.MemOnly (s0.arrive c pa bs.length far) := h0.trans (s0.memOnly_arrive _ _ _ _)
    generalize s0.arrive c pa bs.length far = s1 at h h1
    -- the checks, in order
    iterate 5 (split at h; · cases h)
    have h2 : s1.MemOnly (if (o == .rel) = true then s1.release c x else s1) := by
      split
      · exact s1.memOnly_release _ _
      · exact .refl s1
    generalize (if (o == .rel) = true then s1.release c x else s1) = s2 at h h2
    have h3 : ∀ b : Bool, s2.MemAcc (if b = true then s2.drainBuf c g else s2) c g := by
      intro b
      split
      · exact s2.memAcc_drainBuf c g
      · exact (State.MemOnly.refl s2).acc c g
    exact ((h1.trans h2).acc c g).trans ((h3 _).trans (StoreRes.fold_andThen _ (fun p u v hu => u.memAcc_storeRun _ _ _ _ _ _ _ _ _ _ hu) _ _ _ h))

/-- An atomic changes the memory system and its group's strong stores alone. -/
theorem State.memAcc_atomic (s : State) (c g va n : Nat) (o : Order) (x : Scope) (f : List Byte → List Byte) {bs : List Byte} {m : Bool}
    {t : State} (h : s.atomic c g va n o x f = .ok bs m t) : s.MemAcc t c g := by
  simp only [State.atomic] at h
  split at h
  · cases h
  split at h
  · cases h
  · rename_i pa key s0 hx
    have h0 : s.MemOnly s0 := by
      have := s.memOnly_xlate (some c) (s.lchAt (s.grpAt c g).lid).part va true; rw [hx] at this; exact this
    have h1 : s.MemOnly (s0.arrive c pa n true) := h0.trans (s0.memOnly_arrive _ _ _ _)
    generalize s0.arrive c pa n true = s1 at h h1
    iterate 5 (split at h; · cases h)
    have h2 : (s1.drainBuf c g).MemOnly (if (o == .rel || o == .ar) = true then (s1.drainBuf c g).release c x else s1.drainBuf c g) := by
      split
      · exact State.memOnly_release _ _ _
      · exact .refl _
    have h12 := (h1.acc c g).trans ((s1.memAcc_drainBuf c g).trans (h2.acc c g))
    generalize (if (o == .rel || o == .ar) = true then (s1.drainBuf c g).release c x else s1.drainBuf c g) = s2 at h h12
    have ha : ∀ u : State, u.MemOnly (if (o == .acq || o == .ar) = true then u.acquire c x else u) := by
      intro u
      split
      · exact u.memOnly_acquire _ _
      · exact .refl u
    split at h
    · split at h
      · rename_i s3 hs
        cases h
        exact h12.trans (((State.memOnly_wrShadow _ _ _ _ _ _ hs).trans (ha _)).acc c g)
      · cases h
    · cases h
      exact h12.trans (((State.memOnly_rdStrong _ _ _ _ _).trans ((State.memOnly_wrStrong _ _ _ _ _).trans (ha _))).acc c g)

end Sys2Proof.Machine
end

