-- ==== Sys2Proof/Laws/Trap.lean ====
section
/-!
SUPPORT. Sys2Proof/Laws/Trap.lean: what a trap's frame holds, and what its entry makes of the state (R314, R315).
-/
namespace Sys2Proof.Machine

/-- Registers from 32 on written one after another. -/
theorem RegPlane.fold_ws (k : Nat) (x : Nat → Word) (p : RegPlane) :
    (∀ n, ((List.range k).foldl (fun p i => p.ws (32 + i) (x i)) p).rs n = if 32 ≤ n ∧ n < 32 + k then x (n - 32) else p.rs n) ∧
    (∀ n, ((List.range k).foldl (fun p i => p.ws (32 + i) (x i)) p).sBad n = if 32 ≤ n ∧ n < 32 + k then false else p.sBad n) ∧
    ((List.range k).foldl (fun p i => p.ws (32 + i) (x i)) p).v = p.v ∧ ((List.range k).foldl (fun p i => p.ws (32 + i) (x i)) p).p = p.p := by
  induction k with
  | zero => exact ⟨fun n => by simp <;> omega, fun n => by simp <;> omega, rfl, rfl⟩
  | succ k ih =>
    rw [List.range_succ, List.foldl_append]
    simp only [List.foldl_cons, List.foldl_nil, RegPlane.ws_v, RegPlane.ws_p]
    refine ⟨fun n => ?_, fun n => ?_, ih.2.2.1, ih.2.2.2⟩
    · rw [RegPlane.rs_ws, ih.1]
      by_cases h : n = 32 + k
      · subst h; rw [if_pos (by omega), if_pos (by omega)]; congr 1; omega
      · rw [if_neg (by omega)]
        by_cases h2 : 32 ≤ n ∧ n < 32 + k
        · rw [if_pos h2, if_pos (by omega)]
        · rw [if_neg h2, if_neg (by omega)]
    · rw [RegPlane.sBad_ws, ih.2.1]
      by_cases h : n = 32 + k
      · subst h; rw [if_pos rfl, if_pos (by omega)]
      · rw [if_neg h]
        by_cases h2 : 32 ≤ n ∧ n < 32 + k
        · rw [if_pos h2, if_pos (by omega)]
        · rw [if_neg h2, if_neg (by omega)]

/-- What the frame holds, register by register, and what it leaves. -/
theorem RegPlane.frame_spec (p : RegPlane) (t : TrapRec) (front : List Word) :
    (p.frame t front).rs 1 = t.s1 ∧ (p.frame t front).rs 2 = t.resume ∧ (p.frame t front).rs 3 = t.lpc ∧
    (p.frame t front).rs 4 = t.faddr ∧ (p.frame t front).rs 5 = t.fmask ++ t.exec ∧
    (∀ n, 32 ≤ n → n < 64 → (p.frame t front).rs n = lget 0 front (n - 32)) ∧
    (∀ n, n ∈ [1, 2, 3, 4, 5] ∨ 32 ≤ n ∧ n < 64 → (p.frame t front).sBad n = false) ∧
    (∀ n, n ∉ [1, 2, 3, 4, 5] → n < 32 ∨ 64 ≤ n → (p.frame t front).rs n = p.rs n) ∧
    (p.frame t front).v = p.v ∧ (p.frame t front).p = p.p := by
  have h := RegPlane.fold_ws 32 (fun i => lget 0 front i) (((((p.ws 1 t.s1).ws 2 t.resume).ws 3 t.lpc).ws 4 t.faddr).ws 5 (t.fmask ++ t.exec))
  have e : p.frame t front = (List.range 32).foldl (fun p i => p.ws (32 + i) (lget 0 front i))
      (((((p.ws 1 t.s1).ws 2 t.resume).ws 3 t.lpc).ws 4 t.faddr).ws 5 (t.fmask ++ t.exec)) := rfl
  rw [e]
  refine ⟨?_, ?_, ?_, ?_, ?_, fun n h1 h2 => ?_, fun n hn => ?_, fun n hn h2 => ?_, ?_, ?_⟩
  · rw [h.1, if_neg (by omega)]; simp [RegPlane.rs_ws]
  · rw [h.1, if_neg (by omega)]; simp [RegPlane.rs_ws]
  · rw [h.1, if_neg (by omega)]; simp [RegPlane.rs_ws]
  · rw [h.1, if_neg (by omega)]; simp [RegPlane.rs_ws]
  · rw [h.1, if_neg (by omega)]; simp [RegPlane.rs_ws]
  · rw [h.1, if_pos (by omega)]
  · rw [h.2.1]
    by_cases h2 : 32 ≤ n ∧ n < 32 + 32
    · rw [if_pos h2]
    · rw [if_neg h2]
      simp only [RegPlane.sBad_ws]
      have : n ∈ [1, 2, 3, 4, 5] := by
        rcases hn with hn | hn
        · exact hn
        · omega
      simp only [List.mem_cons, List.not_mem_nil, or_false] at this
      rcases this with rfl | rfl | rfl | rfl | rfl <;> simp
  · rw [h.1, if_neg (by omega)]
    simp only [List.mem_cons, List.not_mem_nil, or_false, not_or] at hn
    simp [RegPlane.rs_ws, hn]
  · rw [h.2.2.1]; simp
  · rw [h.2.2.2]; simp

@[simp] theorem Group.modWork_selB (g : Group) (f : RegPlane → RegPlane) : (g.modWork f).selB = g.selB := by
  simp only [Group.modWork]; split <;> simp_all

/-- The group after trap entry: its words of the frontier block, and the rest as R314 leaves it. -/
def Group.entered (q : Group) (t : TrapRec) (halt : Bool) (words : List Word) : Group :=
  ({ q with selB := !q.selB, sWait := .none, lWait := .none, sPark := none, lPark := none, pflip := none, pend := none, redo := none
            held := some .trap, handler := true, pc := q.trapvec, halted := halt, dbgIn := halt, yielded := [], wprGo := false }).modWork fun p => p.frame t words

/-- What trap entry does: the group alone changes, and the frontier's words are kept. -/
theorem State.doEnter_spec (s : State) (c g : Nat) (t : TrapRec) (halt : Bool) :
    ∃ words fs, s.doEnter c g t halt = ({ s with fronts := fs }).setGrp c g ((s.grpAt c g).entered t halt words) := by
  simp only [State.doEnter]
  split
  · exact ⟨_, s.fronts, rfl⟩
  · exact ⟨_, _, rfl⟩

end Sys2Proof.Machine
end

