-- ==== Sys2Proof/Tests/Slice0.lean ====
section
/-!
SUPPORT. Sys2Proof/Tests/Slice0.lean: tests of single steps against the spec's worked examples and tables, and for every statement a state and
operands that meet its hypotheses.
-/
namespace Sys2Proof.Tests
open Sys2Proof Sys2Proof.Machine

/-! Words: what WellFormed refuses, and words of the spec's encoding tables. -/

/-- A plain header: no switch marker, guard p0. -/
def h0 : LHdr := ⟨false, false, 0⟩

/-- R38, R37, R36, R35: the guard (!p0), imm32 that no operand selects, odd registers in 64-bit positions, p0 as a destination. -/
theorem test_wf_lane_fields : [Instr.iadd ⟨false, true, 0⟩ 1 (.v 1) (.v 2) 0, .lret ⟨false, true, 0⟩, .iadd h0 1 (.v 1) (.v 2) 5,
    .mov h0 1 (.c 2) 1, .fclass h0 .d 1 (.v 3) 0, .fcvt h0 .s .d .rn 1 (.v 5) 0, .fcvt h0 .d .s .rn 1 (.v 4) 0, .dadd h0 .rn 1 (.v 2) (.v 4) 0,
    .dadd h0 .rn 2 (.v 3) (.v 4) 0, .dadd h0 .rn 2 (.v 2) (.v 5) 0, .dfma h0 .rn 2 (.v 2) (.v 4) (.v 63) 0, .lpush h0 true (.v 3) 0,
    .icmp h0 .eq (.p 0) (.v 1) (.v 2) 0, .fcmp h0 .eq false (.p 0) (.v 1) (.v 2) 0, .lmask h0 .set 0 (.c 0) 0, .pchk h0 false 0 (.v 0) 0,
    .lassert h0 (.v 1) (.v 3) 0, .ljmp h0 (.v 1) 4, .mstat h0 false 3 5, .mstat h0 false 2 12].all (fun i => !wellFormed i) = true := by decide

/-- R85, R88, R114, R111, R74: operands that a form leaves no room for, conversions of a format to itself and widenings with a rounding code. -/
theorem test_wf_forms : [Instr.plut h0 .nib 1 (.v 1) (.v 2) (.v 3) 0, .plut h0 .b 1 (.v 1) (.v 3) (.v 4) 0,
    .vote h0 .ballot (.p 2) (.v 1) 0, .qpack h0 false false 3 (.v 1) (.v 0) 0, .qpack h0 false false 2 (.v 1) (.v 4) 0,
    .fcvt h0 .s .s .rn 1 (.v 1) 0, .fcvt h0 .s .h .rz 1 (.v 1) 0, .sfcvt false .d .d .rn 1 2, .sfcvt false .d .s .ru 1 2,
    .loop false 0 4, .lgo false 0 0 9, .lgo false 0 60 5].all (fun i => !wellFormed i) = true := by decide

/-- R32, R33, R142, R143, R144, R146, R187: orders and scopes, runs of registers, sizes and data operands of accesses. -/
theorem test_wf_accesses : [Instr.sld false 1 2 .d .rel .d 0, .sld false 1 2 .d .acq .weak 0, .sst false 1 2 .d .acq .d 0, .sldp false 63 2 .w 0,
    .sstp false 63 2 .w 0, .satom false 1 2 true .add .rlx .weak, .scas false 63 2 true .rlx .d, .fence false .rlx .d, .fence false .acq .weak,
    .cinv false 2 .d .weak 0, .ccln false 2 .d .weak 0, .ldg h0 .w true .rlx .weak 1 0 (.v 2) 0, .ldg h0 .d false .rlx .weak 1 0 (.v 2) 0,
    .ldg h0 .w false .ar .d 1 0 (.v 2) 0, .stg h0 .w .acq .d 0 (.v 1) (.v 2) 0, .stg h0 .w .rlx .weak 0 (.v 1) .imm 0,
    .stg h0 .d .rlx .weak 0 (.v 1) (.v 3) 0, .ldgx h0 .w false .rlx .weak 1 (.v 3) 0, .stgx h0 .w .rlx .weak (.v 3) (.v 2) 0,
    .ldgv h0 .v4 6 0 (.v 1) 0, .stgv h0 .v2 0 (.v 1) 5 0, .lds h0 .w false .rlx .d 1 (.v 1) 0, .sts h0 .w .rlx .s (.v 1) (.v 2) 0,
    .ldsb h0 .v2 3 (.v 1) 0, .stsb h0 .v4 (.v 1) 2 0, .atomg h0 true .add .rlx .d 3 0 (.v 1) (.v 2) 0, .atomg h0 false .add .rlx .weak 2 0 (.v 1) (.v 2) 0,
    .casg h0 true .rlx .d 2 0 (.v 1) 2 0, .atomgx h0 true .add .rlx .d 2 (.v 1) (.v 2) 0, .redg h0 false .add .acq .d 0 (.v 1) (.v 2) 0,
    .atoms h0 false .add .rlx .d 2 (.v 1) (.v 2) 0, .cass h0 true .rlx .t 2 (.v 1) 3 0, .ldbc h0 .h false .acq .weak 1 0 0,
    .stgm h0 true (.v 2) (.v 1) (.v 3) 0, .stgm h0 false (.v 2) .imm (.v 2) 0].all (fun i => !wellFormed i) = true := by decide

/-- R202, R214, R215, R226, R231, R300, R189, R334, R259, R273: planes, runs of registers and the fields of services and of the matrix class. -/
theorem test_wf_services : [Instr.flip false .grp .wait false 3, .flip false .acc .flow false 3, .pfree false .clus .wait .none 0,
    .pfree false .pane .flow .none 3, .pfree false .acc .wait .give 3, .pstat false .core .poi 3, .xfer false 61 2, .xcvt false 61 2, .xfill false 61 2,
    .xgath false 61 2, .xred false 61 2, .xbcst false 61 2, .xagree false 61 2, .xstat false false false 63 2, .launch false false 63 2,
    .gsig false 63, .tstat false true true 4 0, .tstat false true false 4 1, .semsig false .weak 4, .semwait false true .d 63, .tlbi false .va 63,
    .tlbi false .all 4, .mzero h0 true 4 3, .mcvt h0 true 4 3, .wsel h0 (.v 3) 0].all (fun i => !wellFormed i) = true := by decide

/-- The scalar instruction of a word, and the lane instruction of three. -/
def sc (w : Nat) : Option Instr := (decode .scalar (leBytes 4 w)).toOption
def ln (hi mid lo : Nat) : Option Instr := (decode .lane (leBytes 4 lo ++ leBytes 4 mid ++ leBytes 4 hi)).toOption

/-- Section "Words beside their sources" of spec/03: SR, SI, SB and the control words. -/
theorem test_decode_scalar : sc 0x011C3000 = some (.add false 7 3 0) ∧ sc 0x230C4464 = some (.cmpi false .ltu 3 4 0x64) ∧
    sc 0x1B201083 = some (.csel false 8 1 2 3) ∧ sc 0x2911FFFB = some (.bc false .ne 7 0x3FFB) ∧ sc 0xB5180008 = some (.srd true 6 8 0) ∧
    sc 0x24240004 = some (.li false 9 4) ∧ sc 0x25263456 = some (.lih false 9 0x23456) ∧ sc 0x2E290300 = some (.lgo false 10 16 3) ∧
    sc 0x3100C000 = some (.wait false 3 0) := by decide
/-- Section "Scalar float" of spec/03. -/
theorem test_decode_scalar_float : sc 0x60083111 = some (.sfadd false true .rz 2 3 4) := by decide
/-- spec/07 and spec/09: the SM word. -/
theorem test_decode_scalar_memory : sc 0x38102D82 = some (.sld false 4 2 .d .acq .d 2) ∧ sc 0x41045C08 = some (.pref false true 5 .d 8) ∧
    sc 0x3C182F80 = some (.satom false 6 2 true .add .ar .d) ∧ sc 0x3D203980 = some (.scas false 8 3 false .acq .d) ∧
    sc 0x39003A80 = some (.sst false 0 3 .w .rel .d 0) ∧ sc 0x3E000380 = some (.fence false .ar .d) ∧
    sc 0x40004C88 = some (.ccln false 4 .d .d 8) ∧ sc 0x52280004 = some (.semsig false .d 10) ∧ sc 0x5330000C = some (.semwait false true .d 12) := by decide
/-- spec/10, spec/11, spec/16, spec/18 and spec/21: the SX and SI words of planes, transfers, launches, traps and services. -/
theorem test_decode_services : sc 0x42100031 = some (.flip false .acc .cancel true 4) ∧ sc 0x43180042 = some (.pfree false .pane .wait .give 6) ∧
    sc 0x441C0002 = some (.pstat false .pane .poi 7) ∧ sc 0x4D108003 = some (.xstat false true true 4 2) ∧
    sc 0x50214002 = some (.tstat false false true 8 5) ∧ sc 0x510C0000 = some (.tabort false 3) ∧ sc 0x55245000 = some (.assert false 5 9) ∧
    sc 0x56000002 = some (.phint false 2) ∧ sc 0x57000000 = some (.tret false) ∧ sc 0x58000001 = some (.brk false 1) ∧
    sc 0x5A005008 = some (.sysw false 5 8) ∧ sc 0x5B100000 = some (.kzero false 4) ∧ sc 0x5C188000 = some (.scrub false 6 2) ∧
    sc 0x5D100000 = some (.tlbi false .va 4) ∧ sc 0x5E080000 = some (.cctl false .iinv 2) ∧ sc 0x5F1C0000 = some (.vbrep false 7) := by decide
/-- spec/04: lane integer words. -/
theorem test_decode_lane_integer : ln 0x0168104C 0 0x10000 = some (.isub ⟨false, true, 5⟩ 2 (.v 9) .imm 0x10000) ∧
    ln 0x03805026 0xE8000000 0 = some (.imin h0 false 10 (.v 4) (.const 29) 0) ∧
    ln 0x0C02502A 0x08000020 0 = some (.icmp h0 .ltu (.p 2) (.v 5) (.c 1) 0) ∧
    ln 0x91001840 0x80 0 = some (.gscan ⟨true, false, 0⟩ .add true 3 (.v 8) 0) ∧
    ln 0x0B80300A 0x12180018 0 = some (.plut h0 .bhi 6 (.v 1) (.c 2) (.c 3) 0) := by decide
/-- spec/05 and spec/06: lane float and control words. -/
theorem test_decode_lane_float : ln 0x1802502C 0x100 0x3F000000 = some (.fcmp h0 .lt false (.p 2) (.v 5) .imm 0x3F000000) ∧
    ln 0x22003010 0x18300140 0 = some (.f8pack h0 false true true .rn 6 (.v 2) (.v 3) (.v 6) 0) ∧
    ln 0x24880028 0 0 = some (.ljmp ⟨false, false, 1⟩ (.v 5) 0) ∧
    ln 0x271A56F8 8 0 = some (.lmask ⟨false, false, 3⟩ .and 2 (.const 31) 0) ∧
    ln 0x2780001A 0x10000000 0 = some (.lassert h0 (.v 3) (.c 2) 0) ∧ ln 0x26000000 0 0 = some (.lend h0) := by decide
/-- spec/07, spec/09 and spec/14: lane memory and matrix words. -/
theorem test_decode_lane_memory : ln 0x28800208 0x10480008 6 = some (.stg h0 .h .rlx .weak 1 (.v 2) (.v 9) 6) ∧
    ln 0x2A004200 0x18001010 0 = some (.ldgv h0 .v4 8 0 (.v 3) 0) ∧ ln 0xAB003008 0x18 0x40 = some (.lds ⟨true, false, 0⟩ .d false .rlx .weak 6 (.v 1) 0x40) ∧
    ln 0x2D804208 0x18500450 0 = some (.casg h0 false .acq .d 8 1 (.v 3) 10 0) := by decide
theorem test_decode_matrix : ln 0x32800000 0x2020 0 = some (.mzero h0 true 4 0) ∧ ln 0x33800210 0x220 0x100 = some (.mst h0 false 4 1 2 0x100) ∧
    ln 0x35000038 0x20 0 = some (.mscl h0 4 (.v 7) 0) ∧ ln 0xB6005000 0x28 0 = some (.mstat ⟨true, false, 0⟩ false 10 5) ∧
    ln 0x37800000 0 0x1000 = some (.mglow h0 0x1000) := by decide

/-! Single steps: the worked examples and the corners of the tables. -/

/-- Part of the next state of an outcome. -/
def after {α : Type} (o : Out) (f : State → α) : Option α := match o with
  | .next t => some (f t)
  | _ => none
/-- A scalar register of the next state. -/
def sAfter (o : Out) (n : Nat) : Option Word := after o fun t => t.grp.work.rs n
/-- The state after reset with scalar registers written. -/
def sr (rs : List (Nat × Word)) : State := State.reset.modG fun g => g.modWork fun p => rs.foldl (fun p e => p.ws e.1 e.2) p

/-- R60: the last word of the constant 0x0123_4567_89AB_CDEF. -/
theorem test_lih : sAfter (exec (.lih false 9 0x3CDEF) (sr [(9, 0x48D159E26A)])) 9 = some 0x0123456789ABCDEF := by decide
/-- R59: arithmetic wraps, and the corners of division. -/
theorem test_add_wraps : sAfter (exec (.add false 3 1 2) (sr [(1, 0xFFFFFFFFFFFFFFFF), (2, 2)])) 3 = some 1 := by decide
theorem test_divs_corner : sAfter (exec (.divs false 3 1 2) (sr [(1, 0x8000000000000000), (2, 0xFFFFFFFFFFFFFFFF)])) 3 = some 0x8000000000000000 ∧
    sAfter (exec (.divs false 3 1 0) (sr [(1, 7)])) 3 = some 0xFFFFFFFFFFFFFFFF := by decide
theorem test_divs_toward_zero : sAfter (exec (.divs false 3 1 2) (sr [(1, 0xFFFFFFFFFFFFFFF9), (2, 2)])) 3 = some 0xFFFFFFFFFFFFFFFD := by decide
theorem test_sar_sign : sAfter (exec (.sari false 3 1 63) (sr [(1, 0x8000000000000000)])) 3 = some 0xFFFFFFFFFFFFFFFF := by decide
/-- R57: s0 reads zero and discards writes. -/
theorem test_s0 : sAfter (exec (.addi false 0 1 5) (sr [(1, 7)])) 0 = some 0 := by decide
/-- R74: 1 + 2^−24 narrowed under `.rz` and under `.ru`. -/
theorem test_sfcvt : sAfter (exec (.sfcvt false .s .d .rz 2 3) (sr [(3, 0x3FF0000010000000)])) 2 = some 0x3F800000 ∧
    sAfter (exec (.sfcvt false .s .d .ru 2 3) (sr [(3, 0x3FF0000010000000)])) 2 = some 0x3F800001 := by decide
/-- R31: `bc.ne s7` 20 bytes back, from 0x1000. -/
theorem test_bc : after (exec (.bc false .ne 7 0x3FFB) ((sr [(7, 1)]).modG fun g => { g with pc := 0x1000 })) (·.grp.pc) = some 0xFEC ∧
    after (exec (.bc false .ne 7 0x3FFB) ((sr [(7, 0)]).modG fun g => { g with pc := 0x1000 })) (·.grp.pc) = some 0x1004 := by decide
/-- R61: `call` leaves the address of the next word in s63. -/
theorem test_call : after (exec (.call false 2) ((sr []).modG fun g => { g with pc := 0x1000 })) (fun t => (t.grp.pc, t.grp.work.rs 63)) =
    some (0x1008, 0x1004) := by decide
/-- R315: `trap 7` in a group with a handler: cause USER, the code, and the next word in the frame. -/
theorem test_trap : after (exec (.trap false 7) ((sr []).modG fun g => { g with bound := true, pc := 0x1000, trapvec := 0x2000 }))
    (fun t => (t.grp.pc, t.grp.handler, t.grp.work.rs 1, t.grp.work.rs 2)) = some (0x2000, true, 0x70000000F, 0x1004) := by decide

/-- A lane frontier of threads at the PC of `0x1000`, with vector registers by thread and number, and captured operands. -/
def lst (ts : List Nat) (vs : List (Nat × Nat × BitVec 32)) (cs : List Word) : State := State.reset.modG fun g =>
  let g := { g with bound := true, lq := [⟨0x1000, cs⟩], lrun := true, thr := ts.foldl (fun m t => tput m t ⟨0x1000, [], .running⟩) [] }
  g.modWork fun p => vs.foldl (fun p e => p.wv e.1 e.2.1 e.2.2) p
/-- A vector register of a thread of the next state. -/
def vAfter (o : Out) (t n : Nat) : Option (BitVec 32) := after o fun u => u.grp.work.rv t n
/-- What the result that will return leaves in a vector register of a thread. -/
def vLate (o : Out) (t n : Nat) : Option (BitVec 32) := (after o fun u => (u.grp.outs.head?).bind fun r => vOf r.ds t n).join

/-- R85: the byte form with high nibbles. -/
theorem test_plut : vAfter (exec (.plut h0 .bhi 6 (.v 1) (.c 2) (.c 3) 0) (lst [0] [(0, 1, 0x41E28F0A)] [0, 0, 0, 0x0403020201000000])) 0 6 =
    some 0x00030000 := by decide
/-- R86: signed and unsigned saturation of 70,000 and −5. -/
theorem test_ipack : vAfter (exec (.ipack h0 false false true 3 (.v 1) (.v 2) 0) (lst [0] [(0, 1, 70000), (0, 2, 0xFFFFFFFB)] [])) 0 3 = some 0xFFFB7FFF ∧
    vAfter (exec (.ipack h0 false true true 3 (.v 1) (.v 2) 0) (lst [0] [(0, 1, 70000), (0, 2, 0xFFFFFFFB)] [])) 0 3 = some 0x0000FFFF := by decide
/-- The execute mask of R88's example: threads 1, 4, 5 and 9, with 10 × t in v2. -/
def ex88 : State := lst [1, 4, 5, 9] ([1, 4, 5, 9].map fun t => (t, 2, BitVec.ofNat 32 (10 * t))) []
theorem test_prev : [1, 4, 5, 9].map (fun t => vAfter (exec (.prev h0 3 (.v 2) (.const 31) 0) ex88) t 3) =
    [some 0xFFFFFFFF, some 10, some 40, some 50] := by decide
theorem test_next : [1, 4, 5, 9].map (fun t => vAfter (exec (.next h0 3 (.v 2) (.const 32) 0) ex88) t 3) = [some 40, some 50, some 90, some 0] := by decide
theorem test_pick : [1, 4, 5, 9].map (fun t => vAfter (exec (.pick h0 .dn 3 (.v 2) (.const 33) (.const 39) 0) ex88) t 3) =
    [some 7, some 50, some 7, some 7] := by decide
theorem test_vote : vAfter (exec (.vote h0 .ballot (.v 3) (.v 2) 0) ex88) 4 3 = some 0x232 ∧ vAfter (exec (.vote h0 .ballot (.v 3) (.v 2) 0) ex88) 2 3 = some 0 := by decide
theorem test_gscan : [1, 4, 5, 9].map (vLate (exec (.gscan h0 .add false 3 (.v 2) 0) ex88) · 3) = [some 10, some 50, some 100, some 190] ∧
    [1, 4, 5, 9].map (vLate (exec (.gscan h0 .add true 3 (.v 2) 0) ex88) · 3) = [some 0, some 10, some 50, some 100] := by decide
theorem test_gred : vLate (exec (.gred h0 .max 3 (.v 2) 0) ex88) 9 3 = some 90 := by decide
/-- R113: 460 and 470 beside 448, with and without `.sat`, and under `.rz`. -/
def ex113 : State := lst [0] [(0, 2, 0x43E60000), (0, 3, 0x43EB0000), (0, 6, 0x38)] []
theorem test_f8pack : vAfter (exec (.f8pack h0 false true true .rn 6 (.v 2) (.v 3) (.v 6) 0) ex113) 0 6 = some 0x7E7E0038 ∧
    vAfter (exec (.f8pack h0 false false true .rn 6 (.v 2) (.v 3) (.v 6) 0) ex113) 0 6 = some 0x7F7E0038 ∧
    vAfter (exec (.f8pack h0 false false true .rz 6 (.v 2) (.v 3) (.v 6) 0) ex113) 0 6 = some 0x7E7E0038 := by decide
/-- R114: the block of 3.0, −1.25, 36.0 and 0.2. -/
def ex114 : State := lst [0, 1, 2, 3] [(0, 2, 0x40400000), (1, 2, 0xBFA00000), (2, 2, 0x42100000), (3, 2, 0x3E4CCCCD)] []
theorem test_qpack : [0, 1, 2, 3].map (vLate (exec (.qpack h0 false false 4 (.v 2) (.v 0) 0) ex114) · 4) = [some 0x68E6, some 0, some 0, some 0] ∧
    vLate (exec (.qpack h0 false false 4 (.v 2) (.v 0) 0) ex114) 3 5 = some 0x7E := by decide
/-- R115: indices 2 and 3 of that word at scale 0x7E. -/
def ex115 : State := lst [0] [(0, 1, 0x68E6), (0, 2, 0x7E)] []
theorem test_qunpack : vAfter (exec (.qunpack h0 false 3 (.v 1) (.const 34) (.v 2) 0) ex115) 0 3 = some 0x42000000 ∧
    vAfter (exec (.qunpack h0 false 3 (.v 1) (.const 35) (.v 2) 0) ex115) 0 3 = some 0 := by decide
/-- Section "Rounding and flushing" of spec/05: 1 + 2^−11 to FP16 and BF16 under each mode. -/
theorem test_fcvt : [Rm.rn, .rz, .ru, .rd].map (fun rm => vAfter (exec (.fcvt h0 .h .s rm 3 (.v 1) 0) (lst [0] [(0, 1, 0x3F801000)] [])) 0 3) =
    [some 0x3C00, some 0x3C00, some 0x3C01, some 0x3C00] ∧
    [Rm.rn, .ru].map (fun rm => vAfter (exec (.fcvt h0 .bf .s rm 3 (.v 1) 0) (lst [0] [(0, 1, 0x3F801000)] [])) 0 3) = [some 0x3F80, some 0x3F81] := by decide
/-- R108: −0.3 rounded to an integer keeps its sign. -/
theorem test_fround : vAfter (exec (.fround h0 false .rn 3 (.v 1) 0) (lst [0] [(0, 1, 0xBE99999A)] [])) 0 3 = some 0x80000000 := by decide
/-- R82: the absolute value of −2^31. -/
theorem test_iabs : vAfter (exec (.iabs h0 3 (.v 1) 0) (lst [0] [(0, 1, 0x80000000)] [])) 0 3 = some 0x80000000 := by decide
/-- R130: `(p3) lmask.and p2, -1` copies p3 into p2 for every active thread. -/
theorem test_lmask : after (exec (.lmask ⟨false, false, 3⟩ .and 2 (.const 31) 0)
    ((lst [0, 1] [] []).modG fun g => g.modWork fun p => (p.wp 0 3 true).wp 1 2 true)) (fun t => [0, 1].map fun th => t.grp.work.rp th 2) =
    some [true, false] := by decide
/-- R126: `lcall` at offset 4,080 of a block pushes offset 0 of the next block. -/
theorem test_lcall : after (exec (.lcall h0 16) ((lst [0] [] []).modG fun g => g.modThr 0 fun x => { x with pc := 0x1FF0 }))
    (fun t => (t.grp.thrAt 0).rs) = some [0x2000] := by decide

/-! For every statement, states and operands that meet its hypotheses, clause by clause. -/

/-- The state after reset with the group's fields, and with those of its launch, changed. -/
def gs (f : Group → Group) : State := State.reset.modG f
def ls (f : Launch → Launch) (s : State) : State := s.modLch s.grp.lid f
/-- Another state with the acting core's fields changed. -/
def ks (f : Core → Core) (s : State) : State := s.modCore s.core f
/-- The same with poison in a scalar register. -/
def bad (n : Nat) (s : State) : State := s.modG fun g => g.modWork fun p => { p with sPoi := tput p.sPoi n true }

theorem witness_ScalarIntegerResults : (∃ i s c, Spec.intCalc i s = some c ∧ s.plain false ∧ s.sPoi c.srcs = false) ∧ ∃ s : State, s.plain false :=
  ⟨⟨.csel true 3 1 2 3, sr [(1, 5), (3, 1)], _, rfl, ⟨rfl, rfl⟩, rfl⟩, sr [], rfl, rfl⟩

theorem witness_BitFieldResults : ∃ (s : State) (rd ra rb : SReg), s.plain false ∧ s.sPoi [ra, rb] = false ∧ s.sPoi [ra, rb, rd] = false ∧ rd ≠ 0 ∧
    Spec.fieldPos (s.rS rb) = 63 ∧ Spec.fieldLen (s.rS rb) = 64 :=
  ⟨sr [(1, 7), (2, 0x7F3F)], 3, 1, 2, ⟨rfl, rfl⟩, rfl, rfl, by decide, by decide, by decide⟩

theorem witness_ScalarFloatResults : (∃ i s c, Spec.floatCalc i s = some c ∧ s.plain false ∧ s.sPoi c.srcs = false) ∧
    ∃ i s c, Spec.slowCalc i s = some c ∧ s.plain false ∧ s.sPoi c.srcs = false ∧ c.sw = true :=
  ⟨⟨.sfneg false true 3 1, sr [], _, rfl, ⟨rfl, rfl⟩, rfl⟩, .sfsqrt true true .rn 3 1, sr [], _, rfl, ⟨rfl, rfl⟩, rfl, rfl⟩

/-- Every rounding mode away from its tie and the tie of `.rn`, to one unit of two; and the largest FP16 value. -/
theorem witness_RoundingIsDirected : (∃ e q : Int, q ≤ e) ∧ (∃ e q : Int, e < q ∧ roundQ .rn false 3 false e q = 2 ∧ roundQ .rz false 3 false e q = 1 ∧
    roundQ .ru true 3 false e q = 1 ∧ roundQ .rd false 3 false e q = 1 ∧ roundQ .ru false 3 false e q = 2 ∧ roundQ .rd true 3 false e q = 2) ∧
    ∃ c, c < 2 ^ (fp16.f + fp16.eb + 1) ∧ fp16.dec c ≠ .nan :=
  ⟨⟨0, 0, by decide⟩, ⟨0, 1, by decide⟩, 0x7BFF, by decide⟩

theorem witness_BranchResults : (∃ (s : State) (ra : SReg), s.plain false ∧ s.sPoi [ra] = false ∧ (s.rS ra).toNat % 4 = 0) ∧
    ∃ (s : State) (ra : SReg), s.grp.lantern = none ∧ (s.rS ra).toNat % 4 ≠ 0 ∧ s.sPoi [ra] = true :=
  ⟨⟨sr [(1, 0xFFFFFFFFFFFFFFFC)], 1, ⟨rfl, rfl⟩, rfl, by decide⟩, bad 1 (sr [(1, 2)]), 1, rfl, by decide, by decide⟩

/-- A group with a handler, and its `trap` at PC 0. -/
def trapS : State := gs fun g => { g with bound := true, trapvec := 0x2000 }
def trapR (c : Cause) : TrapRec := ⟨c, false, BitVec.zeroExtend 32 (7 : BitVec 18), false, false, trapS.grp.pc + 4, trapS.grp.lpcNow, 0, 0, 0, 0xFF, 0, trapS.grp.pc, false, false⟩
theorem handles_trap (c : Cause) (h : c = .user ∨ c = .brk) : Spec.Handles trapS trapS.core trapS.slot (trapR c) := by
  rcases h with rfl | rfl
  · exact ⟨by decide, by decide, rfl, rfl, rfl, by decide, by decide⟩
  · exact ⟨by decide, by decide, rfl, rfl, rfl, by decide, by decide⟩
/-- A group in its handler with its frame: it resumes at 0x1004 with no frontier. -/
def tretS : State := gs fun g => ({ g with bound := true, handler := true, held := some .trap }).modWork fun p => p.ws 2 0x1004
theorem witness_TrapEntryAndReturn : (∃ s c g r, Spec.Handles s c g r) ∧ trapS.grp.lantern = none ∧
    (∀ c, c = .user ∨ c = .brk → Spec.Handles trapS trapS.core trapS.slot (trapR c)) ∧ (State.reset.grp.handler = false) ∧
    tretS.grp.handler = true ∧ tretS.stepped tretS.core tretS.slot false = false ∧ tretS.grp.outs = [] ∧ tretS.grpItems tretS.core tretS.slot = false ∧ tretS.grp.stage_.anyBad = false ∧
    (tretS.grp.work.rs 2).toNat % 4 = 0 ∧ tretS.grp.work.rs 32 = 0 ∧ (tretS.grp.work.rs 1).getLsbD 16 = false :=
  ⟨⟨_, _, _, _, handles_trap .user (.inl rfl)⟩, rfl, handles_trap, rfl, rfl, rfl, rfl, by decide, by decide, by decide, by decide, by decide⟩

/-- A launch with two liveness records, and a pre-emption request at the group. -/
def liveS : State := ls (fun l => { l with livecnt := 2 }) (sr [(1, 1)])
theorem witness_AssertAndPhint : (liveS.plain false ∧ liveS.sPoi [1, 2] = false ∧ liveS.rS 1 ≠ 0) ∧
    (liveS.rS 2 = 0 ∧ (liveS.partAt liveS.prt).dbgHold = false) ∧ ((1 : BitVec 6).toNat < liveS.lch.livecnt ∧ liveS.grp.preempt = none) ∧
    (∃ (s : State) (p : Preempt), s.plain false ∧ (1 : BitVec 6).toNat < s.lch.livecnt ∧ s.grp.preempt = some p ∧ s.grp.handler = false) ∧
    liveS.lch.livecnt ≤ (2 : BitVec 6).toNat :=
  ⟨⟨⟨rfl, rfl⟩, rfl, by decide⟩, ⟨by decide, rfl⟩, ⟨by decide, rfl⟩,
    ⟨liveS.modG fun g => { g with preempt := some ⟨0, false, none⟩ }, ⟨0, false, none⟩, ⟨rfl, rfl⟩, by decide, rfl, rfl⟩, by decide⟩

/-- Lane queues of three and of four blocks. -/
def blocks (n : Nat) : State := gs fun g => { g with bound := true, lq := List.replicate n ⟨0x1000, []⟩ }
theorem witness_LaneStreamCoupling :
    (∃ (s : State) (entry cbase : SReg) (count : BitVec 4), s.plain false ∧ s.grp.handler = false ∧ lvalid (s.lch.lcb + s.rS entry) = true ∧
      s.sPoi (entry :: (List.range count.toNat).map fun i => cbase + BitVec.ofNat 6 i) = false ∧ s.grp.lq.length < 4) ∧
    (∃ (s : State) (entry : SReg), s.plain false ∧ s.grp.handler = false ∧ lvalid (s.lch.lcb + s.rS entry) = true ∧ s.sPoi [entry] = false ∧
      4 ≤ s.grp.lq.length) ∧
    (∃ (s : State) (entry : SReg), s.plain false ∧ s.grp.handler = false ∧ lvalid (s.lch.lcb + s.rS entry) = false) ∧
    ((sr []).plain false ∧ (sr []).grp.lq = [] ∧ (sr []).grp.resq = []) ∧ ((blocks 1).plain false ∧ (blocks 1).grp.lq ≠ [] ∧ (blocks 1).grp.resq = []) ∧
    ∃ (s : State) (x : Word) (r : List Word), s.plain false ∧ s.grp.handler = false ∧ s.grp.resq = x :: r :=
  ⟨⟨blocks 3, 1, 56, 8, ⟨rfl, rfl⟩, rfl, by decide, by decide, by decide⟩, ⟨blocks 4, 1, ⟨rfl, rfl⟩, rfl, by decide, rfl, by decide⟩,
    ⟨sr [(1, 4092)], 1, ⟨rfl, rfl⟩, rfl, by decide⟩, ⟨⟨rfl, rfl⟩, rfl, rfl⟩, ⟨⟨rfl, rfl⟩, by decide, rfl⟩,
    gs fun g => { g with resq := [5] }, 5, [], ⟨rfl, rfl⟩, rfl, rfl⟩

/-- A wick at its greatest count. -/
def wickS : State := gs fun g => g.setWick 2 0xFFFF
theorem witness_WaitYieldSleep : (wickS.plain false ∧ (wickS.grp.wick 3).toNat ≤ (0 : BitVec 14).toNat ∧ (3 : Wick) ∉ wickS.grp.scrubs ∧
      (0x3FFF : BitVec 14).toNat < (wickS.grp.wick 2).toNat) ∧
    (∃ s : State, s = gs (fun g => { g with scrubs := [3] }) ∧ s.plain false ∧ s.grp.wick 3 = 0 ∧ (3 : Wick) ∈ s.grp.scrubs) ∧
    ∃ (s : State) (ra : SReg), s.plain false ∧ s.sPoi [ra] = false ∧ s.grp.halted = false ∧ s.grp.pend = none ∧ ((s.rS ra).toNat + 1) % 2 ^ 64 = 0 :=
  ⟨⟨⟨rfl, rfl⟩, by decide, by decide, by decide⟩, ⟨_, rfl, ⟨rfl, rfl⟩, rfl, by decide⟩, sr [(1, 0xFFFFFFFFFFFFFFFF)], 1, ⟨rfl, rfl⟩, rfl, rfl, rfl, by decide⟩

theorem witness_ExitReleasesSlot : ((blocks 1).plain false ∧ (blocks 1).grp.lq ≠ []) ∧ (wickS.plain false ∧ ∃ e ∈ wickS.grp.wicks, e.2 ≠ 0) ∧
    (∃ s : State, s.plain false ∧ s.grp.lq = [] ∧ (∀ e ∈ s.grp.wicks, e.2 = 0) ∧ s.lch.exited + 1 ≠ s.lch.ngrp * s.lch.nteam * s.lch.ncoh) ∧
    ∃ s : State, s.plain false ∧ s.grp.lq = [] ∧ (∀ e ∈ s.grp.wicks, e.2 = 0) ∧ s.lch.exited + 1 = s.lch.ngrp * s.lch.nteam * s.lch.ncoh ∧ s.lch.direct = false :=
  ⟨⟨⟨rfl, rfl⟩, by decide⟩, ⟨⟨rfl, rfl⟩, by decide⟩, ⟨ls (fun l => { l with ngrp := 2, nteam := 1, ncoh := 1 }) (gs fun g => { g with bound := true }),
    ⟨rfl, rfl⟩, rfl, by decide, by decide⟩, ls (fun l => { l with ngrp := 1, nteam := 1, ncoh := 1 }) (gs fun g => { g with bound := true }),
    ⟨rfl, rfl⟩, rfl, by decide, by decide, rfl⟩

/-- Two groups of one team, the other at a `bar` or not yet. -/
def barS (w : Wait) : State := (gs fun g => { g with bound := true, released := true }).modGrp 0 1 fun g => { g with bound := true, released := true, sWait := w }
theorem barS_inv (w : Wait) : (barS w).Inv := ⟨rfl, trivial, fun e he => by
  have h : (barS w).cores = [(0, (barS w).coreAt 0)] := rfl
  rw [h] at he
  obtain rfl : e = (0, (barS w).coreAt 0) := by simpa using he
  exact ⟨Nat.zero_lt_one, trivial⟩⟩
theorem witness_BarrierReleasesTogether : ((barS (.bar true false)).Inv ∧ (barS (.bar true false)).grp.lantern = none ∧
    (∀ p, ((barS (.bar true false)).partAt p).dbgStep = false) ∧ Spec.barOpen ((barS (.bar true false)).barRel true) true ∧
    ((barS (.bar true false)).barRel true).barSaved = false ∧ ((barS (.bar true false)).barRel true).barPeers true = [(0, 1)]) ∧
    (barS .none).Inv ∧ ¬ Spec.barOpen ((barS .none).barRel false) false := by
  refine ⟨⟨barS_inv _, rfl, fun p => rfl, fun e he => ?_, by decide, by decide⟩, barS_inv _, fun h => ?_⟩
  · have h : ((barS (.bar true false)).barRel true).barPeers true = [(0, 1)] := by decide
    rw [h] at he
    have : e = (0, 1) := by simpa using he
    subst this; exact ⟨by decide, by decide, false, by decide⟩
  · obtain ⟨sw, hw⟩ := (h (0, 1) (by decide)).2.2
    have : (((barS .none).barRel false).grpAt 0 1).sWait = .none := by decide
    rw [this] at hw; cases hw

theorem witness_SpecialRegisterReads : (sr []).plain false ∧ (Spec.special (sr []) 0x0A 0).isSome ∧ Spec.constant 0x0A = true ∧
    (Spec.special (sr []) 0x0E 0).isSome ∧ (Spec.special (sr []) 0x0F 4).isSome ∧ Spec.constant 0x0E = false ∧ Spec.constant 0x0F = false ∧
    (sr []).me.wprChg = none ∧ Spec.special (sr []) 0 0 = none ∧ Spec.special (sr []) 0x0F 5 = none ∧ Spec.special (sr []) 0x10 1 = none :=
  ⟨⟨rfl, rfl⟩, rfl, rfl, rfl, rfl, rfl, rfl, rfl, rfl, rfl, rfl⟩

/-- The group holds the way-partition right; its register asks for `n` ways. -/
def wprS (n : Word) (go : Bool) : State := ls (fun l => { l with rightW := true }) ((sr [(1, n)]).modG fun g => { g with wprGo := go })
theorem witness_SpecialRegisterWrites : ((wprS 8 true).plain false ∧ (wprS 8 true).sPoi [1] = false ∧ ((wprS 8 true).rS 1).toNat % 4 = 0 ∧
    (wprS 8 true).lch.rightW = true ∧ (wprS 8 true).grp.wprGo = true) ∧ ((sr [(1, 2)]).plain false ∧ ((sr [(1, 2)]).rS 1).toNat % 4 ≠ 0 ∧
    (sr [(1, 2)]).lch.rightW = false) ∧ (∃ s : State, s = wprS 0 false ∧ s.plain false ∧ s.lch.rightW = true ∧ s.grp.wprGo = false ∧
      s.wprFree s.core = true ∧ (s.wprLine s.core).head?.getD s.slot = s.slot ∧ s.me.wpr = min (s.rS 1).toNat 8) ∧
    (∃ s : State, s = wprS 0xFFFFFFFFFFFFFFFF false ∧ s.plain false ∧ s.lch.rightW = true ∧ s.grp.wprGo = false ∧ s.wprFree s.core = true ∧
      (s.wprLine s.core).head?.getD s.slot = s.slot ∧ s.me.wpr ≠ min (s.rS 1).toNat 8) ∧
    (∃ s : State, s = ks (fun k => { k with wprChg := some ⟨0, 5, 3⟩ }) (wprS 8 false) ∧ s.plain false ∧ s.lch.rightW = true ∧ s.grp.wprGo = false ∧
      s.wprFree s.core = false ∧ s.slot ∉ s.wprLine s.core) ∧
    ∃ s : State, s = (ks (fun k => { k with wprQ := [1] }) (wprS 8 false)).modGrp 0 1 (fun g => { g with bound := true, sWait := .wpr }) ∧ s.plain false ∧
      s.lch.rightW = true ∧ s.grp.wprGo = false ∧ s.wprFree s.core = true ∧ (s.wprLine s.core).head?.getD s.slot ≠ s.slot :=
  ⟨⟨⟨rfl, rfl⟩, rfl, by decide, rfl, rfl⟩, ⟨⟨rfl, rfl⟩, by decide, rfl⟩, ⟨_, rfl, ⟨rfl, rfl⟩, rfl, rfl, by decide, by decide, by decide⟩,
    ⟨_, rfl, ⟨rfl, rfl⟩, rfl, rfl, by decide, by decide, by decide⟩, ⟨_, rfl, ⟨rfl, rfl⟩, rfl, rfl, by decide, by decide⟩,
    _, rfl, ⟨rfl, rfl⟩, rfl, rfl, by decide, by decide⟩

/-- A load, an atomic or a store that ended well, with the number of its bytes. -/
def LoadRes.good (r : LoadRes) (n : Nat) : Bool := match r with
  | .ok bs _ _ => bs.length == n
  | _ => false
def StoreRes.good (r : StoreRes) : Bool := match r with
  | .ok _ => true
  | _ => false
theorem LoadRes.of_good {r : LoadRes} {n : Nat} (h : LoadRes.good r n = true) : ∃ bs m u, r = .ok bs m u ∧ bs.length = n := by
  cases r <;> simp_all [LoadRes.good]
theorem StoreRes.of_good {r : StoreRes} (h : StoreRes.good r = true) : ∃ u, r = .ok u := by
  cases r <;> simp_all [StoreRes.good]
/-- A direct launch whose core translates virtual page 0 to frame 0, its own column; scalar registers written. -/
def mapped (f : List TlbEnt) (rs : List (Nat × Word)) : State := ls (fun l => { l with direct := true }) (ks (fun k => { k with tlb := f }) (sr rs))
def page0 : TlbEnt := ⟨0, 0, ⟨0, .k64, true, true, true, false, 0⟩⟩
/-- The same page in host memory. -/
def pageH : TlbEnt := ⟨0, 0, ⟨0xE0 * 2 ^ 40, .k64, true, true, true, false, 0⟩⟩

/-- Accesses at the last aligned address of the page. -/
theorem witness_ScalarAccessesComplete : ∃ s : State, s.plain false ∧ s.sPoi [1, 2, 3] = false ∧ s.sPoi [1] = false ∧ s.sPoi [1, 2] = false ∧
    (Spec.smAddr s 1 .d 31).toNat % 8 = 0 ∧ (Spec.smAddr s 1 .d 30).toNat % 16 = 0 ∧
    (∃ bs m u, s.gLoad false (Spec.smAddr s 1 .d 31).toNat 8 .acq .d = .ok bs m u) ∧
    (∃ bs m u, s.gLoad false (Spec.smAddr s 1 .d 30).toNat 16 .rlx .weak = .ok bs m u) ∧
    s.lch.undeclared (Spec.smAddr s 1 .d 31).toNat 8 = false ∧ s.lch.undeclared (Spec.smAddr s 1 .d 30).toNat 16 = false ∧
    (∃ u, s.gStore false (Spec.smAddr s 1 .d 31).toNat (leBytes 8 (s.rS 2).toNat) .rel .d = .ok u) ∧
    ∃ u, s.gStore false (Spec.smAddr s 1 .d 30).toNat (leBytes 8 (s.rS 2).toNat ++ leBytes 8 (s.rS (2 + 1)).toNat) .rlx .weak = .ok u := by
  refine ⟨mapped [page0] [(1, 0xFF00)], ⟨rfl, rfl⟩, rfl, rfl, rfl, by decide, by decide, ?_, ?_, rfl, rfl, ?_, ?_⟩
  · exact (LoadRes.of_good (n := 8) (by decide)).imp fun _ => .imp fun _ => .imp fun _ => And.left
  · exact (LoadRes.of_good (n := 16) (by decide)).imp fun _ => .imp fun _ => .imp fun _ => And.left
  · exact StoreRes.of_good (by decide)
  · exact StoreRes.of_good (by decide)

/-- A transactional launch whose regions end at 0x1FFE: the last byte of the accesses lies in none. -/
def outS (a : Word) : State := ls (fun l => { l with regions := [⟨0, 2, 0x1000, 0x1FFB⟩, ⟨1, 3, 0x1FFC, 0x1FFE⟩] }) (sr [(1, a)])
/-- A handler whose group names its own trap hold. -/
def holdS (a : Word) : State := ls (fun l => { l with direct := true }) ((sr [(1, a)]).modG fun g => { g with handler := true })
theorem witness_ScalarAccessChecksRaise : ((sr [(1, 7)]).grp.lantern = none ∧ (sr [(1, 7)]).inHold 7 = false ∧ (Spec.smAddr (sr [(1, 7)]) 1 .h 0).toNat = 7 ∧
      7 % MemSize.bytes .h ≠ 0 ∧ (sr [(1, 6)]).inHold 6 = false ∧ (Spec.smAddr (sr [(1, 6)]) 1 .h 0).toNat = 6 ∧ 6 % (2 * MemSize.bytes .h) ≠ 0 ∧
      ((sr [(1, 7)]).rS 1).toNat % 4 ≠ 0 ∧ ((sr [(1, 6)]).rS 1).toNat % 8 ≠ 0) ∧
    (∀ a ∈ [(0x1FF8 : Word), 0x1FF0], (outS a).grp.lantern = none ∧ (outS a).sPoi [1, 2, 2 + 1] = false ∧ (outS a).sPoi [1, 2] = false ∧ (outS a).sPoi [1, 1 + 1] = false ∧
      (outS a).inHold a.toNat = false ∧ Spec.smAddr (outS a) 1 .d 0 = a ∧ (outS a).rS 1 = a) ∧
    ((0x1FF8 : Word).toNat % 8 = 0 ∧ Spec.outOfRegions (outS 0x1FF8) (0x1FF8 : Word).toNat 8) ∧
    ((0x1FF0 : Word).toNat % 16 = 0 ∧ Spec.outOfRegions (outS 0x1FF0) (0x1FF0 : Word).toNat 16) ∧
    ∀ a ∈ [(0xFF80000000000000 : Word), 0xFF80000000000001], (holdS a).grp.lantern = none ∧ (holdS a).inHold (Spec.smAddr (holdS a) 1 .d 0).toNat = true ∧
      (holdS a).inHold ((holdS a).rS 1).toNat = true := by
  refine ⟨by decide, fun a ha => ?_, ⟨by decide, rfl, 7, by decide, by decide⟩, ⟨by decide, rfl, 15, by decide, by decide⟩, fun a ha => ?_⟩
  · simp only [List.mem_cons, List.not_mem_nil, or_false] at ha
    obtain rfl | rfl := ha <;> exact ⟨rfl, rfl, rfl, rfl, rfl, by decide, by decide⟩
  · simp only [List.mem_cons, List.not_mem_nil, or_false] at ha
    obtain rfl | rfl := ha <;> exact ⟨rfl, by decide, by decide⟩

/-- Two declared regions that abut hold a store that crosses from one to the other, and the part in the write region alone goes to the shadow (R166). -/
theorem test_store_across_regions : let l : Launch := { (sr []).lch with regions := [⟨0, 2, 0x1000, 0x1FFB⟩, ⟨1, 3, 0x1FFC, 0x2FFF⟩] }
    l.undeclared 0x1FF8 8 = false ∧ l.runs 0x1FF8 8 = [(0x1FF8, 4), (0x1FFC, 4)] ∧ l.shadowed 0x1FF8 4 = true ∧ l.shadowed 0x1FFC 4 = false := by decide

theorem witness_ScalarAtomicsComplete : ∃ s : State, s.plain false ∧ s.sPoi [1, 2] = false ∧ s.sPoi [1, 2, 3] = false ∧ (s.rS 1).toNat % 8 = 0 ∧
    s.lch.undeclared (s.rS 1).toNat 8 = false ∧ (∃ bs m u, s.gAtomic (s.rS 1).toNat 8 .ar .d (atomNew true .add (s.rS 2)) = .ok bs m u) ∧
    (∃ bs m u, s.gAtomic (s.rS 1).toNat 8 .ar .d (casNew true (s.rS 2) (s.rS (2 + 1))) = .ok bs m u) ∧
    ∃ bs m u, s.gAtomic (s.rS 1).toNat 8 .rel .d (atomNew true .add (s.rS (1 + 1))) = .ok bs m u := by
  refine ⟨mapped [page0] [(1, 0xFFF8), (2, 5)], ⟨rfl, rfl⟩, rfl, rfl, by decide, rfl, ?_, ?_, ?_⟩ <;>
    exact (LoadRes.of_good (n := 8) (by decide)).imp fun _ => .imp fun _ => .imp fun _ => And.left

/-- Old bytes of both sizes, at the values where the counting operations turn. -/
theorem witness_AtomicOperations : ([0xFF, 0xFF, 0xFF, 0xFF] : List Byte).length = atomBytes false ∧ (List.replicate 8 (0 : Byte)).length = atomBytes true ∧
    leNat (atomNew false .incw 0xFFFFFFFF [0xFF, 0xFF, 0xFF, 0xFF]) = 0 ∧ leNat (atomNew true .decw 3 (List.replicate 8 0)) = 3 ∧
    leNat (casNew false 0xFFFFFFFF 7 [0xFF, 0xFF, 0xFF, 0xFF]) = 7 := by decide

/-- A semaphore of 0 against thresholds of 0 and of 1. -/
theorem witness_SemwaitTestsAndTakes : ∃ s : State, s.plain false ∧ s.sPoi [1, 1 + 1] = false ∧ (s.rS 1).toNat % 8 = 0 ∧
    s.lch.undeclared (s.rS 1).toNat 8 = false ∧ (∃ bs m u, (s.drainBuf s.core s.slot).gLoad false (s.rS 1).toNat 8 .rlx .d = .ok bs m u ∧
      bs.length = 8 ∧ (s.rS 2).toNat ≤ leNat bs) ∧
    (∃ bs m v, s.gAtomic (s.rS 1).toNat 8 .acq .d (fun bs => leBytes 8 (ofBytes64 bs - s.rS 2).toNat) = .ok bs m v) ∧
    ∃ bs : List Byte, bs.length = 8 ∧ leNat bs < ((sr [(2, 1)]).rS 2).toNat := by
  refine ⟨mapped [page0] [(1, 0xFFF8)], ⟨rfl, rfl⟩, rfl, by decide, rfl, ?_, ?_, List.replicate 8 0, by decide, by decide⟩
  · exact (LoadRes.of_good (n := 8) (by decide)).imp fun _ => .imp fun _ => .imp fun _ h => ⟨h.1, h.2, Nat.zero_le _⟩
  · exact (LoadRes.of_good (n := 8) (by decide)).imp fun _ => .imp fun _ => .imp fun _ => And.left

theorem witness_FencesAndCacheOperations : ∃ (s : State) (pa : Nat) (key : List Byte) (u : State), s.plain false ∧ s.sPoi [1] = false ∧
    (Spec.smAddr s 1 .d 31).toNat % 8 = 0 ∧ s.xlate (some s.core) s.prt (Spec.smAddr s 1 .d 31).toNat false = (.ok pa key, u) ∧
    s.walkWaits (some s.core) s.prt (Spec.smAddr s 1 .d 31).toNat = false ∧ s.lch.shadowed (Spec.smAddr s 1 .d 31).toNat 1 = false ∧
    homedAt s.core pa = true ∧ u.superBus s.core pa = false ∧ u.cleanBus s.core pa = false :=
  ⟨mapped [page0] [(1, 0xFF00)], 0xFFF8, [], _, ⟨rfl, rfl⟩, rfl, by decide, rfl, rfl, rfl, by decide, by decide, by decide⟩
/-- Page 0 of another column, whose line 0 the core holds with a dirty word, its own SRAM's bus failed or not. -/
def farS (failS : Bool) : State :=
  (ks (fun k => { k with vbus := { k.vbus with fail := failS, failS := failS } }) (mapped [⟨0, 0, ⟨7 * 2 ^ 40, .k64, true, true, true, false, 0⟩⟩] [])).putLine 0 (7 * 2 ^ 40)
    { Line.none_ with valid := true, dirty := 1 }
theorem witness_FencesAndCacheOperations2 : ∃ (s u : State) (key : List Byte), s = farS true ∧ s.plain false ∧ s.sPoi [1] = false ∧ (Spec.smAddr s 1 .d 0).toNat % 8 = 0 ∧
    s.xlate (some s.core) s.prt (Spec.smAddr s 1 .d 0).toNat false = (.ok (7 * 2 ^ 40) key, u) ∧ s.walkWaits (some s.core) s.prt (Spec.smAddr s 1 .d 0).toNat = false ∧
    s.lch.shadowed (Spec.smAddr s 1 .d 0).toNat 1 = false ∧ Scope.wide .k = true ∧ u.superBus s.core (7 * 2 ^ 40) = true ∧ u.cleanBus s.core (7 * 2 ^ 40) = true :=
  ⟨_, _, [], rfl, ⟨rfl, rfl⟩, rfl, by decide, rfl, rfl, rfl, rfl, by decide, by decide⟩

theorem mapped_inv (t : TlbEnt) (rs : List (Nat × Word)) : (mapped [t] rs).Inv := ⟨rfl, trivial, fun e he => by
  have h : (mapped [t] rs).cores = [(0, (mapped [t] rs).coreAt 0)] := rfl
  rw [h] at he
  obtain rfl : e = (0, (mapped [t] rs).coreAt 0) := by simpa using he
  exact trivial⟩
/-- A line of the own column that its column SRAM holds, and the page's address 0xFE78 in it. -/
def heldS (x : BitVec 1024) : State := (mapped [page0] []).putLine 0 0xFE78 { Line.none_ with valid := true, data := x }
theorem oneWindow_none (s : State) (pa n : Nat) (h : s.wins = []) : Spec.oneWindow s pa n := by simp [Spec.oneWindow, h, tget]
theorem onLine_own (w : Bool) (s : State) (h1 : s.xlate (some 0) (s.lchAt 0).part 0xFE78 w = (.ok 0xFE78 [], s)) (h2 : s.wins = []) (h3 : s.versions = [])
    (h4 : s.quarBase = State.reset.quarBase) (h5 : State.reset.inQuarMap (storOf 0xFE78) = false) : Spec.OnLine s 0 (s.lchAt 0).part 0xFE78 0xFE78 8 [] w :=
  ⟨h1, ⟨0, 0xFE78, by decide⟩, by decide, oneWindow_none _ _ _ h2, by simp [State.redirect, h3], by
    simpa [State.inQuarMap, h4] using h5⟩
/-- A hit and a miss in the own column, a store into a copy that the core's own column is home of, and accesses through a link port. -/
theorem witness_HomeAccessesReadAndWrite : (∃ s : State, s = heldS 5 ∧ (s.lchAt 0).direct = true ∧ Spec.OnLine s 0 (s.lchAt 0).part 0xFE78 0xFE78 8 [] false ∧
      (∃ bs m t, s.load 0 0 [] 0xFE78 8 .rlx .weak = .ok bs m t) ∧ ((s.coreAt 0).colWork.line 0xFE78).valid = true ∧
      ((s.coreAt 0).colWork.line 0xFE78).stale = false ∧ Spec.OnLine s 0 (s.lchAt 0).part 0xFE78 0xFE78 8 [] true ∧ (s.grpAt 0 0).sbuf = [] ∧ (s.grpAt 0 0).lsbuf = [] ∧
      (homedAt 0 0xFE78 = true ∧ s.owner (storOf 0xFE78 / 128) = none) ∧ ∃ t, s.store 0 0 false 0xFE78 (List.replicate 8 7) .rlx .weak = .ok t) ∧
    (∃ s : State, s = mapped [page0] [] ∧ Spec.OnLine s 0 (s.lchAt 0).part 0xFE78 0xFE78 8 [] false ∧ (∃ bs m t, s.load 0 0 [] 0xFE78 8 .rlx .weak = .ok bs m t) ∧
      ((s.coreAt 0).colWork.line 0xFE78).valid = false ∧ ((s.coreAt 0).colWork.line 0xFE78).dirty = 0 ∧
      ((s.coreAt 0).plane !(s.coreAt 0).colSel).dirtyAt (storOf 0xFE78 / 128) = false ∧ s.keyTag (storOf 0xFE78 / 128) = tagFor [] 0xFE78) ∧
    ∃ h : State, h = mapped [pageH] [] ∧ h.Inv ∧ (h.lchAt (h.grpAt 0 0).lid).direct = true ∧
      (∀ w, h.xlate (some 0) (h.lchAt (h.grpAt 0 0).lid).part 0 w = (.ok (0xE0 * 2 ^ 40) [], h)) ∧ Spec.atPort (0xE0 * 2 ^ 40) ∧ (0xE0 * 2 ^ 40) % 128 + 1 ≤ 128 ∧
      h.inQuarMap (storOf (0xE0 * 2 ^ 40)) = false ∧ h.redirect (storOf (0xE0 * 2 ^ 40) / 128) = none ∧
      h.keyTag (storOf (0xE0 * 2 ^ 40) / 128) = tagFor [] (0xE0 * 2 ^ 40) ∧ (h.grpAt 0 0).sbuf = [] ∧ (h.grpAt 0 0).lsbuf = [] ∧
      (∃ bs m t, h.load 0 0 [] 0 1 .rlx .weak = .ok bs m t) ∧ ∃ t, h.store 0 0 false 0 [5] .rlx .weak = .ok t := by
  refine ⟨⟨_, rfl, rfl, onLine_own _ _ rfl rfl rfl rfl (by decide), ?_, by decide, by decide, onLine_own _ _ rfl rfl rfl rfl (by decide), rfl, rfl, by decide, ?_⟩,
    ⟨_, rfl, onLine_own _ _ rfl rfl rfl rfl (by decide), ?_, by decide, by decide, rfl, by decide⟩,
    _, rfl, mapped_inv _ _, rfl, fun w => by cases w <;> rfl, .inl ⟨0xE0 * 2 ^ 40, by decide⟩, by decide, by decide, rfl, by decide, rfl, rfl, ?_, ?_⟩
  · exact (LoadRes.of_good (n := 8) (by decide)).imp fun _ => .imp fun _ => .imp fun _ => And.left
  · exact StoreRes.of_good (by decide)
  · exact (LoadRes.of_good (n := 8) (by decide)).imp fun _ => .imp fun _ => .imp fun _ => And.left
  · exact (LoadRes.of_good (n := 1) (by decide)).imp fun _ => .imp fun _ => .imp fun _ => And.left
  · exact StoreRes.of_good (by decide)

theorem witness_StrongStoreIsQueued : ∃ (s : State) (u : State), Scope.wide .s = true ∧ (s.lchAt (s.grpAt 0 0).lid).direct = true ∧
    s.xlate (some 0) (s.lchAt (s.grpAt 0 0).lid).part 0xFE7F true = (.ok 0xFE7F [], u) ∧ Spec.oneWindow s 0xFE7F 1 ∧ (∃ t, s.store 0 0 false 0xFE7F [5] .rlx .s = .ok t) ∧
    ∃ old : List Byte, old.length = ([5] : List Byte).length :=
  ⟨mapped [page0] [], _, rfl, rfl, rfl, oneWindow_none _ _ _ rfl, StoreRes.of_good (by decide), [0], rfl⟩

/-- A launch with every right, with the acting group's team owning bank 0, pane 0 and the weight buffer. -/
def owning (rs : List (Nat × Word)) : State :=
  ls (fun l => { l with rightT := true, rightC := true, rightK := true })
    (ks (fun k => { k with accOwn := [(0, some 0)], panes := [(0, some ⟨0, some 0⟩), (63, some ⟨0, none⟩)], wbufOwn := some 0 })
      ((sr rs).modG fun g => { g with bound := true, released := true }))
theorem planeOk_owning (dom : Dom) (take : Bool) (x : Word) (h : (owning [(1, x)]).notOwned dom (planeSel dom ((owning [(1, x)]).rS 1)) take = false) :
    Spec.PlaneOk (owning [(1, x)]) dom 1 take := ⟨rfl, fun h => Bool.noConfusion (show false = true from h), by cases dom <;> rfl, by cases dom <;> rfl, h⟩
/-- A group's own flip of a domain, waiting since cycle 0. -/
def flipping (dom : Dom) (mode : FlipMode) (lazy : Bool) (sel : List Nat) : State :=
  (owning []).modG fun g => { g with pflip := some ⟨dom, mode, lazy, sel, 0, 0, false, false, false⟩, sWait := .flip }
theorem witness_FlipExchangesPlanes : ((owning [(1, 0)]).plain false ∧ Spec.PlaneOk (owning [(1, 0)]) .acc 1 false ∧
      planeNone .acc (planeSel .acc ((owning [(1, 0)]).rS 1)) = true) ∧
    (Spec.PlaneOk (owning [(1, 1)]) .acc 1 false ∧ planeNone .acc (planeSel .acc ((owning [(1, 1)]).rS 1)) = false) ∧
    (Spec.PlaneOk (owning [(1, 0)]) .clus 1 false ∧ planeNone .clus [] = false ∧ ((owning [(1, 0)]).clAt 0).flipBy = none) ∧
    ∀ f ∈ [(Dom.grp, FlipMode.wait, false, []), (.pane, .flow, true, [0, 1])], ∃ (s : State) (p : PFlip), (s.grpAt 0 0).pflip = some p ∧
      p.dom = f.1 ∧ p.free = false ∧ p.dom ≠ .clus ∧ (s.insts 0 0 p.dom p.sel).Nodup ∧ (s.insts 0 0 p.dom p.sel).length = max 1 f.2.2.2.length ∧
      (s.grpAt 0 0).live = true ∧ (s.grpAt 0 0).lantern = none ∧ s.stepped 0 0 false = false ∧ s.flipReady 0 0 p (s.insts 0 0 p.dom p.sel) = true ∧
      (p.mode = .flow → s.turnPanes 0 (s.insts 0 0 p.dom p.sel) ≠ none) ∧ (p.lazy = true ∨ s.stagedBad (s.insts 0 0 p.dom p.sel) = none) := by
  refine ⟨⟨⟨rfl, rfl⟩, planeOk_owning _ _ _ (by decide), by decide⟩, ⟨planeOk_owning _ _ _ (by decide), by decide⟩,
    ⟨planeOk_owning _ _ _ (by decide), rfl, rfl⟩, ?_⟩
  intro f hf
  refine ⟨flipping f.1 f.2.1 f.2.2.1 f.2.2.2, ⟨f.1, f.2.1, f.2.2.1, f.2.2.2, 0, 0, false, false, false⟩, rfl, rfl, rfl, ?_⟩
  simp only [List.mem_cons, List.not_mem_nil, or_false] at hf
  rcases hf with rfl | rfl <;> decide

theorem witness_PfreeReleasesHolds : (∃ s : State, s.plain false ∧ Spec.PlaneOk s .pane 1 true ∧ s.insts s.core s.slot .pane (planeSel .pane (s.rS 1)) = [(0, .pane 63)] ∧
      s.itemsOn [(0, .pane 63)] = [] ∧ Spec.noPfree s ∧ (∀ i ∈ [(0, Inst.pane 63)], s.heldByOther i = false) ∧ s.me.pane 63 ≠ none) ∧
    ∃ s : State, s.plain false ∧ Spec.PlaneOk s .pane 1 false ∧ (∃ i ∈ s.insts s.core s.slot .pane (planeSel .pane (s.rS 1)), s.heldByOther i = true) ∧ planeNone .pane (planeSel .pane (s.rS 1)) = false :=
  ⟨⟨owning [(1, 0x101)], ⟨rfl, rfl⟩, planeOk_owning _ _ _ (by decide), by decide, by decide, by unfold Spec.noPfree; decide, by decide, by decide⟩,
    ks (fun k => { k with paneHold := [(0, some .save)] }) (owning [(1, 0x100)]), ⟨rfl, rfl⟩,
    ⟨rfl, fun h => absurd h (by decide), rfl, rfl, by decide⟩, ⟨(0, .pane 0), by decide, by decide⟩, by decide⟩

theorem witness_PstatReadsMasks : (owning []).plain false ∧ (∃ what : PWhat, what = .held ∨ what = .sel) ∧ ∃ what : PWhat, what = .poi ∨ what = .poiw :=
  ⟨⟨rfl, rfl⟩, ⟨.held, .inl rfl⟩, .poiw, .inr rfl⟩

/-- A descriptor that breaks a rule is issued too, and claims nothing; a wick at its greatest count takes none. -/
theorem witness_TransfersIssue : (∃ (i : Instr) (s : State) (sw : Bool) (cmd : XCmd) (ra : SReg) (w : Wick), Spec.transfer i = some (sw, cmd, ra, w) ∧
      s.plain false ∧ s.sPoi [ra, ra + 1, ra + 2, ra + 3] = false ∧ Spec.Takes s (s.newItem cmd ra w)) ∧
    ∃ (i : Instr) (s : State) (sw : Bool) (cmd : XCmd) (ra : SReg) (w : Wick), Spec.transfer i = some (sw, cmd, ra, w) ∧ s.plain false ∧
      s.sPoi [ra, ra + 1, ra + 2, ra + 3] = false ∧ ¬ Spec.Takes s (s.newItem cmd ra w) :=
  ⟨⟨.xfill false 60 15, sr [], _, _, _, _, rfl, ⟨rfl, rfl⟩, rfl, ⟨by decide, by decide, fun t e h => (by
      rw [show (sr []).dstScore (sr []).core ((sr []).newItem .xfill 60 15) = none by decide] at h
      cases h), by decide, fun h => absurd h (by decide)⟩⟩,
    .xfer false 60 2, wickS, _, _, _, _, rfl, ⟨rfl, rfl⟩, rfl, fun h => h.wick (by decide)⟩

/-- An unfinished item of wick 2 of the group in slot 0. -/
def item : Item := ⟨0, .xfer, 0, 0, 0, 0, 2, 0, 0, 0, 0, 0, false, 0, none, none, none, 0, [], 0, false, none, [], 0, 0⟩
def itemS : State := ks (fun k => { k with items := [item] }) ((sr []).modG fun g => g.setXs 2 ⟨1, 1, 9, 3, 0, 0x40⟩)
theorem witness_TransferStatusAndCancel : itemS.plain false ∧ (∀ i ∈ itemS.me.items, ¬ (i.slot = itemS.slot ∧ i.lid = itemS.grp.lid ∧ i.cohort = itemS.grp.cohort ∧ i.wick = 3)) ∧
    (∃ i ∈ itemS.me.items, i.slot = itemS.slot ∧ i.lid = itemS.grp.lid ∧ i.cohort = itemS.grp.cohort ∧ i.wick = 2) ∧ (itemS.me.items.map (·.id)).Nodup ∧
    (itemS.grp.xs 3).failed = 0 ∧ (itemS.grp.xs 2).failed ≠ 0 := ⟨⟨rfl, rfl⟩, by decide, by decide, by decide, by decide, by decide⟩

/-- A device queue of 64 slots in the page that the front end translates, and the launch that names it. -/
def queueS (direct : Bool) : State :=
  let s := ls (fun l => { l with st := .running, direct := direct }) ((sr [(1, 0xFFC0)]).modG fun g => { g with bound := true })
  { s with feTlb := [page0], queues := [(0, { Queue.reset with log2n := 6, en := true, state := 1, dev := true })],
           versions := [(0, { Version.reset with st := .running, units := 1 })] }
def Push.good : Push → Bool
  | .ok _ => true
  | _ => false
theorem Push.of_good {r : Push} (h : Push.good r = true) : ∃ u, r = .ok u := by cases r <;> simp_all [Push.good]
theorem witness_LaunchIssuesChild : (∃ s b : State, s = queueS false ∧ b = (s.drainBuf s.core s.slot).release s.core .s ∧ s.plain false ∧
      s.sPoi [1, 1 + 1] = false ∧ (s.rS 1).toNat % 64 = 0 ∧ s.grp.wick 3 ≠ 0xFFFF ∧ b.dqOk ((s.rRun 1 1).toNat % 1024) s.lch.part = true ∧
      s.lch.direct = false ∧ b.quotaUsed s.grp.lid < b.quotaMax s.grp.lid) ∧
    (∃ s b : State, s = queueS true ∧ b = (s.drainBuf s.core s.slot).release s.core .s ∧ s.plain false ∧ s.sPoi [1, 1 + 1] = false ∧
      (s.rS 1).toNat % 64 = 0 ∧ s.grp.wick 3 ≠ 0xFFFF ∧ b.dqOk ((s.rRun 1 1).toNat % 1024) s.lch.part = true ∧ s.lch.direct = true ∧
      ∃ u, b.push s.lch.part ((s.rRun 1 1).toNat % 1024) (s.rS 1) ⟨s.lch.order, s.core, s.slot, s.grp.cohort, 3, true, false⟩ = .ok u) ∧
    ∃ s b : State, s = { queueS true with queues := [] } ∧ b = (s.drainBuf s.core s.slot).release s.core .s ∧ s.plain false ∧
      s.sPoi [1, 1 + 1] = false ∧ (s.rS 1).toNat % 64 = 0 ∧ s.grp.wick 3 ≠ 0xFFFF ∧ b.dqOk ((s.rRun 1 1).toNat % 1024) s.lch.part = false ∧
      b.launches.find? (fun l => l.2.order == s.lch.order && l.2.st != .free) = some (s.grp.lid, b.lchAt s.grp.lid) ∧ s.grp.bound = true ∧
      s.saved = [] ∧ (s.grp.ls 3).failed = 0 :=
  ⟨⟨_, _, rfl, rfl, ⟨rfl, rfl⟩, rfl, by decide, by decide, by decide, rfl, by decide⟩,
    ⟨_, _, rfl, rfl, ⟨rfl, rfl⟩, rfl, by decide, by decide, by decide, rfl, Push.of_good (by decide)⟩,
    _, _, rfl, rfl, ⟨rfl, rfl⟩, rfl, by decide, by decide, by decide, by decide, rfl, rfl, by decide⟩

def Push.is (k : Nat) : Push → Bool
  | .ok _ => k == 0
  | .badq _ => k == 1
  | .wait _ => k == 2
/-- A D queue whose ring lies in a page that may not be written, and one whose ring is full. -/
theorem witness_LaunchIssuesChild2 : ∀ p ∈ [(({ queueS true with feTlb := [{ page0 with leaf := { page0.leaf with w := false } }] } : State), 1), ((queueS true).modQ 0 fun x => { x with wr := 63 }, 2)], ∃ s b : State,
    s = p.1 ∧ b = (s.drainBuf s.core s.slot).release s.core .s ∧ s.plain false ∧ s.sPoi [1, 1 + 1] = false ∧ (s.rS 1).toNat % 64 = 0 ∧ s.grp.wick 3 ≠ 0xFFFF ∧
      b.dqOk ((s.rRun 1 1).toNat % 1024) s.lch.part = true ∧ s.lch.direct = true ∧
      Push.is p.2 (b.push s.lch.part ((s.rRun 1 1).toNat % 1024) (s.rS 1) ⟨s.lch.order, s.core, s.slot, s.grp.cohort, 3, false, false⟩) = true := by
  intro p hp
  simp only [List.mem_cons, List.not_mem_nil, or_false] at hp
  obtain rfl | rfl := hp <;> exact ⟨_, _, rfl, rfl, ⟨rfl, rfl⟩, rfl, by decide, by decide, by decide, rfl, by decide⟩
theorem witness_LaunchSignalsStatusAbort : (∃ (s : State) (u : State), s.plain false ∧ s.sPoi [1, 1 + 1] = false ∧ (s.rS 1).toNat % 8 = 0 ∧
      s.xlate (some s.core) s.prt (s.rS 1).toNat true = (.ok 0xFFF8 [], u) ∧ s.walkWaits (some s.core) s.prt (s.rS 1).toNat = false ∧ s.lch.direct = true) ∧
    (∃ (s : State) (u : State), s.plain false ∧ s.sPoi [1, 1 + 1] = false ∧ (s.rS 1).toNat % 8 = 0 ∧
      s.xlate (some s.core) s.prt (s.rS 1).toNat true = (.ok 0xFFC0 [], u) ∧ s.walkWaits (some s.core) s.prt (s.rS 1).toNat = false ∧ s.quotaUsed s.grp.lid < s.quotaMax s.grp.lid) ∧
    (sr []).plain false ∧ (sr []).sPoi [1] = false :=
  ⟨⟨mapped [page0] [(1, 0xFFF8)], _, ⟨rfl, rfl⟩, rfl, by decide, rfl, rfl, rfl⟩,
    ⟨ks (fun k => { k with tlb := [page0] }) (queueS false), _, ⟨rfl, rfl⟩, rfl, by decide, rfl, rfl, by decide⟩, ⟨rfl, rfl⟩, rfl⟩

/-- A supervisor context. -/
def superS (rs : List (Nat × Word)) : State := ls (fun l => { l with priv := true }) (sr rs)
def SysW.kind : SysW → Nat
  | .ok _ => 0
  | .stall _ => 1
  | .prot => 2
  | .priv => 3
/-- A supervisor context of partition 1 that takes cluster 0, which is another's (R331). -/
def foreignS : State := ls (fun l => { l with part := 1 }) (superS [(1, 9)])
/-- A cluster still being wiped is given to partition 0; and one with a team bound is taken from it. -/
def wipingS : State := { superS [(1, 8)] with clusters := [(0, { Cluster.reset with wiping := true })] }
def boundS : State := { (superS [(1, 0)]).modG fun g => { g with bound := true } with partMap := 8 }
theorem witness_SystemRegisters : ((sr []).plain false ∧ (sr []).sysRead 0xFFF = none ∧ (sr []).lch.priv = false ∧ (sr []).sysRead 0x036 = none ∧
      (sr []).sysRead 0x035 ≠ none) ∧
    (∃ s x, s = superS [(1, 0x10009)] ∧ s.plain false ∧ s.lch.priv = true ∧ s.sPoi [1] = false ∧ s.sysRead 0 = some x) ∧
    (∀ n ∈ [0x002, 0x005, 0x006, 0x008, 0x009, 0x00A, 0x00D, 0x011, 0x017, 0x019, 0x01A, 0x000, 0x035], (Spec.sysWritten (superS [(1, 0xFFFF)]) n ((superS [(1, 0xFFFF)]).rS 1)).isSome) ∧
    (wipingS.plain false ∧ wipingS.lch.priv = true ∧ wipingS.sPoi [1] = false ∧ wipingS.sysRead 1 ≠ none ∧
      ∃ u, wipingS.sysWrite 1 (wipingS.rS 1) = .stall u) ∧
    boundS.plain false ∧ boundS.lch.priv = true ∧ boundS.sPoi [1] = false ∧ boundS.sysRead 1 ≠ none ∧ boundS.sysWrite 1 (boundS.rS 1) = .prot ∧
    foreignS.plain false ∧ foreignS.lch.priv = true ∧ foreignS.prt ≠ superPart ∧ foreignS.sysRead 1 ≠ none ∧
      (∃ k ∈ mapSpan false, mapEnt (mapPut foreignS.partMap false (foreignS.rS 1)) k ≠ mapEnt foreignS.partMap k ∧
        ¬ (mapEnt foreignS.partMap k = 8 + foreignS.prt ∧ mapEnt (mapPut foreignS.partMap false (foreignS.rS 1)) k < 8)) ∧
      foreignS.sysWrite 1 (foreignS.rS 1) = .priv := by
  refine ⟨⟨⟨rfl, rfl⟩, rfl, rfl, rfl, by decide⟩, ⟨_, _, rfl, ⟨rfl, rfl⟩, rfl, rfl, rfl⟩, by decide, ⟨⟨rfl, rfl⟩, rfl, rfl, by decide, ?_⟩, ⟨rfl, rfl⟩, rfl,
    rfl, by decide, ?_, ⟨rfl, rfl⟩, rfl, by decide, by decide, ⟨0, by decide, by decide, by decide⟩, ?_⟩
  · have h : (SysW.kind (wipingS.sysWrite 1 (wipingS.rS 1))) = 1 := by decide
    revert h; cases wipingS.sysWrite 1 (wipingS.rS 1) <;> simp [SysW.kind]
  · have h : (SysW.kind (boundS.sysWrite 1 (boundS.rS 1))) = 2 := by decide
    revert h; cases boundS.sysWrite 1 (boundS.rS 1) <;> simp [SysW.kind]
  · have h : (SysW.kind (foreignS.sysWrite 1 (foreignS.rS 1))) = 3 := by decide
    revert h; cases foreignS.sysWrite 1 (foreignS.rS 1) <;> simp [SysW.kind]

/-- The writes of DBG_CTL with HLT, of KEY_SLOT_CTL and of PART_MAP: no group halted, or one that a failed assertion keeps halted and one that is not let go; slot 63 empty,
and valid; cluster 23 that joins a partition, and one that stays, or leaves. -/
theorem witness_SystemRegisters2 : (∀ s : State, s = superS [(1, 0x1000000)] → s.plain false ∧ s.lch.priv = true ∧ s.sPoi [1] = false ∧ (s.rS 1).getLsbD 24 = true ∧
      ((s.modPart s.prt (Spec.dbgFields (s.rS 1))).continue_ s.prt).haltLeft s.prt = false) ∧
    (∃ s : State, s = (superS [(1, 0x1000000)]).modGrp 0 1 (fun g => { g with bound := true, halted := true, dbgIn := true, outs := [OutRes.of false [.s 4 7] false false] }) ∧ s.plain false ∧ s.lch.priv = true ∧
      s.sPoi [1] = false ∧ (s.rS 1).getLsbD 24 = true ∧ ((s.modPart s.prt (Spec.dbgFields (s.rS 1))).continue_ s.prt).haltLeft s.prt = true) ∧
    (∀ p ∈ [((0x3F : Word), 0), (0x7F, 1), (0xBF, 2), (0xFF, 3)], (superS [(1, p.1)]).plain false ∧ (superS [(1, p.1)]).lch.priv = true ∧ (superS [(1, p.1)]).prt = superPart ∧
      bits ((superS [(1, p.1)]).rS 1) 0 6 = 63 ∧ bits ((superS [(1, p.1)]).rS 1) 6 2 = p.2 ∧ bits ((superS [(1, p.1)]).rS 1) 12 42 = 0) ∧
    ((superS [(1, 0x7F)]).keyAt 63).valid = false ∧ ((superS [(1, 0x7F)]).keyAt 63).quar = false ∧
    (({ superS [(1, 0x7F)] with keySel := 63, keyBlob := 0 } : State).physRead (64 * 0) 72).isSome = true ∧
    (({ superS [(1, 0x7F)] with keys := [(63, ⟨true, false, false, []⟩)] } : State).keyAt 63).valid = true ∧
    (∀ p ∈ [((true, 0x80000000), true), ((false, 8), true), ((false, 0), false)], let s := superS [(1, p.1.2)]
      let new := mapPut s.partMap p.1.1 (s.rS 1)
      s.prt = superPart ∧ (∀ k ∈ mapSpan p.1.1, s.mapBad new k = false) ∧ (∀ k ∈ mapSpan p.1.1, joins s.partMap new k = true → (s.clAt k).wiping = false) ∧
        ((∃ k ∈ mapSpan p.1.1, 8 ≤ mapEnt new k ∧ joins s.partMap new k = true) ↔ p.2 = true)) := by
  refine ⟨?_, ⟨_, rfl, ⟨rfl, rfl⟩, rfl, rfl, by decide, by decide⟩, fun p hp => ?_, rfl, rfl, by decide, rfl, fun p hp => ?_⟩
  · rintro s rfl
    exact ⟨⟨rfl, rfl⟩, rfl, rfl, by decide, by decide⟩
  · simp only [List.mem_cons, List.not_mem_nil, or_false] at hp
    obtain rfl | rfl | rfl | rfl := hp <;> exact ⟨⟨rfl, rfl⟩, rfl, rfl, by decide, by decide, by decide⟩
  · simp only [List.mem_cons, List.not_mem_nil, or_false] at hp
    obtain rfl | rfl | rfl := hp
    · exact ⟨rfl, by decide, by decide, by decide⟩
    · exact ⟨rfl, by decide, by decide, by decide⟩
    · exact ⟨rfl, by decide, by decide, by decide⟩
/-- A supervisor context of partition 1 with cluster 0: a `tlbi` of its own partition, one of partition 2, and the cores that its `cctl` reaches. -/
theorem witness_PrivilegedServicesAct2 : ∃ s : State, s = { foreignS with partMap := 9 } ∧ s.plain false ∧ s.lch.priv = true ∧ s.sPoi [1, 1 + 1] = false ∧ s.prt ≠ superPart ∧
    Spec.tlbiNames s .part 1 = s.prt ∧ Spec.tlbiNames s .all 1 = s.prt ∧ Spec.tlbiNames s .va 1 ≠ s.prt ∧
    ([0, 1, 2, 3, 4, 5] : List Nat).Pairwise (· < ·) ∧
      ∀ c, c ∈ ([0, 1, 2, 3, 4, 5] : List Nat) ↔ c < 144 ∧ (s.rS 1).getLsbD (c / 6) = true ∧ (s.prt = superPart ∨ s.partOfCore c = some s.prt) := by
  refine ⟨_, rfl, ⟨rfl, rfl⟩, rfl, rfl, by decide, by decide, rfl, by decide, by decide, fun c => ⟨fun h => ?_, fun ⟨h, h1, h2⟩ => ?_⟩⟩
  · simp only [List.mem_cons, List.not_mem_nil, or_false] at h
    obtain rfl | rfl | rfl | rfl | rfl | rfl := h <;> decide
  · have : ∀ k < 24, ({ foreignS with partMap := 9 } : State).partOfCore (6 * k) = some 1 → k = 0 := by decide
    obtain h2 | h2 := h2
    · exact absurd h2 (by decide)
    · have e : ({ foreignS with partMap := 9 } : State).partOfCore c = ({ foreignS with partMap := 9 } : State).partOfCore (6 * (c / 6)) := by
        simp only [State.partOfCore]
        rw [Nat.mul_div_cancel_left _ (by decide : 0 < 6)]
      have := this (c / 6) (by omega) (e ▸ h2)
      have : c < 6 := by omega
      simp only [List.mem_cons, List.not_mem_nil, or_false]; omega

theorem witness_PrivilegedServicesAct : ((superS [(1, 63)]).plain false ∧ (superS [(1, 63)]).lch.priv = true ∧ (superS [(1, 63)]).prt = superPart ∧
      (superS [(1, 63)]).sPoi [1, 1 + 1] = false) ∧
    (sr []).grp.lantern = none ∧ (sr []).lch.priv = false ∧ (Spec.privileged (.vbrep false 1)).isSome ∧ (sr []).sysRead 8 ≠ none :=
  ⟨⟨⟨rfl, rfl⟩, rfl, rfl, rfl⟩, rfl, rfl, rfl, by decide⟩

/-- A supervisor context whose page holds a job at 0: one that asks for nothing, or one that breaks the rule. -/
def jobS (kind : Byte) : State := { ls (fun l => { l with priv := true }) (mapped [page0] []) with mem := if kind = 0 then [] else [(0, kind)] }
/-- Whether a scrub of `jobS` reads its job and list, and what the job asks for. -/
def jobRead (s : State) : Option Bool := match s.gLoad false (s.rS 1).toNat 64 .rlx .s with
  | .ok bs _ u => match u.readList (dw (toDws 8 bs) 4) (bits (dw (toDws 8 bs) 0) 16 32) with
    | .ok (ws, v) => some (v.snufJob s.prt (toDws 8 bs) ws).isSome
    | .error _ => none
  | _ => none
theorem jobRead_some {s : State} {b : Bool} (h : jobRead s = some b) : ∃ bs m u ws v, s.gLoad false (s.rS 1).toNat 64 .rlx .s = .ok bs m u ∧
    u.readList (dw (toDws 8 bs) 4) (bits (dw (toDws 8 bs) 0) 16 32) = .ok (ws, v) ∧ (v.snufJob s.prt (toDws 8 bs) ws).isSome = b := by
  unfold jobRead at h
  split at h
  · rename_i bs m u hg
    split at h
    · rename_i ws v hr
      exact ⟨bs, m, u, ws, v, hg, hr, by simpa using h⟩
    · cases h
  · cases h
set_option maxRecDepth 4000 in
theorem witness_ScrubStartsSnuffer : (∀ k : Byte, k = 0 ∨ k = 1 → (jobS k).plain false ∧ (jobS k).lch.priv = true ∧ (jobS k).sPoi [1] = false ∧
      ((jobS k).rS 1).toNat % 64 = 0 ∧ (jobS k).grp.wick 2 ≠ 0xFFFF ∧ ((jobS k).partAt (jobS k).prt).snuf = none) ∧
    (∃ bs m u ws v, (jobS 1).gLoad false ((jobS 1).rS 1).toNat 64 .rlx .s = .ok bs m u ∧
      u.readList (dw (toDws 8 bs) 4) (bits (dw (toDws 8 bs) 0) 16 32) = .ok (ws, v) ∧ (v.snufJob (jobS 1).prt (toDws 8 bs) ws).isSome = true) ∧
    (∃ bs m u ws v, (jobS 0).gLoad false ((jobS 0).rS 1).toNat 64 .rlx .s = .ok bs m u ∧
      u.readList (dw (toDws 8 bs) 4) (bits (dw (toDws 8 bs) 0) 16 32) = .ok (ws, v) ∧ (v.snufJob (jobS 0).prt (toDws 8 bs) ws).isSome = false) ∧
    ∃ s : State, s.plain false ∧ s.lch.priv = true ∧ s.sPoi [1] = false ∧ (s.rS 1).toNat % 64 = 0 ∧ s.grp.wick 2 ≠ 0xFFFF ∧ (s.partAt s.prt).snuf ≠ none := by
  refine ⟨?_, jobRead_some (by decide), jobRead_some (by decide), (superS []).modPart 0 fun x => { x with snuf := some ⟨none, [], [], [], [], 0, 0, 0, 0, 0, 0⟩ },
    ⟨rfl, rfl⟩, rfl, rfl, by decide, by decide, by decide⟩
  rintro k (rfl | rfl) <;> exact ⟨⟨rfl, rfl⟩, rfl, rfl, by decide, by decide, rfl⟩

/-- The hypotheses of `Issues` as a computation. -/
def issuesB (s : State) (h : LHdr) (srcs : List (Sel × Bool)) (out : Nat → List RDest) (l : Word) (f : List Nat) : Bool :=
  s.grp.lantern.isNone && !s.stepped s.core s.slot true && decide (s.grp.active = some (l, f)) && (f.all fun t => !s.pBadR t h.prd.toNat) &&
  (Spec.mask s h f).all fun t => (srcs.all fun x => !s.selBad x.2 t x.1) && (out t).all fun d => match d with
    | .p u p _ => p == 0 || !s.grp.work.pBad u
    | _ => true
theorem issues_of {s : State} {h : LHdr} {srcs : List (Sel × Bool)} {out : Nat → List RDest} {l : Word} {f : List Nat}
    (hb : issuesB s h srcs out l f = true) : Spec.Issues s h srcs out l f := by
  simp only [issuesB, Bool.and_eq_true, Option.isNone_iff_eq_none, Bool.not_eq_true', decide_eq_true_eq, List.all_eq_true] at hb
  obtain ⟨⟨⟨⟨h1, h2⟩, h3⟩, h4⟩, h5⟩ := hb
  refine ⟨⟨h1, h2⟩, h3, h4, fun t ht => (h5 t ht).1, fun t ht u p b hd hp => ?_⟩
  have h6 := (h5 t ht).2 _ hd
  simpa [hp] using h6
/-- Threads 0 and 31 active, p3 true in both. -/
def two (vs : List (Nat × Nat × BitVec 32)) (cs : List Word) : State :=
  (lst [0, 31] vs cs).modG fun g => g.modWork fun p => (p.wp 0 3 true).wp 31 3 true
/-- A header with guard p3, and one whose guard holds in no thread. -/
def h3 : LHdr := ⟨true, false, 3⟩
def hNone : LHdr := ⟨false, true, 3⟩

theorem witness_LaneIntegerResults : ∃ i s c l f, Spec.intLane i s = some c ∧ Spec.Issues s c.h c.srcs c.out l f ∧ Spec.mask s c.h f = [0, 31] :=
  ⟨.icmp h3 .ltu (.p 2) (.v 63) (.c 7) 0, two [] [], _, 0x1000, [0, 31], rfl, issues_of (by decide), by decide⟩

theorem witness_LaneBitResults : (∃ i s c l f, Spec.bitLane i s = some c ∧ Spec.Issues s c.h c.srcs (fun _ => []) l f ∧ Spec.mask s c.h f = [0, 31]) ∧
    ∃ (s : State) (l : Word) (f : List Nat), s.plain true ∧ s.grp.active = some (l, f) :=
  ⟨⟨.bfe h3 true 1 (.v 2) (.v 3) 0, two [(0, 3, 0x3F1F)] [], _, 0x1000, [0, 31], rfl, issues_of (by decide), by decide⟩,
    two [] [], 0x1000, [0, 31], ⟨rfl, by decide⟩, by decide⟩

theorem witness_ThreadExchangeResults : ∃ i s c l f, Spec.xchgLane i s = some c ∧
    Spec.Issues s c.h (c.srcs.map fun x => (x, false)) (c.out (Spec.mask s c.h f)) l f ∧ Spec.mask s c.h f = [0, 31] :=
  ⟨.gred h3 .max 3 (.v 2) 0, two [] [], _, 0x1000, [0, 31], rfl, issues_of (by decide), by decide⟩

theorem witness_LaneSpecialAndPush : (∃ (s : State) (l : Word) (f : List Nat), Spec.Issues s h3 [] (fun _ => []) l f ∧ Spec.mask s h3 f = [0, 31] ∧
      (Spec.special s 0x0E 0).isSome = true ∧ s.me.wprChg = none ∧ Spec.special s 0x0F 5 = none ∧ s.grp.resq.length < 16 ∧ s.selBad true 0 (.v 2) = false) ∧
    (∃ (s : State) (l : Word) (f : List Nat), Spec.Issues s hNone [] (fun _ => []) l f ∧ Spec.mask s hNone f = []) ∧
    ∃ (s : State) (l : Word) (f : List Nat), Spec.Issues s h3 [] (fun _ => []) l f ∧ Spec.mask s h3 f ≠ [] ∧ 16 ≤ s.grp.resq.length :=
  ⟨⟨two [] [], 0x1000, [0, 31], issues_of (by decide), by decide, rfl, rfl, rfl, by decide, rfl⟩,
    ⟨two [] [], 0x1000, [0, 31], issues_of (by decide), by decide⟩,
    (two [] []).modG fun g => { g with resq := List.replicate 16 0 }, 0x1000, [0, 31], issues_of (by decide), by decide, by decide⟩

/-- Register v2 of thread 31 poisoned. -/
def half : State := (two [] []).modG fun g => g.modWork fun p => { p with vPoi := [(64 * 31 + 2, true)] }
theorem witness_PoisonedSourcesRaise : (∀ p ∈ [(Instr.iadd h3 1 (.v 2) (.v 4) 0, false), (.fadd h3 false .rn 1 (.v 2) (.v 4) 0, false), (.frcp h3 false .rn 1 (.v 2) 0, true)],
      ∃ c, (p.2 = false ∧ Spec.intLane p.1 half = some c ∨ wellFormed p.1 = true ∧ Spec.floatLane p.1 half = some ⟨p.2, c⟩) ∧ half.guardOk c.h [0, 31] ∧
        (∀ t ∈ Spec.mask half c.h [0, 31], ∀ u p b, RDest.p u p b ∈ c.out t → p ≠ 0 → half.grp.work.pBad u = false) ∧
        (Spec.mask half c.h [0, 31]).map (fun t => c.srcs.any fun x => half.selBad x.2 t x.1) = [false, true]) ∧
    half.grp.lantern = none ∧ half.grp.active = some (0x1000, [0, 31]) ∧
    (∀ p ∈ [(Instr.prev h3 1 (.v 4) (.v 2) 0, [Sel.v 4, .v 2]), (.qpack h3 true false 4 (.v 2) (.v 6) 0, [.v 2])],
      ((∃ c, Spec.xchgLane p.1 half = some c ∧ c.h = h3 ∧ c.srcs = p.2) ∨
        ∃ i8 fix d a b m, p.1 = .qpack h3 i8 fix d a b m ∧ p.2 = if fix then [a, b] else [a]) ∧ ∃ t ∈ Spec.mask half h3 [0, 31], ∃ x ∈ p.2, half.selBad false t x = true) ∧
    (∃ i s c, s.grp.lantern = none ∧ Spec.intCalc i s = some c ∧ s.sPoi c.srcs = true) ∧ (∃ i s c, s.grp.lantern = none ∧ Spec.floatCalc i s = some c ∧ s.sPoi c.srcs = true) ∧
    (∃ i s c, s.grp.lantern = none ∧ Spec.slowCalc i s = some c ∧ s.sPoi c.srcs = true) ∧
    ∃ (i : Instr) (s : State) (sw : Bool) (rd : SReg) (srcs : List SReg), s.grp.lantern = none ∧ Spec.fieldSrcs i = some (sw, rd, srcs) ∧ s.sPoi srcs = true ∧ s.sPoi [63] = true := by
  have hg : half.guardOk h3 [0, 31] := by unfold State.guardOk; decide
  refine ⟨fun p hp => ?_, rfl, by decide, fun p hp => ?_, ⟨.add false 3 1 2, bad 63 (bad 1 (sr [])), _, rfl, rfl, rfl⟩, ⟨.sfabs false true 3 63, bad 63 (sr []), _, rfl, rfl, rfl⟩,
    ⟨.sfrcp false true .rn 3 63, bad 63 (sr []), _, rfl, rfl, rfl⟩, .bins false 63 1 2, bad 63 (sr []), _, _, _, rfl, rfl, rfl, rfl⟩
  · simp only [List.mem_cons, List.not_mem_nil, or_false] at hp
    obtain rfl | rfl | rfl := hp
    · exact ⟨_, .inl ⟨rfl, rfl⟩, hg, fun t _ u p b h => by
        have h : RDest.p u p b ∈ [RDest.v t 1 _] := h
        simp at h, by decide⟩
    · exact ⟨_, .inr ⟨by decide, rfl⟩, hg, fun t _ u p b h => by
        have h : RDest.p u p b ∈ [RDest.v t 1 _] := h
        simp at h, by decide⟩
    · exact ⟨_, .inr ⟨by decide, rfl⟩, hg, fun t _ u p b h => by
        have h : RDest.p u p b ∈ [RDest.v t 1 _] := h
        simp at h, by decide⟩
  · simp only [List.mem_cons, List.not_mem_nil, or_false] at hp
    obtain rfl | rfl := hp
    · exact ⟨.inl ⟨_, rfl, rfl, rfl⟩, by decide⟩
    · exact ⟨.inr ⟨_, _, _, _, _, _, rfl, rfl⟩, by decide⟩

theorem witness_LaneFloatResults : (∃ i s c l f, wellFormed i = true ∧ Spec.floatLane i s = some c ∧ Spec.Issues s c.c.h c.c.srcs c.c.out l f ∧
      Spec.mask s c.c.h f = [0, 31]) ∧
    (∃ (s : State) (l : Word) (f : List Nat), Spec.Issues s h3 [(.v 2, false), (.v 4, false)] (fun _ => []) l f ∧ Spec.mask s h3 f = [0, 31]) ∧
    ∃ (s : State) (l : Word) (f : List Nat), Spec.Issues s h3 [(.v 2, false)] (fun _ => []) l f ∧ Spec.mask s h3 f = [0, 31] :=
  ⟨⟨.dfma h3 .rz 62 (.v 62) (.c 7) (.v 0) 0, two [] [], _, 0x1000, [0, 31], by decide, rfl, issues_of (by decide), by decide⟩,
    ⟨two [] [], 0x1000, [0, 31], issues_of (by decide), by decide⟩, two [] [], 0x1000, [0, 31], issues_of (by decide), by decide⟩

/-- Both threads with return stacks of `n`. -/
def calls (n : Nat) : State := (two [] []).modG fun g => { g with thr := [(0, ⟨0x1000, List.replicate n 0x2000, .running⟩), (31, ⟨0x1000, List.replicate n 0x2000, .running⟩)] }
theorem witness_LaneControlMoves : (∀ n ∈ [0, 1, 7, 8], issuesB (calls n) h3 [] (fun _ => []) 0x1000 [0, 31] = true ∧ Spec.mask (calls n) h3 [0, 31] = [0, 31]) ∧
    lvalid (Spec.ltarget 0x1000 0xFFFFFFF0) = true ∧ lvalid (Spec.ltarget 0x1000 4) = false ∧
    (∀ t ∈ [0, 31], (calls 1).selBad false t (.v 2) = false ∧ (calls 1).op32 0 t (.v 2) = 0) ∧ lvalid (Spec.word ((calls 1).lch.lcb.toNat + 0)) = true ∧
    (∀ t ∈ [0, 31], ((calls 7).grp.thrAt t).rs.length < 8) ∧ (∀ t ∈ [0, 31], ((calls 1).grp.thrAt t).rs ≠ []) ∧
    (Spec.Issues (calls 0) hNone [] (fun _ => []) 0x1000 [0, 31] ∧ Spec.mask (calls 0) hNone [0, 31] = []) ∧
    (∃ s : State, s = two [(31, 2, 16)] [] ∧ Spec.Issues s h3 [] (fun _ => []) 0x1000 [0, 31] ∧ (∀ t ∈ [0, 31], s.selBad false t (.v 2) = false) ∧
      lvalid (Spec.word (s.lch.lcb.toNat + (s.op32 0 0 (.v 2)).toNat)) = true ∧ [0, 31].find? (fun u => s.op32 0 u (.v 2) != s.op32 0 0 (.v 2)) = some 31) ∧
    (∃ s : State, s = two [(0, 2, 1)] [] ∧ Spec.Issues s h3 [] (fun _ => []) 0x1000 [0, 31] ∧ (∀ t ∈ [0, 31], s.selBad false t (.v 2) = false) ∧
      lvalid (Spec.word (s.lch.lcb.toNat + (s.op32 0 0 (.v 2)).toNat)) = false) ∧
    [0, 31].find? (fun u => ((calls 0).grp.thrAt u).rs == []) = some 0 ∧ [0, 31].find? (fun u => decide (8 ≤ ((calls 8).grp.thrAt u).rs.length)) = some 0 :=
  ⟨by decide, by decide, by decide, by decide, by decide, by decide, by decide, ⟨issues_of (by decide), by decide⟩, ⟨_, rfl, issues_of (by decide), by decide, by decide, by decide⟩,
    ⟨_, rfl, issues_of (by decide), by decide, by decide⟩, by decide, by decide⟩

theorem witness_LaneMaskAndAssert : (∃ (s : State) (l : Word) (f : List Nat), s.plain true ∧ s.grp.active = some (l, f) ∧ (∀ t ∈ f, s.grp.work.pBad t = false) ∧
      s.selBad false (f.headD 0) (.v 63) = false) ∧
    (∃ (s : State) (l : Word) (f : List Nat), Spec.Issues s h3 [(.v 2, false), (.v 62, true)] (fun _ => []) l f ∧
      ∀ t ∈ Spec.mask s h3 f, s.op32 0 t (.v 2) ≠ 0) ∧
    ∃ (s : State) (l : Word) (f : List Nat), Spec.Issues s h3 [(.v 2, false), (.v 62, true)] (fun _ => []) l f ∧
      (Spec.mask s h3 f).find? (fun u => s.op32 0 u (.v 2) == 0) = some 31 :=
  ⟨⟨two [] [], 0x1000, [0, 31], ⟨rfl, by decide⟩, by decide, by decide, by decide⟩,
    ⟨two [(0, 2, 1), (31, 2, 1)] [], 0x1000, [0, 31], issues_of (by decide), by decide⟩,
    two [(0, 2, 1)] [], 0x1000, [0, 31], issues_of (by decide), by decide⟩

/-- Threads 0 and 31 over a page of memory and one pane, with stores declared. -/
def lmem (vs : List (Nat × Nat × BitVec 32)) : State :=
  ls (fun l => { l with direct := true }) (ks (fun k => { k with tlb := [page0], panes := [(0, some ⟨0, some 0⟩)] }) (two vs []))
/-- The hypotheses of a lane access, as a computation. -/
def accessB (i : Instr) (s : State) (l : Word) (f : List Nat) : Bool := wellFormed i && match Spec.laneMem i s with
  | none => false
  | some m => let e := Spec.mask s m.h f
    issuesB s m.h m.srcs (fun _ => []) l f && e == [0, 31] && (e.all fun t => m.ea t % m.n == 0 && !(m.write && s.lch.undeclared (m.ea t) m.n) &&
      !(m.spad && s.spadAt (m.ea t) == none)) && (Spec.runAll m.acc m.dests s (m.turn s e)).isSome
theorem access_of {i : Instr} {s : State} {l : Word} {f : List Nat} (hp : ∀ u, s.grp.work.pBad u = false) (h : accessB i s l f = true) : ∃ m, wellFormed i = true ∧ Spec.laneMem i s = some m ∧
    Spec.Issues s m.h m.srcs (fun _ => []) l f ∧ Spec.mask s m.h f = [0, 31] ∧ (∀ t ∈ Spec.mask s m.h f, m.ea t % m.n = 0) ∧
    (m.write = true → ∀ t ∈ Spec.mask s m.h f, s.lch.undeclared (m.ea t) m.n = false) ∧ (m.spad = true → ∀ t ∈ Spec.mask s m.h f, s.spadAt (m.ea t) ≠ none) ∧
    (∀ t ∈ Spec.mask s m.h f, ∀ bs u p b, RDest.p u p b ∈ m.dests t bs → p ≠ 0 → s.grp.work.pBad u = false) ∧
    ∃ u ds miss, Spec.runAll m.acc m.dests s (m.turn s (Spec.mask s m.h f)) = some (u, ds, miss) := by
  simp only [accessB] at h
  split at h
  · simp at h
  · rename_i m hm
    simp only [Bool.and_eq_true, beq_iff_eq, List.all_eq_true, Option.isSome_iff_exists, Bool.not_eq_true'] at h
    obtain ⟨hw, ⟨⟨hi, he⟩, ha⟩, r, hr⟩ := h
    refine ⟨m, hw, hm, issues_of hi, he, fun t ht => (ha t ht).1.1, fun hwr t ht => ?_, fun hsp t ht => ?_, fun _ _ _ u _ _ _ _ => hp u, r.1, r.2.1, r.2.2, hr⟩
    · simpa [hwr] using (ha t ht).1.2
    · intro hn
      have := (ha t ht).2
      simp [hsp, hn] at this
set_option maxRecDepth 4000 in
/-- Loads, a store and an atomic of global memory at the ends of the page, and accesses of the ends of a pane. -/
theorem witness_LaneAccessesComplete : ∀ i ∈ [Instr.ldg h3 .d false .acq .d 62 0 (.v 3) 0, .stg h3 .w .rel .d 0 (.v 3) (.v 2) 0, .atomg h3 false .add .ar .d 4 0 (.v 3) (.v 2) 0,
      .pchk h3 true 2 .zero 0xFFFF, .lds h3 .h true .rlx .weak 4 (.v 4) 0, .sts h3 .b .rlx .weak (.v 4) (.v 2) 1, .cass h3 true .ar .t 8 .zero 16 0x1FF8],
    accessB i (lmem [(31, 3, 0x1FFF), (31, 4, 0x1FFE)]) 0x1000 [0, 31] = true := by decide

theorem witness_LaneBroadcastMaskedPrefetch : (∃ (s : State) (l : Word) (f : List Nat), Spec.Issues s hNone [] (fun _ => []) l f ∧ Spec.mask s hNone f = []) ∧
    (∃ (s : State) (l : Word) (f : List Nat), Spec.Issues s h3 [] (fun _ => []) l f ∧ Spec.mask s h3 f ≠ [] ∧ Spec.idxAddr s 0 .none 0 0xFFF8 0 % MemSize.bytes .d = 0 ∧
      ∃ bs m u, s.gLoad true (Spec.idxAddr s 0 .none 0 0xFFF8 0) (MemSize.bytes .d) .acq .s = .ok bs m u) ∧
    ∃ (s : State) (l : Word) (f : List Nat), Spec.Issues s h3 [(.v 5, false)] (fun _ => []) l f ∧ Spec.mask s h3 f = [0, 31] ∧
      (∀ t ∈ Spec.mask s h3 f, (s.op32 0 t (.v 5)).toNat % 2 ^ 4 ≠ 0 → s.selBad true t (ASel.sel (.v 6)) = false ∧ s.selBad false t (.v 2) = false ∧
        Spec.dirAddr s (.v 6) 0 t % 4 = 0 ∧ s.lch.undeclared (Spec.dirAddr s (.v 6) 0 t) 4 = false) ∧
      (Spec.runAll (fun u t => if (s.op32 0 t (.v 5)).toNat % 2 ^ 4 = 0 then .ok [] false u
        else u.maskStore (Spec.dirAddr s (.v 6) 0 t) 4 ((s.op32 0 t (.v 5)).toNat % 2 ^ 4) (Spec.datum s .w (.v 2) t)) (fun _ _ => []) s (s.byLine (fun t => Spec.word (Spec.dirAddr s (.v 6) 0 t)) (Spec.mask s h3 f))).isSome :=
  ⟨⟨two [] [], 0x1000, [0, 31], issues_of (by decide), by decide⟩,
    ⟨lmem [], 0x1000, [0, 31], issues_of (by decide), by decide, by decide,
      (LoadRes.of_good (n := 8) (by decide)).imp fun _ => .imp fun _ => .imp fun _ => And.left⟩,
    lmem [(31, 5, 15), (31, 6, 0xFFFC)], 0x1000, [0, 31], issues_of (by decide), by decide, by decide, by decide⟩

/-- A transactional launch with one output region, and the two threads' addresses in v4. -/
def checks (x y : BitVec 32) : State := ls (fun l => { l with regions := [⟨0, 2, 0x1000, 0x1FFF⟩] })
  (ks (fun k => { k with panes := [(0, some ⟨0, some 0⟩)] }) (two [(0, 4, x), (31, 4, y)] []))
/-- The same while a raise of %wpr makes way 0 column scratchpad. -/
def raising : State := ks (fun k => { k with wprChg := some ⟨1, 5, 0⟩ }) (checks 0x800000 0x900000)
theorem witness_LaneAccessChecksRaise : (∃ m, Spec.laneMem (.lds h3 .b false .rlx .weak 6 (.v 4) 0) raising = some m ∧ raising.grp.lantern = none ∧
      raising.grp.active = some (0x1000, [0, 31]) ∧ raising.guardOk m.h [0, 31] ∧ (∀ t ∈ Spec.mask raising m.h [0, 31], m.ea t % m.n = 0) ∧ m.spad = true ∧
      ∃ t ∈ Spec.mask raising m.h [0, 31], ∃ p, raising.spadAt (m.ea t) = some p ∧ raising.spadMoves p = true) ∧ ∃ m n p, Spec.laneMem (.stgx h3 .w .rlx .weak (.v 4) (.v 2) 0) (checks 0x1000 0x1002) = some m ∧
    Spec.laneMem (.stgx h3 .w .rlx .weak (.v 4) (.v 2) 0) (checks 0x1FFC 0x2000) = some n ∧ Spec.laneMem (.lds h3 .b false .rlx .weak 6 (.v 4) 0) (checks 0x1FFF 0x2000) = some p ∧
    (∀ s ∈ [checks 0x1000 0x1002, checks 0x1FFC 0x2000, checks 0x1FFF 0x2000], s.grp.lantern = none ∧ s.grp.active = some (0x1000, [0, 31]) ∧
      s.guardOk m.h [0, 31] ∧ s.guardOk n.h [0, 31] ∧ s.guardOk p.h [0, 31]) ∧
    (Spec.mask (checks 0x1000 0x1002) m.h [0, 31]).find? (fun t => m.ea t % m.n != 0) = some 31 ∧
    (∀ t ∈ Spec.mask (checks 0x1FFC 0x2000) n.h [0, 31], n.ea t % n.n = 0) ∧ n.write = true ∧
    (Spec.mask (checks 0x1FFC 0x2000) n.h [0, 31]).find? (fun t => (checks 0x1FFC 0x2000).lch.undeclared (n.ea t) n.n) = some 31 ∧
    (∀ t ∈ Spec.mask (checks 0x1FFF 0x2000) p.h [0, 31], p.ea t % p.n = 0) ∧ p.spad = true ∧
    (Spec.mask (checks 0x1FFF 0x2000) p.h [0, 31]).find? (fun t => (checks 0x1FFF 0x2000).spadAt (p.ea t) == none) = some 31 ∧
    (∀ t ∈ Spec.mask (checks 0x1FFF 0x2000) p.h [0, 31], ((checks 0x1FFF 0x2000).spadAt (p.ea t)).any (checks 0x1FFF 0x2000).spadMoves = false) :=
  ⟨⟨_, rfl, rfl, rfl, by unfold State.guardOk; decide, by decide, rfl, 0, by decide, .col 0 0, by decide, by decide⟩,
    _, _, _, rfl, rfl, rfl, by unfold State.guardOk; decide, by decide, by decide, rfl, by decide, by decide, rfl, by decide, by decide⟩

theorem padsRise_one (c : Core) (h : ∀ b, (c.plane b).pad = [] ∧ (c.plane b).col = []) (s : State) (hs : s.cores = [(0, c)]) : Spec.padsRise s := fun d b => by
  by_cases hd : d = 0
  · subst hd
    have : s.coreAt 0 = c := by simp [State.coreAt, hs, tget]
    rw [this, (h b).1, (h b).2]; exact ⟨trivial, trivial⟩
  · have : s.coreAt d = Core.reset := by simp [State.coreAt, hs, tget]; omega
    rw [this]; cases b <;> exact ⟨trivial, trivial⟩
theorem witness_ScratchpadWritesBytes : ∃ (s u : State) (sa n : Nat) (f : List Byte → List Byte) (old : List Byte) (m : Bool) (l : SLoc), Spec.padsRise s ∧
    (∀ b, b.length = n → (f b).length = n) ∧ s.spadAt sa = some l ∧ s.spModify sa n f = .ok old m u ∧ n = 4 := by
  obtain ⟨bs, m, u, h, -⟩ := LoadRes.of_good (r := (lmem []).spModify 0x1FFC 4 fun _ => [1, 2, 3, 4]) (n := 4) (by decide)
  exact ⟨lmem [], u, 0x1FFC, 4, _, bs, m, _, padsRise_one ((lmem []).coreAt 0) (fun b => by cases b <;> exact ⟨rfl, rfl⟩) _ rfl, fun _ _ => rfl, rfl, h, rfl⟩

/-- The descriptor of section "The ladder descriptor" of spec/13 at 0, tile 4 in a bank of the team, one pane, and captured operands for A and B. -/
def matS (flt : Bool) : State :=
  let s := ks (fun k => { k with tlb := [page0], panes := [(0, some ⟨0, some 0⟩)] }) (two [] [0x10000000000, 0])
  let s := ks (fun k => { k with accOwn := [(0, some 0)], tiles := [(4, ⟨flt, 0, false, false, false⟩)] }) (ls (fun l => { l with direct := true }) s)
  { s with mem := [(0, 1), (1, 0x11), (2, 4), (3, 0xA0), (8, 1), (11, 4), (24, 3), (27, 4)] }
theorem mat_issues (flt : Bool) : Spec.Issues (matS flt) h3 [] (fun _ => []) 0x1000 [0, 31] := by cases flt <;> exact issues_of (by decide)
theorem mat_mask (flt : Bool) : Spec.mask (matS flt) h3 [0, 31] ≠ [] := by cases flt <;> decide
theorem mat_clean (flt : Bool) : ∀ t ∈ [4, 5, 7], Spec.mine (matS flt) t ∧ Spec.clean (matS flt) t := by
  unfold Spec.mine Spec.clean; cases flt <;> decide

theorem witness_TileInstructionsQueue : Spec.Issues (matS true) h3 [] (fun _ => []) 0x1000 [0, 31] ∧ Spec.mask (matS true) h3 [0, 31] ≠ [] ∧
    Spec.room (matS true) 0 ∧ (∀ t ∈ [4, 5, 7], Spec.mine (matS false) t ∧ Spec.clean (matS false) t) ∧ Spec.alike (matS false) 4 5 ∧ Spec.alike (matS false) 4 7 ∧
    ∀ t ∈ [0, 31], (matS true).selBad false t (.v 2) = false :=
  ⟨mat_issues true, mat_mask true, ⟨by decide, by decide⟩, mat_clean false, ⟨rfl, rfl⟩, ⟨rfl, rfl⟩, by decide⟩

/-- The descriptor is read, and no rule of R244 turns it away. -/
def descB (s : State) : Bool := match s.gLoad true (s.lch.fmt + BitVec.ofNat 64 (64 * (0 : BitVec 8).toNat)).toNat 64 .rlx .weak with
  | .ok bs _ _ => descCheck (toDws 8 bs) true 0 == 0 && sfmtOf (toDws 8 bs) 0 == 1 && !s.outside 0 32 256 (stepBytes 1 * 1)
  | _ => false
theorem desc_of {s : State} (h : descB s = true) : ∃ bs m u, s.gLoad true (s.lch.fmt + BitVec.ofNat 64 (64 * (0 : BitVec 8).toNat)).toNat 64 .rlx .weak = .ok bs m u ∧
    descCheck (toDws 8 bs) true 0 = 0 ∧ sfmtOf (toDws 8 bs) 0 = 1 ∧ s.outside 0 32 256 (stepBytes 1 * 1) = false := by
  unfold descB at h
  split at h
  · rename_i bs m u hg
    simp only [Bool.and_eq_true, beq_iff_eq, Bool.not_eq_true'] at h
    exact ⟨bs, m, u, hg, h.1.1, h.1.2, h.2⟩
  · cases h
set_option maxRecDepth 4000 in
theorem witness_MovesAndMultiplyQueue : Spec.Issues (matS true) h3 [] (fun _ => []) 0x1000 [0, 31] ∧ Spec.mask (matS true) h3 [0, 31] ≠ [] ∧
    (matS true).grp.wick 3 ≠ 0xFFFF ∧ Spec.room (matS true) 2 ∧ Spec.mine (matS true) 4 ∧ Spec.clean (matS true) 4 ∧
    ((matS true).grp.cap 0).toNat % 2 ^ 32 % 8 = 0 ∧ (matS true).outside 0 32 (0x100 : BitVec 32).toNat 256 = false ∧
    bits ((matS true).grp.cap 0) 0 32 = 0 ∧ bits ((matS true).grp.cap 0) 32 16 = 256 ∧ bits ((matS true).grp.cap 1) 0 20 % 8 = 0 ∧
    ((matS true).me.tile 4).flt = true ∧ ((matS true).me.tile 4).e = 0 ∧
    ∃ bs m u, (matS true).gLoad true ((matS true).lch.fmt + BitVec.ofNat 64 (64 * (0 : BitVec 8).toNat)).toNat 64 .rlx .weak = .ok bs m u ∧
      descCheck (toDws 8 bs) true 0 = 0 ∧ sfmtOf (toDws 8 bs) 0 = 1 ∧ (matS true).outside 0 32 256 (stepBytes 1 * 1) = false :=
  ⟨mat_issues true, mat_mask true, by decide, ⟨by decide, by decide⟩, (mat_clean true 4 (by decide)).1, (mat_clean true 4 (by decide)).2, by decide, by decide,
    by decide, by decide, by decide, rfl, rfl, desc_of (by decide)⟩

set_option maxRecDepth 4000 in
theorem witness_MatrixReadsAndBase : Spec.Issues (matS true) h3 [] (fun _ => []) 0x1000 [0, 31] ∧ Spec.mask (matS true) h3 [0, 31] ≠ [] ∧ Spec.mine (matS true) 4 ∧
    (matS true).me.mq = [] ∧ (matS true).me.away = [] ∧ Spec.noStat (matS true) ∧ (matS true).me.eng.pos = none ∧ (matS true).me.eng.req = none ∧ (matS true).me.eng.run = none ∧
    (∃ bs m u, (matS true).gLoad true ((matS true).lch.fmt + BitVec.ofNat 64 (64 * (0 : BitVec 8).toNat)).toNat 64 .rlx .weak = .ok bs m u) ∧
    (Spec.Issues (matS true) hNone [] (fun _ => []) 0x1000 [0, 31] ∧ Spec.mask (matS true) hNone [0, 31] = []) ∧ (matS true).grp.wick 15 ≠ 0xFFFF ∧
    ∃ s : State, s = ks (fun k => { k with mq := [⟨0, .mzero, 0, 0, 0, 0, 0, 0, 4, 0, 0, true, 0, true, 0, [], 0, 0, false, [], 0, 0, 0, 0, false, 0, none, none, false, none⟩], nextOp := 1 }) (matS true) ∧
      Spec.Issues s h3 [] (fun _ => []) 0x1000 [0, 31] ∧ Spec.mask s h3 [0, 31] ≠ [] ∧ Spec.mine s 4 ∧ Spec.noStat s ∧ ∃ m ∈ s.me.mq, m.id < s.me.nextOp :=
  ⟨mat_issues true, mat_mask true, (mat_clean true 4 (by decide)).1, rfl, rfl, by unfold Spec.noStat; decide, rfl, rfl, rfl, (desc_of (by decide)).imp fun _ => .imp fun _ => .imp fun _ => And.left,
    ⟨issues_of (by decide), by decide⟩, by decide, _, rfl, issues_of (by decide), by decide, by unfold Spec.mine; decide, by unfold Spec.noStat; decide, by decide⟩

/-- The two threads in lantern mode. -/
def lanS : State := (two [(0, 2, 1)] []).modG fun g => { g with lantern := some ⟨.run, 0, 0, [], [(64 * 31 + 2, true)], [], [], 0, [], false, none, none, .none, .none⟩ }
def lanL : State := ls (fun l => { l with livecnt := 1 }) lanS
theorem witness_LanternSuppressesAndDarkens : (∀ i ∈ [Instr.brk false 1, .phint false 0, .swr false 1 0x10 0, .sysw false 1 0x009], (∃ sw, Spec.hushed i = some sw) ∧ Spec.named lanL i) ∧
    lanS.grp.inLan = true ∧ lanL.grp.inLan = true ∧ (62 : SReg) ≠ 0 ∧ (62 + 1 : SReg) ≠ 0 ∧
    (∀ i ∈ [Instr.mfmt h3 63 0 1, .mstat h3 true 63 0, .mstat h3 false 62 5], wellFormed i = true) ∧
    (∃ i, Spec.hushedLane i = some h3) ∧ lanS.grp.active = some (0x1000, [0, 31]) ∧ lanS.guardOk h3 [0, 31] ∧ lanS.guarded h3 [0, 31] ≠ [] ∧
    (∃ i x, Spec.intCalc i lanS = some x ∧ lanS.sPoi x.srcs = false) ∧
    ∃ i c, Spec.intLane i lanS = some c ∧ lanS.guardOk c.h [0, 31] ∧ (∀ t ∈ [0, 31], lanS.grp.pDark t c.h.prd.toNat = false) ∧
      (∀ t ∈ Spec.mask lanS c.h [0, 31], (∀ x ∈ c.srcs, lanS.selBad x.2 t x.1 = false) ∧ (c.out t).any lanS.grp.work.destBad = false) ∧ Spec.mask lanS c.h [0, 31] = [0, 31] ∧
      [0, 31].map (fun t => c.srcs.any fun x => lanS.selDark x.2 t x.1) = [false, true] :=
  ⟨fun i hi => by
      simp only [List.mem_cons, List.not_mem_nil, or_false] at hi
      obtain rfl | rfl | rfl | rfl := hi
      · exact ⟨⟨_, rfl⟩, trivial⟩
      · exact ⟨⟨_, rfl⟩, by show (0 : BitVec 6).toNat < lanL.lch.livecnt; decide⟩
      · exact ⟨⟨_, rfl⟩, by show (0 : BitVec 4) = 0 ∧ (0x10 : BitVec 8) ∈ [0x0E, 0x0F, 0x10]; decide⟩
      · exact ⟨⟨_, rfl⟩, by show lanL.sysRead 0x009 ≠ none; decide⟩,
    rfl, rfl, by decide, by decide, by decide, ⟨.mglow h3 1, rfl⟩, by decide, by unfold State.guardOk; decide, by decide, ⟨.add false 63 1 2, _, rfl, rfl⟩,
    .iadd h3 63 (.v 2) (.c 1) 0, _, rfl, by unfold State.guardOk; decide, by decide, by decide, by decide, by decide⟩

/-- Queue 0, active, of partition 0, its fetcher at its write index, with taken packets; registers and private memory of the supervisor core. -/
def lxS (rs : Tab Word) (sram : Tab Byte) (pkts : List Pkt) : State :=
  let s := State.reset.modHart 0 fun h => { h with x := rs, sram := sram }
  { s with queues := [(0, { Queue.reset with log2n := 6, en := true, state := 1, pkts := pkts })] }
theorem lxS_queue (rs : Tab Word) (sram : Tab Byte) (pkts : List Pkt) : Spec.goodQueue (lxS rs sram pkts) 0 :=
  ⟨by decide, rfl, by show (1 : Nat) ≠ 0; decide, .inl rfl⟩
theorem witness_LxFetchFieldAndWait : (∃ s : State, Spec.goodQueue s (s.xr 1).toNat ∧ Spec.goodAddr (s.xr 2) 64 ∧ (s.qAt (s.xr 1).toNat).state = 1 ∧
      (s.qAt (s.xr 1).toNat).wr = (s.qAt (s.xr 1).toNat).rd) ∧
    (∃ s : State, ¬ Spec.goodQueue s (s.xr 1).toNat) ∧ (∃ s : State, Spec.goodQueue s (s.xr 1).toNat ∧ ¬ Spec.goodAddr (s.xr 2) 64) ∧
    (∃ s : State, 128 ≤ (s.xr 1).toNat) ∧ (∃ s : State, (s.xr 1).toNat < 128 ∧ (s.hartAt s.hart).sig &&& (s.xr 1).extractLsb' 0 7 ≠ 0) ∧
    (∃ s : State, (s.xr 1).toNat < 128 ∧ (s.hartAt s.hart).sig &&& (s.xr 1).extractLsb' 0 7 = 0 ∧ (s.hartAt s.hart).swait = none) ∧
    (∃ (s : State) (w : SWait), (s.xr 1).toNat < 128 ∧ (s.hartAt s.hart).sig &&& (s.xr 1).extractLsb' 0 7 = 0 ∧ (s.hartAt s.hart).swait = some w ∧
      ∀ u, w.until_ = some u → s.now < u) ∧
    ∃ (s : State) (w : SWait) (u : Nat), (s.xr 1).toNat < 128 ∧ (s.hartAt s.hart).sig &&& (s.xr 1).extractLsb' 0 7 = 0 ∧
      (s.hartAt s.hart).swait = some w ∧ w.until_ = some u ∧ u ≤ s.now :=
  ⟨⟨lxS [(2, 0x3FFC0)] [] [], lxS_queue _ _ _, by unfold Spec.goodAddr; decide, rfl, rfl⟩,
    ⟨lxS [(1, 1024)] [] [], fun h => absurd h.1 (by decide)⟩, ⟨lxS [(2, 0x3FFC8)] [] [], lxS_queue _ _ _, by unfold Spec.goodAddr; decide⟩,
    ⟨lxS [(1, 128)] [] [], by decide⟩, ⟨(lxS [(1, 127)] [] []).modHart 0 fun h => { h with sig := 0x40 }, by decide, by decide⟩,
    ⟨lxS [(1, 127)] [] [], by decide, by decide, rfl⟩,
    ⟨(lxS [] [] []).modHart 0 fun h => { h with swait := some ⟨some 1, 0, 0⟩ }, ⟨some 1, 0, 0⟩, by decide, by decide, rfl, fun u h => by cases h; decide⟩,
    (lxS [] [] []).modHart 0 fun h => { h with swait := some ⟨some 0, 0, 0⟩ }, ⟨some 0, 0, 0⟩, 0, by decide, by decide, rfl, rfl, by decide⟩

theorem tget_full {α : Type} (d x : α) (n : Nat) : ∀ m k, m ≤ k → k < m + n → tget d ((List.range' m n).map fun l => (l, x)) k = x := by
  induction n with
  | zero => intro m k h1 h2; omega
  | succ n ih =>
    intro m k h1 h2
    simp only [List.range'_succ, List.map_cons, tget]
    split
    · rfl
    · rw [if_neg (by omega)]; exact ih (m + 1) k (by omega) (by omega)
/-- The packet that private memory holds at 0, taken and not started; every LID in use, or none. -/
def pktOf (sram : Tab Byte) : Pkt := ⟨(lxS [] sram []).privDws 0 8, 0, false, false⟩
def dispS (sram : Tab Byte) : State := lxS [] sram [pktOf sram]
def dispFull : State := { dispS [(0, 1)] with launches := (List.range' 0 512).map fun l => (l, { Launch.reset with st := .running }) }
theorem dispS_first (sram : Tab Byte) : ((dispS sram).qAt 0).pkts.find? (fun x => !x.started) = some (pktOf sram) ∧ (pktOf sram).dw = (dispS sram).privDws 0 8 :=
  ⟨rfl, rfl⟩
/-- A launch, a core and a bind record of one team of one group. -/
def bindS (b : Tab Byte) (f : Launch → Launch) (g : Core → Core) : State :=
  let s := ((State.reset.modHart 0 fun h => { h with sram := b }).modCore 0 g).modLch 0 fun l => f { l with st := .ready, ngrp := 1, nteam := 1, ncoh := 1 }
  { s with partMap := 8 }
/-- The checks of a bind in the order of their codes: alignment, core, V, launch, slots, resources, reserved bits, rules. -/
def bindB (s : State) (rs1 rs2 : BitVec 5) : List Bool :=
  let c := (s.xr rs2).toNat % 256
  let ws := s.privDws (s.xr rs1) 4
  let b := bindOf ws s.wall
  let l := s.lchAt b.lid
  [(s.xr rs1).toNat % 32 = 0 && (s.xr rs1).toNat + 32 ≤ 256 * 1024, c < 144 && s.partOfCore c == some 0 && (l.st == .free || l.part == 0), (dw ws 0).getLsbD 0,
    l.st == .ready || l.st == .bound || l.st == .running, (s.coreAt c).slotBusy b, s.resBusy c b l.panes, bindReserved ws, s.badBind c l b]
theorem witness_LxDispatchAndBind : (∀ p, ((dispS []).partAt p).held = false) ∧ (∀ sram, Spec.goodQueue (dispS sram) 0 ∧ Spec.goodAddr ((dispS sram).xr 0) 64) ∧
    (ptype (pktOf [(0, 1)]).dw = 1 ∧ ∃ l < 512, ((dispS [(0, 1)]).lchAt l).st = .free) ∧ (¬ ∃ l < 512, (dispFull.lchAt l).st = .free) ∧
    ptype (pktOf []).dw ≠ 1 ∧ ((lxS [] [] []).qAt 0).pkts.find? (fun x => !x.started) = none ∧ (∀ f g b p, ((bindS b f g).partAt p).held = false) ∧
    bindB (bindS [(0, 1)] id id) 0 0 = [true, true, true, true, false, false, false, false] ∧ bindB (bindS [] id id) 0 0 = [true, true, false, true, false, false, false, false] ∧
    bindB (bindS [(0, 4)] id id) 0 0 = [true, true, false, true, false, false, true, false] ∧
    bindB ((bindS [] id id).modHart 0 fun h => { h with x := [(1, 0x3FFF0)] }) 1 0 = [false, true, false, true, false, false, false, false] ∧
    bindB ((bindS [] id id).modHart 0 fun h => { h with x := [(1, 144)] }) 0 1 = [true, false, false, true, false, false, false, false] ∧
    bindB (bindS [(0, 1)] (fun l => { l with st := .free }) id) 0 0 = [true, true, true, false, false, false, false, false] ∧
    bindB (bindS [(0, 1)] id fun k => { k with groups := [(0, { Group.reset with bound := true })] }) 0 0 = [true, true, true, true, true, false, false, false] ∧
    bindB (bindS [(0, 1)] (fun l => { l with panes := 1 }) fun k => { k with panes := [(0, some ⟨5, none⟩)] }) 0 0 = [true, true, true, true, false, true, false, false] ∧
    bindB (bindS [(0, 5)] id id) 0 0 = [true, true, true, true, false, false, true, false] ∧
    bindB (bindS [(0, 1)] (fun l => { l with ngrp := 2 }) id) 0 0 = [true, true, true, true, false, false, false, true] := by
  refine ⟨fun _ => rfl, fun _ => ⟨lxS_queue _ _ _, by unfold Spec.goodAddr; show (0 : Nat) % 64 = 0 ∧ 0 + 64 ≤ 256 * 1024; decide⟩, ⟨by decide, 0, by decide, rfl⟩, ?_,
    by decide, rfl, fun _ _ _ _ => rfl, by decide, by decide, by decide, by decide, by decide, by decide, by decide, by decide, by decide, by decide⟩
  rintro ⟨l, hl, h⟩
  rw [State.lchAt, show dispFull.launches = (List.range' 0 512).map fun l => (l, { Launch.reset with st := .running }) from rfl,
    tget_full _ _ 512 0 l (by omega) (by omega)] at h
  cases h

/-! Events. -/

/-- Lantern mode of a group in a phase, its time up at cycle 0. -/
def lan (p : LanPhase) (n : Nat) : Lantern := ⟨p, 0, n, [], [], [], [], 0, [], false, none, none, .none, .none⟩
/-- A late result of the scalar stream whose load missed. -/
def lateR : OutRes := OutRes.of false [.s 4 7, .v 31 63 9, .p 31 7 true] true false
theorem witness_GroupEventsAct :
    (∃ q : Group, q = ({ Group.reset with bound := true, lq := [⟨0x1000, []⟩] } : Group) ∧ q.lrun = false ∧ q.handler = false ∧ q.halted = false ∧ q.lantern = none ∧
      (∃ th < 32, (q.thrAt th).st ≠ .killed)) ∧
    (∃ q : Group, q = ({ Group.reset with bound := true, lq := [⟨0x1000, []⟩], thr := (List.range 32).map fun t => (t, ⟨0, [], .killed⟩) } : Group) ∧ q.lrun = false ∧
      q.handler = false ∧ q.halted = false ∧ q.lantern = none ∧ ∀ th < 32, (q.thrAt th).st = .killed) ∧
    (∃ q : Group, q = ({ Group.reset with outs := [lateR] } : Group) ∧ q.outs[0]? = some lateR ∧ lateR.op = none ∧ lateR.pend = none ∧ q.lantern = none) ∧
    (∃ (q : Group) (o : OutRes), o = { lateR with pend := some (trapR .poison) } ∧ q = ({ Group.reset with outs := [o] } : Group) ∧ q.outs[0]? = some o ∧
      o.op = none ∧ o.pend = some (trapR .poison) ∧ q.pend = none ∧ q.lantern = none) ∧
    ((gs fun g => { g with sWait := .sleep }).grpAt 0 0).sleepTo ≤ (gs fun g => { g with sWait := .sleep }).now ∧
    (∃ s : State, (s.grpAt 0 0).sWait = .semwait) ∧ (∃ (s : State) (e : PStore), (s.grpAt 0 0).sbuf = [e] ∧ (s.grpAt 0 0).lsbuf = [e]) ∧
    ((gs fun g => { g with bound := true, released := true }).grpAt 0 0).live = true ∧ (0xFFFFFFFFFFFFFFFC : Nat) % 4 = 0 ∧
    (∃ s : State, Spec.enters s 0 0) ∧
    (∃ s : State, (s.grpAt 0 0).lantern = some (lan .enter 0) ∧ (lan .enter 0).until_ ≤ s.now) ∧
    (∃ s : State, (s.grpAt 0 0).lantern = some (lan .run 2048) ∧ 2048 ≤ (lan .run 2048).count) ∧
    ∃ s : State, (s.grpAt 0 0).lantern = some (lan .leave 5) ∧ (lan .leave 5).until_ ≤ s.now ∧ ∀ o ∈ (s.grpAt 0 0).outs, o.entry = true → o.come = true → o.pend = none := by
  refine ⟨⟨_, rfl, rfl, rfl, rfl, rfl, 0, by decide, by decide⟩, ⟨_, rfl, rfl, rfl, rfl, rfl, by decide⟩, ⟨_, rfl, rfl, rfl, rfl, rfl⟩, ⟨_, _, rfl, rfl, rfl, rfl, rfl, rfl, rfl⟩, by decide,
    ⟨gs fun g => { g with sWait := .semwait }, rfl⟩, ⟨gs fun g => { g with sbuf := [⟨0, [], [5]⟩], lsbuf := [⟨0, [], [5]⟩] }, ⟨0, [], [5]⟩, rfl, rfl⟩, by decide,
    by decide, ⟨{ gs (fun g => { g with bound := true, released := true, lanT := 1, sPark := some 0, outs := [lateR] }) with now := 1 }, ?_⟩,
    ⟨gs fun g => { g with lantern := some (lan .enter 0) }, rfl, by decide⟩, ⟨gs fun g => { g with lantern := some (lan .run 2048) }, rfl, by decide⟩,
    gs fun g => { g with lantern := some (lan .leave 5) }, rfl, by decide, by decide⟩
  unfold Spec.enters; decide

/-- Rising codes show that a list repeats nothing. -/
def ascends : Nat → List Nat → Bool
  | _, [] => true
  | lo, x :: xs => lo ≤ x && ascends (x + 1) xs
theorem nodup_of_ascends {α : Type} (code : α → Nat) (l : List α) : ∀ lo, ascends lo (l.map code) = true → (∀ x ∈ l, lo ≤ code x) ∧ l.Nodup := by
  induction l with
  | nil => intro lo _; exact ⟨by simp, List.nodup_nil⟩
  | cons x l ih =>
    intro lo h
    simp only [List.map_cons, ascends, Bool.and_eq_true, decide_eq_true_eq] at h
    obtain ⟨h1, h2⟩ := h
    obtain ⟨ha, hn⟩ := ih _ h2
    refine ⟨fun y hy => ?_, List.nodup_cons.mpr ⟨fun hx => ?_, hn⟩⟩
    · rcases List.mem_cons.mp hy with rfl | hy
      · exact h1
      · have := ha y hy; omega
    · have := ha x hx; omega
/-- A number for each instance of a core. -/
def instCode : Inst → Nat
  | .grp g => g
  | .acc b => 128 + b
  | .pane p => 136 + p
  | .wbuf => 200
  | .col => 201
theorem clus_nodup (s : State) (c g : Nat) : (s.insts c g .clus []).Nodup := by
  show List.Pairwise (· ≠ ·) ((List.range 6).flatMap fun r => coreInsts.map fun i => (c / 6 * 6 + r, i))
  refine List.pairwise_flatMap.mpr ⟨fun r _ => List.pairwise_map.mpr ?_, ?_⟩
  · exact ((nodup_of_ascends instCode coreInsts 0 (by decide)).2).imp fun h he => h (Prod.mk.inj he).2
  · refine (List.nodup_range (n := 6)).imp fun {a b} hab x hx y hy he => ?_
    simp only [List.mem_map] at hx hy
    obtain ⟨i, -, rfl⟩ := hx
    obtain ⟨j, -, hj⟩ := hy
    have := (Prod.mk.inj (hj.trans he.symm)).1
    omega
/-- A test of every instance of a core, domain by domain. -/
theorem all_insts (p : Inst → Bool) (h1 : (List.range 128).all (fun g => p (.grp g)) = true) (h2 : (List.range 8).all (fun b => p (.acc b)) = true)
    (h3 : (List.range 64).all (fun q => p (.pane q)) = true) (h4 : p .wbuf = true) (h5 : p .col = true) : coreInsts.all p = true := by
  simp only [coreInsts, List.all_append, List.all_map, Bool.and_eq_true, List.all_cons, List.all_nil, Bool.and_true]
  exact ⟨⟨⟨h1, h2⟩, h3⟩, h4, h5⟩

/-- Core 0, its group holding rights, with a change of %wpr whose time is up. -/
def chgS (wpr goal : Nat) : State := ks (fun k => { k with wpr := wpr, wprChg := some ⟨goal, 0, 0⟩ }) (wprS 0 false)
/-- A flip of cluster 0 by its core 0, with the acknowledgements of some cores. -/
def clusS (acks : List Nat) : State := { flipping .clus .wait true [] with clusters := [(0, { Cluster.reset with flipBy := some (0, 0), acks := acks })] }
/-- The fault of a page not resident waits at a group. -/
def swapR : TrapRec := { trapR .xlate with swap := true }
def pendS (r : TrapRec) : State := trapS.modG fun g => { g with pend := some r }
/-- A team of one group, saved: it fits its core again. -/
def savedV : Saved := ⟨0, 0, [(0, Group.reset)], [], [], [], [], [], [], [], [], ⟨0, 0, 1, 0, 0, 0, true, 0, 0, false, 0, true⟩, [], [], false, [], [], none, none, none,
  [], []⟩
theorem clus_ready : (clusS [0, 1, 2, 3, 4, 5]).flipReady 0 0 ⟨.clus, .wait, true, [], 0, 0, false, false, false⟩ ((clusS [0, 1, 2, 3, 4, 5]).insts 0 0 .clus []) = true := by
  refine Bool.and_eq_true_iff.mpr ⟨?_, rfl⟩
  show ((List.range 6).flatMap fun r => coreInsts.map fun i => (0 / 6 * 6 + r, i)).all _ = true
  simp only [List.all_flatMap, List.all_map, List.all_eq_true (l := List.range 6), List.mem_range]
  intro r hr
  have : r = 0 ∨ r = 1 ∨ r = 2 ∨ r = 3 ∨ r = 4 ∨ r = 5 := by omega
  rcases this with rfl | rfl | rfl | rfl | rfl | rfl <;> exact all_insts _ (by decide) (by decide) (by decide) (by decide) (by decide)
theorem save_free : ∀ i ∈ coreInsts, State.reset.saveHold 143 i = true :=
  List.all_eq_true.mp (all_insts _ (by decide) (by decide) (by decide) (by decide) (by decide))
theorem pend_clean : (pendS swapR).outBad ((pendS swapR).capture 0 0 true none none) = false := by decide
theorem witness_TrapAndTeamEventsAct : (∃ s : State, s.owner 3 = some 143) ∧
    (((wprS 0 false).modG fun g => { g with bound := true, released := true }).grpAt 0 0).live = true ∧ (wprS 0 false).lch.rightW = true ∧
    (wprS 0 false).wprFree 0 = true ∧ (wprS 0 false).wprLine 0 = [] ∧ ((wprS 0 false).coreAt 0).wpr ≠ min 9 8 ∧
    (((chgS 0 8).coreAt 0).wprChg = some ⟨8, 0, 0⟩ ∧ ((chgS 0 8).coreAt 0).wpr < 8) ∧ (((chgS 8 0).coreAt 0).wprChg = some ⟨0, 0, 0⟩ ∧
      (chgS 8 0).colItems 0 (2 ^ 20 * min 8 0) = false) ∧
    (∃ (s : State) (f : PFlip), s = clusS [] ∧ (s.clAt 0).flipBy = some (0, 0) ∧ (s.grpAt 0 0).pflip = some f ∧ f.dom = .clus ∧ f.free = false ∧
      5 % 6 ∉ (s.clAt 0).acks ∧ s.flipReady 0 0 f (coreInsts.map fun x => (5, x)) = true) ∧
    (∃ (s : State) (f : PFlip), s = clusS [0, 1, 2, 3, 4, 5] ∧ (s.clAt 0).flipBy = some (0, 0) ∧ (s.grpAt 0 0).pflip = some f ∧ f.dom = .clus ∧ f.free = false ∧
      (s.clAt 0).acks.length = 6 ∧ (s.grpAt 0 0).live = true ∧ s.flipReady 0 0 f (s.insts 0 0 .clus []) = true ∧ f.lazy = true ∧ (s.insts 0 0 .clus []).Nodup ∧
      s.stepped 0 0 false = false) ∧
    (∀ r ∈ [trapR .user, trapR .step, swapR], r.silent = false ∧ ((pendS r).grpAt 0 0).bound = true ∧ ((pendS r).grpAt 0 0).pend = some r ∧ ((pendS r).grpAt 0 0).handler = false ∧
      (pendS r).canEnter 0 0 = true) ∧ Spec.Handles (pendS (trapR .user)) 0 0 (trapR .user) ∧
    (∀ j ∈ (pendS swapR).teamSlots 0 0, ((pendS swapR).grpAt 0 j).lantern = none) ∧ (pendS swapR).canSave 0 0 true = true ∧ (pendS swapR).outBad ((pendS swapR).capture 0 0 true none none) = false ∧
    (pendS swapR).engNow 0 0 = true ∧ ((pendS swapR).coreAt 0).stepOpen 0 = false :=
  ⟨⟨{ State.reset with owners := [(3, 144)] }, rfl⟩, by decide, rfl, by decide, rfl, by decide, ⟨rfl, by decide⟩, ⟨rfl, by decide⟩,
    ⟨_, _, rfl, rfl, rfl, rfl, rfl, by decide, by decide⟩,
    ⟨_, _, rfl, rfl, rfl, rfl, rfl, rfl, by decide, clus_ready, rfl, clus_nodup _ _ _, by decide⟩,
    by decide, ⟨by decide, by decide, rfl, rfl, rfl, by decide, by decide⟩, by decide, by decide, pend_clean, by decide, by decide⟩

/-- A group whose pre-emption was asked for at cycle 0. -/
def askS (ready : Bool) : State := gs fun g => { g with bound := true, preempt := some ⟨0, ready, none⟩ }
theorem ask_clean : (askS true).outBad ((askS true).capture 0 ((askS true).grpAt 0 0).slot0 false none none) = false := by decide
theorem saved_clean : ∀ i ∈ savedV.insts, ({ State.reset with saved := [savedV], partMap := 8 } : State).inBad [savedV] i = false := by decide
theorem none_bad : ∀ i ∈ coreInsts.map fun i => (143, i), State.reset.inBad [] i = false := by
  simp only [List.mem_map]
  rintro _ ⟨i, hi, rfl⟩
  simpa using List.all_eq_true.mp (all_insts (fun i => !State.reset.inBad [] (143, i)) (by decide) (by decide) (by decide) (by decide) (by decide)) i hi
theorem witness_TrapAndTeamEventsAct2 : (∃ l : Launch, ({ State.reset with launches := [(511, l)] } : State).launches = [(511, l)] ∧ l.part = 0) ∧
    (∃ (s : State) (f : Nat), (s.lchAt 0).st = .running ∧ (s.lchAt 0).first = some f ∧ (s.partAt (s.lchAt 0).part).wdog.toNat ≠ 0 ∧
      f + 1000 * (s.partAt (s.lchAt 0).part).wdog.toNat ≤ s.wall) ∧
    ((gs fun g => { g with bound := true }).grpAt 0 0).bound = true ∧
    (∃ (s : State) (p : Preempt), (s.grpAt 0 0).preempt = some p ∧ p.ready = false ∧ p.since + 65536 ≤ s.now) ∧
    (((askS true).grpAt 0 0).bound = true ∧ Spec.teamReady (askS true) 0 ((askS true).grpAt 0 0).slot0 ∧ (askS true).canSave 0 ((askS true).grpAt 0 0).slot0 false = true ∧
      (askS true).outBad ((askS true).capture 0 ((askS true).grpAt 0 0).slot0 false none none) = false ∧
      (askS true).engNow 0 ((askS true).grpAt 0 0).slot0 = true ∧ ((askS true).coreAt 0).stepOpen ((askS true).grpAt 0 0).slot0 = false) ∧
    (∃ s : State, s = { State.reset with saved := [savedV], partMap := 8 } ∧ s.saved.find? (fun x => x.core == 0 && x.slot0 == 0 && x.ctx.isNone) = some savedV ∧
      savedV.page = none ∧ s.roomFor savedV = true ∧ (∀ i ∈ savedV.insts, s.saveHold 0 i.2 = true) ∧ s.itemsOn savedV.insts = [] ∧ ∀ i ∈ savedV.insts, s.inBad [savedV] i = false) ∧
    ((State.reset.coreAt 143).wprChg = none ∧ (State.reset.coreAt 143).bound = [] ∧ State.reset.saved = [] ∧ (∀ i ∈ coreInsts, State.reset.saveHold 143 i = true) ∧
      State.reset.itemsOn (coreInsts.map fun i => (143, i)) = [] ∧ State.reset.allItems.any (State.reset.itemCol 143) = false ∧ ∀ i ∈ coreInsts.map fun i => (143, i), State.reset.inBad [] i = false) := by
  refine ⟨⟨Launch.reset, rfl, rfl⟩, ⟨{ ((State.reset.modLch 0 fun l => { l with st := .running, first := some 0 }).modPart 0 fun p => { p with wdog := 1 }) with wall := 1000 },
      0, rfl, rfl, by decide, by decide⟩, by decide, ⟨{ askS false with now := 65536 }, ⟨0, false, none⟩, rfl, rfl, by decide⟩, ⟨rfl, fun j hj => ?_, by decide, ask_clean, by decide, by decide⟩,
    ⟨_, rfl, rfl, rfl, by decide, by decide, by decide, saved_clean⟩, rfl, rfl, rfl, save_free, rfl, rfl, none_bad⟩
  rw [show (askS true).teamSlots 0 ((askS true).grpAt 0 0).slot0 = [0] by decide] at hj
  obtain rfl : j = 0 := by simpa using hj
  exact ⟨⟨0, true, none⟩, rfl, rfl⟩

/-- A valid xfill of 8 bytes at the start of the column, carried by an engine. -/
def fillI : Item := { item with cmd := .xfill, d0 := 5, d1 := 0xFFF8, d2 := 8, d3 := 2, run := true }
def fillS (i : Item) : State := ks (fun k => { k with items := [i] }) (mapped [page0] [])
/-- A queued matrix instruction on tile 3 (mma of one step, descriptor with MAXR 3). -/
def mI (op : MOp) : MItem :=
  ⟨7, op, 0, 0, 0, 3, 0, 1, 4, 5, 7, false, 0, false, 0, [], 0, 256, false, [0x1901, 0x04000001, 0, 0x04000003, 0, 0, 0, 0], 0, 1, 0, 0, false, 0, none, none, false, none⟩
def engS (now : Nat) (e : Engine) (m : MItem) : State := { ks (fun k => { k with mq := [m], eng := e }) (matS true) with now := now }
def runR : Run := ⟨7, 0, 0, some 0, 0, [], false, 0, 0⟩
/-- An engine whose attempt of one rung ends at time 64. -/
def attE (rung : Nat) : Engine := { Engine.reset with
  run := some ⟨7, 0, 1, none, 0, [⟨[[0x7F7FFFFF]], [], [], [], 0⟩], true, rung, 64⟩, pos := some 0, lv := 1, tick := 64 }
/-- Whether the walk of an item ends well, with a digest that it compares where it has one, and delivers clean bytes. -/
def walks (s : State) (c : Nat) (i : Item) : Bool := match s.itemChk c i with
  | .ok _ v => (match v.srcChk c i with
    | .ok _ w => (match (if i.dig then w.digestAt c i else .ok [] w) with
      | .ok _ y => (match y.itemWalk c i i.dig with
        | .ok rows _ => rows.flatten.all fun r => r.2.isNone
        | _ => false)
      | _ => false)
    | _ => false)
  | _ => false
/-- A transfer of 8 bytes whose digest stands after them. -/
def digI : Item := { item with cmd := .xfer, d0 := 0x1000, d1 := 0x2000, d2 := 8, d3 := 0x8000, run := true }
set_option maxRecDepth 4000 in
theorem witness_ItemAndEngineEventsAct : (∃ s : State, s = fillS { fillI with run := false } ∧ (s.coreAt 0).items.find? (fun i => !i.run) = some { fillI with run := false } ∧
      ((s.coreAt 0).items.filter fun i => i.run).length < 4) ∧
    ((fillS { item with run := true }).item 0 0 = some { item with run := true } ∧ Item.badDesc { item with run := true } = true ∧
      (fillS { item with run := true }).itemLate { item with run := true } = false) ∧
    (∀ i ∈ [fillI, digI], (fillS i).item 0 0 = some i ∧ i.run = true ∧ i.cancel = none ∧ i.fail = none ∧ i.got = false ∧ (fillS i).itemLate i = false ∧
      i.badDesc = false ∧ i.walked = none ∧ i.isColl = false ∧ (fillS i).blocked 0 i = false ∧ walks (fillS i) 0 i = true) ∧ fillI.dig = false ∧ digI.dig = true ∧
    (∀ w ∈ [none, some (⟨.xfer, 4, 0⟩ : Fail)], ∃ i : Item, i = { fillI with walked := some (w, []) } ∧ (fillS i).itemLate i = false ∧ i.badDesc = false) ∧
    (∃ s : State, ∃ i : Item, s = { fillS i with wall := 2000 } ∧ s.item 0 0 = some i ∧ i.run = true ∧ i.cancel = none ∧ i.fail = none ∧ s.itemLate i = true) ∧
    (∃ s : State, ∃ i : Item, s = { fillS i with wall := 2000 } ∧ s.item 0 0 = some i ∧ i.got = false ∧ i.tmo = 1 ∧ i.cancel = none ∧ i.fail = none ∧
      i.since + 1000 * 2 ^ i.tmo ≤ s.wall) ∧
    (∃ s : State, ∃ i : Item, s = fillS i ∧ s.item 0 0 = some i ∧ i.got = false ∧ i.cancel = some (0, 9)) ∧
    (∃ s : State, ∃ i : Item, s = fillS i ∧ s.item 0 0 = some i ∧ i.got = false ∧ i.isColl = true ∧ i.badDesc = false ∧ i.cancel = none ∧
      i.fail = some ⟨.xfer, 6, i.d1⟩) := by
  refine ⟨⟨_, rfl, rfl, by decide⟩, ⟨rfl, by decide, by decide⟩, fun i hi => ?_, by decide, by decide, fun w hw => ⟨_, rfl, ?_⟩,
    ⟨_, { item with d3 := 0x10000, run := true }, rfl, rfl, rfl, rfl, rfl, by decide⟩,
    ⟨_, { item with d3 := 0x10000, run := true }, rfl, rfl, rfl, by decide, rfl, rfl, by decide⟩, ⟨_, { item with cancel := some (0, 9) }, rfl, rfl, rfl, rfl⟩,
    ⟨_, { item with cmd := .xred, d2 := 8, d3 := 0x110, fail := some ⟨.xfer, 6, 0⟩ }, rfl, rfl, rfl, by decide, by decide, rfl, rfl⟩⟩
  · simp only [List.mem_cons, List.not_mem_nil, or_false] at hi
    obtain rfl | rfl := hi <;> exact ⟨rfl, rfl, rfl, rfl, rfl, by decide, by decide, rfl, by decide, by decide, by decide⟩
  · simp only [List.mem_cons, List.not_mem_nil, or_false] at hw
    obtain rfl | rfl := hw <;> decide
theorem witness_ItemAndEngineEventsAct2 : (∀ p ∈ [(MOp.mzero, 4), (.madd, 8), (.mcvt, 8), (.mscl, 8), (.mtrans, 16), (.mglow, 1)],
      ((engS 16 Engine.reset (mI p.1)).coreAt 0).nextOp_ = some (mI p.1, p.2) ∧ p.2 ≤ 16 ∧ ((engS 16 Engine.reset (mI p.1)).coreAt 0).upTo p.2 = true) ∧
    (∀ op ∈ [MOp.mld, .mst], ((engS 0 Engine.reset (mI op)).coreAt 0).nextMove = some (mI op) ∧ ((engS 0 Engine.reset (mI op)).coreAt 0).upTo 0 = true ∧
      ((engS 0 Engine.reset (mI op)).coreAt 0).nextOp_ = none) ∧
    (∀ e ∈ [Engine.reset, { Engine.reset with pos := some 0, tick := 4 }], ((engS 4 e (mI .mma)).coreAt 0).nextMma = some (mI .mma) ∧
      ((engS 4 e (mI .mma)).coreAt 0).reachAt = some 4 ∧ ((engS 4 e (mI .mma)).coreAt 0).upTo 4 = true) ∧
    (∃ s : State, s = engS 0 { Engine.reset with run := some runR } (mI .mma) ∧ (s.coreAt 0).eng.run = some runR ∧
      (s.coreAt 0).mItem 7 = some (mI .mma) ∧ runR.fetchEnd = some 0 ∧ (s.coreAt 0).upTo 0 = true ∧ (s.coreAt 0).endAt = none ∧
      (∀ l ∈ s.stepLocs 0 (mI .mma) 0, s.spadMoves l = false) ∧
      (match s.fetchStep 0 (mI .mma) 0 0 with | .ok (_, b, n) => b == 4352 && n == 8 | .error _ => false) = true ∧
      (match s.fetchStep 0 { mI .mma with addr := 0x80000 } 0 0 with | .ok _ => false | .error _ => true) = true) ∧
    (∀ r ∈ [2, 3], ∀ n ∈ [1, 2], ∃ s : State, ∃ m, m = { mI .mma with steps := n } ∧ s = engS 64 (attE r) m ∧ (s.coreAt 0).mItem 7 = some m ∧
      (s.coreAt 0).endAt = some 64 ∧ (s.coreAt 0).upTo 64 = true ∧
      overBudget m.desc (attempt m.desc (((attE r).run.bind (·.ops.head?)).getD ⟨[], [], [], [], 0⟩) m.mask r).ev = decide (r = 2) ∧ r ≤ maxrOf m.desc) := by
  refine ⟨by decide, by decide, by decide, ⟨_, rfl, rfl, rfl, rfl, by decide, by decide, by decide, by decide, by decide⟩, fun r hr n hn => ?_⟩
  simp only [List.mem_cons, List.not_mem_nil, or_false] at hr hn
  obtain rfl | rfl := hr <;> obtain rfl | rfl := hn <;> exact ⟨_, _, rfl, rfl, rfl, by decide, by decide, by decide, by decide⟩
/-- A team that is ready to be saved, or whose page fault waits, while its core computes a step of its `mma`; and the end of that step's attempt. -/
def openS (p : Option Preempt) (r : Option TrapRec) (stop : List Nat) : State :=
  (ks (fun k => { k with mq := [{ mI .mma with steps := 2 }], eng := { attE 3 with stop := stop } }) trapS).modG fun g => { g with preempt := p, pend := r }
theorem open_clean : (openS (some ⟨0, true, none⟩) none []).outBad ((openS (some ⟨0, true, none⟩) none []).capture 0 0 false none none) = false ∧
    (openS none (some swapR) []).outBad ((openS none (some swapR) []).capture 0 0 true none none) = false := by decide
theorem witness_TrapAndTeamEventsAct3 : (∃ s : State, s = openS (some ⟨0, true, none⟩) none [] ∧ (s.grpAt 0 0).bound = true ∧ (s.grpAt 0 0).slot0 = 0 ∧ Spec.teamReady s 0 0 ∧ s.canSave 0 0 false = true ∧
      s.outBad (s.capture 0 0 false none none) = false ∧ s.engNow 0 0 = true ∧ (s.coreAt 0).stepOpen 0 = true) ∧
    (∃ s : State, s = openS none (some swapR) [] ∧ (s.grpAt 0 0).bound = true ∧ (s.grpAt 0 0).pend = some swapR ∧ swapR.swap = true ∧ (∀ j ∈ s.teamSlots 0 0, (s.grpAt 0 j).lantern = none) ∧
      s.canSave 0 0 true = true ∧ s.outBad (s.capture 0 0 true none none) = false ∧ s.engNow 0 0 = true ∧ (s.coreAt 0).stepOpen 0 = true) ∧
    ∀ p ∈ [([0], true), ([1], false)], ∃ s : State, ∃ m, m = { mI .mma with steps := 2 } ∧ s = { openS none none p.1 with now := 64 } ∧ (s.coreAt 0).mItem 7 = some m ∧
      (s.coreAt 0).endAt = some 64 ∧ (s.coreAt 0).upTo 64 = true ∧ (s.coreAt 0).stopping m = p.2 ∧ ((s.coreAt 0).eng.run.map (·.step + 1)) = some 1 := by
  refine ⟨⟨_, rfl, by decide, by decide, fun j hj => ?_, by decide, open_clean.1, by decide, by decide⟩,
    ⟨_, rfl, by decide, by decide, rfl, by decide, by decide, open_clean.2, by decide, by decide⟩, fun p hp => ?_⟩
  · rw [show (openS (some ⟨0, true, none⟩) none []).teamSlots 0 0 = [0] by decide] at hj
    obtain rfl : j = 0 := by simpa using hj
    exact ⟨⟨0, true, none⟩, by decide, rfl⟩
  · simp only [List.mem_cons, List.not_mem_nil, or_false] at hp
    obtain rfl | rfl := hp <;> exact ⟨_, _, rfl, rfl, by decide, by decide, by decide, by decide, by decide⟩
/-- Two cores at their common tick, the lower asking only after it, the higher by then: the higher is granted. -/
theorem witness_ItemAndEngineEventsAct4 : ∃ s : State, ∃ es, s = { (State.reset.modCore 0 fun k => { k with eng := { Engine.reset with run := some { runR with fetchEnd := none }, req := some 61, tick := 60 } }).modCore 1
      (fun k => { k with eng := { Engine.reset with run := some { runR with fetchEnd := none }, req := some 60, tick := 60 } }) with now := 60 } ∧
    es = (dieCores 0).filter (fun c => (s.coreAt c).eng.active) ∧ 1 ∈ es ∧ (s.coreAt 1).eng.tick = 60 ∧ (∀ c ∈ es, 60 ≤ (s.coreAt c).eng.tick) ∧ (∀ c ∈ dieCores 0, (s.coreAt c).tickReady 60 = true) ∧
    (s.coreAt 1).eng.run ≠ none ∧ (s.coreAt 1).eng.pos = none ∧ (∃ q ≤ 60, (s.coreAt 1).eng.req = some q) ∧ ∀ d ∈ es, d < 1 → ∀ q, (s.coreAt d).eng.req = some q → 60 < q := by
  refine ⟨_, _, rfl, rfl, by decide, by decide, by decide, by decide, by decide, by decide, ⟨60, by decide, by decide⟩, fun d _ h q hq => ?_⟩
  obtain rfl : d = 0 := by omega
  obtain rfl : 61 = q := Option.some.inj hq
  decide
theorem witness_ItemAndEngineEventsAct3 :
    (∀ f ∈ [none, some (⟨.matfmt, 0x10, 0⟩ : Fail)], ∃ m, m = { mI .mma with doneAt := some 0, fail := f } ∧
      ((engS 7 Engine.reset m).coreAt 0).mItem 7 = some m ∧ ((engS 7 Engine.reset m).coreAt 0).upTo (if m.fail = none then 7 else 0) = true) ∧
    (∃ s : State, ∃ m, m = { mI .mst with run := true, spad := true } ∧ s = engS 0 Engine.reset m ∧ (s.coreAt 0).mItem 7 = some m ∧ s.mvBlocked 0 m = false ∧
      s.mvMoves 0 m = false ∧ (s.coreAt 0).upTo 0 = true ∧ (match s.mvRows 0 m (bitsOf 32 m.mask.toNat) with | .ok _ => true | _ => false) = true) ∧
    (∃ s : State, ∃ es, s = engS 64 { attE 3 with run := none, tick := 60 } (mI .mld) ∧ es = (dieCores 0).filter (fun c => (s.coreAt c).eng.active) ∧
      (∃ c ∈ es, (s.coreAt c).eng.tick = 60) ∧ (∀ c ∈ es, 60 ≤ (s.coreAt c).eng.tick) ∧ 60 ≤ s.now ∧ (∀ c ∈ dieCores 0, (s.coreAt c).tickReady 60 = true)) ∧
    (∃ s : State, s = engS 64 { attE 3 with holdTo := some 64 } (mI .mld) ∧ (s.coreAt 0).eng.holdTo = some 64 ∧ 64 ≤ s.now ∧ 64 ≤ (s.coreAt 0).eng.tick) ∧
    (let w := BitVec.ofNat 64 0xFEDCBA9876543210; bits w 60 4 = 15 ∧ ∀ i < 15, bits w (4 * i) 4 ≤ bits w (4 * i + 4) 4) ∧
    ¬ (let w := BitVec.ofNat 64 0; bits w 60 4 = 15 ∧ ∀ i < 15, bits w (4 * i) 4 ≤ bits w (4 * i + 4) 4) := by
  refine ⟨fun f hf => ⟨_, rfl, rfl, ?_⟩, ⟨_, _, rfl, rfl, rfl, by decide, by decide, by decide, by decide⟩, ⟨_, _, rfl, rfl, by decide, by decide, by decide, by decide⟩,
    ⟨_, rfl, rfl, by decide, by decide⟩, by decide, by decide⟩
  simp only [List.mem_cons, List.not_mem_nil, or_false] at hf
  obtain rfl | rfl := hf <;> decide

/-- A packet in slot 0 of queue 0, a valid one or one whose check code is wrong. -/
def pktS (priv good : Bool) (ws : List Word) : State :=
  let bs := if good then mkPacket ws 1 else (mkPacket ws 1).set 56 0x55
  { State.reset with feTlb := [page0], mem := ((bs.zipIdx.map fun p => (p.2, p.1)).filter fun p => p.2 != 0)
                     queues := [(0, { Queue.reset with log2n := 6, en := true, state := 1, priv := priv, wr := 1 })] }
def waitS (ty : Word) : State := State.reset.modQ 0 fun x => { x with pkts := [⟨[ty], 0, false, false⟩] }
def linkWs : List Word := [5, 0, 4096, 6, 0, 0, 0]
set_option maxRecDepth 20000 in
theorem witness_QueueAndLaunchEventsAct : (∀ ty ∈ [(1 : Word), 2, 6], (∀ p < 8, ((waitS ty).partAt p).held = false) ∧
      ∃ u p, u = (if ((waitS ty).qAt 0).waiting.isSome then waitS ty else ((waitS ty).fetch 0 fun ws => ptype ws == ty.toNat).s) ∧ (u.qAt 0).waiting = some p ∧
        ptype p.dw = ty.toNat ∧ ∃ l < 512, (u.lchAt l).st = .free) ∧
    (∀ ws ∈ [[3, 0, 0, 1, 0, 0, 0], [4, 0, 0, 0, 0, 0, 0], linkWs, [5, 0, 1, 6, 0, 0, 0]], let s := pktS false true ws
      (s.qAt 0).en = true ∧ (s.qAt 0).evq = false ∧ (s.qAt 0).torn = 0 ∧ (s.qAt 0).holds = false ∧ (∀ p ∈ (s.qAt 0).pkts, p.started = true) ∧
      (s.peek 0).map (fun w => (ptype w, (s.qAt 0).startable w, pktOk w false)) = some (ptype ws, true, decide (lget 0 ws 2 ≠ 1))) ∧
    (∃ (s : State) (x : Queue), s = (pktS false false linkWs).modQ 0 (fun x => { x with retry := some 0 }) ∧ x = s.qAt 0 ∧ x.state = 1 ∧ x.en = true ∧ x.evq = false ∧
      x.retry = some 0 ∧ x.wr ≠ x.rd ∧ x.torn + 1 ≠ 3 ∧
      (match s.feRead x.part (x.slotAt x.rd.toNat) 64 with
        | .ok (bs, _) => (lget 0 bs 60).toNat == x.pass && BitVec.ofNat 32 (leNat ((bs.drop 56).take 4)) != pktCrc bs x.pass
        | .error _ => false) = true) ∧
    (∃ (s : State) (x : Queue), s = (pktS false false linkWs).modQ 0 (fun x => { x with torn := 2, retry := some 0 }) ∧ x = s.qAt 0 ∧ x.torn + 1 = 3 ∧
      (match s.feRead x.part (x.slotAt x.rd.toNat) 64 with
        | .ok (bs, _) => (lget 0 bs 60).toNat == x.pass && BitVec.ofNat 32 (leNat ((bs.drop 56).take 4)) != pktCrc bs x.pass
        | .error _ => false) = true) ∧
    ((pktS false true linkWs).barMine 9 0 = false ∧ (pktS false true linkWs).barMine 1 0 = true ∧ (pktS false true linkWs).barMine 2 0 = false) ∧
    ((pktS false true linkWs).qAt 0).torn = 0 ∧ ((pktS false true linkWs).qAt 0).retry = none ∧ ((pktS false true linkWs).qAt 0).state = 1 ∧
    ((pktS false true linkWs).qAt 0).evq = false ∧ ((pktS false true linkWs).qAt 0).dev = false ∧
    (BitVec.ofNat 32 64 - ((pktS false true linkWs).qAt 0).rd).toNat ≤ 2 ^ ((pktS false true linkWs).qAt 0).log2n ∧
    2 ^ ((pktS false true linkWs).qAt 0).log2n < (BitVec.ofNat 32 65 - ((pktS false true linkWs).qAt 0).rd).toNat ∧
    (∃ x : Queue, x = (({ State.reset with queues := [(1023, { Queue.reset with evq := true, wr := 4 })] } : State).qAt 1023) ∧ x.evq = true ∧
      (BitVec.ofNat 32 4 - x.rd).toNat ≤ (x.wr - x.rd).toNat) := by
  refine ⟨fun ty hty => ?_, by decide, ⟨_, _, rfl, rfl, rfl, rfl, rfl, rfl, by decide, by decide, by decide⟩, ⟨_, _, rfl, rfl, rfl, by decide⟩, by decide, rfl, rfl, rfl, rfl, rfl, by decide, by decide, ⟨_, rfl, rfl, by decide⟩⟩
  simp only [List.mem_cons, List.not_mem_nil, or_false] at hty
  obtain rfl | rfl | rfl := hty <;> exact ⟨by decide, _, _, rfl, rfl, rfl, 0, by decide, rfl⟩

/-- Launch 0 whose one team has been recorded on core 0. -/
def unitS : State :=
  let s := State.reset.modLch 0 fun l => { l with st := .ready, nteam := 1, ngrp := 1, ncoh := 1 }
  s.modCore 0 fun k => { k with binds := [⟨0, 0, 1, 0, 0, 0, true, 0, 0, false, 0, false⟩] }
theorem witness_QueueAndLaunchEventsAct2 : ((bits 0x100 0 5 < 6 ∧ (0x100 : Word).getLsbD 8 = true) ∧ (6 ≤ bits 0x106 0 5 ∧ (0x106 : Word).getLsbD 8 = true) ∧
      (bits 0x110 0 5 ≤ 16 ∧ (0x110 : Word).getLsbD 8 = true) ∧ (0 : Word).getLsbD 8 = false) ∧
    (∃ x : Queue, x.link = true ∧ BitVec.ofNat 52 (4102 % 2 ^ 64 / 4096) ≠ 0 ∧ 6 ≤ 4102 % 32 ∧ 4102 % 32 ≤ 16 ∧ x.wseg = none ∧ BitVec.ofNat 52 (6 % 2 ^ 64 / 4096) = 0) ∧
    Queue.reset.link = false ∧ ((State.reset.modLch 511 fun l => { l with st := .resolving }).lchAt 511).st = .resolving ∧
    (∃ l, l = unitS.lchAt 0 ∧ l.st ∈ [LState.ready, .bound, .running] ∧ l.frozen = false ∧ unitS.unitFull 0 0 = true ∧ l.nbf ≤ unitS.wall ∧ (unitS.partAt l.part).held = false ∧ (∀ r ∈ unitS.unitBinds 0 0, (unitS.coreAt r.1).bound = [] → (unitS.coreAt r.1).wprChg = none) ∧
      ∃ c b, unitS.unitBinds 0 0 = [(c, b)]) ∧
    (∃ (s : State) (l : Launch), s = State.reset.modLch 0 (fun l => { l with st := .running, complete := true }) ∧ l = s.lchAt 0 ∧ l.st ≠ .ended ∧ l.complete = true ∧
      l.direct = false ∧ s.commitTurn l = true) ∧
    (∀ st ∈ [VState.committed, .aborted], ∃ (s : State) (v : Version), s = State.reset.modVer 0 255 (fun v => { v with st := st, lines := [(5, ⟨1, 7, 0, [], 5⟩)] }) ∧
      v = s.verAt 0 255 ∧ v.st = st ∧ (∃ x, (5, x) ∈ v.lines) ∧ tdel v.lines 5 = [] ∧ tdel v.lines 6 ≠ []) ∧
    (∀ u ∈ [0, 1], ∃ (s : State) (l : Launch), s = (State.reset.modLch 0 fun l => { l with st := .running, quotaWait := true }).modPart 0 (fun p => { p with poolUnits := u }) ∧
      l = s.lchAt 0 ∧ l.quotaWait = true ∧ l.frozen = false ∧ l.direct = false ∧ l.st ∉ [LState.ended, .free] ∧ ((s.partAt l.part).poolUsed < (s.partAt l.part).poolUnits ↔ u = 1)) := by
  refine ⟨by decide, ⟨{ Queue.reset with link := true }, rfl, by decide, by decide, by decide, rfl, by decide⟩, rfl, rfl,
    ⟨_, rfl, by decide, rfl, by decide, by decide, rfl, by decide, _, _, rfl⟩, ⟨_, _, rfl, rfl, by decide, rfl, rfl, by decide⟩, fun st h => ?_, fun u h => ?_⟩
  · simp only [List.mem_cons, List.not_mem_nil, or_false] at h
    obtain rfl | rfl := h <;> exact ⟨_, _, rfl, rfl, rfl, ⟨_, List.mem_singleton.mpr rfl⟩, by decide, by decide⟩
  · simp only [List.mem_cons, List.not_mem_nil, or_false] at h
    obtain rfl | rfl := h <;> exact ⟨_, _, rfl, rfl, rfl, rfl, rfl, by decide, by decide⟩
theorem witness_QueueAndLaunchEventsAct3 : ∃ s : State, s = State.reset.modLch 511 (fun l => { l with frozen := true }) ∧ (s.lchAt 511).frozen = true := ⟨_, rfl, rfl⟩

/-- A state with core 0's vertical bus, or partition 0, changed. -/
def busS (f : Vbus → Vbus) : State := State.reset.modCore 0 fun k => { k with vbus := f k.vbus }
def partS (f : Part → Part) : State := State.reset.modPart 0 f
/-- A snuffer with cores and frames still to do. -/
def snufJ (cs fs : List Nat) : Snuf := ⟨none, cs, fs, cs, fs, 0, 0, 0, 0, 3, 1⟩
theorem witness_SystemEventsAct : (∃ (s : State) (new : BitVec 96), s = State.reset ∧ new = mapPut s.partMap false (BitVec.ofNat 64 8) ∧
      (∀ k ∈ mapSpan false, s.mapBad new k = false) ∧ (∀ k ∈ mapSpan false, joins s.partMap new k = true → (s.clAt k).wiping = false) ∧ joins s.partMap new 0 = true) ∧
    (∃ (s : State) (new : BitVec 96), s = { State.reset with quarCores := 1 } ∧ new = mapPut s.partMap false (BitVec.ofNat 64 8) ∧ ∃ k ∈ mapSpan false, s.mapBad new k = true) ∧
    (({ State.reset with clusters := [(23, { Cluster.reset with wiping := true })] } : State).clAt 23).wiping = true ∧
    (∃ s : State, s = { State.reset with clusters := [(23, { Cluster.reset with training := true })] } ∧ (s.clAt 23).training = true ∧ (s.clAt 23).wiping = false) ∧
    ((State.reset.keyAt 63).valid = false ∧ (State.reset.keyAt 63).quar = false ∧
      (({ State.reset with keySel := 63, keyBlob := 0 } : State).physRead (64 * 0) 72).isSome = true ∧
      ((1 : Nat) ≠ superPart ∧ ¬ (State.reset.frameIn 1 0 = true ∧ State.reset.frameIn 1 (71 / 65536) = true)) ∧
      (({ State.reset with partMap := 9 } : State).frameIn 1 0 = true)) ∧
    ((({ State.reset with keys := [(63, ⟨true, false, false, []⟩)] } : State).keyAt 63).valid = true ∧
      (({ State.reset with keys := [(63, ⟨false, true, false, []⟩)] } : State).keyAt 63).quar = true) ∧
    (∀ p ∈ [(([143] : List Nat), ([] : List Nat)), ([0, 143], []), ([0], [7])], ∃ (s : State) (j : Snuf), s = partS (fun x => { x with snuf := some (snufJ p.1 p.2) }) ∧
      (s.partAt 0).snuf = some j ∧ ∃ c cs, j.coresLeft = c :: cs ∧ s.snufFailed j = false) ∧
    (∃ (s : State) (j : Snuf), s = partS (fun x => { x with snuf := some (snufJ [] [7]) }) ∧ (s.partAt 0).snuf = some j ∧ j.coresLeft = [] ∧ j.framesLeft = [7] ∧
      s.snufFailed j = false) ∧
    (∃ (s : State) (j : Snuf), s = partS (fun x => { x with snuf := some (snufJ [] []), snufState := 2 }) ∧ (s.partAt 0).snuf = some j ∧ j.coresLeft = [] ∧
      j.framesLeft = [] ∧ (s.partAt 0).snufState = 2) ∧
    ((superS []).modG fun g => { g with bound := true }).superAt 0 0 = true ∧ 0xFFFE % 65536 ≠ 0xFFFF := by
  refine ⟨⟨_, _, rfl, rfl, by decide, by decide, by decide⟩, ⟨_, _, rfl, rfl, 0, by decide, by decide⟩, rfl, ⟨_, rfl, rfl, rfl⟩, ⟨rfl, rfl, by decide, by decide, by decide⟩, ⟨rfl, rfl⟩, fun p hp => ?_,
    ⟨_, _, rfl, rfl, rfl, rfl, by decide⟩, ⟨_, _, rfl, rfl, rfl, rfl, rfl⟩, by decide, by decide⟩
  simp only [List.mem_cons, List.not_mem_nil, or_false] at hp
  obtain rfl | rfl | rfl := hp <;> exact ⟨_, _, rfl, rfl, _, _, rfl, by decide⟩
theorem witness_SystemEventsAct2 : (∀ bus < 2, busLanes bus - 1 < busLanes bus ∧ (bus, busLanes bus - 1) ∉ ((State.reset.coreAt 143).vbus).spared ∧
      ((State.reset.coreAt 143).vbus).spares bus < 2 ∧ 2 ≤ (((busS fun v => { v with ssp := 2, dsp := 2 }).coreAt 0).vbus).spares bus) ∧
    (∃ c o, locOf (128 * 2 ^ 33) = some (.col c o)) ∧ (∀ x ∈ [(1, Store.acc true, 0x80000), (2, .pad false, 0x80000), (3, .wbuf true, 0x100000), (4, .col false, 0x800000)],
      32 * (x.2.2 / 32 - 1) < x.2.2) ∧
    (∃ s : State, s = { State.reset with now := 2250000 } ∧ (s.coreAt 143).bound = [] ∧ (s.coreAt 143).idleSince + 2250000 ≤ s.now) ∧
    (∃ s : State, s = gs (fun g => { g with bound := true, halted := true }) ∧ (s.coreAt 0).bound ≠ [] ∧ ∀ e ∈ (s.coreAt 0).bound, e.2.halted = true ∨ e.2.stopped = true) ∧
    (∀ p ∈ [(true, false), (false, true), (true, true)], let v := ((busS fun v => { v with gateS := true, gateD := true, wakeS := p.1, wakeD := p.2 }).coreAt 0).vbus
      v.wakeS = true ∨ v.wakeD = true) ∧
    ((partS fun p => { p with pwrCap := 1 }).partAt 0).pwrCap ≠ 0 ∧ ((partS fun p => { p with pwrCap := 1 }).partAt 0).capAt ≤ (partS fun p => { p with pwrCap := 1 }).now ∧ (∃ (s : State) (x : Nat), s = { State.reset with lowSince := some 0, now := 22500000 } ∧
      s.lowSince = some x ∧ x + 22500000 ≤ s.now) ∧
    (tget Link.reset ({ State.reset with brus := [(17, { Link.reset with up := true })] } : State).brus 17).up = true ∧
    (6300 < ({ State.reset with vin := 6301 } : State).vin.toNat ∧ State.reset.vin.toNat ≤ 6300) ∧ State.reset.fwUpd = false ∧ (∀ p < 8, (State.reset.partAt p).held = false) ∧
    (List.range 9).find? (fun r => !({ State.reset with fwUpd := true } : State).fwDone.contains r) = some 0 ∧
    (∀ r < 9, r ∈ ({ State.reset with fwUpd := true, fwDone := List.range 9 } : State).fwDone) ∧ (∀ v ∈ State.reset.versions, v.2.st ≠ .committed) := by
  refine ⟨by decide, ⟨0x100 / 256, 0, by decide⟩, by decide, ⟨_, rfl, rfl, by decide⟩, ⟨_, rfl, by decide, by decide⟩, by decide, by decide, by decide, ⟨_, _, rfl, rfl, by decide⟩, rfl, by decide, rfl, by decide, by decide, by decide, by simp [State.reset]⟩
/-- R23, R341: a scheduler reaches the column DRAM of its own partition's clusters alone, and not while they are being wiped; the supervisor core all of memory. -/
theorem test_lamp_reach : let s : State := { State.reset with partMap := 8 }
    s.lampMay 1 0 = true ∧ s.lampMay 2 0 = false ∧ s.lampMay 1 (0xE0 * 2 ^ 40) = false ∧ s.lampMay 0 (0xE0 * 2 ^ 40) = true ∧
    ({ s with clusters := [(0, { Cluster.reset with wiping := true })] } : State).lampMay 1 0 = false := by decide
/-- R343: a byte written above N of dword 1 restarts nothing, one that holds N restarts the queue. -/
theorem test_queue_byte_write : let s := State.reset.modQ 0 fun x => { x with en := true, state := 1, log2n := 6, rd := 7, wr := 9 }
    ((s.devWrite 0 (0x01000000 + 10) [3]).map fun t => ((t.qAt 0).rd, (t.qAt 0).state)) = some (7, 1) ∧
    ((s.devWrite 0 (0x01000000 + 9) [1]).map fun t => ((t.qAt 0).rd, (t.qAt 0).state)) = some (0, 1) := by decide
/-- Reads and writes at the first byte of the device window, and at the base of queue 0's context, by the supervisor core. -/
theorem witness_SystemEventsAct3 : (State.reset.devRead 0 (2 ^ 63) 8).isSome = true ∧ (State.reset.devRead 0 0x01000000 8).isSome = true ∧
    (State.reset.devWrite 0 (2 ^ 63) [1]).isSome = true ∧ (State.reset.devWrite 9 (2 ^ 63) [1]).isSome = false ∧
    ((State.reset.devRead 0 0x01000000 8).bind fun r => r.2.devWrite 0 0x01000000 (leBytes 8 (ofBytes64 r.1 + 1).toNat)).isSome = true ∧
    (State.reset.physWrite 0 [1, 2] true).isSome = true := by decide

def Fetch.decodes (c : Cls) (good : Bool) : Fetch → Bool
  | .word bs _ => (decode c bs).toOption.isSome == good
  | .bad _ _ => false
theorem Fetch.of_decodes {c : Cls} {good : Bool} {r : Fetch} (h : Fetch.decodes c good r = true) :
    ∃ bs u, r = .word bs u ∧ (decode c bs).toOption.isSome = good := by
  cases r with
  | word bs u => exact ⟨bs, u, rfl, by simpa [Fetch.decodes] using h⟩
  | bad c s => simp [Fetch.decodes] at h
/-- `add`, then a word that is no instruction, where the scalar stream fetches next. -/
def fetchS (w : Nat) : State := { (State.reset.withFetchWord 32 0x1A000000) with mem := [(3, BitVec.ofNat 8 w)] }
/-- The same for the lane stream: `iadd`, and a word of no lane instruction. -/
def fetchL (w : Nat) : State := { (State.reset.withFetchWord 96 0x809838000000000000000000) with mem := [(11, BitVec.ofNat 8 w)] }
def fetchX (w : Nat) : State := State.reset.withFetchWord 32 w
/-- A fetch whose bytes decode, or do not, and that met no line owned by an engine. -/
def Fetch.goes (c : Cls) (good : Bool) (r : Fetch) : Bool := Fetch.decodes c good r && match r with
  | .word _ s => !s.waits
  | .bad _ _ => false
theorem Fetch.of_goes {c : Cls} {good : Bool} {r : Fetch} (h : Fetch.goes c good r = true) :
    ∃ bs u, r = .word bs u ∧ (decode c bs).toOption.isSome = good ∧ u.waits = false := by
  simp only [Fetch.goes, Bool.and_eq_true] at h
  obtain ⟨bs, u, rfl, hg⟩ := Fetch.of_decodes h.1
  exact ⟨bs, u, rfl, hg, by simpa using h.2⟩
set_option maxRecDepth 4000 in
theorem fetchS_decodes : ∀ p ∈ [(0x1C, true), (0x7F, false)], let s := fetchS p.1
    let v := s.sTake s.core (s.slot % 4) 0
    Fetch.goes .scalar p.2 (v.fetchBytes v.core v.prt v.grp.pc 4) = true ∧ s.turn = .scalar ∧ s.isOn = true ∧ s.sPick s.core (s.slot % 4) = some 0 := by decide
set_option maxRecDepth 4000 in
theorem fetchL_decodes : ∀ p ∈ [(0x80, true), (0x7F, false)], let s := fetchL p.1
    let v := s.lTake s.core (s.slot / 2) 0
    Fetch.goes .lane p.2 (v.fetchBytes v.core v.prt 0 12) = true ∧ s.turn = .lane ∧ s.isOn = true ∧ s.lPick s.core (s.slot / 2) = some 0 ∧
      v.grp.active = some (0, List.range 32) := by decide
theorem witness_StepRunsDecoded : (∀ p ∈ [(0x1C, true), (0x7F, false)], ∃ (s u : State) (bs : List Byte), s = fetchS p.1 ∧ s.turn = .scalar ∧ s.isOn = true ∧
      s.sPick s.core (s.slot % 4) = some 0 ∧ (let v := s.sTake s.core (s.slot % 4) 0; v.fetchBytes v.core v.prt v.grp.pc 4 = .word bs u) ∧ u.waits = false ∧
      (decode .scalar bs).toOption.isSome = p.2) ∧
    (∀ p ∈ [(0x80, true), (0x7F, false)], ∃ (s u : State) (bs : List Byte) (l : Word) (f : List Nat), s = fetchL p.1 ∧ s.turn = .lane ∧ s.isOn = true ∧
      s.lPick s.core (s.slot / 2) = some 0 ∧ (let v := s.lTake s.core (s.slot / 2) 0; v.grp.active = some (l, f) ∧ v.fetchBytes v.core v.prt l 12 = .word bs u) ∧
      u.waits = false ∧ (decode .lane bs).toOption.isSome = p.2) ∧
    (∀ p ∈ [(0x00C5850B, true), (0x00100093, false)], ∃ (s : State) (lo bs : List Byte),
      s = (fetchX 0x00C5850B).modHart 0 (fun x => { x with sram := twrite x.sram 0 (leBytes 4 p.1) }) ∧ s.turn = .lx ∧ s.isOn = true ∧ s.hart < 10 ∧
      (s.hartAt s.hart).irq = false ∧ s.rvBytes s.hart (s.hartAt s.hart).pc.toNat 2 = some (lo, s) ∧ leNat lo % 4 = 3 ∧
      s.rvBytes s.hart (s.hartAt s.hart).pc.toNat 4 = some (bs, s) ∧ (decode .lx bs).toOption.isSome = p.2 ∧ (p.2 = false → leNat bs % 128 ≠ 0x0B)) ∧
    (Instr.cls .coldReset = .event ∧ State.reset.isOn = true) := by
  refine ⟨fun p hp => ?_, fun p hp => ?_, fun p hp => ?_, rfl, rfl⟩
  · obtain ⟨h, h3, h4, h5⟩ := fetchS_decodes p hp
    obtain ⟨bs, u, h1, h2, hw⟩ := Fetch.of_goes h
    exact ⟨_, u, bs, rfl, h3, h4, h5, h1, hw, h2⟩
  · obtain ⟨h, h3, h4, h5, h6⟩ := fetchL_decodes p hp
    obtain ⟨bs, u, h1, h2, hw⟩ := Fetch.of_goes h
    exact ⟨_, u, bs, 0, _, rfl, h3, h4, h5, ⟨h6, h1⟩, hw, h2⟩
  · simp only [List.mem_cons, List.not_mem_nil, or_false] at hp
    obtain rfl | rfl := hp <;> exact ⟨_, _, _, rfl, rfl, rfl, by decide, rfl, rfl, by decide, rfl, by decide, by decide⟩

/-- Words of custom-0 that are no Lx instruction: FUNCT3 5, and FUNCT7 1 where it is not that of lx.bfx with a sign. -/
theorem witness_LxWordsDecode : ∀ p ∈ [((0 : Nat), (5 : Nat)), (127, 7), (1, 0), (2, 1), (1, 4)], p.1 < 128 ∧ p.2 < 8 ∧ (5 ≤ p.2 ∨ p.1 ≠ 0 ∧ ¬ (p.1 = 1 ∧ p.2 = 1)) ∧
    ∃ s : State, s = fetchX 0x00C5850B ∧ s.turn = .lx ∧ s.isOn = true ∧ s.hart < 10 ∧ (s.hartAt s.hart).irq = false ∧
      ∃ t : State, t = s.modHart 0 (fun x => { x with sram := twrite x.sram 0 (leBytes 4 (p.1 * 2 ^ 25 + p.2 * 2 ^ 12 + 0x0B)) }) ∧
        t.waits = false ∧ (let w := leBytes 4 (p.1 * 2 ^ 25 + 0 * 2 ^ 20 + 0 * 2 ^ 15 + p.2 * 2 ^ 12 + 0 * 2 ^ 7 + 0x0B)
          (t.rvBytes t.hart (t.hartAt t.hart).pc.toNat 2).map (·.1) = some (w.take 2) ∧ (t.rvBytes t.hart (t.hartAt t.hart).pc.toNat 4).map (·.1) = some w) := by
  intro p hp
  simp only [List.mem_cons, List.not_mem_nil, or_false] at hp
  obtain rfl | rfl | rfl | rfl | rfl := hp <;>
    exact ⟨by decide, by decide, by decide, _, rfl, rfl, rfl, by decide, rfl, _, rfl, rfl, by decide, by decide⟩

theorem witness_DecodeEncodeRoundTrip : ∀ i ∈ [Instr.addi false 31 31 0xFFF, .b false 0xFFFFFF, .iadd ⟨true, true, 15⟩ 63 (.v 63) (.c 255) 0, .lxBfx true 31 31 31],
    i.cls ≠ .event ∧ wellFormed i = true := by decide
theorem witness_StepKeepsInv : ∃ s t : State, s = { State.reset with turn := .event (.telemetryRefresh 5000 100 40) } ∧ s.Inv ∧ step s = .next t :=
  ⟨_, _, rfl, ⟨by decide, trivial, by simp [State.reset]⟩, rfl⟩

end Sys2Proof.Tests
end

section
/-!
O2 (R60, R42): four words do not place every constant in every register. A fixed-latency write does not end the claim of an older result on its
register, so while a result for rd has not returned, rd reads an unspecified value before and after each of the four words.
-/
open Sys2Proof Sys2Proof.Machine

namespace Sys2Proof.Machine

/-- Outside lantern mode the results outstanding alone say whether a register waits for one. -/
theorem Group.outS_congr {g k : Group} (hg : g.lantern = none) (hk : k.lantern = none) (ho : k.outs = g.outs) (n : Nat) : k.outS n = g.outS n := by
  simp only [Group.outS, Group.bears, Group.inLan_none hg, Group.inLan_none hk, ho, Bool.and_false, Bool.false_and]

/-- The stream runs as usual, and register `r` waits for a result that an S point has not collected (R41, R42). -/
structure State.Unreturned (s : State) (r : SReg) : Prop where
  plain : s.plain false
  late : s.grp.outS r.toNat = true

/-- A read of such a register raises no POISON (R42). -/
theorem State.Unreturned.sPoi {s : State} {r : SReg} (h : s.Unreturned r) : s.sPoi [r] = false := by
  simp [State.sPoi, State.sBadR, h.late]

/-- A read of such a register gives the unspecified value, whatever the register holds (R42). -/
theorem State.Unreturned.rS {s : State} {r : SReg} (h : s.Unreturned r) (hr : r ≠ 0) : s.rS r = Config.freeWord s.fresh r.toNat := by
  rw [State.rS, bne_iff_ne.mpr hr, h.late, Bool.and_self, if_pos rfl]

theorem State.OnlyGroup.coreId {s t : State} (h : s.OnlyGroup t) : t.core = s.core := by rw [← h.device]
theorem State.OnlyGroup.slotId {s t : State} (h : s.OnlyGroup t) : t.slot = s.slot := by rw [← h.device]
theorem State.OnlyGroup.partsEq {s t : State} (h : s.OnlyGroup t) : t.parts = s.parts := by rw [← h.device]
theorem State.OnlyGroup.launchesEq {s t : State} (h : s.OnlyGroup t) : t.launches = s.launches := by rw [← h.device]
theorem State.OnlyGroup.freshEq {s t : State} (h : s.OnlyGroup t) : t.fresh = s.fresh := by rw [← h.device]

section ScalarDone
variable {s t : State} {sw : Bool} {rd : SReg} {x : Word} {late : List OutRes} {pc : Word}

theorem State.ScalarDone.lantern (h : s.ScalarDone t sw rd x late pc) : t.grp.lantern = s.grp.lantern := by rw [← h.rest]
theorem State.ScalarDone.lid (h : s.ScalarDone t sw rd x late pc) : t.grp.lid = s.grp.lid := by rw [← h.rest]

/-- A stream runs as usual after a scalar instruction of its own. -/
theorem State.ScalarDone.plain (h : s.ScalarDone t sw rd x late pc) (hp : s.plain false) : t.plain false := by
  obtain ⟨hlan, hstep⟩ := hp
  have hlid : (t.grpAt s.core s.slot).lid = (s.grpAt s.core s.slot).lid := by
    simpa only [State.grp, h.only.coreId, h.only.slotId] using h.lid
  refine ⟨h.lantern.trans hlan, ?_⟩
  rw [h.only.coreId, h.only.slotId, State.stepped_congr (s := s) _ _ _ hlid h.only.partsEq h.only.launchesEq, hstep]

/-- A fixed-latency scalar instruction returns no result: a register that waited still waits, and the unspecified values are the same. -/
theorem State.ScalarDone.unreturned {r : SReg} (h : s.ScalarDone t sw rd x [] pc) (hs : s.Unreturned r) : t.Unreturned r ∧ t.fresh = s.fresh := by
  have hp := h.plain hs.plain
  have ho : t.grp.outs = s.grp.outs := by rw [h.outs, List.append_nil]
  exact ⟨⟨hp, (Group.outS_congr hs.plain.1 hp.1 ho _).trans hs.late⟩, h.only.freshEq⟩

end ScalarDone

theorem li_unreturned {s t : State} {rd : SReg} {sw : Bool} {i : BitVec 18} (hs : s.Unreturned rd) (h : exec (.li sw rd i) s = .next t) :
    t.Unreturned rd ∧ t.fresh = s.fresh := by
  obtain rfl : s.sCalc sw rd [] (i.signExtend 64) = t := Host.Outcome.next.inj h
  exact (State.sCalc_done hs.plain sw rd [] _ rfl).unreturned hs

theorem lih_unreturned {s t : State} {rd : SReg} {sw : Bool} {i : BitVec 18} (hs : s.Unreturned rd) (h : exec (.lih sw rd i) s = .next t) :
    t.Unreturned rd ∧ t.fresh = s.fresh := by
  obtain rfl : s.sCalc sw rd [rd] ((s.rS rd <<< 18) ||| i.zeroExtend 64) = t := Host.Outcome.next.inj h
  exact (State.sCalc_done hs.plain sw rd [rd] _ hs.sPoi).unreturned hs

/-- The four words of a constant leave a register that waits for a result with its unspecified value, whatever their immediates. -/
theorem rS_constant_of_unreturned {s t u v w : State} {rd : SReg} {i a b c : BitVec 18} (hs : s.Unreturned rd) (hr : rd ≠ 0)
    (ht : exec (.li false rd i) s = .next t) (hu : exec (.lih false rd a) t = .next u) (hv : exec (.lih false rd b) u = .next v)
    (hw : exec (.lih false rd c) v = .next w) : w.rS rd = Config.freeWord s.fresh rd.toNat := by
  obtain ⟨ht, et⟩ := li_unreturned hs ht
  obtain ⟨hu, eu⟩ := lih_unreturned ht hu
  obtain ⟨hv, ev⟩ := lih_unreturned hu hv
  obtain ⟨hw, ew⟩ := lih_unreturned hv hw
  rw [hw.rS hr, ew, ev, eu, et]

/-- The state after `sfrcp.d s9, s1` without S, from reset: 1 / 0 is the infinity that s9 waits for. -/
def afterSfrcp : State := State.reset.sLate false [.s 9 0x7FF0000000000000] false false

theorem exec_sfrcp_reset : exec (.sfrcp false true .rn 9 1) State.reset = .next afterSfrcp := rfl

theorem afterSfrcp_unreturned : afterSfrcp.Unreturned 9 := ⟨⟨rfl, rfl⟩, rfl⟩

end Sys2Proof.Machine

/-- Refutes O2: after `sfrcp.d s9, s1` without S, which the model runs from reset (`exec_sfrcp_reset`), no four words let s9 read as anything but
the value that R42 leaves unspecified, so never as its complement. -/
theorem not_bitFieldResults : ¬ Obligations.BitFieldResults := by
  unfold Obligations.BitFieldResults
  intro h
  obtain ⟨-, -, constant⟩ := h afterSfrcp afterSfrcp_unreturned.plain
  obtain ⟨i, a, b, c, t, u, v, w, ht, hu, hv, hw, hx⟩ := constant 9 (~~~Config.freeWord afterSfrcp.fresh (9 : SReg).toNat) (by decide)
  rw [rS_constant_of_unreturned afterSfrcp_unreturned (by decide) ht hu hv hw] at hx
  simp at hx

end

section
/-!
O33 (R82 to R85): `dsh`, `bfe`, `bfi`, `brev`, `perm` and `plut` give the bits of the rules. The values are first taken bit by bit, each from the number that the model
computes; a lane instruction that writes one vector register completes by `State.lMap_done`.
-/
open Sys2Proof Sys2Proof.Machine

namespace Sys2Proof.Machine

/-! Bits of numbers that are put together from parts. -/

theorem testBit_maskOf (ns : List Nat) (k : Nat) : (maskOf ns).testBit k = decide (k ∈ ns) := by
  induction ns with
  | nil => simp [maskOf]
  | cons n ns ih =>
    rw [maskOf, Nat.testBit_or, ih, Nat.one_shiftLeft, Nat.testBit_two_pow]
    simp [eq_comm, Bool.decide_or]

theorem testBit_leNat (bs : List Byte) (k : Nat) : (leNat bs).testBit k = (bs.getD (k / 8) 0).getLsbD (k % 8) := by
  induction bs generalizing k with
  | nil => simp [leNat]
  | cons b bs ih =>
    rw [leNat, Nat.add_comm, show 256 = 2 ^ 8 from rfl, Nat.testBit_two_pow_mul_add _ b.isLt]
    split
    · next h => rw [Nat.div_eq_of_lt h, Nat.mod_eq_of_lt h, BitVec.testBit_toNat, List.getD_cons_zero]
    · next h =>
      obtain ⟨j, rfl⟩ := Nat.exists_eq_add_of_le (Nat.le_of_not_lt h)
      rw [ih, Nat.add_sub_cancel_left, Nat.add_mod_left, Nat.add_div_left _ (by decide), List.getD_cons_succ]

/-- Bits of a 32-bit value given by its four bytes. -/
theorem getLsbD_ofBytes32 (g : Nat → Byte) {k : Nat} (hk : k < 32) :
    (ofBytes32 ((List.range 4).map g)).getLsbD k = (g (k / 8)).getLsbD (k % 8) := by
  have hj : k / 8 < 4 := by omega
  rw [ofBytes32, BitVec.getLsbD_ofNat, testBit_leNat]
  simp [hk, hj]

theorem getLsbD_byteOf {n : Nat} (a : BitVec n) (j : Nat) {i : Nat} (hi : i < 8) : (byteOf a j).getLsbD i = a.getLsbD (8 * j + i) := by
  rw [byteOf, BitVec.getLsbD_ofNat, Nat.testBit_div_two_pow, BitVec.testBit_toNat]
  simp [hi, Nat.add_comm]

theorem pack_append (xs ys : List (Nat × Nat)) : plutNib.pack (xs ++ ys) = plutNib.pack xs + plutNib.pack ys := by
  induction xs with
  | nil => simp [plutNib.pack]
  | cons x xs ih => rw [List.cons_append, plutNib.pack, ih, plutNib.pack, Nat.add_assoc]

/-- Bits of a number given by `n` nibbles, as the nibble form of `plut` puts them together. -/
theorem testBit_pack_nibbles (g : Nat → Nat) (hg : ∀ i, g i < 16) (n k : Nat) :
    (plutNib.pack ((List.range n).map fun i => (4 * i, g i))).testBit k = (decide (k < 4 * n) && (g (k / 4)).testBit (k % 4)) := by
  induction n generalizing k with
  | zero => simp [plutNib.pack]
  | succ n ih =>
    have hlt : plutNib.pack ((List.range n).map fun i => (4 * i, g i)) < 2 ^ (4 * n) :=
      Nat.lt_pow_two_of_testBit _ fun j hj => by rw [ih, decide_eq_false (Nat.not_lt.mpr hj), Bool.false_and]
    rw [List.range_succ, List.map_append, pack_append, Nat.add_comm]
    simp only [List.map_cons, List.map_nil, plutNib.pack, Nat.add_zero]
    rw [Nat.mul_comm, Nat.testBit_two_pow_mul_add _ hlt, ih]
    by_cases hk : k < 4 * n
    · simp [hk, show k < 4 * (n + 1) by omega]
    · rw [if_neg hk]
      by_cases hk' : k < 4 * (n + 1)
      · rw [decide_eq_true hk', Bool.true_and, show k / 4 = n by omega, show k % 4 = k - 4 * n by omega]
      · have h4 : 2 ^ 4 ≤ 2 ^ (k - 4 * n) := Nat.pow_le_pow_right (by decide) (by omega)
        rw [decide_eq_false hk', Bool.false_and, Nat.testBit_lt_two_pow (Nat.lt_of_lt_of_le (hg n) h4)]

/-- Two registers side by side are one number. -/
theorem testBit_pair (a b : BitVec 32) (j : Nat) : (b.toNat * 2 ^ 32 + a.toNat).testBit j = if j < 32 then a.getLsbD j else b.getLsbD (j - 32) := by
  rw [Nat.mul_comm, Nat.testBit_two_pow_mul_add _ a.isLt, BitVec.testBit_toNat, BitVec.testBit_toNat]

/-! Bits of the results. -/

theorem getLsbD_brev (a : BitVec 32) {k : Nat} (hk : k < 32) : (brev a).getLsbD k = a.getLsbD (31 - k) := by
  rw [brev, BitVec.getLsbD_ofNat, testBit_maskOf]
  simp [hk]

theorem getLsbD_dshOf_right (a b c : BitVec 32) {k : Nat} (hk : k < 32) :
    (dshOf false a b c).getLsbD k = if k + c.toNat % 64 < 32 then a.getLsbD (k + c.toNat % 64) else b.getLsbD (k + c.toNat % 64 - 32) := by
  simp only [dshOf, Bool.false_eq_true, if_false]
  rw [BitVec.getLsbD_ofNat, Nat.testBit_div_two_pow, testBit_pair, decide_eq_true hk, Bool.true_and]

theorem getLsbD_dshOf_left (a b c : BitVec 32) {k : Nat} (hk : k < 32) :
    (dshOf true a b c).getLsbD k = (decide (c.toNat % 64 ≤ 32 + k) &&
      if 32 + k - c.toNat % 64 < 32 then a.getLsbD (32 + k - c.toNat % 64) else b.getLsbD (32 + k - c.toNat % 64 - 32)) := by
  have h64 : k + 32 < 64 := by omega
  simp only [dshOf, if_true]
  rw [BitVec.getLsbD_ofNat, Nat.testBit_div_two_pow, Nat.testBit_mod_two_pow, Nat.testBit_mul_two_pow, testBit_pair, decide_eq_true hk,
    decide_eq_true h64, Bool.true_and, Bool.true_and, Nat.add_comm k 32]

/-- The field of `bext` and `bfe` as a value of its own width: the source moved down, and cut or extended to `len` bits (R60, R83). -/
def fieldBits {n : Nat} (sx : Bool) (a : BitVec n) (pos len : Nat) : BitVec len :=
  if sx then (a.sshiftRight pos).signExtend len else (a >>> pos).setWidth len

theorem toNat_fieldBits {n : Nat} (sx : Bool) (a : BitVec n) (pos len : Nat) :
    ((fieldBits sx a pos len).toNat : Int) = (if sx then a.toInt else a.toNat) / 2 ^ pos % 2 ^ len := by
  cases sx with
  | false => simp [fieldBits, Nat.shiftRight_eq_div_pow]
  | true =>
    simp only [fieldBits, if_true, BitVec.signExtend, BitVec.toNat_ofInt, BitVec.toInt_sshiftRight, Int.shiftRight_eq_div_pow]
    push_cast
    exact Int.toNat_of_nonneg (Int.emod_nonneg _ (Int.pow_ne_zero (by decide)))

theorem getLsbD_fieldBits {n : Nat} (sx : Bool) (a : BitVec n) (pos : Nat) {len k : Nat} (hk : k < len) :
    (fieldBits sx a pos len).getLsbD k = if pos + k < n then a.getLsbD (pos + k) else sx && a.getLsbD (n - 1) := by
  cases sx with
  | false =>
    simp only [fieldBits, Bool.false_eq_true, if_false, Bool.false_and, BitVec.getLsbD_setWidth, BitVec.getLsbD_ushiftRight, decide_eq_true hk, Bool.true_and]
    split
    · rfl
    · next h => exact BitVec.getLsbD_of_ge _ _ (Nat.le_of_not_lt h)
  | true =>
    rw [fieldBits, if_pos rfl, BitVec.getLsbD_signExtend, BitVec.getLsbD_sshiftRight, BitVec.msb_sshiftRight, BitVec.msb_eq_getLsbD_last,
      decide_eq_true hk, Bool.true_and, Bool.true_and]
    by_cases hn : k < n
    · simp [hn]
    · rw [if_neg hn, if_neg (by omega)]

/-- The model's arithmetic on the field is its extension to the register. -/
theorem fieldGet_eq_extend {n : Nat} (sx : Bool) (a : BitVec n) (pos : Nat) {len : Nat} (hl : len ≠ 0) :
    fieldGet sx a pos len = if sx then (fieldBits sx a pos len).signExtend n else (fieldBits sx a pos len).setWidth n := by
  simp only [fieldGet, if_neg hl, ← toNat_fieldBits]
  generalize fieldBits sx a pos len = v
  have hu : BitVec.ofInt n v.toNat = v.setWidth n := by rw [BitVec.ofInt_natCast, BitVec.ofNat_toNat]
  cases sx with
  | false => simp [hu]
  | true =>
    have h2 : 2 ^ len = 2 * 2 ^ (len - 1) := by rw [← Nat.pow_succ', Nat.succ_eq_add_one, Nat.sub_add_cancel (Nat.pos_of_ne_zero hl)]
    have hsign : (2 : Int) ^ (len - 1) ≤ v.toNat ↔ ¬ 2 * v.toNat < 2 ^ len := by
      rw [h2]; norm_cast; omega
    simp only [Bool.true_and, decide_eq_true_eq, if_true, ge_iff_le, hsign, BitVec.signExtend, BitVec.toInt_eq_toNat_cond]
    rw [apply_ite (BitVec.ofInt n), ite_not, Int.natCast_pow, Int.cast_ofNat_Int]

theorem getLsbD_fieldGet {n : Nat} (sx : Bool) (a : BitVec n) (pos len : Nat) {k : Nat} (hk : k < n) :
    (fieldGet sx a pos len).getLsbD k = Spec.bextBit sx a pos len k := by
  by_cases hl : len = 0
  · simp [fieldGet, Spec.bextBit, hl]
  · have extended : (fieldGet sx a pos len).getLsbD k =
        if k < len then (fieldBits sx a pos len).getLsbD k else sx && (fieldBits sx a pos len).getLsbD (len - 1) := by
      rw [fieldGet_eq_extend sx a pos hl]
      cases sx with
      | false =>
        rw [if_neg Bool.false_ne_true, BitVec.getLsbD_setWidth, decide_eq_true hk, Bool.true_and, Bool.false_and]
        split
        · rfl
        · next h => exact BitVec.getLsbD_of_ge _ _ (Nat.le_of_not_lt h)
      | true => rw [if_pos rfl, BitVec.getLsbD_signExtend, decide_eq_true hk, Bool.true_and, BitVec.msb_eq_getLsbD_last, Bool.true_and]
    rw [extended, getLsbD_fieldBits sx a pos (Nat.sub_one_lt hl), Spec.bextBit, if_neg hl]
    exact ite_congr rfl (getLsbD_fieldBits sx a pos) fun _ => rfl

theorem getLsbD_fieldPut {n : Nat} (old a : BitVec n) (pos len : Nat) {k : Nat} (hk : k < n) :
    (fieldPut old a pos len).getLsbD k = Spec.binsBit old a pos len k := by
  have hm : ((2 ^ len - 1) * 2 ^ pos).testBit k = decide (pos ≤ k ∧ k < pos + len) := by
    rw [Nat.testBit_mul_two_pow, Nat.testBit_two_pow_sub_one, ← Bool.decide_and]
    exact decide_eq_decide.mpr (by omega)
  have ha : (a.toNat % 2 ^ len * 2 ^ pos).testBit k = (decide (pos ≤ k ∧ k < pos + len) && a.getLsbD (k - pos)) := by
    rw [Nat.testBit_mul_two_pow, Nat.testBit_mod_two_pow, BitVec.testBit_toNat, ← Bool.and_assoc, ← Bool.decide_and]
    exact congrArg (· && _) (decide_eq_decide.mpr (by omega))
  rw [fieldPut, BitVec.getLsbD_or, BitVec.getLsbD_and, BitVec.getLsbD_not, BitVec.getLsbD_ofNat, BitVec.getLsbD_ofNat, hm, ha, Spec.binsBit]
  by_cases h : pos ≤ k ∧ k < pos + len <;> simp [h, hk]

/-- A byte of eight equal bits, as `perm` fills it. -/
theorem getLsbD_fill (y : Bool) {i : Nat} (hi : i < 8) : (if y then (0xFF : Byte) else 0).getLsbD i = y := by
  cases y with
  | false => exact BitVec.getLsbD_zero
  | true => rw [if_pos rfl, show (0xFF : Byte) = BitVec.allOnes 8 from rfl, BitVec.getLsbD_allOnes, decide_eq_true hi]

theorem getLsbD_permOf (a b c : BitVec 32) {k : Nat} (hk : k < 32) :
    let q := c.toNat / 2 ^ (4 * (k / 8)) % 16
    let j := 8 * (q % 8) + if 8 ≤ q then 7 else k % 8
    (permOf a b c).getLsbD k = if j < 32 then a.getLsbD j else b.getLsbD (j - 32) := by
  have h8 : k % 8 < 8 := Nat.mod_lt _ (by decide)
  simp only [permOf]
  rw [getLsbD_ofBytes32 _ hk]
  by_cases hq : 8 ≤ c.toNat / 2 ^ (4 * (k / 8)) % 16
  · simp only [if_pos hq]
    rw [getLsbD_fill _ h8, getLsbD_byteOf _ _ (by decide), BitVec.getLsbD_append]
  · simp only [if_neg hq]
    rw [getLsbD_byteOf _ _ h8, BitVec.getLsbD_append]

theorem getLsbD_plutNib (a : BitVec 32) (b : Word) {k : Nat} (hk : k < 32) :
    (plutNib a b).getLsbD k = b.getLsbD (4 * (a.toNat / 2 ^ (4 * (k / 4)) % 16) + k % 4) := by
  have h4 : k % 4 < 4 := Nat.mod_lt _ (by decide)
  rw [plutNib, BitVec.getLsbD_ofNat, testBit_pack_nibbles _ fun i => Nat.mod_lt _ (by decide), decide_eq_true hk, Bool.true_and,
    Bool.true_and, show 16 = 2 ^ 4 from rfl, Nat.testBit_mod_two_pow, decide_eq_true h4, Bool.true_and,
    Nat.testBit_div_two_pow, BitVec.testBit_toNat, Nat.add_comm (k % 4)]

/-- The nibble of an index byte that the byte forms of `plut` look up: its low one, or its high one under `.hi`. -/
theorem nibble_of_byteOf (hi : Bool) (a : BitVec 32) (i : Nat) :
    (byteOf a i).toNat / (if hi then 16 else 1) % 16 = a.toNat / 2 ^ (4 * (2 * i + if hi then 1 else 0)) % 16 := by
  have hpow : 2 ^ (8 * i + 4) = 2 ^ (8 * i) * 16 := Nat.pow_add 2 (8 * i) 4
  rw [byteOf, BitVec.toNat_ofNat]
  cases hi with
  | false =>
    rw [if_neg Bool.false_ne_true, if_neg Bool.false_ne_true, Nat.div_one, Nat.add_zero, ← Nat.mul_assoc]
    exact Nat.mod_mod_of_dvd _ (by decide)
  | true =>
    rw [if_pos rfl, if_pos rfl, show 4 * (2 * i + 1) = 8 * i + 4 by omega, hpow, ← Nat.div_div_eq_div_mul]
    omega

theorem getLsbD_plutByte (hi : Bool) (a : BitVec 32) (b c : Word) {k : Nat} (hk : k < 32) :
    let j := 8 * (a.toNat / 2 ^ (4 * (2 * (k / 8) + if hi then 1 else 0)) % 16) + k % 8
    (plutByte hi a b c).getLsbD k = if j < 64 then b.getLsbD j else c.getLsbD (j - 64) := by
  simp only [plutByte]
  rw [getLsbD_ofBytes32 _ hk, getLsbD_byteOf _ _ (Nat.mod_lt _ (by decide)), nibble_of_byteOf, BitVec.getLsbD_append]

/-! Completion. -/

/-- Outside lantern mode the guard alone says which threads execute (R38). -/
theorem State.guarded_eq_mask {s : State} (hl : s.grp.lantern = none) (h : LHdr) (f : List Nat) : s.guarded h f = Spec.mask s h f := by
  simp only [State.guarded, Spec.mask, Group.pDark, hl, Bool.not_false, Bool.and_true]

/-- A lane instruction of fixed latency that writes one vector register of every executing thread completes. -/
theorem State.lMap_vec_done {s : State} {h : LHdr} {srcs : List (Sel × Bool)} {l : Word} {f : List Nat} (hi : Spec.Issues s h srcs (fun _ => []) l f)
    (dark : Nat → Bool) (d : VReg) (x : Nat → BitVec 32) :
    s.LaneDone (s.lMap h false (s.anyBad srcs) dark fun t => [.v t d.toNat (x t)]) h.sw f ((Spec.mask s h f).map fun t => .v t d.toNat (x t)) [] (lnext l) := by
  obtain ⟨plain, active, guard, sound, -⟩ := hi
  rw [List.map_eq_flatMap, ← State.guarded_eq_mask plain.1]
  refine State.lMap_done plain active guard (fun t ht => ⟨?_, rfl⟩) fun r hr => ?_
  · rw [State.guarded_eq_mask plain.1] at ht
    exact List.any_eq_false.mpr fun y hy => by simp [sound t ht y hy]
  · rw [← List.map_eq_flatMap] at hr
    obtain ⟨t, -, rfl⟩ := List.mem_map.mp hr
    exact d.isLt

/-- `i` runs as a fixed-latency computation of one vector register in each executing thread, whose values have the bits that `c` gives. -/
def State.Computes (s : State) (i : Instr) (c : Spec.LBits) : Prop :=
  ∃ (dark : Nat → Bool) (x : Nat → BitVec 32),
    exec i s = .next (s.lMap c.h false (s.anyBad c.srcs) dark fun t => [.v t c.d.toNat (x t)]) ∧ ∀ t, ∀ k < 32, (x t).getLsbD k = c.bit t k

/-- Each bit instruction computes the bits of its rule (R82 to R85). -/
theorem State.computes_of_bitLane {i : Instr} {s : State} {c : Spec.LBits} (hc : Spec.bitLane i s = some c) : s.Computes i c := by
  unfold Spec.bitLane at hc
  split at hc
  next h d a b c m => -- `dsh` right
    cases hc
    exact ⟨_, fun t => dshOf false (s.op32 m t a) (s.op32 m t b) (s.op32 m t c), rfl, fun t k hk => getLsbD_dshOf_right _ _ _ hk⟩
  next h d a b c m => -- `dsh` left
    cases hc
    exact ⟨_, fun t => dshOf true (s.op32 m t a) (s.op32 m t b) (s.op32 m t c), rfl, fun t k hk => getLsbD_dshOf_left _ _ _ hk⟩
  next h sx d a b m => -- `bfe`
    cases hc
    exact ⟨_, fun t => bfeOf sx (s.op32 m t a) (s.op32 m t b), rfl, fun t k hk => getLsbD_fieldGet _ _ _ _ hk⟩
  next h d a b c m => -- `bfi`
    cases hc
    exact ⟨_, fun t => bfiOf (s.op32 m t a) (s.op32 m t b) (s.op32 m t c), rfl, fun t k hk => getLsbD_fieldPut _ _ _ _ hk⟩
  next h d a m => -- `brev`
    cases hc
    exact ⟨_, fun t => brev (s.op32 m t a), rfl, fun t k hk => getLsbD_brev _ hk⟩
  next h d a b c m => -- `perm`
    cases hc
    exact ⟨_, fun t => permOf (s.op32 m t a) (s.op32 m t b) (s.op32 m t c), rfl, fun t k hk => getLsbD_permOf _ _ _ hk⟩
  next h d a b c m => -- `plut`, nibbles
    cases hc
    exact ⟨_, fun t => plutNib (s.op32 m t a) (s.op64 m t b), rfl, fun t k hk => getLsbD_plutNib _ _ hk⟩
  next h form d a b c m not_nib => -- `plut`, bytes
    cases hc
    cases form with
    | nib => exact absurd rfl not_nib
    | b => exact ⟨_, fun t => plutByte false (s.op32 m t a) (s.op64 m t b) (s.op64 m t c), rfl, fun t k hk => getLsbD_plutByte false _ _ _ hk⟩
    | bhi => exact ⟨_, fun t => plutByte true (s.op32 m t a) (s.op64 m t b) (s.op64 m t c), rfl, fun t k hk => getLsbD_plutByte true _ _ _ hk⟩
  next => cases hc -- no other instruction

/-- `lnop` reads no guard but p0, which is never poisoned, and is done (R82). -/
theorem exec_lnop_done {s : State} {l : Word} {f : List Nat} (hp : s.plain true) (ha : s.grp.active = some (l, f)) (sw : Bool) :
    ∃ t, exec (.lnop sw) s = .next t ∧ s.LaneDone t sw f [] [] (lnext l) := by
  have hg : s.guardOk ⟨sw, false, 0⟩ f := fun _ _ => rfl
  have done := State.lDone_done hp sw ⟨l, f, s.guarded ⟨sw, false, 0⟩ f, sw, s.grp.stays⟩ rfl
  exact ⟨_, congrArg Host.Outcome.next (State.lane_eq ha hg), done⟩

end Sys2Proof.Machine

/-- Settles O33: each bit instruction writes in every executing thread the value whose bits its rule gives. -/
theorem laneBitResults : Obligations.LaneBitResults := by
  unfold Obligations.LaneBitResults
  refine ⟨fun i s c l f hc issues => ?_, fun s sw l f plain active => exec_lnop_done plain active sw⟩
  obtain ⟨dark, x, hexec, bits⟩ := State.computes_of_bitLane hc
  exact ⟨_, x, hexec, State.lMap_vec_done issues dark c.d x, fun t _ k hk => bits t k hk⟩

end
